-- ==== Sys2Proof/Word.lean ====
section
/-! DEFINITION. The plain value types of the 2610: characters, keys of the dictionary, times, numbers and positions
(overview sections 3.1 to 3.4). -/

namespace Sys2Proof

/-- A byte of a service frame. -/
abbrev Byte := BitVec 8

/-- A character place; text uses the codes 0x20 to 0x7E (overview 3.3). -/
abbrev Ch := BitVec 8

/-- A text: its characters in reading order. -/
abbrev Text := List Ch

/-- A chord: bit i is set when key i is in it; L1 is bit 0 and N bit 22 (overview 3.4). -/
abbrev Chord := BitVec 23

/-- A key of the dictionary: its chord values, first chord first (overview 3.4). A request may carry values that are no
chord's, so the values are numbers. -/
abbrev Key := List Nat

/-- Link time: a 32-bit count of milliseconds (overview 3.2). -/
abbrev LinkTime := BitVec 32

/-- A station number, 0 to 7. -/
abbrev Station := Fin 8

/-- A session id; 0 is no session. -/
abbrev SessionId := BitVec 16

/-- An epoch number. -/
abbrev Epoch := BitVec 16

/-- A round number. -/
abbrev Round := BitVec 16

/-- An attribute set: bit 0 ATTACH-LEFT, 1 ATTACH-RIGHT, 2 CAP-NEXT, 3 LOWER-NEXT, 4 PARA, 5 SUPPRESS (chapter 11). -/
abbrev Attrs := BitVec 6

/-- A position of the record: a record line number and a column (overview 3.1). -/
structure Pos where
  rln : Nat
  col : Nat
deriving DecidableEq, Repr

/-- The role strap (R192). -/
inductive Role where
  | writer
  | display
deriving DecidableEq, Repr

end Sys2Proof
end

