-- ==== Sys2Proof/Syntax.lean ====
section
/-! DEFINITION. The commands of the 2610: one constructor per row of spec/opcode_table.json, with the operands each one
brings from outside (levels of lines, cells, frames) and what the physical store answers to it. -/

namespace Sys2Proof

/-- The five straps (R192). -/
structure Straps where
  station : Station
  role : Role
  maintenance : Bool
deriving DecidableEq, Repr

/-- What the 7 check bits of a store word say of its 32 data bits (overview 3.5, R67; log 9). -/
inductive Check where
  /-- the check bits read erased -/
  | erased
  /-- they agree with the data -/
  | agrees
  /-- they disagree in a way the code corrects; `bits` is then the corrected value -/
  | oneWrong
  /-- they disagree in a way the code only detects -/
  | twoWrong
deriving DecidableEq, Repr

/-- A word of the store: 32 data bits and its check bits (R62, R205). -/
structure StoreWord where
  bits : BitVec 32
  check : Check
deriving DecidableEq, Repr

/-- What the store's cells answer during one command (log 7, log 8). Each programming operation takes the next list of
`prog`: what the word shows after each pulse, a missing one showing the target. Each erase pulse takes the next list of
`erase`: the words of the sector still not erased after it, a missing list being the whole sector erased. -/
structure StoreScript where
  prog : List (List StoreWord)
  erase : List (List (BitVec 12 × StoreWord))
deriving DecidableEq, Repr

/-- A change that no block makes: a store word that has weakened, a cache line whose stored bits have flipped (log 6). -/
inductive Upset where
  | storeWord (addr : Nat) (w : StoreWord)
  | cacheParity (set way : Nat)
deriving DecidableEq, Repr

/-- What happens in a millisecond beside the samples: whether the start scan has read the configuration record since the
tick before (R193; log 87), and the upsets (log 6). -/
structure TickEvents where
  configRead : Bool
  upsets : List Upset
deriving DecidableEq, Repr

/-- How a received word is judged (overview 3.5). -/
inductive RxClass where
  | clean
  | corrected
  | uncorrectable
deriving DecidableEq, Repr

/-- One received word: its value (the corrected value of a corrected word) and its class. -/
structure RxWord where
  bits : BitVec 32
  cls : RxClass
deriving DecidableEq, Repr

/-- One whole received cell: four words (R133). -/
structure RxCell where
  w0 : RxWord
  w1 : RxWord
  w2 : RxWord
  w3 : RxWord
deriving DecidableEq, Repr

/-- The six configuration fields as WRITE-CONFIG carries them, 16 bits each (R205, R206). -/
structure ConfigFields where
  lineWidth : BitVec 16
  debounce : BitVec 16
  settle : BitVec 16
  handoff : BitVec 16
  rows : BitVec 16
  reviewIdle : BitVec 16
deriving DecidableEq, Repr

/-- The commands. A service-port command is one transaction: its tag, its body, and the bytes the host clocks in it
(at least the frame's own). -/
inductive Instr where
  /-- RESET (R193): the straps found, and the words a reset inside a step left torn (R76). -/
  | reset (straps : Straps) (torn : List (Nat × StoreWord))
  /-- SCAN_COMPLETE (R88) -/
  | scanComplete (script : StoreScript)
  /-- KEY_DEBOUNCED (R1) -/
  | keyDebounced
  /-- RELIEF_PRESS (R157) -/
  | reliefPress
  /-- UP_PRESS (R183) -/
  | upPress
  /-- DOWN_PRESS (R183) -/
  | downPress
  /-- LIVE_PRESS (R184) -/
  | livePress
  /-- MARK_PRESS (R187) -/
  | markPress
  /-- SETTLE_EXPIRY (R27) -/
  | settleExpiry
  /-- TAKE_STROKE (R19) -/
  | takeStroke
  /-- OUTBOUND_SPACE_FREE (R36) -/
  | outboundSpaceFree
  /-- SERVE_LOOKUP (R52) -/
  | serveLookup
  /-- SERVE_DEFINE (R99) -/
  | serveDefine (script : StoreScript)
  /-- SERVE_RETIRE (R101) -/
  | serveRetire (script : StoreScript)
  /-- SERVE_REPAIR (R104) -/
  | serveRepair (script : StoreScript)
  /-- COMPACT_SELECT (R105) -/
  | compactSelect (script : StoreScript)
  /-- COMPACT_COPY (R106) -/
  | compactCopy (script : StoreScript)
  /-- COMPACT_SEAL (R108) -/
  | compactSeal (script : StoreScript)
  /-- COMPACT_RETIRE_VICTIM (R109) -/
  | compactRetireVictim (script : StoreScript)
  /-- PREZERO_WORD (R74) -/
  | prezeroWord (script : StoreScript)
  /-- ERASE_PULSE (R75) -/
  | erasePulse (script : StoreScript)
  /-- FORMAT_SECTOR (R75) -/
  | formatSector (script : StoreScript)
  /-- SERVE_READ_ENTRY (R85) -/
  | serveReadEntry
  /-- SERVE_LOAD_ENTRY (R77) -/
  | serveLoadEntry (script : StoreScript)
  /-- SERVE_PROTECT (R81) -/
  | serveProtect (script : StoreScript)
  /-- SERVE_WRITE_CONFIG (R83) -/
  | serveWriteConfig (script : StoreScript)
  /-- STATUS (R199) -/
  | status (tag : Byte) (clocks : Nat)
  /-- READ_ATTENTION (R202) -/
  | readAttention (tag : Byte) (clocks : Nat)
  /-- MASK_ATTENTION (R202) -/
  | maskAttention (tag : Byte) (clocks : Nat) (mask : BitVec 16)
  /-- ACK_ATTENTION (R202) -/
  | ackAttention (tag : Byte) (clocks : Nat) (causes : BitVec 16) (count : Byte)
  /-- DEFINE (R91) -/
  | define (tag : Byte) (clocks : Nat) (key : Key) (attrs : Attrs) (text : Text)
  /-- RETIRE (R91) -/
  | retire (tag : Byte) (clocks : Nat) (key : Key)
  /-- READ_ENTRY (R85) -/
  | readEntry (tag : Byte) (clocks : Nat) (key : Key)
  /-- OPEN_SESSION (R154) -/
  | openSession (tag : Byte) (clocks : Nat)
  /-- CLOSE_SESSION (R156) -/
  | closeSession (tag : Byte) (clocks : Nat)
  /-- READ_JOURNAL (R15) -/
  | readJournal (tag : Byte) (clocks : Nat) (count : Byte)
  /-- READ_RECORD (R127) -/
  | readRecord (tag : Byte) (clocks : Nat) (first : BitVec 24) (count : Byte)
  /-- READ_MARKS (R190) -/
  | readMarks (tag : Byte) (clocks : Nat)
  /-- READ_FAULT (R84) -/
  | readFault (tag : Byte) (clocks : Nat)
  /-- CLEAR_FAULT (R84) -/
  | clearFault (tag : Byte) (clocks : Nat)
  /-- ERASE_BASE (R78) -/
  | eraseBase (tag : Byte) (clocks : Nat)
  /-- LOAD_ENTRY (R77) -/
  | loadEntry (tag : Byte) (clocks : Nat) (key : Key) (attrs : Attrs) (text : Text)
  /-- WRITE_CONFIG (R83) -/
  | writeConfig (tag : Byte) (clocks : Nat) (fields : ConfigFields)
  /-- PROTECT (R81) -/
  | protect (tag : Byte) (clocks : Nat)
  /-- UNPROTECT (R82) -/
  | unprotect (tag : Byte) (clocks : Nat)
  /-- POLL (R196): a transaction of that many bytes, with no frame -/
  | poll (clocks : Nat)
  /-- FRAME_REJECTED (R197): every byte the host clocked in -/
  | frameRejected (bytes : List Byte)
  /-- BEACON_RECEIVED (R143): both cells -/
  | beaconReceived (first second : RxCell)
  /-- HEADER_RECEIVED (R142) -/
  | headerReceived (cell : RxCell)
  /-- APPEND_RECEIVED (R122): both cells -/
  | appendReceived (first second : RxCell)
  /-- BREAK_RECEIVED (R123) -/
  | breakReceived (cell : RxCell)
  /-- CUT_RECEIVED (R124) -/
  | cutReceived (cell : RxCell)
  /-- PASS_RECEIVED (R160) -/
  | passReceived (cell : RxCell)
  /-- GAP_RECEIVED (R175) -/
  | gapReceived (cell : RxCell)
  /-- MARK_RECEIVED (R189) -/
  | markReceived (cell : RxCell)
  /-- CELL_DISCARDED (R134) -/
  | cellDiscarded
  /-- COLLISION (R135): whether it fell before the header of the transmission was sent -/
  | collision (onHeader : Bool)
  /-- ITEM_SENT (R135) -/
  | itemSent
  /-- ABSENT_GAP_EXPIRY (R133) -/
  | absentGapExpiry
  /-- BEACON_DUE (R144) -/
  | beaconDue
  /-- QUIET_TIMER_EXPIRY (R148) -/
  | quietTimerExpiry
  /-- BACKOFF_EXPIRY (R148) -/
  | backoffExpiry
  /-- HANDOFF_QUIET_REACHED (R158) -/
  | handoffQuietReached
  /-- PASS_QUEUE (R159) -/
  | passQueue
  /-- REVIEW_IDLE_EXPIRY (R184) -/
  | reviewIdleExpiry
  /-- SCREEN_WRITE_START (R182) -/
  | screenWriteStart
  /-- SCREEN_WRITE_DONE (R182) -/
  | screenWriteDone
  /-- TICK (R132): the key lines and button lines found down, and what else happens in this millisecond. Button lines: bit
  0 RELIEF, 1 UP, 2 DOWN, 3 LIVE, 4 MARK. -/
  | tick (keys : BitVec 23) (buttons : BitVec 5) (events : TickEvents)
deriving DecidableEq, Repr

end Sys2Proof
end

