-- ==== Sys2Proof/Config.lean ====
section
/-! DEFINITION. What is fixed for the part: the principal figures of overview section 4 and of the chapters, and the
values the spec leaves open, which no proof can see. -/

namespace Sys2Proof.Config

/-- Strokes held by the Stroke Journal (R8). -/
def journalSize : Nat := 2048
/-- The number that next SN reaches when the last SN has been given (R12). -/
def snEnd : Nat := 4294967296
/-- Units held by the undo history (R34). -/
def undoSize : Nat := 32
/-- Free outbound places a hand-over awaits while publishing (R36). -/
def handOverRoom : Nat := 8
/-- Items held by the outbound queue (R169). -/
def outboundSize : Nat := 64
/-- Items held by the item log (R173). -/
def logSize : Nat := 256
/-- Items held by the reorder list (R172). -/
def reorderSize : Nat := 16
/-- MARK items held by the mark queue (R188). -/
def markQueueSize : Nat := 4
/-- Entries of the marks list (R189). -/
def marksSize : Nat := 16
/-- Lines of the Record Store (R120). -/
def recordSize : Nat := 512
/-- Characters a record line holds (R120). -/
def lineSize : Nat := 64
/-- Lines of the shadow buffer (R128). -/
def shadowSize : Nat := 4
/-- The last record line number (overview 3.1). -/
def rlnMax : Nat := 16777215
/-- The last record sequence number (overview 3.2). -/
def rsnMax : Nat := 16777215
/-- Requests held by the define queue (R91). -/
def defineQueueSize : Nat := 4
/-- Locations held by the repair list (R103). -/
def repairSize : Nat := 4
/-- Records of the session directory (R92). -/
def directorySize : Nat := 8192
/-- Outcomes held by the outcome list (R201). -/
def outcomesSize : Nat := 8
/-- Words of a sector (R62). -/
def sectorWords : Nat := 4096
/-- Words of the store: 256 sectors (R62). -/
def storeWords : Nat := 1048576
/-- The first session sector (R62). -/
def firstSession : Nat := 224
/-- The config sector (R62). -/
def configSector : Nat := 255
/-- The first word of a sector's body (R62). -/
def bodyStart : Nat := 16
/-- Pulses given before programming or erasing fails (R71, R75). -/
def pulseLimit : Nat := 16
/-- The quiet timeout in ms (R148). -/
def quietMs : Nat := 20
/-- The least time between two beacons of one timekeeper, in ms (R144). -/
def beaconMs : Nat := 5
/-- Bit times in one 1 ms tick at 4 Mbit/s (R132). -/
def bitsPerTick : Nat := 4000
/-- The longest stroke-quiet count in ms (R153). -/
def strokeQuietMax : Nat := 10000
/-- Cells of the holder's window after its header (R141). -/
def holderBudget : Nat := 16
/-- Cells of any other window after its header (R141). -/
def otherBudget : Nat := 2
/-- Cells of resends in one window (R170). -/
def resendBudget : Nat := 8
/-- The longest request length (R206). -/
def frameMax : Nat := 96

/-- Defaults of the configuration fields (R195). -/
def defaultLineWidth : Nat := 56
def defaultDebounce : Nat := 4
def defaultSettle : Nat := 300
def defaultHandoff : Nat := 3
def defaultRows : Nat := 16
def defaultReviewIdle : Nat := 30

/-- The places of the STATUS response whose code the spec does not state (log 32). -/
inductive StatusGap where
  | role (r : Role)
  | noRole
  | noReserve
  | noBeaconRound
  | noHeaderRound
  | noHolder
  | noPenState
  | noTop
  | noPendingStart
  | noReplay
deriving DecidableEq, Repr

/-- FREE VALUE. The code STATUS gives in a place where R199 and R206 name the field but state no code (log 32). -/
opaque statusCode : StatusGap → Nat

end Sys2Proof.Config
end

