-- ==== Sys2Proof/Machine/State.lean ====
section
/-! DEFINITION. The state of one 2610, block by block, and its value after reset. -/

namespace Sys2Proof.Machine

/-! ## Timebase (R132) -/

structure Clock where
  linkTime : LinkTime
  synced : Bool
deriving DecidableEq, Repr

/-! ## Key Scanner and buttons (R1 to R6, R177) -/

inductive ScanMode where
  | stopped
  | waitClear
  | idle
  | forming
deriving DecidableEq, Repr

structure Scanner where
  mode : ScanMode
  /-- keys debounced DOWN -/
  down : Chord
  /-- the debounce counter of each key, key 0 first -/
  counts : List Nat
  /-- keys whose counter reached the debounce time at the latest sample (log 11) -/
  due : Chord
  /-- Link time at that sample -/
  dueTime : LinkTime
  /-- that sample fell before the first beacon -/
  dueUnsynced : Bool
  /-- the chord being formed -/
  chord : Chord
  downTime : LinkTime
  downUnsynced : Bool
deriving DecidableEq, Repr

structure Button where
  down : Bool
  count : Nat
  /-- a press debounced and not yet taken (log 12) -/
  pressed : Bool
deriving DecidableEq, Repr

structure Buttons where
  relief : Button
  up : Button
  down : Button
  live : Button
  mark : Button
deriving DecidableEq, Repr

/-! ## Stroke Journal (R7 to R17) -/

/-- A stroke record (R7). -/
structure Stroke where
  sn : Nat
  chord : Chord
  downTime : LinkTime
  upTime : LinkTime
  retract : Bool
  unsynced : Bool
  refusedBefore : Nat
deriving DecidableEq, Repr

structure Journal where
  /-- oldest first -/
  strokes : List Stroke
  nextSn : Nat
  readPoint : Nat
  archivePoint : Nat
  /-- the pending refused count -/
  refused : Nat
  archiveLost : Nat
deriving DecidableEq, Repr

/-! ## Translator (section 2.1) -/

inductive TransMode where
  | stopped
  | scanWait
  | ready
  | looking
  | stalled
  | catchingUp
deriving DecidableEq, Repr

/-- A lookup result (R44, R45). -/
structure Answer where
  found : Bool
  text : Text
  attrs : Attrs
  ext : Bool
deriving DecidableEq, Repr

/-- The Composer's format state (section 6.1). -/
structure FormatState where
  cap : Bool
  lower : Bool
  attach : Bool
deriving DecidableEq, Repr

/-- A translation unit (R32); its first and last SN are those of its first and last stroke. -/
structure TransUnit where
  strokes : List Stroke
  text : Text
  attrs : Attrs
  time : LinkTime
  start : Pos
  before : FormatState
deriving DecidableEq, Repr

/-- What waits for outbound space (R36): a unit, or a cut with the strokes to take again after it (R30). -/
inductive HandOver where
  | unit (u : TransUnit)
  | cut (p : Pos) (fmt : FormatState) (again : List Stroke)
deriving DecidableEq, Repr

/-- Forced release (R41). -/
inductive Forced where
  | clear
  | set
  | reported
deriving DecidableEq, Repr

structure Translator where
  mode : TransMode
  /-- the candidate run, oldest first -/
  run : List Stroke
  /-- the result of each prefix of the run, shortest first -/
  results : List Answer
  retake : List Stroke
  /-- the settle timer: ms left, or stopped -/
  settle : Option Nat
  /-- the undo history, newest last -/
  undo : List TransUnit
  handOver : Option HandOver
  publishing : Bool
  forced : Forced
  discard : Bool
  replayEnd : Option Nat
  floorTime : LinkTime
  /-- the cut time of a grant not yet acted on (R37) -/
  grant : Option LinkTime
deriving DecidableEq, Repr

/-! ## Entry Cache (R47, section 3.4) -/

structure CacheLine where
  valid : Bool
  key : Key
  ans : Answer
  age : Nat
  parity : Bool
deriving DecidableEq, Repr

inductive LookupPath where
  | idle
  | held (key : Key)
  | fetching (key : Key) (stale : Bool)
deriving DecidableEq, Repr

structure Cache where
  /-- 16 sets of 4 ways -/
  sets : List (List CacheLine)
  parityCount : Nat
  path : LookupPath
deriving DecidableEq, Repr

/-! ## The store and its controller (chapters 4 and 5) -/

/-- The store's words that are not erased: (address, word), addresses rising, address = 4096 x sector + word. -/
abbrev Memory := List (Nat × StoreWord)

/-- Role and state of a sector as RAM holds it (R62, R64). `outOfUse` is a sector left alone until the next scan (R73,
R86). -/
inductive SecState where
  | unknown
  | bad
  | invalid
  | outOfUse
  | empty
  | filling
  | closed
  | free
  | active
  | full
  | copyTarget
  | released
  | config
deriving DecidableEq, Repr

/-- The account of a session sector (R94). -/
structure Account where
  appendPoint : Nat
  live : Nat
  /-- retired or dead words -/
  dead : Nat
  passedOver : Bool
deriving DecidableEq, Repr

/-- Where an entry's header word stands (R65). -/
structure Location where
  sector : Nat
  word : Nat
deriving DecidableEq, Repr

/-- A record of the session directory (R92). -/
structure DirRecord where
  key : Key
  loc : Option Location
  count : Nat
deriving DecidableEq, Repr

inductive DefOp where
  | define (key : Key) (attrs : Attrs) (text : Text)
  | retire (key : Key)
deriving DecidableEq, Repr

/-- A request of the define queue (R91). -/
structure QueuedReq where
  id : Nat
  op : DefOp
deriving DecidableEq, Repr

/-- A row of the sector key table (R79). -/
structure KeyRow where
  sector : Nat
  firstKey : Key
  slots : Nat
deriving DecidableEq, Repr

/-- The last loaded key (R77, R88): none held, held, held just before a first key, or not to be trusted. -/
inductive LastKey where
  | none
  | key (k : Key)
  | justBefore (k : Key)
  | untrusted
deriving DecidableEq, Repr

inductive FaultKind where
  | corrected
  | uncorrectable
  | programFail
  | eraseFail
deriving DecidableEq, Repr

structure FirstFault where
  sector : Nat
  word : Nat
  kind : FaultKind
  time : LinkTime
deriving DecidableEq, Repr

/-- The fault record (R84). -/
structure FaultRecord where
  first : Option FirstFault
  corrected : Nat
  uncorrectable : Nat
  programFail : Nat
  eraseFail : Nat
deriving DecidableEq, Repr

/-- How far the erase of a sector has come (R74, R75): the next word to pre-zero, the pulses given, to be formatted. The
last two are steps of UNPROTECT that follow a format (R82; log 44): the configuration record to be programmed, `again` when
the first try of it has failed, and BASE-CLEARED to be programmed. -/
inductive ErasePhase where
  | prezero (next : Nat)
  | pulses (given : Nat)
  | format
  | record (again : Bool)
  | cleared
deriving DecidableEq, Repr

/-- The direct request (R89). ERASE-BASE and UNPROTECT hold the sectors still to do, the first one in progress;
`failed` is set when the config sector went BAD (R82). With no sector left UNPROTECT stands at its fourth stage. -/
inductive Direct where
  | readEntry (key : Key)
  | loadEntry (key : Key) (attrs : Attrs) (text : Text)
  | protect
  | writeConfig (fields : ConfigFields)
  | eraseBase (todo : List Nat) (phase : ErasePhase)
  | unprotect (todo : List Nat) (phase : ErasePhase) (failed : Bool)
deriving DecidableEq, Repr

inductive CompState where
  | idle
  | select
  | copy
  | seal
  | retireVictim
  | prezero
  | erase
deriving DecidableEq, Repr

/-- How far SEAL has come (R108, section 5.9): the sequence word, the state mark, SEALED, FULL on the sector that was
ACTIVE, or the directory is next. `active` when the state the target takes is ACTIVE. -/
inductive SealStep where
  | seq
  | state
  | sealed (active : Bool)
  | full (other : Nat)
  | directory
deriving DecidableEq, Repr

/-- Compaction (section 5.9). -/
structure Compaction where
  state : CompState
  victim : Nat
  target : Nat
  targetAppend : Nat
  /-- the copy list: word in the victim, word in the target -/
  copies : List (Nat × Nat)
  /-- the next word of the victim to look at -/
  cursor : Nat
  /-- the word of the victim whose copy has failed once (R106) -/
  failed : Option Nat
  sealStep : SealStep
  /-- the sector being erased -/
  erasing : Nat
  phase : ErasePhase
deriving DecidableEq, Repr

structure Control where
  /-- 256 sectors -/
  sectors : List SecState
  /-- the 31 session sectors, sector 224 first -/
  accounts : List Account
  highestSeq : Nat
  reserve : Option Nat
  directory : List DirRecord
  /-- the define queue, oldest first -/
  queue : List QueuedReq
  nextId : Nat
  /-- the head of the queue waits for space (R100) -/
  headWaiting : Bool
  /-- the repair list, oldest first -/
  repair : List Location
  direct : Option Direct
  comp : Compaction
  keyTable : List KeyRow
  /-- the sector open for loading and its fill point -/
  openSector : Option (Nat × Nat)
  lastKey : LastKey
  baseProtected : Bool
  configRecord : Option ConfigFields
  configAppend : Nat
  fault : FaultRecord
deriving DecidableEq, Repr

/-! ## Composer and Record Store (chapter 6) -/

inductive CompMode where
  | stopped
  | shadow
  | publish
deriving DecidableEq, Repr

structure ShadowLine where
  num : Nat
  text : Text
deriving DecidableEq, Repr

structure Composer where
  mode : CompMode
  fmt : FormatState
  /-- the shadow buffer, oldest line first -/
  shadow : List ShadowLine
  /-- the epoch it publishes in -/
  epoch : Epoch
deriving DecidableEq, Repr

/-- A record line (R120). -/
structure RecLine where
  rln : Nat
  text : Text
  isOpen : Bool
  tag : Epoch
  marked : Bool
  gap : Bool
deriving DecidableEq, Repr

/-- A marks-list entry (R189). -/
structure MarkEntry where
  origin : Station
  id : Byte
  first : Nat
  last : Nat
  time : LinkTime
  flagged : Nat
deriving DecidableEq, Repr

structure Record where
  /-- oldest first -/
  lines : List RecLine
  /-- oldest first -/
  marks : List MarkEntry
deriving DecidableEq, Repr

/-! ## Items (chapter 11) -/

inductive ItemBody where
  | append (p : Pos) (text : Text)
  | brk (p : Pos)
  | cut (p : Pos)
  | pass (target : Station) (recordEnd : Pos)
deriving DecidableEq, Repr

/-- A record-stream item with an RSN; `time` is its stroke time, a PASS's cut time (R169). -/
structure Item where
  rsn : Nat
  epoch : Epoch
  time : LinkTime
  body : ItemBody
deriving DecidableEq, Repr

structure MarkItem where
  origin : Station
  id : Byte
  first : Nat
  last : Nat
deriving DecidableEq, Repr

structure GapItem where
  first : Nat
  last : Nat
  epoch : Epoch
deriving DecidableEq, Repr

/-! ## Link Controller, carrier side (chapter 7) -/

inductive LinkMode where
  | start
  | listen
  | joined
  | duplicate
  | maintenance
deriving DecidableEq, Repr

inductive TkRole where
  | following
  | backoff
  | timekeeper
deriving DecidableEq, Repr

/-- The request code of a header (R204). -/
inductive ReqCode where
  | none
  | penReq
  | openReq
  | closeReq
deriving DecidableEq, Repr

/-- A window or join header (R142). -/
structure Header where
  station : Station
  role : Role
  joined : Bool
  request : ReqCode
  applied : Nat
  need : Nat
  recordEnd : Pos
  lastStroke : LinkTime
  session : SessionId
  epoch : Epoch
deriving DecidableEq, Repr

/-- A beacon (R143). The plan is in ascending station number. -/
structure Beacon where
  timekeeper : Station
  round : Round
  time : LinkTime
  session : SessionId
  holder : Option Station
  epoch : Epoch
  startRsn : Nat
  startPos : Pos
  cut : LinkTime
  plan : List (Station × Role)
deriving DecidableEq, Repr

/-- A roster entry (R147). -/
structure RosterEntry where
  listed : Bool
  role : Option Role
  header : Option Header
  round : Round
  silent : Nat
  corrected : Nat
deriving DecidableEq, Repr

/-- The backoff timer (R148, R150): stopped, waiting for the idle pair, or running with the bit times left. -/
inductive Backoff where
  | stopped
  | awaitIdle
  | running (bits : Nat)
deriving DecidableEq, Repr

/-- The place in the round (R139). `window left`: the windows not yet over, the one in progress first. -/
inductive RoundPhase where
  | none
  | beacon
  | window (left : List Station)
  | joinSlot
  | ended
deriving DecidableEq, Repr

/-- The transmission being heard (R134, R141). -/
inductive Rx where
  | idle
  | beacon
  | window (header : Header) (cells : Nat)
  | unknown
deriving DecidableEq, Repr

/-- A unit of the own window in flight (R170). -/
inductive TxUnit where
  | resend (i : Item)
  | gap (g : GapItem)
  | mark (m : MarkItem)
  | item (i : Item)
deriving DecidableEq, Repr

/-- The own transmission in progress (R135, R170): a join header, or a window with its header, the unit in flight after
it, the resends to come, whether the holder's one MARK is still to come, and the cells left of the budget. -/
structure Sending where
  join : Bool
  header : Header
  current : Option TxUnit
  resends : List TxUnit
  markLeft : Bool
  cells : Nat
  asHolder : Bool
deriving DecidableEq, Repr

structure Link where
  mode : LinkMode
  latest : Option Beacon
  /-- one entry for each station number -/
  roster : List RosterEntry
  role : TkRole
  /-- the quiet timer: ms left, or stopped -/
  quiet : Option Nat
  backoff : Backoff
  /-- its beacon collided while it was TIMEKEEPER (R148) -/
  wasTimekeeper : Bool
  /-- beacons taken in LISTEN -/
  listenCount : Nat
  phase : RoundPhase
  /-- stations whose header was taken in the round -/
  heard : List Station
  joiner : Option (Station × Role)
  /-- ms since the lead-in of the own beacon -/
  sinceBeacon : Nat
  rx : Rx
  busy : Bool
  sending : Option Sending
deriving DecidableEq, Repr

/-! ## Link Controller, pen side (R153) -/

inductive PenState where
  | outside
  | shadow
  | requesting
  | holding
  | releasing
  | handing
  | catchingUp
deriving DecidableEq, Repr

structure PassPending where
  target : Station
  rsn : Nat
  recordEnd : Pos
  cut : LinkTime
deriving DecidableEq, Repr

structure Pen where
  /-- the followed session -/
  session : SessionId
  left : Option SessionId
  /-- the followed epoch and the holder named for it -/
  epoch : Epoch
  holder : Option Station
  startRsn : Nat
  startPos : Pos
  cut : LinkTime
  /-- applied-through -/
  applied : Nat
  lastStroke : LinkTime
  /-- the writer pen state; absent in a display -/
  state : Option PenState
  nextRsn : Nat
  closing : Bool
  /-- closing came from the end of the RSN or RLN range (R117, R169) -/
  exhausted : Bool
  passPending : Option PassPending
  noneSince : Option LinkTime
  strokeQuiet : Nat
  openReq : Bool
  /-- the target and cut time of a PASS not yet queued (R159) -/
  passTo : Option (Station × LinkTime)
  /-- the RSN of the newest item counted sent (R174) -/
  sentRsn : Nat
  outbound : List Item
  log : List Item
  reorder : List Item
  markQueue : List MarkItem
  markId : Byte
deriving DecidableEq, Repr

/-! ## Screen Controller (section 9.2) -/

inductive View where
  | live
  | review (top : Nat)
deriving DecidableEq, Repr

structure Screen where
  rows : Nat
  view : View
  newText : Bool
  pendingStart : Option Nat
  markRefused : Bool
  /-- the review idle timer: ms left, or stopped -/
  idle : Option Nat
  /-- the dirty-row set, ascending -/
  dirty : List Nat
  /-- the shown content of each row -/
  shown : List (Option Text)
  writing : Option (Nat × Text)
deriving DecidableEq, Repr

/-! ## Service Port (chapter 10) -/

inductive StartState where
  | storeScan
  | running
  | maintenance
deriving DecidableEq, Repr

/-- The configuration in force (R195). -/
structure Settings where
  lineWidth : Nat
  debounce : Nat
  settle : Nat
  handoff : Nat
  rows : Nat
  reviewIdle : Nat
  /-- the six defaulted flags, line width in bit 0 -/
  defaulted : BitVec 6
deriving DecidableEq, Repr

/-- A request frame's content (R206). -/
inductive Request where
  | status
  | readAttention
  | maskAttention (mask : BitVec 16)
  | ackAttention (causes : BitVec 16) (count : Byte)
  | define (key : Key) (attrs : Attrs) (text : Text)
  | retire (key : Key)
  | readEntry (key : Key)
  | openSession
  | closeSession
  | readJournal (count : Byte)
  | readRecord (first : BitVec 24) (count : Byte)
  | readMarks
  | readFault
  | clearFault
  | eraseBase
  | loadEntry (key : Key) (attrs : Attrs) (text : Text)
  | writeConfig (fields : ConfigFields)
  | protect
  | unprotect
deriving DecidableEq, Repr

/-- The response codes, in the order of their numbers (R206). -/
inductive RespCode where
  | empty
  | done
  | queued
  | busy
  | badFrame
  | badRequest
  | mode
  | protectedBase
  | badEntry
  | order
  | storeFull
  | storeFault
  | inSession
  | noSession
  | penPending
  | role
deriving DecidableEq, Repr

structure Response where
  tag : Byte
  code : RespCode
  body : List Byte
deriving DecidableEq, Repr

/-- The port state (R196); `held` is a request waiting for the end of the start scan (R197). -/
inductive PortState where
  | idle
  | working (tag : Byte) (held : Option Request)
  | ready (r : Response)
deriving DecidableEq, Repr

/-- Why a DEFINE or RETIRE was refused (R102). -/
inductive Reason where
  | badEntry
  | directoryFull
  | storeFull
  | storeFault
  | absent
deriving DecidableEq, Repr

/-- An outcome of the outcome list (R201): DONE when no reason. -/
structure DefOutcome where
  id : Nat
  reason : Option Reason
deriving DecidableEq, Repr

/-- The ten causes, in the order of their bits (section 10.7). -/
inductive Cause where
  | defineDone
  | defineRefused
  | storeFault
  | penChange
  | penLost
  | linkState
  | sessionChange
  | markArrived
  | journalRefused
  | configFault
deriving DecidableEq, Repr

/-- The attention state (R200, R201). `raised` holds the pending causes other than DEFINE-DONE and DEFINE-REFUSED, which
follow the outcome list. -/
structure Attention where
  /-- a 1 means masked -/
  mask : BitVec 10
  raised : BitVec 10
  outcomes : List DefOutcome
  lost : Bool
deriving DecidableEq, Repr

/-! ## The whole station -/

structure State where
  straps : Straps
  start : StartState
  settings : Settings
  port : PortState
  /-- the bytes clocked out in the latest transaction -/
  portOut : List Byte
  att : Attention
  clock : Clock
  scanner : Scanner
  buttons : Buttons
  journal : Journal
  trans : Translator
  cache : Cache
  store : Memory
  ctl : Control
  composer : Composer
  record : Record
  link : Link
  pen : Pen
  screen : Screen
  /-- what the store's cells answer during the running command (log 7, log 8) -/
  script : StoreScript
  /-- the commands that wait, first in, first out -/
  pending : List Instr
deriving DecidableEq, Repr

/-- The faults of the model. -/
inductive Fault where
  /-- RESET or TICK names a store word outside 256 sectors of 4096 words (R62), a word that does not exist. Safe: no
  part of the state is changed on the strength of it. -/
  | noSuchStoreWord
deriving DecidableEq, Repr

/-- The refusals of the model. -/
inductive Refusal where
  /-- the command has no meaning in the model yet; raised by exec's arm for it. Safe. -/
  | notModelled (mnemonic : String)
deriving DecidableEq, Repr

/-! ## Reset values -/

def Clock.reset : Clock := { linkTime := 0, synced := false }

/-- R2, which gives the values of the keys, the counters and the chord for a writer. A display's stand likewise: every key
down, every counter 0, the chord empty (DESIGN CHOICE, unsafe, log 3). -/
def Scanner.reset (r : Role) : Scanner where
  mode := match r with
    | .writer => .waitClear
    | .display => .stopped
  down := BitVec.allOnes 23
  counts := List.replicate 23 0
  due := 0
  dueTime := 0
  dueUnsynced := false
  chord := 0
  downTime := 0
  downUnsynced := false

/-- R177. -/
def Button.reset : Button := { down := true, count := 0, pressed := false }

def Buttons.reset : Buttons where
  relief := Button.reset
  up := Button.reset
  down := Button.reset
  live := Button.reset
  mark := Button.reset

/-- R16, R17: the emptied journal. -/
def Journal.emptied : Journal :=
  { strokes := [], nextSn := 1, readPoint := 1, archivePoint := 1, refused := 0, archiveLost := 0 }

def FormatState.clear : FormatState := { cap := false, lower := false, attach := false }

/-- R18, section 2.1. -/
def Translator.reset (r : Role) : Translator where
  mode := match r with
    | .writer => .scanWait
    | .display => .stopped
  run := []
  results := []
  retake := []
  settle := none
  undo := []
  handOver := none
  publishing := false
  forced := .clear
  discard := false
  replayEnd := none
  floorTime := 0
  grant := none

def Answer.absent : Answer := { found := false, text := [], attrs := 0, ext := false }

/-- R47: an invalid line at its reset age; its content is not read (log 3). -/
def CacheLine.reset (way : Nat) : CacheLine :=
  { valid := false, key := [], ans := Answer.absent, age := way, parity := false }

/-- R47, R60. -/
def Cache.reset : Cache where
  sets := List.replicate 16 [.reset 0, .reset 1, .reset 2, .reset 3]
  parityCount := 0
  path := .idle

def Account.fresh : Account := { appendPoint := Config.bodyStart, live := 0, dead := 0, passedOver := false }

def FaultRecord.clear : FaultRecord :=
  { first := none, corrected := 0, uncorrectable := 0, programFail := 0, eraseFail := 0 }

/-- R105. -/
def Compaction.reset : Compaction where
  state := .idle
  victim := 0
  target := 0
  targetAppend := 0
  copies := []
  cursor := 0
  failed := none
  sealStep := .seq
  erasing := 0
  phase := .prezero 0

/-- R84, R91, R92, R94, R103, R105: the controller before the start scan. -/
def Control.reset : Control where
  sectors := List.replicate 256 .unknown
  accounts := List.replicate 31 Account.fresh
  highestSeq := 0
  reserve := none
  directory := []
  queue := []
  nextId := 1
  headWaiting := false
  repair := []
  direct := none
  comp := Compaction.reset
  keyTable := []
  openSector := none
  lastKey := .none
  baseProtected := false
  configRecord := none
  configAppend := Config.bodyStart
  fault := FaultRecord.clear

/-- R128: the shadow buffer as entered. -/
def shadowEntered : List ShadowLine := [{ num := 0, text := [] }]

/-- R112, R128. The format state clear in a STOPPED start and the shadow buffer entered in a display are the model's, the
spec gives them for the starts it names (DESIGN CHOICE, log 3). -/
def Composer.reset (st : Straps) : Composer where
  mode := if st.role = .display ∨ st.maintenance = true then .stopped else .shadow
  fmt := FormatState.clear
  shadow := shadowEntered
  epoch := 0

/-- R120, R131: the cleared record. -/
def Record.cleared : Record :=
  { lines := [{ rln := 0, text := [], isOpen := true, tag := 0, marked := false, gap := false }], marks := [] }

def RosterEntry.reset : RosterEntry :=
  { listed := false, role := none, header := none, round := 0, silent := 0, corrected := 0 }

/-- R136, R147. -/
def Link.reset : Link where
  mode := .start
  latest := none
  roster := List.replicate 8 RosterEntry.reset
  role := .following
  quiet := none
  backoff := .stopped
  wasTimekeeper := false
  listenCount := 0
  phase := .none
  heard := []
  joiner := none
  sinceBeacon := 0
  rx := .idle
  busy := false
  sending := none

/-- R153. -/
def Pen.reset (r : Role) : Pen where
  session := 0
  left := none
  epoch := 0
  holder := none
  startRsn := 1
  startPos := { rln := 0, col := 0 }
  cut := 0
  applied := 0
  lastStroke := 0
  state := match r with
    | .writer => some .outside
    | .display => none
  nextRsn := 1
  closing := false
  exhausted := false
  passPending := none
  noneSince := none
  strokeQuiet := 0
  openReq := false
  passTo := none
  sentRsn := 0
  outbound := []
  log := []
  reorder := []
  markQueue := []
  markId := 0

/-- R178. -/
def Screen.reset : Screen where
  rows := Config.defaultRows
  view := .live
  newText := false
  pendingStart := none
  markRefused := false
  idle := none
  dirty := List.range Config.defaultRows
  shown := List.replicate Config.defaultRows none
  writing := none

/-- R195: every field at its default. -/
def Settings.default : Settings where
  lineWidth := Config.defaultLineWidth
  debounce := Config.defaultDebounce
  settle := Config.defaultSettle
  handoff := Config.defaultHandoff
  rows := Config.defaultRows
  reviewIdle := Config.defaultReviewIdle
  defaulted := BitVec.allOnes 6

/-- R201. -/
def Attention.reset : Attention := { mask := 0, raised := 0, outcomes := [], lost := false }

def StoreScript.none : StoreScript := { prog := [], erase := [] }

/-- R193: every block in its reset state for these straps, over a store that is kept (R62). -/
def State.atReset (st : Straps) (store : Memory) (pending : List Instr) : State where
  straps := st
  start := .storeScan
  settings := Settings.default
  port := .idle
  portOut := []
  att := Attention.reset
  clock := Clock.reset
  scanner := Scanner.reset st.role
  buttons := Buttons.reset
  journal := Journal.emptied
  trans := Translator.reset st.role
  cache := Cache.reset
  store := store
  ctl := Control.reset
  composer := Composer.reset st
  record := Record.cleared
  link := Link.reset
  pen := Pen.reset st.role
  screen := Screen.reset
  script := StoreScript.none
  pending := pending

/-- The machine right after reset: station 0, writer, no maintenance start (log 3), an erased store (log 4), no command
waiting. -/
def State.reset : State :=
  State.atReset { station := 0, role := .writer, maintenance := false } [] []

end Sys2Proof.Machine
end

