-- ==== Sys2Proof/Machine/Ops.lean ====
section
/-! DEFINITION. The named operations every block uses: saturating counts, lists kept short, the store's memory, and the
attention raised by any block. -/

namespace Sys2Proof.Machine

/-- A count that stops at its maximum (overview 3.2). -/
def satInc (n max : Nat) : Nat := if n < max then n + 1 else max

/-- The newest `n` members of a list kept oldest first. -/
def keepLast {α : Type} (n : Nat) (l : List α) : List α := l.drop (l.length - n)

/-- The last member changed. -/
def mapLast {α : Type} (f : α → α) : List α → List α
  | [] => []
  | [x] => [f x]
  | x :: y :: l => x :: mapLast f (y :: l)

/-- A number into an ascending list that holds each number at most once. -/
def insertAsc (n : Nat) : List Nat → List Nat
  | [] => [n]
  | m :: l => if n < m then n :: m :: l else if n = m then m :: l else m :: insertAsc n l

/-- The number whose bits are given, bit 0 first. -/
def natOfBits : List Bool → Nat
  | [] => 0
  | b :: l => cond b 1 0 + 2 * natOfBits l

/-! ## Positions (overview 3.1) -/

def posLt (p q : Pos) : Bool := decide (p.rln < q.rln) || (decide (p.rln = q.rln) && decide (p.col < q.col))

/-! ## The store (R62) -/

/-- An erased word: every bit 1 (section 11.2). -/
def blankWord : StoreWord := { bits := BitVec.allOnes 32, check := .erased }

/-- The address of a word of a sector (R62). -/
def addrOf (sector word : Nat) : Nat := Config.sectorWords * sector + word

/-- One word read; an unlisted address reads erased. -/
def Memory.read : Memory → Nat → StoreWord
  | [], _ => blankWord
  | (b, w) :: m, a => if b = a then w else Memory.read m a

/-- A word put in its place; an erased word is not listed. -/
def Memory.insert : Memory → Nat → StoreWord → Memory
  | [], a, w => if w = blankWord then [] else [(a, w)]
  | (b, v) :: m, a, w =>
    if a < b then (if w = blankWord then (b, v) :: m else (a, w) :: (b, v) :: m)
    else if a = b then (if w = blankWord then m else (a, w) :: m)
    else (b, v) :: Memory.insert m a w

/-- One word written; there is no word outside the store (R62). -/
def Memory.write (m : Memory) (a : Nat) (w : StoreWord) : Memory :=
  if a < Config.storeWords then Memory.insert m a w else m

/-- Every word of a sector erased. -/
def Memory.clearSector (m : Memory) (sector : Nat) : Memory :=
  m.filter (fun c => ! decide (c.1 / Config.sectorWords = sector))

/-- Several words written, in order. -/
def Memory.writeAll (m : Memory) : List (Nat × StoreWord) → Memory
  | [] => m
  | (a, w) :: l => Memory.writeAll (Memory.write m a w) l

/-- Addresses rise from `lo`, lie in the store, and no listed word is erased. -/
def Memory.wfFrom (lo : Nat) : Memory → Bool
  | [] => true
  | (a, w) :: m => decide (lo ≤ a) && decide (a < Config.storeWords) && ! decide (w = blankWord) &&
      Memory.wfFrom (a + 1) m

/-- The canonical form. -/
def Memory.wf (m : Memory) : Bool := Memory.wfFrom 0 m

/-- Every named word is a word of the store. -/
def allInStore (l : List (Nat × StoreWord)) : Bool := l.all (fun c => decide (c.1 < Config.storeWords))

/-! ## Attention (R200, R201) -/

/-- The bit of a cause (R206). -/
def Cause.bit : Cause → Nat
  | .defineDone => 0
  | .defineRefused => 1
  | .storeFault => 2
  | .penChange => 3
  | .penLost => 4
  | .linkState => 5
  | .sessionChange => 6
  | .markArrived => 7
  | .journalRefused => 8
  | .configFault => 9

def Attention.isMasked (a : Attention) (c : Cause) : Bool := a.mask.getLsbD c.bit

/-- A cause raised enters the set unless it is masked (R200). -/
def Attention.raise (a : Attention) (c : Cause) : Attention :=
  if a.isMasked c then a else { a with raised := a.raised ||| (1#10 <<< c.bit) }

/-- DEFINE-DONE or DEFINE-REFUSED raised: an unmasked one joins the outcome list (R201). -/
def Attention.addOutcome (a : Attention) (o : DefOutcome) : Attention :=
  if a.isMasked (if o.reason.isNone then .defineDone else .defineRefused) then a
  else
    { a with
      outcomes := keepLast Config.outcomesSize (a.outcomes ++ [o])
      lost := a.lost || decide (Config.outcomesSize ≤ a.outcomes.length) }

/-- The pending set (R200, R201). -/
def Attention.pendingSet (a : Attention) : BitVec 10 :=
  (a.raised &&& 0x3FC#10) |||
  (if a.outcomes.any (fun o => o.reason.isNone) then 1#10 else 0#10) |||
  (if a.outcomes.any (fun o => ! o.reason.isNone) then 2#10 else 0#10)

/-- The attention line (R203). -/
def Attention.line (a : Attention) : Bool := decide (a.pendingSet ≠ 0#10)

/-- A block raises a cause. -/
def raise (c : Cause) (s : State) : State := { s with att := s.att.raise c }

def raiseIf (b : Bool) (c : Cause) (s : State) : State := if b then raise c s else s

end Sys2Proof.Machine
end

