-- ==== Sys2Proof/Machine/Operands.lean ====
section
/-! DEFINITION. The operand forms: keys and their order, entries as requests carry them, attribute sets, chord letters,
and fields packed into bits. -/

namespace Sys2Proof.Machine

/-! ## Keys (R46) -/

/-- Key order: chord by chord, a proper prefix first (R46). -/
def keyLt : Key → Key → Bool
  | [], [] => false
  | [], _ :: _ => true
  | _ :: _, [] => false
  | a :: k, b :: l => if a < b then true else if b < a then false else keyLt k l

/-- `k` is a proper prefix of `l`. -/
def properPrefix : Key → Key → Bool
  | [], [] => false
  | [], _ :: _ => true
  | _ :: _, [] => false
  | a :: k, b :: l => decide (a = b) && properPrefix k l

/-- The proper prefixes of a key that are keys, shortest first. -/
def prefixesOf (k : Key) : List Key := (List.range (k.length - 1)).map (fun i => k.take (i + 1))

/-- The key of a run of strokes (R20). -/
def keyOfStrokes (l : List Stroke) : Key := l.map (fun k => k.chord.toNat)

/-- 1 to 6 chords, each 1 to 8,388,607 (R77, R85, R97, R101). -/
def keyOk (k : Key) : Bool :=
  decide (1 ≤ k.length) && decide (k.length ≤ 6) && k.all (fun c => decide (1 ≤ c) && decide (c ≤ 8388607))

/-- At most 48 characters, each 0x20 to 0x7E (R77, R97). -/
def charOk (c : Ch) : Bool := decide (0x20 ≤ c.toNat) && decide (c.toNat ≤ 0x7E)

def textOk (t : Text) : Bool := decide (t.length ≤ 48) && t.all charOk

/-! ## Attribute sets (chapter 11) -/

def Attrs.attachLeft (a : Attrs) : Bool := a.getLsbD 0
def Attrs.attachRight (a : Attrs) : Bool := a.getLsbD 1
def Attrs.capNext (a : Attrs) : Bool := a.getLsbD 2
def Attrs.lowerNext (a : Attrs) : Bool := a.getLsbD 3
def Attrs.para (a : Attrs) : Bool := a.getLsbD 4
def Attrs.suppress (a : Attrs) : Bool := a.getLsbD 5

/-! ## Letters of a chord (overview 3.4, R25) -/

/-- The letters of the 23 keys in key order: S T K P W H R, A O E U, star, F R P B L G T S D Z, number bar. -/
def keyLetters : List Nat :=
  [0x53, 0x54, 0x4B, 0x50, 0x57, 0x48, 0x52, 0x41, 0x4F, 0x45, 0x55, 0x2A] ++
  [0x46, 0x52, 0x50, 0x42, 0x4C, 0x47, 0x54, 0x53, 0x44, 0x5A, 0x23]

/-- The letters of keys `lo` to `lo + n - 1` that are in the chord. -/
def lettersFrom (c : Chord) (lo n : Nat) : Text :=
  ((List.range n).filter (fun i => c.getLsbD (lo + i))).map (fun i => BitVec.ofNat 8 (keyLetters.getD (lo + i) 0))

/-- The rendering of a chord (R25): a hyphen before the first right-bank letter when no vowel and no star is there. -/
def renderChord (c : Chord) : Text :=
  let front := lettersFrom c 0 12
  let right := lettersFrom c 12 10
  let hyphen : Text := if right.isEmpty || ! (lettersFrom c 7 5).isEmpty then [] else [0x2D#8]
  front ++ hyphen ++ right ++ lettersFrom c 22 1

/-! ## Numbers in characters (R207) -/

def spaceCh : Ch := 0x20#8

def digitCh (d : Nat) : Ch := BitVec.ofNat 8 (0x30 + d)

/-- The decimal digits of a number below 10^fuel, without leading zeros. -/
def digitsOf : Nat → Nat → Text
  | 0, _ => []
  | fuel + 1, n => if n < 10 then [digitCh n] else digitsOf fuel (n / 10) ++ [digitCh (n % 10)]

def decimal (n : Nat) : Text := digitsOf 10 n

def spaces (n : Nat) : Text := List.replicate n spaceCh

/-- A text filled with spaces on the right to `n` places. -/
def padRight (n : Nat) (t : Text) : Text := (t ++ spaces (n - t.length)).take n

/-- A text right-justified in `n` places. -/
def padLeft (n : Nat) (t : Text) : Text := spaces (n - t.length) ++ t

/-! ## Fields packed high bit first (R204)

A layout is a list of field widths. `pack` lays the values out from the top of the bits, `unpack` reads them back. -/

/-- The bits a layout takes. -/
def widthOf : List Nat → Nat
  | [] => 0
  | w :: l => w + widthOf l

/-- The number whose bits are the fields in order, the first field highest. -/
def pack : List Nat → List Nat → Nat
  | w :: ws, v :: vs => (v % 2 ^ w) * 2 ^ widthOf ws + pack ws vs
  | _, _ => 0

/-- The fields of a number, the first field highest. -/
def unpack : List Nat → Nat → List Nat
  | [], _ => []
  | w :: ws, n => (n / 2 ^ widthOf ws) % 2 ^ w :: unpack ws n

/-- `n` bytes of a number, most significant first (chapter 11). -/
def beBytes (n v : Nat) : List Byte := (List.range n).map (fun i => BitVec.ofNat 8 (v / 256 ^ (n - 1 - i)))

/-- The number of bytes most significant first. -/
def beNat (l : List Byte) : Nat := l.foldl (fun n b => 256 * n + b.toNat) 0

def boolByte (b : Bool) : List Byte := [cond b 1#8 0#8]

end Sys2Proof.Machine
end

