-- ==== Sys2Proof/Machine/Flags.lean ====
section
/-! DEFINITION. What is computed as a flag or judged against a range: the configuration fields (R195), the flags of a
stroke (R5, R6), the causes a host names (R202). -/

namespace Sys2Proof.Machine

/-! ## Configuration (R195) -/

def lineWidthOk (n : Nat) : Bool := decide (40 ≤ n) && decide (n ≤ 64)
def debounceOk (n : Nat) : Bool := decide (1 ≤ n) && decide (n ≤ 15)
def settleOk (n : Nat) : Bool := decide (n = 0) || (decide (100 ≤ n) && decide (n ≤ 2000))
def handoffOk (n : Nat) : Bool := decide (1 ≤ n) && decide (n ≤ 10)
def rowsOk (n : Nat) : Bool := decide (8 ≤ n) && decide (n ≤ 32)
def reviewIdleOk (n : Nat) : Bool := decide (10 ≤ n) && decide (n ≤ 120)

/-- The fields out of range, line width in bit 0 (R206). -/
def fieldsOutOfRange (f : ConfigFields) : BitVec 6 :=
  BitVec.ofNat 6 (natOfBits
    [! lineWidthOk f.lineWidth.toNat, ! debounceOk f.debounce.toNat, ! settleOk f.settle.toNat,
     ! handoffOk f.handoff.toNat, ! rowsOk f.rows.toNat, ! reviewIdleOk f.reviewIdle.toNat])

/-- A field within its range is used as written, another takes its default. -/
def fieldOr (ok : Nat → Bool) (default : Nat) (v : BitVec 16) : Nat := if ok v.toNat then v.toNat else default

/-- The configuration in force from the record read at start; with no good record every field takes its default (R83,
R195). -/
def judgeConfig : Option ConfigFields → Settings
  | none => Settings.default
  | some f =>
    { lineWidth := fieldOr lineWidthOk Config.defaultLineWidth f.lineWidth
      debounce := fieldOr debounceOk Config.defaultDebounce f.debounce
      settle := fieldOr settleOk Config.defaultSettle f.settle
      handoff := fieldOr handoffOk Config.defaultHandoff f.handoff
      rows := fieldOr rowsOk Config.defaultRows f.rows
      reviewIdle := fieldOr reviewIdleOk Config.defaultReviewIdle f.reviewIdle
      defaulted := fieldsOutOfRange f }

/-- The debounce time of another configuration, with its defaulted flag, bit 1 (R193, R199). -/
def Settings.withDebounce (c d : Settings) : Settings :=
  { c with debounce := d.debounce, defaulted := (c.defaulted &&& ~~~2#6) ||| (d.defaulted &&& 2#6) }

/-! ## Strokes -/

/-- RETRACT: the chord is the star key alone (R6). -/
def isRetract (c : Chord) : Bool := decide (c = 2048#23)

/-- The up time of a stroke is at or after its down time (R4). -/
def upTimeOf (down up : LinkTime) : LinkTime := if up.toNat < down.toNat then down else up

/-! ## The causes an ACK-ATTENTION removes (R202): the named ones, the outcomes and OUTCOMES-LOST by count -/

/-- The oldest outcomes are removed by their count, a count above 8 removing all of them (R202 gives 0 to 8; DESIGN CHOICE,
log 75). Bits 10 to 15 of the causes name nothing (log 76). -/
def Attention.ack (a : Attention) (causes : BitVec 16) (count : Nat) : Attention :=
  { a with
    raised := a.raised &&& ~~~ (causes.setWidth 10)
    outcomes := a.outcomes.drop count
    lost := if count = 0 then a.lost else false }

/-- MASK-ATTENTION replaces the mask (R202). Bits 10 to 15 are ignored, and sent as 0 (R206; DESIGN CHOICE, log 76). -/
def Attention.setMask (a : Attention) (mask : BitVec 16) : Attention := { a with mask := mask.setWidth 10 }

end Sys2Proof.Machine
end

