-- ==== Sys2Proof/Machine/Journal.lean ====
section
/-! DEFINITION. The Stroke Journal (R7 to R17): accepting, refusing and overwriting strokes, the two points, the replay
search, and READ-JOURNAL. -/

namespace Sys2Proof.Machine

/-- The journal is full and its oldest stroke is untranslated, or the SN range has ended (R10, R12). -/
def Journal.mustRefuse (j : Journal) : Bool :=
  decide (Config.snEnd ≤ j.nextSn) ||
  (decide (Config.journalSize ≤ j.strokes.length) &&
    match j.strokes with
    | [] => false
    | k :: _ => decide (j.readPoint ≤ k.sn))

/-- R10: the refused stroke raises the pending refused count. -/
def Journal.refuse (j : Journal) : Journal := { j with refused := satInc j.refused 255 }

/-- R11: a full journal loses its oldest stroke; an unarchived one is counted lost. -/
def Journal.makeRoom (j : Journal) : Journal :=
  if j.strokes.length < Config.journalSize then j
  else
    match j.strokes with
    | [] => j
    | k :: rest =>
      if k.sn = j.archivePoint then
        { j with strokes := rest, archiveLost := satInc j.archiveLost 255, archivePoint := k.sn + 1 }
      else { j with strokes := rest }

/-- R9: the stroke takes next SN and the pending refused count. -/
def Journal.accept (j : Journal) (k : Stroke) : Journal :=
  { j with
    strokes := j.strokes ++ [{ k with sn := j.nextSn, refusedBefore := j.refused }]
    nextSn := j.nextSn + 1
    refused := 0 }

/-- A stroke handed over by the Key Scanner (R9 to R12). -/
def Journal.offer (j : Journal) (k : Stroke) : Journal :=
  if j.mustRefuse then j.refuse else j.makeRoom.accept k

/-- The stroke at the read point (R13). -/
def Journal.atReadPoint (j : Journal) : Option Stroke := j.strokes.find? (fun k => decide (k.sn = j.readPoint))

/-- The read point past the stroke just taken (R13). -/
def Journal.advance (j : Journal) : Journal := { j with readPoint := j.readPoint + 1 }

/-- A stroke that the replay search stops at (R14). -/
def afterCut (cut : LinkTime) (k : Stroke) : Bool := ! k.unsynced && decide (cut.toNat < k.downTime.toNat)

/-- R14: the read point by search. -/
def Journal.search (j : Journal) (cut : LinkTime) : Journal :=
  { j with readPoint :=
      match j.strokes.find? (afterCut cut) with
      | some k => k.sn
      | none => j.nextSn }

/-- The records a READ-JOURNAL of `n` copies out (R15). -/
def Journal.toArchive (j : Journal) (n : Nat) : List Stroke :=
  (j.strokes.filter (fun k => decide (j.archivePoint ≤ k.sn))).take n

/-- R15: the archive point moves past the last record copied, the archive-lost count is cleared. -/
def Journal.archive (j : Journal) (n : Nat) : Journal :=
  { j with archivePoint := j.archivePoint + (j.toArchive n).length, archiveLost := 0 }

/-- Untranslated and unarchived strokes (R17). -/
def Journal.untranslated (j : Journal) : Nat := j.nextSn - j.readPoint
def Journal.unarchived (j : Journal) : Nat := j.nextSn - j.archivePoint

end Sys2Proof.Machine
end

