-- ==== Sys2Proof/Machine/Scanner.lean ====
section
/-! DEFINITION. The Key Scanner (R1 to R6) and the five buttons (R177): sampling at the tick, and what a debounced change
does. -/

namespace Sys2Proof.Machine

/-- The counter of a line after a sample: raised while the level differs from the debounced state, else 0 (R1). -/
def countAfter (differs : Bool) (c : Nat) : Nat := if differs then min (c + 1) 15 else 0

/-- The sampled level has been held for the debounce time `d` (R1, R193). -/
def reached (d : Nat) (differs : Bool) (c : Nat) : Bool := differs && decide (d ≤ c + 1)

/-- The keys whose sampled level differs from their debounced state. -/
def Scanner.differs (sc : Scanner) (keys : Chord) : Chord := keys ^^^ sc.down

/-- The keys that have held their new level for the debounce time. -/
def Scanner.dueAt (sc : Scanner) (d : Nat) (keys : Chord) : Chord :=
  BitVec.ofNat 23 (natOfBits (sc.counts.mapIdx (fun i c => reached d ((sc.differs keys).getLsbD i) c)))

/-- R1: one sample of every key line. In a display no line is sampled (R2). -/
def Scanner.sample (sc : Scanner) (d : Nat) (keys : Chord) (now : Clock) : Scanner :=
  if sc.mode = .stopped then sc
  else
    { sc with
      counts := sc.counts.mapIdx (fun i c => countAfter ((sc.differs keys).getLsbD i) c)
      due := sc.dueAt d keys
      dueTime := now.linkTime
      dueUnsynced := ! now.synced }

/-- The due keys take their new level, their counters go to 0 (R1). -/
def Scanner.settleDue (sc : Scanner) : Scanner :=
  { sc with
    down := sc.down ^^^ sc.due
    counts := sc.counts.mapIdx (fun i c => if sc.due.getLsbD i then 0 else c)
    due := 0 }

/-- The stroke that ends with this change (R3 to R6); its SN and refused-before count are the journal's to give. -/
def Scanner.finished (sc : Scanner) : Stroke where
  sn := 0
  chord := sc.chord
  downTime := sc.downTime
  upTime := upTimeOf sc.downTime sc.dueTime
  retract := isRetract sc.chord
  unsynced := sc.downUnsynced || sc.dueUnsynced
  refusedBefore := 0

/-- The chord-forming logic over the keys debounced DOWN after the tick (R2, R3). -/
def Scanner.form (sc : Scanner) : Scanner × Option Stroke :=
  match sc.mode with
  | .stopped => (sc, none)
  | .waitClear => (if sc.down = 0 then { sc with mode := .idle } else sc, none)
  | .idle =>
    if sc.down = 0 then (sc, none)
    else
      ({ sc with mode := .forming, chord := sc.down, downTime := sc.dueTime, downUnsynced := sc.dueUnsynced }, none)
  | .forming =>
    if sc.down = 0 then ({ sc with mode := .idle, chord := 0 }, some sc.finished)
    else ({ sc with chord := sc.chord ||| sc.down }, none)

/-- A stroke handed to the journal: kept or refused, the stroke-quiet count set to 0 (R9, R10, R153). -/
def handStroke (k : Stroke) (s : State) : State :=
  raiseIf s.journal.mustRefuse .journalRefused
    { s with journal := s.journal.offer k, pen := { s.pen with strokeQuiet := 0 } }

/-- The debounced changes of one tick, taken together (R1, R3). -/
def takeDueKeys (s : State) : State :=
  if s.scanner.due = 0 then s
  else
    let f := s.scanner.settleDue.form
    match f.2 with
    | none => { s with scanner := f.1 }
    | some k => handStroke k { s with scanner := f.1 }

/-- KEY_DEBOUNCED (R1). -/
def execKeyDebounced (s : State) : Host.Outcome State Fault Refusal := .next (takeDueKeys s)

/-! ## Buttons -/

/-- One sample of a button line; `listen` is clear while a press is to be discarded (R177). -/
def Button.sample (b : Button) (d : Nat) (level listen : Bool) : Button :=
  if reached d (level != b.down) b.count then
    { down := level, count := 0, pressed := b.pressed || (level && listen) }
  else { b with count := countAfter (level != b.down) b.count }

/-- R177: one sample of the five lines; bit 0 RELIEF, 1 UP, 2 DOWN, 3 LIVE, 4 MARK. -/
def Buttons.sample (b : Buttons) (d : Nat) (lines : BitVec 5) (scanOver writer : Bool) : Buttons where
  relief := b.relief.sample d (lines.getLsbD 0) writer
  up := b.up.sample d (lines.getLsbD 1) scanOver
  down := b.down.sample d (lines.getLsbD 2) scanOver
  live := b.live.sample d (lines.getLsbD 3) scanOver
  mark := b.mark.sample d (lines.getLsbD 4) scanOver

end Sys2Proof.Machine
end

