-- ==== Sys2Proof/Machine/Record.lean ====
section
/-! DEFINITION. The Record Store (R120 to R126, R189): lines, items applied to them, marks. -/

namespace Sys2Proof.Machine

def RecLine.fresh (rln : Nat) (tag : Epoch) : RecLine :=
  { rln := rln, text := [], isOpen := true, tag := tag, marked := false, gap := false }

/-- The last line, which is the open one (R120). -/
def lastLine (ls : List RecLine) : RecLine := ls.getLastD (RecLine.fresh 0 0)

/-- The oldest held RLN. -/
def oldestRln (ls : List RecLine) : Nat :=
  match ls with
  | [] => 0
  | l :: _ => l.rln

/-- The record end (R120). -/
def endOf (ls : List RecLine) : Pos := { rln := (lastLine ls).rln, col := (lastLine ls).text.length }

def Record.endPos (r : Record) : Pos := endOf r.lines
def Record.lastRln (r : Record) : Nat := (lastLine r.lines).rln
def Record.oldest (r : Record) : Nat := oldestRln r.lines

/-- The line that holds an RLN. -/
def Record.lineAt (r : Record) (rln : Nat) : Option RecLine := r.lines.find? (fun l => decide (l.rln = rln))

/-- R122: characters added at the record end; beyond column 64 they are discarded and the line is flagged GAP. -/
def appendEnd (ls : List RecLine) (t : Text) (tag : Epoch) : List RecLine :=
  mapLast (fun l =>
    { l with
      text := (l.text ++ t).take Config.lineSize
      tag := tag
      gap := l.gap || decide (Config.lineSize < (l.text ++ t).length) }) ls

/-- R123, R121: the last line closed, a new one opened; the 513th line removes the oldest. -/
def breakEnd (ls : List RecLine) (tag : Epoch) : List RecLine :=
  if Config.rlnMax ≤ (lastLine ls).rln then ls
  else
    keepLast Config.recordSize
      (mapLast (fun l => { l with isOpen := false }) ls ++ [RecLine.fresh ((lastLine ls).rln + 1) tag])

/-- R124: the record taken back to `p`. -/
def cutTo (ls : List RecLine) (p : Pos) (tag : Epoch) : List RecLine :=
  if posLt (endOf ls) p then ls
  else if p.rln < oldestRln ls then
    [{ RecLine.fresh p.rln tag with text := spaces p.col, gap := true }]
  else
    mapLast (fun l => { l with text := l.text.take p.col, isOpen := true, tag := tag })
      (ls.filter (fun l => decide (l.rln ≤ p.rln)))

/-- The lines a fill opens: empty ones up to the one before `p`'s, then `p`'s line padded to its column (R125). No more
than the 512 newest can stay. -/
def filledLines (last : Nat) (p : Pos) (tag : Epoch) : List RecLine :=
  let n := min (p.rln - last) Config.recordSize
  (List.range n).map (fun i =>
    let rln := p.rln - (n - 1) + i
    if rln = p.rln then { RecLine.fresh rln tag with text := spaces p.col, gap := decide (0 < p.col) }
    else { RecLine.fresh rln tag with isOpen := false, gap := true })

/-- R125: a record whose end is before `p` filled to `p`. -/
def fillTo (ls : List RecLine) (p : Pos) (tag : Epoch) : List RecLine :=
  if posLt (endOf ls) p then
    if p.rln = (lastLine ls).rln then
      mapLast (fun l => { l with text := l.text ++ spaces (p.col - l.text.length), gap := true }) ls
    else
      keepLast Config.recordSize
        (mapLast (fun l => { l with isOpen := false, gap := true }) ls ++ filledLines (lastLine ls).rln p tag)
  else ls

/-- R125, R126: the record brought to `p` before an APPEND or a BREAK there. -/
def bringTo (ls : List RecLine) (p : Pos) (tag : Epoch) : List RecLine :=
  if posLt p (endOf ls) then fillTo (cutTo ls p tag) p tag else fillTo ls p tag

/-- An item applied to the lines (R122 to R126); a PASS changes no line (R160). -/
def applyBody (ls : List RecLine) (b : ItemBody) (tag : Epoch) : List RecLine :=
  match b with
  | .append p t => appendEnd (bringTo ls p tag) t tag
  | .brk p => breakEnd (bringTo ls p tag) tag
  | .cut p => cutTo ls p tag
  | .pass _ _ => ls

/-- The item opens a line: by a BREAK, a gap fill, or a CUT that leaves a new last line (R185; log 31). -/
def opensLine (ls : List RecLine) (b : ItemBody) : Bool :=
  match b with
  | .append p _ => decide ((lastLine ls).rln < p.rln) || decide (p.rln < oldestRln ls)
  | .brk p => decide (p.rln < Config.rlnMax) || decide ((lastLine ls).rln < p.rln) || decide (p.rln < oldestRln ls)
  | .cut p => decide (p.rln < oldestRln ls)
  | .pass _ _ => false

/-- The lines a MARK flags (R189). -/
def inMark (m : MarkItem) (l : RecLine) : Bool := decide (m.first ≤ l.rln) && decide (l.rln ≤ m.last)

/-- R189: a MARK applied at Link time `t`. -/
def Record.applyMark (r : Record) (m : MarkItem) (t : LinkTime) : Record where
  lines := r.lines.map (fun l => if inMark m l then { l with marked := true } else l)
  marks := keepLast Config.marksSize (r.marks ++
    [{ origin := m.origin, id := m.id, first := m.first, last := m.last, time := t,
       flagged := (r.lines.filter (inMark m)).length }])

/-- The lines a READ-RECORD copies out (R127). -/
def Record.readFrom (r : Record) (first n : Nat) : List RecLine :=
  (r.lines.filter (fun l => decide (first ≤ l.rln))).take n

/-- The last character of the held lines that is not a space, read backward from the record end (R130). -/
def lastMark (ls : List RecLine) : Option Ch :=
  (ls.reverse.flatMap (fun l => l.text.reverse)).find? (fun c => decide (c ≠ spaceCh))

/-! ## The view while REVIEW, after a change of the record (R185) -/

/-- The top RLN becomes a held one; an opened line sets NEW TEXT. -/
def Screen.afterRecord (sc : Screen) (oldest last : Nat) (opened : Bool) : Screen :=
  match sc.view with
  | .live => sc
  | .review top =>
    { sc with view := .review (max oldest (min top last)), newText := sc.newText || opened }

end Sys2Proof.Machine
end

