-- ==== Sys2Proof/Machine/Rows.lean ====
section
/-! DEFINITION. The rows of the screen (R179 to R181, R186, R207): the content of every row and the dirty-row set; and the
changes of the record and of the shadow buffer as they are reported to the Screen Controller (R127, R128). -/

namespace Sys2Proof.Machine

/-- Characters by their codes. -/
def chars (l : List Nat) : Text := l.map (BitVec.ofNat 8)

def txtNone : Text := chars [78, 79, 78, 69]
/-- WRITER and the one space that stands before the holder's number (R180, R207; DESIGN CHOICE, log 73). -/
def txtWriter : Text := chars [87, 82, 73, 84, 69, 82, 32]
def txtNoWriter : Text := chars [78, 79, 32, 87, 82, 73, 84, 69, 82]
def txtReview : Text := chars [82, 69, 86, 73, 69, 87]
def txtNewText : Text := chars [78, 69, 87, 32, 84, 69, 88, 84]
def txtMarkFrom : Text := chars [77, 65, 82, 75, 32, 70, 82, 79, 77, 32]
def txtMarkRefused : Text := chars [77, 65, 82, 75, 32, 82, 69, 70, 85, 83, 69, 68]
def txtGap : Text := chars [71, 65, 80]
def txtShadow : Text := chars [83, 72, 65, 68, 79, 87]

/-! ## The view (R179, R183, R186) -/

/-- The last shadow line (R128). -/
def lastShadow (ls : List ShadowLine) : ShadowLine := ls.getLastD { num := 0, text := [] }

/-- The shadow row is shown: a writer whose Composer is in SHADOW (R186). -/
def shadowRowShown (s : State) : Bool := decide (s.straps.role = .writer) && decide (s.composer.mode = .shadow)

/-- V, the number of line rows (R179). -/
def lineRows (s : State) : Nat := s.screen.rows - 1 - cond (shadowRowShown s) 1 0

/-- The RLN a line row shows, counted from 1; none below 0 (R179). -/
def rlnOfRow (s : State) (i : Nat) : Option Nat :=
  match s.screen.view with
  | .live => if lineRows s ≤ s.record.lastRln + i then some (s.record.lastRln + i - lineRows s) else none
  | .review top => some (top + (i - 1))

/-- The line a line row shows. -/
def lineOfRow (s : State) (i : Nat) : Option RecLine :=
  match rlnOfRow s i with
  | some n => s.record.lineAt n
  | none => none

/-! ## Row content, 80 characters (R180, R207) -/

/-- Page and line of an RLN (overview 3.1). -/
def pageLine (rln : Nat) : Text := decimal (rln / 25 + 1) ++ [0x3A#8] ++ decimal (rln % 25 + 1)

def flagColumn (marked gap : Bool) : Text :=
  [spaceCh, if marked then 0x4D#8 else spaceCh, spaceCh, if gap then 0x47#8 else spaceCh, spaceCh, spaceCh]

def blankRow : Text := spaces 80

def lineRow (l : RecLine) : Text :=
  padLeft 9 (pageLine l.rln) ++ [spaceCh] ++ padRight 64 l.text ++ flagColumn l.marked l.gap

def shadowRow (s : State) : Text := spaces 10 ++ padRight 64 (lastShadow s.composer.shadow).text ++ txtShadow

/-- The holder the status row names (R180). -/
def shownWriter (s : State) : Option Station :=
  match s.link.latest with
  | some b => if b.session = 0 then none else b.holder
  | none => none

def inReview (v : View) : Bool :=
  match v with
  | .review _ => true
  | .live => false

/-- At least one line row shows a line that carries GAP. -/
def gapShown (s : State) : Bool :=
  (List.range (lineRows s)).any (fun i =>
    match lineOfRow s (i + 1) with
    | some l => l.gap
    | none => false)

/-- A field shown or filled with spaces. -/
def fieldIf (b : Bool) (n : Nat) (t : Text) : Text := padRight n (if b then t else [])

def statusRow (s : State) : Text :=
  padRight 7 (if s.pen.session = 0 then txtNone else decimal s.pen.session.toNat) ++
  padRight 10 (pageLine s.record.lastRln) ++
  padRight 10 (match shownWriter s with | some n => txtWriter ++ decimal n.val | none => txtNoWriter) ++
  fieldIf (inReview s.screen.view) 7 txtReview ++
  fieldIf s.screen.newText 9 txtNewText ++
  padRight 20 (match s.screen.pendingStart with | some r => txtMarkFrom ++ pageLine r | none => []) ++
  fieldIf s.screen.markRefused 13 txtMarkRefused ++
  fieldIf (gapShown s) 4 txtGap

/-- The content of a row as it stands (R179, R180, R186). -/
def rowContent (s : State) (i : Nat) : Text :=
  if i = 0 then statusRow s
  else if shadowRowShown s = true ∧ i + 1 = s.screen.rows then shadowRow s
  else
    match lineOfRow s i with
    | some l => lineRow l
    | none => blankRow

/-! ## The dirty-row set (R181) -/

/-- What a row's content is compared with: the content being written, else the shown content. -/
def Screen.lastContent (sc : Screen) (i : Nat) : Option Text :=
  match sc.writing with
  | some (n, t) => if n = i then some t else sc.shown.getD i none
  | none => sc.shown.getD i none

/-- The rows whose content has changed. -/
def changedRows (s : State) : List Nat :=
  (List.range s.screen.rows).filter (fun i => decide (s.screen.lastContent i ≠ some (rowContent s i)))

/-- R181: each changed row joins the dirty-row set; no row is kept before the start scan has ended (R178; log 50). -/
def refreshScreen (s : State) : State :=
  if s.start = .storeScan then s
  else { s with screen := { s.screen with dirty := (changedRows s).foldl (fun d i => insertAsc i d) s.screen.dirty } }

/-! ## Changes reported to the Screen Controller -/

/-- The record replaced by what an item made of it, and the change reported to the Screen Controller, which looks at the
rows again (R127, R181, R185). -/
def setLines (ls : List RecLine) (opened : Bool) (s : State) : State :=
  refreshScreen
    { s with
      record := { s.record with lines := ls }
      screen := s.screen.afterRecord (oldestRln ls) (lastLine ls).rln opened }

/-- An item applied to the station's own Record Store (R119, R172). -/
def applyToRecord (b : ItemBody) (tag : Epoch) (s : State) : State :=
  setLines (applyBody s.record.lines b tag) (opensLine s.record.lines b) s

/-- The record filled to a position (R168). -/
def fillRecord (p : Pos) (tag : Epoch) (s : State) : State :=
  setLines (fillTo s.record.lines p tag) (decide ((lastLine s.record.lines).rln < p.rln)) s

/-- A MARK handed to the Record Store (R189); a writer raises MARK-ARRIVED. -/
def applyMark (m : MarkItem) (s : State) : State :=
  raiseIf (decide (s.straps.role = .writer)) .markArrived
    (refreshScreen { s with record := s.record.applyMark m s.clock.linkTime })

/-- The shadow buffer changed, and the change reported to the Screen Controller (R128, R181, R186). -/
def setShadow (ls : List ShadowLine) (s : State) : State :=
  refreshScreen { s with composer := { s.composer with shadow := ls } }

end Sys2Proof.Machine
end

