-- ==== Sys2Proof/Machine/Composer.lean ====
section
/-! DEFINITION. The Composer (R112 to R119, R128 to R131): how a unit is laid out, the items it gives, the shadow buffer,
and the items a holder queues. -/

namespace Sys2Proof.Machine

/-! ## The text to place (R114) -/

def raiseLetter (c : Ch) : Ch := if 0x61 ≤ c.toNat ∧ c.toNat ≤ 0x7A then c - 0x20#8 else c
def lowerLetter (c : Ch) : Ch := if 0x41 ≤ c.toNat ∧ c.toNat ≤ 0x5A then c + 0x20#8 else c

/-- The first character raised or lowered; with both parts set or clear it is left as written (R114). -/
def treatFirst (f : FormatState) : Text → Text
  | [] => []
  | c :: t =>
    (if f.cap && ! f.lower then raiseLetter c else if f.lower && ! f.cap then lowerLetter c else c) :: t

/-- A leading space is due (R114). -/
def spaceDue (f : FormatState) (a : Attrs) (col : Nat) : Bool :=
  ! (decide (col = 0) || Attrs.attachLeft a || f.attach)

/-! ## Layout. A layout is a list of characters and breaks, a break being `none`. -/

inductive Tok where
  | space
  | word (w : Text)
deriving DecidableEq, Repr

/-- The words and single spaces of a text (R115). -/
def tokens : Text → List Tok
  | [] => []
  | c :: t =>
    if c = spaceCh then .space :: tokens t
    else
      match tokens t with
      | .word w :: r => .word (c :: w) :: r
      | r => .word [c] :: r

/-- The rows of R115 for a word at column `col`; the fuel is the word's length and one (log 29: a column beyond the width
counts as the width). -/
def placeWord (width : Nat) : Nat → Text → Nat → List (Option Ch) × Nat
  | 0, w, col => (w.map some, col + w.length)
  | fuel + 1, w, col =>
    if col + w.length ≤ width then (w.map some, col + w.length)
    else if w.length ≤ width then (none :: w.map some, w.length)
    else if width ≤ col then
      let r := placeWord width fuel w 0
      (none :: r.1, r.2)
    else
      let r := placeWord width fuel (w.drop (width - col)) 0
      ((w.take (width - col)).map some ++ none :: r.1, r.2)

/-- The word that follows a space. -/
def nextWord : List Tok → Option Text
  | .word w :: _ => some w
  | _ => none

/-- The rows of R115 for a space at column `col`: what is placed, and the column after it. -/
def placeSpace (width : Nat) (next : Option Text) (col : Nat) : List (Option Ch) × Nat :=
  match next with
  | some w =>
    if width ≤ col then ([none], 0)
    else if width < col + 1 + w.length ∧ w.length ≤ width then ([none], 0)
    else ([some spaceCh], col + 1)
  | none => if width ≤ col then ([], col) else ([some spaceCh], col + 1)

/-- Wrapping at spaces (R115). -/
def wrapTokens (width : Nat) : List Tok → Nat → List (Option Ch)
  | [], _ => []
  | .space :: r, col =>
    let p := placeSpace width (nextWord r) col
    p.1 ++ wrapTokens width r p.2
  | .word w :: r, col =>
    let p := placeWord width (w.length + 1) w col
    p.1 ++ wrapTokens width r p.2

/-- Character by character, a break whenever the column has reached the width (R116). -/
def fillChars (width : Nat) : Text → Nat → List (Option Ch)
  | [], _ => []
  | c :: t, col => if width ≤ col then none :: some c :: fillChars width t 1 else some c :: fillChars width t (col + 1)

/-- Filling (R116): a break first when the column is at the width or two lines would not hold the sequence. -/
def fillLayout (width : Nat) (space : Bool) (t : Text) (col : Nat) : List (Option Ch) :=
  let seq := if space then spaceCh :: t else t
  if width ≤ col ∨ (width - col) + width < seq.length then none :: fillChars width t 0
  else fillChars width seq col

/-! ## Items (R117) -/

/-- The APPENDs of a segment, 20 characters each; the fuel is the segment's length. -/
def appendsOf : Nat → Pos → Text → List ItemBody
  | 0, _, _ => []
  | fuel + 1, p, t =>
    if t.isEmpty then []
    else .append p (t.take 20) :: appendsOf fuel { p with col := p.col + 20 } (t.drop 20)

/-- The items of a layout that starts a segment at `p`, `acc` being the segment so far. A break on the last RLN ends the
placing (R117). -/
def itemsOf : Pos → Text → List (Option Ch) → List ItemBody
  | p, acc, [] => appendsOf acc.length p acc
  | p, acc, some c :: r => itemsOf p (acc ++ [c]) r
  | p, acc, none :: r =>
    appendsOf acc.length p acc ++
      if Config.rlnMax ≤ p.rln then []
      else .brk { p with col := p.col + acc.length } :: itemsOf { rln := p.rln + 1, col := 0 } [] r

/-- The breaks of a layout. -/
def breaksOf (l : List (Option Ch)) : Nat := (l.filter (fun c => c.isNone)).length

/-- The layout of a unit of text at column `col` (R114 to R116). The items are counted on the whole layout, as if no line
were the last of the RLN range (R117; DESIGN CHOICE, log 72). -/
def layoutUnit (width : Nat) (f : FormatState) (a : Attrs) (t : Text) (col : Nat) : List (Option Ch) :=
  let lead : List (Option Ch) := if Attrs.para a && decide (0 < col) then [none] else []
  let c := if Attrs.para a then 0 else col
  let text := treatFirst f t
  let due := spaceDue f a c
  let wrapped := lead ++ wrapTokens width (tokens (if due then spaceCh :: text else text)) c
  if 6 < (itemsOf { rln := 0, col := col } [] wrapped).length then lead ++ fillLayout width due text c else wrapped

/-- The items of a unit placed at `p`. -/
def unitItems (width : Nat) (f : FormatState) (u : TransUnit) (p : Pos) : List ItemBody :=
  itemsOf p [] (layoutUnit width f u.attrs u.text p.col)

/-- A break of the unit would open a line past the last RLN (R117). -/
def passesRlnMax (width : Nat) (f : FormatState) (u : TransUnit) (p : Pos) : Bool :=
  decide (Config.rlnMax < p.rln + breaksOf (layoutUnit width f u.attrs u.text p.col))

/-- The format state after a unit (R113), also after one whose text R117 left unplaced (DESIGN CHOICE, log 108). -/
def formatAfter (f : FormatState) (t : Text) (a : Attrs) : FormatState :=
  if t.isEmpty then
    { cap := if Attrs.capNext a then true else if Attrs.lowerNext a then false else f.cap
      lower := if Attrs.lowerNext a then true else if Attrs.capNext a then false else f.lower
      attach := f.attach || Attrs.attachRight a }
  else { cap := Attrs.capNext a, lower := Attrs.lowerNext a, attach := Attrs.attachRight a }

/-! ## The shadow buffer (R128, R129) -/

def oldestShadow (ls : List ShadowLine) : Nat :=
  match ls with
  | [] => 0
  | l :: _ => l.num

def shadowEnd (ls : List ShadowLine) : Pos := { rln := (lastShadow ls).num, col := (lastShadow ls).text.length }

def shadowCut (ls : List ShadowLine) (p : Pos) : List ShadowLine :=
  if posLt (shadowEnd ls) p then ls
  else if p.rln < oldestShadow ls then [{ num := p.rln, text := [] }]
  else mapLast (fun l => { l with text := l.text.take p.col }) (ls.filter (fun l => decide (l.num ≤ p.rln)))

def shadowApply (ls : List ShadowLine) (b : ItemBody) : List ShadowLine :=
  match b with
  | .append _ t => mapLast (fun l => { l with text := (l.text ++ t).take Config.lineSize }) ls
  | .brk _ =>
    if Config.rlnMax ≤ (lastShadow ls).num then ls
    else keepLast Config.shadowSize (ls ++ [{ num := (lastShadow ls).num + 1, text := [] }])
  | .cut p => shadowCut ls p
  | .pass _ _ => ls

/-- SHADOW entered afresh (R112, R128). -/
def Composer.enterShadow (c : Composer) : Composer := { c with mode := .shadow, shadow := shadowEntered }

/-- Pen loss: PUBLISH is left for SHADOW, the format state kept (R112). -/
def Composer.leavePublish (c : Composer) : Composer := if c.mode = .publish then c.enterShadow else c

/-- Session open or adoption (R131): SHADOW afresh, format state clear; STOPPED stays. -/
def Composer.sessionReset (c : Composer) : Composer :=
  if c.mode = .stopped then c else { c.enterShadow with fmt := FormatState.clear }

/-- A full stop, a question mark or an exclamation mark (R130). -/
def endsSentence (c : Option Ch) : Bool :=
  match c with
  | some c => decide (c = 0x2E#8) || decide (c = 0x3F#8) || decide (c = 0x21#8)
  | none => false

/-- PUBLISH entered at the record end in an epoch (R112, R130). -/
def Composer.enterPublish (c : Composer) (ls : List RecLine) (epoch : Epoch) : Composer :=
  { c with
    mode := .publish
    epoch := epoch
    fmt := { cap := endsSentence (lastMark ls), lower := false, attach := false } }

/-! ## Items a holder queues (R119, R169) -/

/-- The free places the Link Controller reports (R36, R169). -/
def Pen.freePlaces (p : Pen) : Nat := if p.exhausted then 0 else Config.outboundSize - p.outbound.length

/-- The pen view after an item is queued (R169, R160, R173). -/
def Pen.queued (p : Pen) (i : Item) : Pen :=
  { p with
    nextRsn := p.nextRsn + 1
    applied := i.rsn
    lastStroke := i.time
    outbound := p.outbound ++ [i]
    log := keepLast Config.logSize (p.log ++ [i])
    closing := p.closing || decide (i.rsn = Config.rsnMax)
    exhausted := p.exhausted || decide (i.rsn = Config.rsnMax)
    passPending :=
      match i.body with
      | .pass t e => some { target := t, rsn := i.rsn, recordEnd := e, cut := i.time }
      | _ => p.passPending }

/-- An item given next RSN and the followed epoch, queued, logged and applied (R119, R169); past the RSN range nothing is
queued (log 27). -/
def queueItem (time : LinkTime) (b : ItemBody) (s : State) : State :=
  if Config.rsnMax < s.pen.nextRsn then s
  else
    let i : Item := { rsn := s.pen.nextRsn, epoch := s.pen.epoch, time := time, body := b }
    applyToRecord b i.epoch { s with pen := s.pen.queued i }

def queueItems (time : LinkTime) : List ItemBody → State → State
  | [], s => s
  | b :: l, s => queueItems time l (queueItem time b s)

/-- The holder is to close the session: the RLN range has ended (R117, R156). -/
def askClose (b : Bool) (s : State) : State :=
  if b then { s with pen := { s.pen with closing := true, exhausted := true } } else s

/-- Where the next unit starts: the record end or the shadow end (section 6.2). -/
def currentPos (s : State) : Pos :=
  if s.composer.mode = .publish then s.record.endPos else shadowEnd s.composer.shadow

/-- A unit placed: its items, or its shadow text, then the format state (R113 to R119, R128). A unit none of whose text is
placed, its first break falling on RLN 16,777,215, still sets the format state from its text and attributes, as a placed one
does (DESIGN CHOICE, unsafe, log 108). -/
def placeUnit (u : TransUnit) (s : State) : State :=
  let p := currentPos s
  let f := s.composer.fmt
  let w := s.settings.lineWidth
  let items := if u.text.isEmpty then [] else unitItems w f u p
  let s1 :=
    if s.composer.mode = .publish then
      askClose (! u.text.isEmpty && passesRlnMax w f u p) (queueItems u.time items s)
    else items.foldl (fun t b => setShadow (shadowApply t.composer.shadow b) t) s
  { s1 with composer := { s1.composer with fmt := formatAfter f u.text u.attrs } }

/-- A cut placed, `time` being the last published stroke time (R118, R129). -/
def placeCut (p : Pos) (fmt : FormatState) (time : LinkTime) (s : State) : State :=
  let s1 :=
    if s.composer.mode = .publish then queueItem time (.cut p) s
    else setShadow (shadowCut s.composer.shadow p) s
  { s1 with composer := { s1.composer with fmt := fmt } }

end Sys2Proof.Machine
end

