-- ==== Sys2Proof/Machine/Cache.lean ====
section
/-! DEFINITION. The Entry Cache (R47 to R60): sets, ages, parity, the hold test, examining a set, filling a line, and the
snoop. -/

namespace Sys2Proof.Machine

/-- The set of a key: the sum of its chord values modulo 16 (R48). -/
def setOf (k : Key) : Nat := (k.foldl (fun n c => n + c) 0) % 16

/-! ## Parity (R47; log 46) -/

/-- Whether the number of ones among the low `n` bits is odd. -/
def oddOnes (v : Nat) : Nat → Bool
  | 0 => false
  | n + 1 => v.testBit n ^^ oddOnes v n

/-- The parity bit over key, found flag, text, attributes and extends flag. -/
def parityOf (k : Key) (a : Answer) : Bool :=
  k.foldl (fun b c => b ^^ oddOnes c 23) false ^^ a.found ^^ a.ext ^^ oddOnes a.attrs.toNat 6 ^^
    a.text.foldl (fun b c => b ^^ oddOnes c.toNat 8) false

def CacheLine.parityGood (l : CacheLine) : Bool := decide (l.parity = parityOf l.key l.ans)

/-- A valid line whose parity is wrong (R55). -/
def CacheLine.erring (l : CacheLine) : Bool := l.valid && ! l.parityGood

def CacheLine.invalidate (l : CacheLine) : CacheLine := { l with valid := false }

/-! ## Ages (R49) -/

/-- Ages after the line of age `old` in way `w` is hit or filled. -/
def touch (w old : Nat) (ls : List CacheLine) : List CacheLine :=
  ls.mapIdx (fun i l => if i = w then { l with age := 0 } else if l.age < old then { l with age := l.age + 1 } else l)

def ageAt (ls : List CacheLine) (w : Nat) : Nat := (ls.getD w (CacheLine.reset 0)).age

/-! ## Reading a set -/

/-- Erring lines invalidated (R55). -/
def dropErring (ls : List CacheLine) : List CacheLine := ls.map (fun l => if l.erring then l.invalidate else l)

/-- How many lines of a set err. -/
def erringCount (ls : List CacheLine) : Nat := (ls.filter CacheLine.erring).length

/-- The way of the valid line for a key. -/
def wayOf (k : Key) (ls : List CacheLine) : Option Nat := ls.findIdx? (fun l => l.valid && decide (l.key = k))

/-- The way a fill takes: the lowest invalid one, else the one of age 3 (R53). -/
def wayToFill (ls : List CacheLine) : Nat :=
  match ls.findIdx? (fun l => ! l.valid) with
  | some w => w
  | none => (ls.findIdx? (fun l => decide (l.age = 3))).getD 0

/-- A line filled with an answer (R53). -/
def fillSet (k : Key) (a : Answer) (ls : List CacheLine) : List CacheLine :=
  let w := wayToFill ls
  touch w (ageAt ls w)
    (ls.modify w (fun l => { l with valid := true, key := k, ans := a, parity := parityOf k a }))

def Cache.setAt (c : Cache) (k : Key) : List CacheLine := c.sets.getD (setOf k) []

/-- The set of a key with its erring lines invalidated and counted (R55). -/
def Cache.checkSet (c : Cache) (k : Key) : Cache :=
  { c with
    sets := c.sets.modify (setOf k) dropErring
    parityCount := min (c.parityCount + erringCount (c.setAt k)) 3 }

/-- The answer of the line for a key, if one is valid. -/
def Cache.lookup (c : Cache) (k : Key) : Option Answer :=
  (wayOf k (c.setAt k)).map (fun w => ((c.setAt k).getD w (CacheLine.reset 0)).ans)

/-- A hit makes the line the youngest (R50, R49). -/
def Cache.hit (c : Cache) (k : Key) : Cache :=
  match wayOf k (c.setAt k) with
  | some w => { c with sets := c.sets.modify (setOf k) (touch w (ageAt (c.setAt k) w)) }
  | none => c

/-- A fill (R53). -/
def Cache.fill (c : Cache) (k : Key) (a : Answer) : Cache :=
  { c with sets := c.sets.modify (setOf k) (fillSet k a) }

/-! ## Snoop (R58, R59) -/

/-- Every line for one key invalidated, its set checked for parity first. -/
def Cache.drop (c : Cache) (k : Key) : Cache :=
  { c.checkSet k with
    sets := (c.checkSet k).sets.modify (setOf k)
      (fun ls => ls.map (fun l => if l.valid && decide (l.key = k) then l.invalidate else l)) }

/-- A fill in progress for the key or a proper prefix of it is stale (R59). -/
def LookupPath.afterSnoop (p : LookupPath) (k : Key) : LookupPath :=
  match p with
  | .fetching l stale => .fetching l (stale || decide (l = k) || properPrefix l k)
  | p => p

/-- R58: the snoop of a key. -/
def Cache.snoop (c : Cache) (k : Key) : Cache :=
  let d := (k :: prefixesOf k).foldl Cache.drop c
  { d with path := d.path.afterSnoop k }

/-! ## The hold test (R51) -/

def DefOp.key : DefOp → Key
  | .define k _ _ => k
  | .retire k => k

/-- A queued request bears on a lookup: its key is the lookup's, or has it as a proper prefix. -/
def bearsOn (k : Key) (q : List QueuedReq) : Bool :=
  q.any (fun r => decide (r.op.key = k) || properPrefix k r.op.key)

end Sys2Proof.Machine
end

