-- ==== Sys2Proof/Machine/Translator.lean ====
section
/-! DEFINITION. The Translator (R18 to R43) with the lookups it issues (R50 to R52): taking strokes, resolving the run,
handing over units and cuts, and what each pen event does to it. -/

namespace Sys2Proof.Machine

/-! ## What the Link Controller shows the Translator's release (R158, R159) -/

/-- The plan of the latest beacon. -/
def planOf (s : State) : List (Station × Role) :=
  match s.link.latest with
  | some b => b.plan
  | none => []

/-- The latest header of a station. -/
def headerOf (s : State) (n : Station) : Option Header := (s.link.roster.getD n.val RosterEntry.reset).header

/-- The station's latest header carries PEN-REQ with the followed session. -/
def requestsPen (s : State) (n : Station) : Bool :=
  match headerOf s n with
  | some h => decide (h.request = .penReq) && decide (h.session = s.pen.session)
  | none => false

/-- Another listed station asks for the pen (R158). The own latest header can still carry an old PEN-REQ, and is left out
(DESIGN CHOICE, log 65). -/
def anyRequester (s : State) : Bool :=
  (planOf s).any (fun e => decide (e.1 ≠ s.straps.station) && requestsPen s e.1)

/-- The target of a pass: the first listed writer in plan order, the station itself left out, that asks for the pen (R159;
DESIGN CHOICE, log 65). -/
def passTarget (s : State) : Option Station :=
  ((planOf s).find? (fun e => decide (e.1 ≠ s.straps.station) && decide (e.2 = .writer) && requestsPen s e.1)).map
    Prod.fst

/-- Release cancel (R41): forced release cleared, no PASS to queue. -/
def releaseCancel (s : State) : State :=
  { s with trans := { s.trans with forced := .clear }, pen := { s.pen with passTo := none } }

/-- Release done at the holder with the last published stroke time (R159, R156). -/
def releaseDone (time : LinkTime) (s : State) : State :=
  if s.pen.closing = true ∨ s.pen.state ≠ some .releasing then s
  else
    match passTarget s with
    | some n => { s with pen := { s.pen with passTo := some (n, time) } }
    | none => releaseCancel { s with pen := { s.pen with state := some .holding } }

/-! ## Units -/

/-- The stroke time of a unit (R32). -/
def unitTime (l : List Stroke) : LinkTime :=
  match l.getLast? with
  | some k => if k.unsynced then 0 else k.downTime
  | none => 0

/-- A unit before the Composer has placed it. -/
def newUnit (l : List Stroke) (t : Text) (a : Attrs) : TransUnit :=
  { strokes := l, text := t, attrs := a, time := unitTime l, start := { rln := 0, col := 0 },
    before := FormatState.clear }

/-- The longest prefix found: its answer and its length less one (R23). -/
def longestFound (rs : List Answer) : Option (Answer × Nat) := rs.zipIdx.reverse.find? (fun p => p.1.found)

/-- How many strokes of the run the resolution takes (R23, R24). -/
def resolvedLength (rs : List Answer) : Nat :=
  match longestFound rs with
  | some p => p.2 + 1
  | none => 1

/-- The unit a run gives: the longest found prefix, else an untranslate of its first stroke (R23, R24). -/
def resolvedUnit (run : List Stroke) (rs : List Answer) : TransUnit :=
  match longestFound rs with
  | some p => newUnit (run.take (p.2 + 1)) p.1.text p.1.attrs
  | none => newUnit (run.take 1) (renderChord (match run with | k :: _ => k.chord | [] => 0)) 0

/-- The last published stroke time (R35). -/
def Translator.lastPublished (t : Translator) : LinkTime :=
  match t.undo.getLast? with
  | some u => u.time
  | none => t.floorTime

/-- A unit into the undo history; of 32 the oldest is dropped and, while publishing, sets the floor time (R34). -/
def Translator.remember (t : Translator) (u : TransUnit) : Translator :=
  { t with
    undo := keepLast Config.undoSize (t.undo ++ [u])
    floorTime :=
      if Config.undoSize ≤ t.undo.length ∧ t.publishing = true then
        match t.undo with
        | d :: _ => d.time
        | [] => t.floorTime
      else t.floorTime }

/-! ## Hand-over (R33, R36) -/

/-- A unit or cut handed to the Composer; the strokes of a cut are then put on the re-take list (R30). -/
def handOverNow (h : HandOver) (s : State) : State :=
  match h with
  | .unit u =>
    let s1 := placeUnit u s
    { s1 with trans := s1.trans.remember { u with start := currentPos s, before := s.composer.fmt } }
  | .cut p f again =>
    let s1 := placeCut p f s.trans.lastPublished s
    { s1 with trans := { s1.trans with retake := again ++ s1.trans.retake } }

/-- While publishing a hand-over needs 8 free places; without them the Translator stalls (R36). -/
def mustStall (s : State) : Bool := s.trans.publishing && decide (s.pen.freePlaces < Config.handOverRoom)

def handOver (h : HandOver) (s : State) : State :=
  if mustStall s then { s with trans := { s.trans with mode := .stalled, handOver := some h } }
  else handOverNow h s

/-! ## Resolving (R23, R24, R27) -/

/-- The run resolved from its recorded results; no run, nothing to resolve. -/
def resolveRun (s : State) : State :=
  if s.trans.run.isEmpty then s
  else
    handOver (.unit (resolvedUnit s.trans.run s.trans.results))
      { s with trans :=
        { s.trans with
          run := [], results := [], settle := none
          retake := s.trans.run.drop (resolvedLength s.trans.results) ++ s.trans.retake } }

/-- Nothing is left to release (R41). -/
def nothingToRelease (s : State) : Bool :=
  decide (s.trans.forced = .set) && decide (s.trans.mode = .ready) && s.trans.retake.isEmpty && s.trans.run.isEmpty

def reportRelease (s : State) : State :=
  if nothingToRelease s then
    releaseDone s.trans.lastPublished { s with trans := { s.trans with forced := .reported } }
  else s

/-- Under forced release, in READY with nothing to re-take, a waiting run is resolved; then release done is reported when
all is empty (R41). -/
def releaseCheck (s : State) : State :=
  if s.trans.forced = .set ∧ s.trans.mode = .ready ∧ s.trans.retake = [] then reportRelease (resolveRun s) else s

/-! ## Replay (R38) -/

/-- The replay end, none when nothing is to be replayed (R39). -/
def replayEndOf (j : Journal) : Option Nat := if j.readPoint < j.nextSn then some j.nextSn else none

def startReplay (cut : LinkTime) (s : State) : State :=
  let j := s.journal.search cut
  refreshScreen
    { s with
      journal := j
      trans := { s.trans with mode := .ready, grant := none, replayEnd := replayEndOf j }
      composer := s.composer.enterPublish s.record.lines s.pen.epoch }

/-- The Translator acts on a grant (R37). -/
def actOnGrant (cut : LinkTime) (s : State) : State :=
  if s.pen.state = some .catchingUp then { s with trans := { s.trans with mode := .catchingUp } }
  else startReplay cut s

/-! ## Lookups (R20, R21, R50, R51) -/

/-- A waiting run's timer, armed from the full settle time (R26). -/
def armed (s : State) : Option Nat := if s.settings.settle = 0 then none else some s.settings.settle

/-- A lookup result reaches the Translator (R21, R41). -/
def lookupDone (a : Answer) (s : State) : State :=
  if s.trans.discard then
    let s1 := { s with trans := { s.trans with discard := false, mode := .ready } }
    releaseCheck
      (match s.trans.grant with
       | some cut => actOnGrant cut s1
       | none => s1)
  else
    let s1 := { s with trans := { s.trans with mode := .ready, results := s.trans.results ++ [a] } }
    releaseCheck
      (if a.ext = true ∧ s.trans.forced ≠ .set then
        { s1 with trans := { s1.trans with settle := armed s } }
       else resolveRun s1)

/-- A lookup examined: a hit is answered at once, a miss waits for the store controller (R50, R52). -/
def examine (k : Key) (s : State) : State :=
  let c := s.cache.checkSet k
  match c.lookup k with
  | some a => lookupDone a { s with cache := { c.hit k with path := .idle } }
  | none => { s with cache := { c with path := .fetching k false } }

/-- A lookup of the whole run (R20): held while a queued request bears on it (R51). -/
def issueLookup (s : State) : State :=
  let k := keyOfStrokes s.trans.run
  let s1 := { s with trans := { s.trans with mode := .looking } }
  if bearsOn k s.ctl.queue then { s1 with cache := { s1.cache with path := .held k } } else examine k s1

/-- A request has left the define queue: a held lookup is tested again (R51). -/
def retestHeld (s : State) : State :=
  match s.cache.path with
  | .held k => if bearsOn k s.ctl.queue then s else examine k s
  | _ => s

/-! ## Taking a stroke (R19, R29 to R31) -/

/-- A retract with a run (R29). -/
def retractInRun (s : State) : State :=
  { s with trans :=
    { s.trans with
      run := s.trans.run.dropLast
      results := s.trans.results.take (s.trans.run.length - 1)
      settle := if s.trans.run.length ≤ 1 then none else armed s } }

/-- A retract with no run: the newest unit is taken back (R30), or nothing is (R31). -/
def retractUnit (s : State) : State :=
  match s.trans.undo.getLast? with
  | some u =>
    handOver (.cut u.start u.before u.strokes.dropLast)
      { s with trans := { s.trans with undo := s.trans.undo.dropLast } }
  | none => s

/-- A stroke taken: a retract, or the run's newest stroke and a lookup (R19, R20). -/
def useStroke (k : Stroke) (s : State) : State :=
  let s1 := { s with trans := { s.trans with settle := none } }
  if k.retract then (if s.trans.run.isEmpty then retractUnit s1 else retractInRun s1)
  else issueLookup { s1 with trans := { s1.trans with run := s1.trans.run ++ [k] } }

/-- The read point moved by a take; the replay ends when it reaches the replay end (R13, R39). -/
def advanceRead (s : State) : State :=
  { s with
    journal := s.journal.advance
    trans := { s.trans with replayEnd := if s.trans.replayEnd = some (s.journal.readPoint + 1) then none
                                         else s.trans.replayEnd } }

/-- R19: in READY the re-take list first, then, without forced release, the journal. -/
def takeStroke (s : State) : State :=
  if s.trans.mode ≠ .ready then s
  else
    match s.trans.retake with
    | k :: rest => releaseCheck (useStroke k { s with trans := { s.trans with retake := rest } })
    | [] =>
      if s.trans.forced ≠ .clear then s
      else
        match s.journal.atReadPoint with
        | some k => useStroke k (advanceRead s)
        | none => s

/-- The settle timer has run out with a run waiting (R26, R27). -/
def settleExpired (s : State) : Bool :=
  decide (s.trans.settle = some 0) && decide (s.trans.mode = .ready) && s.trans.retake.isEmpty &&
    ! s.trans.run.isEmpty

/-- R27. -/
def settleExpiry (s : State) : State := if settleExpired s then releaseCheck (resolveRun s) else s

/-- R36: the pending hand-over made once 8 places are free. -/
def spaceFree (s : State) : State :=
  match s.trans.handOver with
  | some h =>
    if s.trans.mode = .stalled ∧ mustStall s = false then
      releaseCheck (handOverNow h { s with trans := { s.trans with mode := .ready, handOver := none } })
    else s
  | none => s

/-! ## Pen events (R37 to R43) -/

/-- R37, R42: a grant or a void-pass return with its cut time. -/
def penGrant (cut : LinkTime) (s : State) : State :=
  if s.trans.mode = .stopped ∨ s.trans.mode = .scanWait then s
  else
    let t : Translator :=
      { s.trans with
        run := [], results := [], retake := [], undo := [], settle := none, handOver := none
        forced := .clear, publishing := true, floorTime := cut, grant := some cut
        discard := s.trans.discard || decide (s.trans.mode = .looking) }
    if s.trans.mode = .looking then { s with trans := t } else actOnGrant cut { s with trans := t }

/-- R168, R38: catch-up complete. -/
def catchUpComplete (s : State) : State :=
  match s.trans.grant with
  | some cut => if s.trans.mode = .catchingUp then startReplay cut s else s
  | none => s

/-- R40: what a pen loss leaves of the Translator, the pending hand-over aside. -/
def Translator.afterLoss (t : Translator) : Translator :=
  { t with publishing := false, undo := [], forced := .clear, replayEnd := none, grant := none, handOver := none
           mode := if t.mode = .stalled ∨ t.mode = .catchingUp then .ready else t.mode }

/-- R40, R112: pen loss. A pending unit goes to the shadow buffer; a pending cut is discarded, its strokes re-taken. -/
def transLoss (s : State) : State :=
  let s1 := refreshScreen { s with trans := s.trans.afterLoss, composer := s.composer.leavePublish }
  match s.trans.handOver with
  | some (.unit u) => handOverNow (.unit u) s1
  | some (.cut _ _ again) => { s1 with trans := { s1.trans with retake := again ++ s1.trans.retake } }
  | none => s1

/-- R41: release for pass. -/
def releaseForPass (s : State) : State :=
  if s.trans.forced = .clear then releaseCheck { s with trans := { s.trans with forced := .set } } else s

/-- R43: session open and session adoption. -/
def Translator.sessionReset (t : Translator) : Translator :=
  { t with
    run := [], results := [], retake := [], undo := [], settle := none, handOver := none
    forced := .clear, publishing := false, replayEnd := none, floorTime := 0, grant := none
    discard := t.discard || decide (t.mode = .looking)
    mode := if t.mode = .stalled ∨ t.mode = .catchingUp then .ready else t.mode }

/-- Translator, Composer, Record Store and view at a session open or adoption (R43, R131, R191). -/
def Screen.sessionReset (sc : Screen) : Screen :=
  { sc with view := .live, idle := none, newText := false, pendingStart := none, markRefused := false }

def sessionReset (s : State) : State :=
  refreshScreen
    { s with
      trans := s.trans.sessionReset
      composer := s.composer.sessionReset
      record := Record.cleared
      screen := s.screen.sessionReset }

end Sys2Proof.Machine
end

