-- ==== Sys2Proof/Machine/Pen.lean ====
section
/-! DEFINITION. The pen side of the Link Controller (chapter 8): sessions, the writer pen states, passing, epochs and their
adoption, items coming in, resends, and what a station says in its header. -/

namespace Sys2Proof.Machine

/-! ## Headers (R142, R172, R176) -/

/-- The need: applied-through plus one while the reorder list is not empty (R172). -/
def Pen.need (p : Pen) : Nat := if p.reorder.isEmpty then 0 else p.applied + 1

/-- The states of a holder that publishes or passes. -/
def holdsPen (p : PenState) : Bool :=
  decide (p = .holding) || decide (p = .releasing) || decide (p = .catchingUp) || decide (p = .handing)

def publishes (p : PenState) : Bool := decide (p = .holding) || decide (p = .releasing)

/-- CLOSE-REQ at a holder: closing, released where a release was asked for, the outbound queue empty (R156). -/
def closeReq (s : State) : Bool :=
  (match s.pen.state with
   | some p => holdsPen p
   | none => false) &&
  s.pen.closing && s.pen.outbound.isEmpty && (s.pen.exhausted || decide (s.trans.forced = .reported))

/-- The request of a header: OPEN-REQ while held, PEN-REQ in REQUESTING, CLOSE-REQ at a closing holder; a display sends
none (R176). -/
def requestOf (s : State) : ReqCode :=
  if s.straps.role = .display then .none
  else if s.pen.openReq then .openReq
  else if s.pen.state = some .requesting then .penReq
  else if closeReq s then .closeReq
  else .none

/-- The header formed from the pen view as it stands (R176). -/
def formHeader (joined : Bool) (s : State) : Header where
  station := s.straps.station
  role := s.straps.role
  joined := joined
  request := requestOf s
  applied := s.pen.applied
  need := s.pen.need
  recordEnd := s.record.endPos
  lastStroke := s.pen.lastStroke
  session := s.pen.session
  epoch := s.pen.epoch

/-! ## Releasing and passing (R157 to R159) -/

/-- The handoff quiet time has been reached (R158). -/
def quietReached (s : State) : Bool := decide (s.settings.handoff * 1000 ≤ s.pen.strokeQuiet)

/-- A pass begins in RELEASING unless the session is closing (R158, R159). -/
def beginPass (s : State) : State :=
  if s.pen.state = some .releasing ∧ s.pen.closing = false then releaseForPass s else s

/-- HOLDING to RELEASING, the pass beginning at once when the stroke-quiet count stands high enough (R158). -/
def enterReleasing (s : State) : State :=
  let s1 := { s with pen := { s.pen with state := some .releasing } }
  if quietReached s then beginPass s1 else s1

/-- RELEASING back to HOLDING when no requester remains; a closing holder stays (R158). -/
def releasingReturn (s : State) : State :=
  if s.pen.state = some .releasing ∧ s.pen.closing = false ∧ anyRequester s = false then
    releaseCancel { s with pen := { s.pen with state := some .holding } }
  else s

/-- A header of a listed station reaches the pen side (R158). -/
def headerToPen (h : Header) (s : State) : State :=
  if s.pen.state = some .holding ∧ h.request = .penReq ∧ h.role = .writer ∧ h.session = s.pen.session ∧
      h.station ≠ s.straps.station then enterReleasing s
  else releasingReturn s

/-- R157: RELIEF. -/
def relief (s : State) : State :=
  match s.pen.state with
  | some .shadow => { s with pen := { s.pen with state := some .requesting } }
  | some .requesting =>
    match s.pen.passPending with
    | some p =>
      if p.target = s.straps.station then s else { s with pen := { s.pen with state := some .shadow } }
    | none => { s with pen := { s.pen with state := some .shadow } }
  | some .releasing => beginPass s
  | _ => s

/-- HANDOFF_QUIET_REACHED is to be taken (R158). -/
def handoffDue (s : State) : Bool :=
  decide (s.pen.state = some .releasing) && ! s.pen.closing && decide (s.trans.forced = .clear) && quietReached s

def handoffQuiet (s : State) : State := if handoffDue s then beginPass s else s

/-- A PASS can be queued: its target is chosen, a place is free, the RSN range has not ended (R159, R169). -/
def passReady (s : State) : Bool :=
  decide (s.pen.state = some .releasing) && ! s.pen.closing && s.pen.passTo.isSome &&
    decide (s.pen.outbound.length < Config.outboundSize) && decide (s.pen.nextRsn ≤ Config.rsnMax)

/-- R159: the PASS queued and applied, HANDING entered, the Translator given pen loss. -/
def queuePass (s : State) : State :=
  match s.pen.passTo with
  | some (n, time) =>
    if passReady s then
      let s1 := queueItem time (.pass n s.record.endPos) s
      transLoss { s1 with pen := { s1.pen with state := some .handing, passTo := none } }
    else s
  | none => s

/-! ## Sessions (R154 to R156) -/

/-- R154: OPEN-SESSION taken. -/
def openSession (s : State) : State :=
  let s1 := sessionReset { s with journal := Journal.emptied }
  { s1 with pen := { s1.pen with openReq := true, left := none, markQueue := [] } }

/-- R156: CLOSE-SESSION in SHADOW or REQUESTING. -/
def leaveSession (s : State) : State :=
  { s with pen := { s.pen with state := some .outside, left := some s.pen.session, session := 0 } }

/-- R156: CLOSE-SESSION at a holder: closing set, the Translator released, no pass to begin. -/
def closeAsHolder (s : State) : State :=
  releaseForPass { s with pen := { s.pen with closing := true, passTo := none } }

/-! ## Pen loss and epochs (R163 to R167) -/

/-- The HANDING writer's own pass is granted by this beacon (R166). -/
def ownPassGranted (b : Beacon) (s : State) : Bool :=
  match s.pen.passPending with
  | some p =>
    decide (s.pen.state = some .handing) && decide (b.holder = some p.target) && decide (b.startRsn = p.rsn + 1) &&
      decide (b.session = s.pen.session)
  | none => false

/-- R166: the pen lost, `quiet` when its own pass is granted, `outside` at a session close. -/
def penLoss (quiet outside : Bool) (s : State) : State :=
  match s.pen.state with
  | none => s
  | some p =>
    if holdsPen p then
      let s1 := { s with pen := { s.pen with state := some (if outside then .outside else .shadow),
                                             outbound := [], passTo := none } }
      raiseIf (! quiet) .penLost (if p = .handing then s1 else transLoss s1)
    else s

/-- The beacon names a new epoch of the followed session (R163). -/
def newEpoch (b : Beacon) (s : State) : Bool :=
  b.holder.isSome && (decide (b.epoch ≠ s.pen.epoch) || decide (b.holder ≠ s.pen.holder))

/-- Applied-through counted up to `l`, as a GAP does (R164, R168, R175). -/
def countApplied (l : Nat) (s : State) : State := { s with pen := { s.pen with applied := l } }

/-- An inbound item applied and logged (R172, R160, R173). -/
def Pen.tookItem (p : Pen) (i : Item) : Pen :=
  { p with
    applied := i.rsn
    lastStroke := i.time
    log := keepLast Config.logSize (p.log ++ [i])
    passPending :=
      match i.body with
      | .pass t e => some { target := t, rsn := i.rsn, recordEnd := e, cut := i.time }
      | _ => p.passPending }

def applyItem (i : Item) (s : State) : State := applyToRecord i.body i.epoch { s with pen := s.pen.tookItem i }

/-- The reorder list applied from its lowest item while that is the next RSN (R172). -/
def drainReorder : List Item → State → State
  | [], s => { s with pen := { s.pen with reorder := [] } }
  | i :: l, s =>
    if i.rsn = s.pen.applied + 1 then drainReorder l (applyItem i s)
    else { s with pen := { s.pen with reorder := i :: l } }

/-- An item of the reorder list belongs to the epoch that a beacon names. An epoch is a number with its holder (R163), and
the list holds items of the followed epoch, sent by its holder (R171): none of them belongs to an epoch of the same number
under another holder. -/
def Pen.inEpochOf (p : Pen) (b : Beacon) (i : Item) : Bool :=
  decide (i.epoch = b.epoch) && (decide (p.epoch ≠ b.epoch) || decide (p.holder = b.holder))

/-- R164, steps 1 to 6, then the reorder list is applied from the new applied-through (log 25). -/
def adoptEpoch (b : Beacon) (s : State) : State :=
  let s1 := if posLt b.startPos s.record.endPos then applyToRecord (.cut b.startPos) b.epoch s else s
  let keep := s1.pen.reorder.filter (fun i => decide (b.startRsn ≤ i.rsn) && s1.pen.inEpochOf b i)
  drainReorder keep
    { s1 with pen :=
      { s1.pen with
        applied := b.startRsn - 1
        reorder := keep
        log := s1.pen.log.filter (fun i => decide (i.rsn < b.startRsn))
        passPending := none, lastStroke := b.cut
        epoch := b.epoch, holder := b.holder, startRsn := b.startRsn, startPos := b.startPos, cut := b.cut
        sentRsn := 0 } }

/-- A holder with closing set queues no item but the units of its release (R156). A grant has ended the release of an
earlier holding, so a holder that was closing is given release for pass again where it would start to publish; where the
RSN or RLN range has ended it stalls and is not released (log 26). -/
def closingRelease (s : State) : State :=
  if s.pen.closing = true ∧ s.pen.exhausted = false ∧ s.pen.state = some .holding then releaseForPass s else s

/-- R165: the grant at the writer a new epoch names. -/
def takeGrant (b : Beacon) (applied : Nat) (s : State) : State :=
  let behind := decide (applied < b.startRsn - 1)
  closingRelease
    (penGrant b.cut
      (refreshScreen
        { s with
          pen := { s.pen with state := some (if behind then .catchingUp else .holding), nextRsn := b.startRsn }
          composer := if behind then s.composer.leavePublish else s.composer }))

/-- A new epoch adopted, with the grant when it names this station (R164, R165). -/
def newEpochTaken (b : Beacon) (s : State) : State :=
  if b.holder = some s.straps.station ∧ s.pen.state.isSome = true then
    let s1 := { s with pen := { s.pen with outbound := [], passTo := none } }
    takeGrant b s.pen.applied (adoptEpoch b s1)
  else adoptEpoch b s

/-- The target of the pass pending is not in the plan of a beacon of the followed epoch's number (R160, R167). -/
def passTargetGone (b : Beacon) (s : State) : Bool :=
  match s.pen.passPending with
  | some p => decide (b.epoch = s.pen.epoch) && ! b.plan.any (fun e => decide (e.1 = p.target))
  | none => false

/-- R167: the void-pass return of a HANDING writer; every other station sets pass pending to none (R160). -/
def voidPass (b : Beacon) (s : State) : State :=
  match s.pen.passPending with
  | some p =>
    if passTargetGone b s then
      if s.pen.state = some .handing ∧ b.holder = some s.straps.station then
        penGrant p.cut { s with pen := { s.pen with passPending := none, state := some .holding } }
      else { s with pen := { s.pen with passPending := none } }
    else s
  | none => s

/-- R155: a session adopted, its grant aside. The line set at a start position other than (0, 0) takes the beacon's epoch
number as its tag, in place of a CUT's epoch (R124; DESIGN CHOICE, log 83). -/
def adoptSession (b : Beacon) (s : State) : State :=
  let s1 := sessionReset (if b.holder = some s.straps.station then s else { s with journal := Journal.emptied })
  let lines := if b.startPos = { rln := 0, col := 0 } then s1.record.lines
    else [{ RecLine.fresh b.startPos.rln b.epoch with text := spaces b.startPos.col, gap := true }]
  raise .sessionChange (refreshScreen
    { s1 with
      record := { s1.record with lines := lines }
      pen := { s1.pen with
        session := b.session, epoch := b.epoch, holder := b.holder
        startRsn := b.startRsn, startPos := b.startPos, cut := b.cut
        applied := b.startRsn - 1, lastStroke := b.cut
        state := s1.pen.state.map (fun _ => .shadow)
        closing := false, exhausted := false, passPending := none, noneSince := none, openReq := false
        passTo := none, sentRsn := 0, outbound := [], log := [], reorder := [], markQueue := [] } })

/-- R155 with the grant of R165 when the beacon names this writer. -/
def sessionTaken (b : Beacon) (s : State) : State :=
  let s1 := adoptSession b s
  if b.holder = some s.straps.station ∧ s.pen.state.isSome = true then takeGrant b (b.startRsn - 1) s1 else s1

/-- R156, R188, R191: a beacon with session 0. -/
def sessionZero (s : State) : State :=
  let s1 := { s with pen := { s.pen with left := none } }
  if s.pen.session = 0 then s1
  else
    raise .sessionChange
      { s1 with
        pen := { s1.pen with
          session := 0, reorder := [], outbound := [], passPending := none, passTo := none
          markQueue := [], state := s1.pen.state.map (fun _ => .outside) }
        screen := { s1.screen with pendingStart := none, markRefused := false } }

/-- R162: none-since follows the beacons taken. -/
def trackNone (b : Beacon) (s : State) : State :=
  { s with pen := { s.pen with noneSince :=
      if b.session ≠ 0 ∧ b.holder = none then some (s.pen.noneSince.getD b.time) else none } }

/-- The beacon ends this writer's holding: session 0, NONE or another holder (R166). -/
def takesPenAway (b : Beacon) (s : State) : Bool :=
  decide (b.session = 0) || decide (b.holder ≠ some s.straps.station)

/-- A beacon of the followed session (R163 to R167, R158, R160). -/
def followedBeacon (b : Beacon) (s : State) : State :=
  if newEpoch b s then newEpochTaken b s else releasingReturn (voidPass b s)

/-- The session and epoch of a beacon, once any pen loss has been dealt with (R155, R156, R163). -/
def sessionOfBeacon (b : Beacon) (s : State) : State :=
  if b.session = 0 then sessionZero s
  else if b.session = s.pen.session then followedBeacon b s
  else if s.pen.left = some b.session then s
  else sessionTaken b s

/-- The holder a beacon names differs from the one in the latest beacon before it (R165; log 23). -/
def holderChanged (before : Option Beacon) (b : Beacon) : Bool :=
  decide ((match before with | some p => p.holder | none => none) ≠ b.holder)

/-- A beacon handed to the pen side (R143). -/
def beaconToPen (before : Option Beacon) (b : Beacon) (s : State) : State :=
  let s1 := raiseIf (holderChanged before b) .penChange s
  let s2 := if takesPenAway b s1 then penLoss (ownPassGranted b s1) (decide (b.session = 0)) s1 else s1
  trackNone b (sessionOfBeacon b s2)

/-! ## Items coming in (R171, R172, R175) -/

/-- An item into the reorder list in RSN order, none twice, at most 16 (R172). -/
def insertReorder (i : Item) : List Item → List Item
  | [] => [i]
  | j :: l => if i.rsn < j.rsn then i :: j :: l else if i.rsn = j.rsn then j :: l else j :: insertReorder i l

def Pen.reordered (p : Pen) (i : Item) : Pen :=
  if Config.reorderSize ≤ p.reorder.length then p else { p with reorder := insertReorder i p.reorder }

/-- The station judges items: it follows a session and is no writer OUTSIDE (R171). -/
def judgesItems (s : State) : Bool := decide (s.pen.session ≠ 0) && decide (s.pen.state ≠ some .outside)

/-- R171: an item of the stream is accepted from the holder of the latest beacon, in its epoch, under a header with the
followed session. -/
def acceptsItem (h : Header) (epoch : Epoch) (s : State) : Bool :=
  judgesItems s && decide (h.session = s.pen.session) &&
    match s.link.latest with
    | some b => decide (b.holder = some h.station) && decide (b.epoch = epoch)
    | none => false

/-- R172: an accepted item applied, kept in the reorder list, or discarded. -/
def itemIn (i : Item) (s : State) : State :=
  if i.rsn = s.pen.applied + 1 then
    let s1 := applyItem i s
    drainReorder s1.pen.reorder s1
  else if i.rsn ≤ s.pen.applied then s
  else { s with pen := s.pen.reordered i }

/-- R175: an accepted GAP. -/
def gapIn (g : GapItem) (s : State) : State :=
  if g.first ≤ s.pen.applied + 1 ∧ s.pen.applied + 1 ≤ g.last then
    drainReorder (s.pen.reorder.filter (fun i => decide (g.last < i.rsn))) (countApplied g.last s)
  else s

/-- R171: a MARK is accepted from a listed sender under a header with the followed session. -/
def acceptsMark (h : Header) (s : State) : Bool :=
  judgesItems s && decide (h.session = s.pen.session) && (planOf s).any (fun e => decide (e.1 = h.station))

/-! ## Resends and catching up (R168, R174) -/

/-- The lowest of some numbers. -/
def lowest : List Nat → Option Nat
  | [] => none
  | n :: l =>
    match lowest l with
    | some m => some (min n m)
    | none => some n

/-- The needs the holder looks at (R174). -/
def needsOf (s : State) : List Nat :=
  (planOf s).filterMap (fun e =>
    if e.1 = s.straps.station then none
    else
      match headerOf s e.1 with
      | some h =>
        if h.session = s.pen.session ∧ h.epoch = s.pen.epoch ∧ s.pen.startRsn ≤ h.need ∧ h.need ≤ s.pen.sentRsn then
          some h.need
        else none
      | none => none)

def logAt (p : Pen) (rsn : Nat) : Option Item := p.log.find? (fun i => decide (i.rsn = rsn))

/-- The cells of an item (chapter 11). -/
def Item.cells (i : Item) : Nat :=
  match i.body with
  | .append _ _ => 2
  | _ => 1

/-- Items from the log from RSN `n` on, each whole, while they fit and have been counted sent (R174); the fuel is the
cells left. -/
def resendRun (p : Pen) : Nat → Nat → Nat → List TxUnit
  | 0, _, _ => []
  | fuel + 1, n, cells =>
    if p.sentRsn < n then []
    else
      match logAt p n with
      | some i => if i.cells ≤ cells then .resend i :: resendRun p fuel (n + 1) (cells - i.cells) else []
      | none => []

/-- The resends for need `n`: from the log, or a GAP to the next RSN it holds and on from there (R174). -/
def resendsFor (p : Pen) (n : Nat) : List TxUnit :=
  match logAt p n with
  | some _ => resendRun p Config.resendBudget n Config.resendBudget
  | none =>
    match lowest ((p.log.filter (fun i => decide (n < i.rsn))).map Item.rsn) with
    | some m =>
      .gap { first := n, last := m - 1, epoch := p.epoch } ::
        resendRun p Config.resendBudget m (Config.resendBudget - 1)
    | none => []

/-- R174: the resends of a window. -/
def resendsOf (s : State) : List TxUnit :=
  match lowest (needsOf s) with
  | some n => resendsFor s.pen n
  | none => []

/-- R168: a CATCHING-UP writer catches up at the beginning of its window. The lines its fill opens take the followed epoch's
number as their tag, in place of an item's epoch (R125; DESIGN CHOICE, log 82). -/
def catchUp (s : State) : State :=
  if s.pen.state = some .catchingUp then
    let s1 := fillRecord s.pen.startPos s.pen.epoch (countApplied (max s.pen.applied (s.pen.startRsn - 1)) s)
    closingRelease (catchUpComplete { s1 with pen := { s1.pen with state := some .holding } })
  else s

end Sys2Proof.Machine
end

