-- ==== Sys2Proof/Machine/Cells.lean ====
section
/-! DEFINITION. The cells of the Bench Link (R204, chapter 11): a cell's 128 data bits as a number, the field widths of
every kind, encoding what the station sends, decoding and checking what it receives. -/

namespace Sys2Proof.Machine

/-! ## Layouts: every field from the kind bits on, the unused bits last -/

def wordsLayout : List Nat := [32, 32, 32, 32]
def headerLayout : List Nat := [1, 1, 1, 3, 2, 24, 1, 24, 7, 32, 16, 16]
def beaconLayout : List Nat := [4, 3, 4, 8, 8, 16, 16, 32, 32, 5]
def contLayout : List Nat := [4, 16, 24, 24, 7, 53]
def halfLayout : List Nat := [4, 124]
def appendHeadLayout : List Nat := [24, 16, 32, 24, 7]
def placesLayout : List Nat := List.replicate 20 7
/-- The payload of an APPEND: 248 bits over both cells. -/
def appendLayout : List Nat := appendHeadLayout ++ (placesLayout ++ [5])
def breakLayout : List Nat := [4, 24, 16, 32, 24, 7, 21]
def passLayout : List Nat := [4, 24, 16, 32, 24, 7, 3, 18]
def gapLayout : List Nat := [4, 24, 24, 16, 60]
def markLayout : List Nat := [4, 3, 8, 24, 24, 65]

/-! ## Received words -/

/-- The 128 data bits of a cell, the first word highest. -/
def cellValue (c : RxCell) : Nat :=
  pack wordsLayout [c.w0.bits.toNat, c.w1.bits.toNat, c.w2.bits.toNat, c.w3.bits.toNat]

def cellWords (c : RxCell) : List RxWord := [c.w0, c.w1, c.w2, c.w3]

/-- No word is uncorrectable (R134). -/
def cellUsable (c : RxCell) : Bool := (cellWords c).all (fun w => decide (w.cls ≠ .uncorrectable))

/-- How many words were corrected (R134). -/
def cellCorrections (c : RxCell) : Nat := ((cellWords c).filter (fun w => decide (w.cls = .corrected))).length

/-- How many words of the cells of a unit were corrected (R134). -/
def corrections (cs : List RxCell) : Nat := (cs.map cellCorrections).sum

/-! ## Field values -/

def stationOf (n : Nat) : Station := Fin.ofNat 8 n

/-- A position of a cell; a column above 64 is no position (R204). -/
def posOf (rln col : Nat) : Option Pos := if col ≤ 64 then some { rln := rln, col := col } else none

/-! ## Headers -/

def ReqCode.code : ReqCode → Nat
  | .none => 0
  | .penReq => 1
  | .openReq => 2
  | .closeReq => 3

/-- A request code in a display's header is read as none (R204). -/
def reqOf (r : Role) (n : Nat) : ReqCode :=
  match r with
  | .display => .none
  | .writer => if n = 1 then .penReq else if n = 2 then .openReq else if n = 3 then .closeReq else .none

def roleBit : Role → Nat
  | .writer => 1
  | .display => 0

def encodeHeader (h : Header) : Nat :=
  pack headerLayout
    [1, cond h.joined 1 0, roleBit h.role, h.station.val, h.request.code, h.applied, if h.need = 0 then 0 else 1,
     h.recordEnd.rln, h.recordEnd.col, h.lastStroke.toNat, h.session.toNat, h.epoch.toNat]

def decodeHeader (v : Nat) : Option Header :=
  match unpack headerLayout v with
  | [k, j, r, st, q, ap, nd, rln, col, ls, se, ep] =>
    if k = 1 then
      (posOf rln col).map (fun p =>
        let role : Role := if r = 1 then .writer else .display
        { station := stationOf st, role := role, joined := decide (j = 1), request := reqOf role q, applied := ap
          need := if nd = 1 then ap + 1 else 0
          recordEnd := p, lastStroke := BitVec.ofNat 32 ls, session := BitVec.ofNat 16 se
          epoch := BitVec.ofNat 16 ep })
    else none
  | _ => none

/-! ## Beacons -/

def allStations : List Station := [0, 1, 2, 3, 4, 5, 6, 7]

/-- The present mask: bit i for each listed station (R204). -/
def presentMask (plan : List (Station × Role)) : Nat :=
  natOfBits (allStations.map (fun i => plan.any (fun e => decide (e.1 = i))))

/-- The writer mask (R204). -/
def writerMask (plan : List (Station × Role)) : Nat :=
  natOfBits (allStations.map (fun i => plan.any (fun e => decide (e.1 = i) && decide (e.2 = .writer))))

def planOfMasks (present writers : Nat) : List (Station × Role) :=
  (allStations.filter (fun i => present.testBit i.val)).map (fun i =>
    (i, if writers.testBit i.val then .writer else .display))

/-- The holder code; 15 is NONE (R204). -/
def holderCode : Option Station → Nat
  | some n => n.val
  | none => 15

/-- A holder code that may be taken: 0 to 7, or 15 (R204). -/
def holderOf (n : Nat) : Option (Option Station) :=
  if n = 15 then some none else if n < 8 then some (some (stationOf n)) else none

def encodeBeacon (b : Beacon) : Nat :=
  pack beaconLayout
    [0, b.timekeeper.val, holderCode b.holder, presentMask b.plan, writerMask b.plan, b.round.toNat, b.session.toNat,
     b.time.toNat, b.cut.toNat, 0]

def encodeCont (b : Beacon) : Nat :=
  pack contLayout [1, b.epoch.toNat, b.startRsn, b.startPos.rln, b.startPos.col, 0]

def inPlan (plan : List (Station × Role)) (n : Station) : Bool := plan.any (fun e => decide (e.1 = n))

/-- The named holder, if any, is in the plan (R144, R204). -/
def holderInPlan (plan : List (Station × Role)) : Option Station → Bool
  | none => true
  | some n => inPlan plan n

/-- The timekeeper that the first cell of a beacon names, when that cell is not discarded: a holder code that may be taken, a
present mask that is not empty and lists the timekeeper and the holder (R134, R204). -/
def beaconNames (v : Nat) : Option Station :=
  match unpack beaconLayout v with
  | [k, tk, ho, pr, wr, _, _, _, _, _] =>
    if k = 0 ∧ pr ≠ 0 then
      match holderOf ho with
      | some h =>
        if inPlan (planOfMasks pr wr) (stationOf tk) && holderInPlan (planOfMasks pr wr) h then some (stationOf tk)
        else none
      | none => none
    else none
  | _ => none

def decodeBeacon (v c : Nat) : Option Beacon :=
  match unpack beaconLayout v, unpack contLayout c with
  | [k, tk, ho, pr, wr, ro, se, ti, cu, _], [k2, ep, rsn, rln, col, _] =>
    if k = 0 ∧ k2 = 1 ∧ rsn ≠ 0 ∧ pr ≠ 0 then
      match holderOf ho, posOf rln col with
      | some h, some p =>
        let plan := planOfMasks pr wr
        if inPlan plan (stationOf tk) && holderInPlan plan h then
          some
            { timekeeper := stationOf tk, round := BitVec.ofNat 16 ro, time := BitVec.ofNat 32 ti
              session := BitVec.ofNat 16 se, holder := h, epoch := BitVec.ofNat 16 ep, startRsn := rsn, startPos := p
              cut := BitVec.ofNat 32 cu, plan := plan }
        else none
      | _, _ => none
    else none
  | _, _ => none

/-! ## Items -/

/-- The 20 places of an APPEND's text (R204). -/
def placesOf (t : Text) : List Nat := (t.map BitVec.toNat ++ List.replicate 20 0).take 20

/-- The text of 20 places: from the first up to the first 0, every later place 0, every character printable (R204). -/
def textOfPlaces (l : List Nat) : Option Text :=
  let t := l.takeWhile (fun n => decide (n ≠ 0))
  if t.isEmpty ∨ ¬ (l.drop t.length).all (fun n => decide (n = 0)) ∨
      ¬ t.all (fun n => decide (0x20 ≤ n) && decide (n ≤ 0x7E)) then none
  else some (t.map (BitVec.ofNat 8))

/-- The payload of an APPEND over both cells. -/
def appendPayload (i : Item) (p : Pos) (t : Text) : Nat :=
  pack appendLayout ([i.rsn, i.epoch.toNat, i.time.toNat, p.rln, p.col] ++ (placesOf t ++ [0]))

/-- The cells of an item, in order (R204). -/
def encodeItem (i : Item) : List Nat :=
  match i.body with
  | .append p t =>
    let v := appendPayload i p t
    [pack halfLayout [2, v / 2 ^ 124], pack halfLayout [1, v % 2 ^ 124]]
  | .brk p => [pack breakLayout [3, i.rsn, i.epoch.toNat, i.time.toNat, p.rln, p.col, 0]]
  | .cut p => [pack breakLayout [4, i.rsn, i.epoch.toNat, i.time.toNat, p.rln, p.col, 0]]
  | .pass n e => [pack passLayout [5, i.rsn, i.epoch.toNat, i.time.toNat, e.rln, e.col, n.val, 0]]

def decodeAppendPayload (v : Nat) : Option Item :=
  match unpack appendLayout v with
  | rsn :: ep :: ti :: rln :: col :: places =>
    match posOf rln col, textOfPlaces (places.take 20) with
    | some p, some t =>
      some { rsn := rsn, epoch := BitVec.ofNat 16 ep, time := BitVec.ofNat 32 ti, body := .append p t }
    | _, _ => none
  | _ => none

def decodeAppend (v c : Nat) : Option Item :=
  match unpack halfLayout v, unpack halfLayout c with
  | [k, a], [k2, b] => if k = 2 ∧ k2 = 1 then decodeAppendPayload (a * 2 ^ 124 + b) else none
  | _, _ => none

/-- A BREAK (kind 3) or a CUT (kind 4). -/
def decodeAt (kind : Nat) (body : Pos → ItemBody) (v : Nat) : Option Item :=
  match unpack breakLayout v with
  | [k, rsn, ep, ti, rln, col, _] =>
    if k = kind then
      (posOf rln col).map (fun p =>
        { rsn := rsn, epoch := BitVec.ofNat 16 ep, time := BitVec.ofNat 32 ti, body := body p })
    else none
  | _ => none

def decodeBreak (v : Nat) : Option Item := decodeAt 3 .brk v
def decodeCut (v : Nat) : Option Item := decodeAt 4 .cut v

def decodePass (v : Nat) : Option Item :=
  match unpack passLayout v with
  | [k, rsn, ep, ti, rln, col, n, _] =>
    if k = 5 then
      (posOf rln col).map (fun p =>
        { rsn := rsn, epoch := BitVec.ofNat 16 ep, time := BitVec.ofNat 32 ti, body := .pass (stationOf n) p })
    else none
  | _ => none

def encodeGap (g : GapItem) : Nat := pack gapLayout [6, g.first, g.last, g.epoch.toNat, 0]

def decodeGap (v : Nat) : Option GapItem :=
  match unpack gapLayout v with
  | [k, f, l, ep, _] =>
    if k = 6 ∧ f ≠ 0 ∧ f ≤ l then some { first := f, last := l, epoch := BitVec.ofNat 16 ep } else none
  | _ => none

def encodeMark (m : MarkItem) : Nat := pack markLayout [7, m.origin.val, m.id.toNat, m.first, m.last, 0]

def decodeMark (v : Nat) : Option MarkItem :=
  match unpack markLayout v with
  | [k, o, i, f, l, _] =>
    if k = 7 ∧ f ≤ l then some { origin := stationOf o, id := BitVec.ofNat 8 i, first := f, last := l } else none
  | _ => none

/-- The cells of a unit in flight. -/
def TxUnit.cellValues : TxUnit → List Nat
  | .resend i => encodeItem i
  | .item i => encodeItem i
  | .gap g => [encodeGap g]
  | .mark m => [encodeMark m]

/-- What the station drives on the pair: the header, then the unit in flight (an output). -/
def Sending.driven (d : Sending) : List Nat :=
  encodeHeader d.header :: (match d.current with | some u => u.cellValues | none => [])

end Sys2Proof.Machine
end

