-- ==== Sys2Proof/Machine/Link.lean ====
section
/-! DEFINITION. The carrier side of the Link Controller (chapter 7): rounds and windows, the roster, taking and composing
beacons, the election, what is received and what is sent. -/

namespace Sys2Proof.Machine

/-- The station judges what the pair carries (R134, R136). -/
def hears (s : State) : Bool := decide (s.link.mode = .listen) || decide (s.link.mode = .joined)

/-- The entry of a station changed. -/
def Link.setEntry (l : Link) (n : Station) (f : RosterEntry → RosterEntry) : Link :=
  { l with roster := l.roster.modify n.val f }

/-- The round in which a header is taken: the number of the latest beacon taken, also where the station has not taken the
beacon of the round in progress, and what was held before when none was taken (DESIGN CHOICE, log 92). -/
def Link.roundOr (l : Link) (old : Round) : Round :=
  match l.latest with
  | some b => b.round
  | none => old

/-- A header into a roster entry (R142). -/
def Link.recordHeader (l : Link) (h : Header) (corrected : Nat) : Link :=
  l.setEntry h.station (fun e =>
    { e with header := some h, round := l.roundOr e.round, silent := 0, corrected := min (e.corrected + corrected) 255 })

/-- Corrected words counted for a sender; its own entry keeps 0 (R134, R147; log 19). -/
def Link.countCorrected (l : Link) (own n : Station) (k : Nat) : Link :=
  if n = own then l else l.setEntry n (fun e => { e with corrected := min (e.corrected + k) 255 })

/-- The corrected words of cells counted for their sender, whether the cells are then taken or discarded; for a sender that
cannot be known nothing is counted (R134; DEDUCED, log 19). -/
def countWords (sender : Option Station) (cs : List RxCell) (s : State) : State :=
  match sender with
  | some n => { s with link := s.link.countCorrected s.straps.station n (corrections cs) }
  | none => s

/-! ## Silent counts (R145) -/

/-- The stations whose windows have begun in the round. Windows that a header moved the count past (R139) are among them,
so a round cut short counts them too (DESIGN CHOICE, log 64). -/
def Link.begun (l : Link) : List Station :=
  match l.latest with
  | none => []
  | some b =>
    match l.phase with
    | .window left => (b.plan.map Prod.fst).filter (fun n => ! left.tail.contains n)
    | .joinSlot => b.plan.map Prod.fst
    | _ => []

/-- The counts at the end of a round, or of a round cut short: a listed station whose window had begun and whose header
was not taken is one round more silent. -/
def Link.countSilent (l : Link) (own : Station) : Link :=
  { l with roster := l.roster.mapIdx (fun i e =>
      if i = own.val ∨ ¬ l.begun.contains (stationOf i) then e
      else if l.heard.contains (stationOf i) then { e with silent := 0 }
      else { e with silent := min (e.silent + 1) 4 }) }

/-! ## The Link state (R136 to R138) -/

def setMode (m : LinkMode) (s : State) : State :=
  raiseIf (decide (s.link.mode ≠ m)) .linkState { s with link := { s.link with mode := m } }

/-- R138: off the Link until reset; a holder loses the pen (R166). -/
def enterDuplicate (s : State) : State :=
  penLoss false false
    (setMode .duplicate
      { s with link :=
        { s.link with
          role := .following, quiet := none, backoff := .stopped, wasTimekeeper := false
          phase := .none, rx := .idle, busy := false, sending := none } })

/-- R137, after a beacon whose plan lists the station or does not. -/
def followPlan (listed : Bool) (s : State) : State :=
  if listed then setMode .joined s
  else
    if s.link.mode = .joined then setMode .listen { s with link := { s.link with listenCount := 0 } }
    else { s with link := { s.link with listenCount := min (s.link.listenCount + 1) 2 } }

/-! ## Taking a beacon (R143) -/

/-- The roster entry of station `i` after a plan. -/
def entryAfterPlan (plan : List (Station × Role)) (n : Station) (e : RosterEntry) : RosterEntry :=
  match plan.find? (fun p => decide (p.1 = n)) with
  | some p => { e with listed := true, role := some p.2 }
  | none =>
    if e.listed then { e with listed := false, role := none, silent := 0, header := none }
    else { e with listed := false, role := none }

def Link.applyPlan (l : Link) (plan : List (Station × Role)) : Link :=
  { l with roster := l.roster.mapIdx (fun i e => entryAfterPlan plan (stationOf i) e) }

/-- The carrier side after a beacon: the round begins, the timers start again (R139, R143, R148). -/
def Link.beginRound (l : Link) (own : Bool) (b : Beacon) : Link :=
  { l with
    latest := some b
    role := if own then .timekeeper else .following
    quiet := if own then none else some Config.quietMs
    backoff := .stopped, wasTimekeeper := false
    phase := .beacon, heard := [], joiner := none, sending := none
    rx := .beacon
    busy := true
    sinceBeacon := if own then 0 else l.sinceBeacon }

/-- A beacon taken, the station's own when `own` (R143, R149). -/
def takeBeacon (own : Bool) (b : Beacon) (s : State) : State :=
  let before := s.link.latest
  let s1 := { s with
    clock := { linkTime := b.time, synced := true }
    link := ((s.link.countSilent s.straps.station).beginRound own b).applyPlan b.plan }
  beaconToPen before b (followPlan (inPlan b.plan s.straps.station) s1)

/-! ## Composing beacons (R144, R149, R155, R161, R162) -/

/-- The new plan: listed stations whose silent count is below `limit`, the joiner, and the station itself. -/
def composePlan (limit : Nat) (s : State) : List (Station × Role) :=
  allStations.filterMap (fun i =>
    if i = s.straps.station then some (i, s.straps.role)
    else
      match (planOf s).find? (fun e => decide (e.1 = i)) with
      | some e => if (s.link.roster.getD i.val RosterEntry.reset).silent < limit then some e else none
      | none =>
        match s.link.joiner with
        | some (n, r) => if n = i then some (n, r) else none
        | none => none)

/-- An epoch raised by one; 65,535 is followed by 1 (R163). -/
def nextEpoch (e : Epoch) : Epoch := if e = BitVec.allOnes 16 then 1 else e + 1

/-- The writers of a plan whose latest header satisfies `p`, in plan order, with that header. -/
def writersWith (p : Header → Bool) (plan : List (Station × Role)) (s : State) : List (Station × Header) :=
  plan.filterMap (fun e =>
    match headerOf s e.1 with
    | some h => if e.2 = .writer ∧ p h = true then some (e.1, h) else none
    | none => none)

/-- A header shows the session and the epoch number the station follows; a station that follows no session finds none that
does (R161, R162; log 22). -/
def showsFollowed (h : Header) (s : State) : Bool :=
  decide (s.pen.session ≠ 0) && decide (h.session = s.pen.session) && decide (h.epoch = s.pen.epoch)

/-- R162: a station that may be granted the pen under NONE. -/
def isCandidate (s : State) (h : Header) : Bool := h.joined && showsFollowed h s

/-- The member with the latest last stroke time, the first on a tie. Times are compared as plain numbers, also across the
wrap of Link time (DESIGN CHOICE, log 66). -/
def latestStroke : List (Station × Header) → Option (Station × Header)
  | [] => none
  | c :: l =>
    match latestStroke l with
    | some d => if c.2.lastStroke.toNat < d.2.lastStroke.toNat then some d else some c
    | none => some c

/-- R155: the fields of the beacon after one with session 0. -/
def openingBeacon (b n : Beacon) (s : State) : Beacon :=
  match (writersWith (fun h => decide (h.request = .openReq)) n.plan s).filter (fun c => inPlan b.plan c.1) with
  | c :: _ =>
    { n with session := if b.round = 0 then 1 else b.round, holder := some c.1, epoch := 1, startRsn := 1,
             startPos := { rln := 0, col := 0 }, cut := 0 }
  | [] => { n with session := 0, holder := none }

/-- R162: a grant to a candidate. After applied-through 16,777,215 the start RSN is 16,777,216, which no cell carries
(DESIGN CHOICE, log 67). -/
def grantTo (b n : Beacon) (c : Station × Header) : Beacon :=
  { n with holder := some c.1, epoch := nextEpoch b.epoch, startRsn := c.2.applied + 1, startPos := c.2.recordEnd,
           cut := c.2.lastStroke }

/-- A second of NONE has passed (R162), by plain numbers: none-since plus 1000 does not wrap with Link time (DESIGN CHOICE,
log 66). -/
def noneSecond (s : State) : Bool :=
  match s.pen.noneSince with
  | some t => decide (t.toNat + 1000 ≤ s.clock.linkTime.toNat)
  | none => false

/-- R162: the fields of the beacon after one with pen NONE. -/
def noneBeacon (b n : Beacon) (s : State) : Beacon :=
  let cs := writersWith (isCandidate s) n.plan s
  match cs.filter (fun c => decide (c.2.request = .penReq)) with
  | c :: _ => grantTo b n c
  | [] =>
    if noneSecond s then
      match latestStroke cs with
      | some c => grantTo b n c
      | none => n
    else n

/-- The target of the pass pending shows the PASS applied (R161, case 2). -/
def targetReady (p : PassPending) (s : State) : Bool :=
  match headerOf s p.target with
  | some h => showsFollowed h s && decide (p.rsn ≤ h.applied)
  | none => false

/-- The holder's latest header carries CLOSE-REQ (R156). -/
def holderCloses (n : Station) (s : State) : Bool :=
  match headerOf s n with
  | some h => decide (h.request = .closeReq)
  | none => false

/-- R161, cases 4 and 5. -/
def keepHolder (n : Beacon) (h : Station) : Beacon := if inPlan n.plan h then n else { n with holder := none }

/-- R161: the fields of the beacon after one with holder `h`; a PASS of RSN 16,777,215 gives start RSN 16,777,216 (DESIGN
CHOICE, log 67). -/
def holderBeacon (b n : Beacon) (h : Station) (s : State) : Beacon :=
  if inPlan n.plan h ∧ holderCloses h s = true then { n with session := 0, holder := none }
  else
    match s.pen.passPending with
    | some p =>
      if inPlan n.plan p.target ∧ targetReady p s = true then
        { n with holder := some p.target, epoch := nextEpoch b.epoch, startRsn := p.rsn + 1, startPos := p.recordEnd,
                 cut := p.cut }
      else keepHolder n h
    | none => keepHolder n h

/-- R144: beacon n+1 of a timekeeper, from beacon n. -/
def composeNext (b : Beacon) (s : State) : Beacon :=
  let n := { b with timekeeper := s.straps.station, round := b.round + 1, time := s.clock.linkTime,
                    plan := composePlan 4 s }
  if b.session = 0 then openingBeacon b n s
  else
    match b.holder with
    | some h => holderBeacon b n h s
    | none => noneBeacon b n s

/-- R149: the first beacon of a new timekeeper. -/
def composeFirst (s : State) : Beacon :=
  let plan := composePlan 1 s
  match s.link.latest with
  | some b =>
    let n := { b with timekeeper := s.straps.station, round := b.round + 1, time := s.clock.linkTime, plan := plan }
    if holderInPlan plan b.holder then n else { n with holder := none }
  | none =>
    { timekeeper := s.straps.station, round := 0, time := s.clock.linkTime, session := 0, holder := none, epoch := 0,
      startRsn := 1, startPos := { rln := 0, col := 0 }, cut := 0, plan := plan }

/-- The station composes under R144: as TIMEKEEPER, or when it was one (R148). -/
def composesNext (s : State) : Bool := decide (s.link.role = .timekeeper) || s.link.wasTimekeeper

/-- The beacon the station sends now: under R144 as TIMEKEEPER or when it was one, under R149 otherwise (R148). -/
def composeBeacon (s : State) : Beacon :=
  match s.link.latest with
  | some b => if composesNext s then composeNext b s else composeFirst s
  | none => composeFirst s

/-- The pair is idle: nothing has been heard since the absent gap, and no transmission of the station's own is being sent
(R133, R144, R148). -/
def pairFree (s : State) : Bool := ! s.link.busy && s.link.sending.isNone

/-- BEACON_DUE is to be taken (R144). -/
def beaconDue (s : State) : Bool :=
  hears s && decide (s.link.role = .timekeeper) && decide (s.link.phase = .ended) &&
    decide (Config.beaconMs ≤ s.link.sinceBeacon) && pairFree s

/-- The backoff has less than a tick left (R148; log 13). -/
def backoffOver (b : Backoff) : Bool :=
  match b with
  | .running n => decide (n < Config.bitsPerTick)
  | _ => false

/-- BACKOFF_EXPIRY is to be taken; while the pair carries a transmission, the station's own window included, it waits for
the absent gap after it (R148). -/
def backoffDue (s : State) : Bool :=
  hears s && decide (s.link.role = .backoff) && backoffOver s.link.backoff && pairFree s

/-- R161, case 3, at the beacon composed from `b`: a pass is pending and its target is not in the new plan. -/
def voidsPass (b : Beacon) (s : State) : Bool :=
  composesNext s && decide (b.session ≠ 0) &&
    match b.holder, s.pen.passPending with
    | some h, some p =>
      ! (inPlan (composePlan 4 s) h && holderCloses h s) && ! inPlan (composePlan 4 s) p.target
    | _, _ => false

/-- A pass that is void at the timekeeper is no longer pending (R161, case 3). -/
def dropVoidPass (s t : State) : State :=
  match s.link.latest with
  | some b => if voidsPass b s then { t with pen := { t.pen with passPending := none } } else t
  | none => t

/-- The beacon composed, sent and taken (R144, R149). A pass void under R161 is dropped after the beacon is taken, since a
HANDING timekeeper takes its own void-pass return from that beacon (R167). -/
def sendBeacon (s : State) : State := dropVoidPass s (takeBeacon true (composeBeacon s) s)

/-- The backoff of a station, in bit times (R148). -/
def backoffBits (n : Station) : Nat := 4000 + 2000 * n.val

/-- QUIET_TIMER_EXPIRY is to be taken (R148). -/
def quietOver (s : State) : Bool := hears s && decide (s.link.role = .following) && decide (s.link.quiet = some 0)

def quietExpiry (s : State) : State :=
  if quietOver s then
    { s with link := { s.link with role := .backoff, quiet := none, wasTimekeeper := false,
                                   backoff := .running (backoffBits s.straps.station) } }
  else s

/-- R150: a beacon that met a collision. What the pair carries until the absent gap belongs to no transmission (R134). -/
def beaconCollided (s : State) : State :=
  { s with link :=
    { s.link with
      wasTimekeeper := s.link.wasTimekeeper || decide (s.link.role = .timekeeper)
      role := .backoff, quiet := none, backoff := .awaitIdle, busy := true, rx := .unknown } }

/-! ## The own transmissions (R133, R140, R141, R170) -/

/-- The next unit of a window: resends, then one MARK, then outbound items for a holder; MARKs for another station
(R170). -/
def nextUnit (d : Sending) (s : State) : Sending :=
  match d.resends with
  | u :: r => { d with current := some u, resends := r, cells := d.cells - u.cellValues.length }
  | [] =>
    match s.pen.markQueue with
    | m :: _ =>
      if 0 < d.cells ∧ (d.asHolder = false ∨ d.markLeft = true) then
        { d with current := some (.mark m), markLeft := false, cells := d.cells - 1 }
      else nextItem d s
    | [] => nextItem d s
where
  /-- The head of the outbound queue when it fits in what is left (R170). -/
  nextItem (d : Sending) (s : State) : Sending :=
    match s.pen.outbound with
    | i :: _ =>
      if d.asHolder = true ∧ i.cells ≤ d.cells then
        { d with current := some (.item i), markLeft := false, cells := d.cells - i.cells }
      else { d with current := none, markLeft := false }
    | [] => { d with current := none, markLeft := false }

/-- The latest beacon names the station as holder (R141, R170). -/
def namedHolder (s : State) : Bool :=
  match s.link.latest with
  | some b => decide (b.holder = some s.straps.station)
  | none => false

/-- WINDOW_SEND: the station's window begins, after any catching up (R168, R170). -/
def beginWindow (s : State) : State :=
  let s1 := catchUp s
  let holder := namedHolder s1
  let d : Sending :=
    { join := false, header := formHeader true s1, current := none
      resends := if holder then resendsOf s1 else [], markLeft := true
      cells := if holder then Config.holderBudget else Config.otherBudget, asHolder := holder }
  { s1 with link := { s1.link with sending := some (nextUnit d s1) } }

/-- R146: the station may send in this join slot. -/
def mayJoin (s : State) : Bool :=
  decide (s.link.mode = .listen) && decide (s.link.listenCount = 2) &&
    match s.link.latest with
    | some b => decide (b.round.toNat % 8 = s.straps.station.val)
    | none => false

def beginJoinSlot (s : State) : State :=
  let s1 := { s with link := { s.link with phase := .joinSlot } }
  if mayJoin s1 then
    { s1 with link :=
      { s1.link with
        sending := some
          { join := true, header := formHeader false s1, current := none, resends := [], markLeft := false, cells := 0
            asHolder := false } } }
  else s1

/-- The windows that are left begin with the first; when none is left the join slot begins (R139). -/
def beginWindows (left : List Station) (s : State) : State :=
  match left with
  | [] => beginJoinSlot s
  | n :: _ =>
    let s1 := { s with link := { s.link with phase := .window left } }
    if n = s.straps.station ∧ s.link.mode = .joined then beginWindow s1 else s1

/-- The round ends (R139, R145). -/
def endRound (s : State) : State :=
  { s with link := { s.link.countSilent s.straps.station with phase := .ended } }

/-- What follows when a part of the round is over (R139). -/
def nextPart (s : State) : State :=
  match s.link.phase with
  | .none => s
  | .beacon => beginWindows ((planOf s).map Prod.fst) s
  | .window left => beginWindows left.tail s
  | .joinSlot => endRound s
  | .ended => s

/-- The own header, sent whole, into the own roster entry; the own counts stay 0 (R147). -/
def recordOwn (h : Header) (s : State) : State :=
  { s with link := s.link.setEntry s.straps.station (fun e =>
      { e with header := some h, round := s.link.roundOr e.round }) }

/-- A unit is in flight. -/
def inFlight (s : State) : Bool :=
  match s.link.sending with
  | some d => d.current.isSome
  | none => false

/-- The own transmission is over: its header is recorded. -/
def endOwn (s : State) : State :=
  match s.link.sending with
  | some d =>
    let s1 := recordOwn d.header s
    { s1 with link := { s1.link with sending := none } }
  | none => s

/-- The pair is idle: nothing is heard, and a backoff that waited for it starts (R133, R150). -/
def pairIdle (s : State) : State :=
  { s with link :=
    { s.link with
      busy := false, rx := .idle
      backoff := if s.link.backoff = .awaitIdle then .running (backoffBits s.straps.station) else s.link.backoff } }

/-- R133: the absent gap has passed. A station that is still driving a unit hears no gap. -/
def absentGap (s : State) : State := if hears s ∧ inFlight s = false then nextPart (pairIdle (endOwn s)) else s

/-- A unit counted sent (R135, R170, R189). -/
def unitSent (u : TxUnit) (s : State) : State :=
  match u with
  | .mark m =>
    applyMark m { s with pen := { s.pen with markQueue := if s.pen.markQueue.head? = some m then s.pen.markQueue.tail
                                                          else s.pen.markQueue } }
  | .item i =>
    { s with pen := { s.pen with
      outbound := if s.pen.outbound.head? = some i then s.pen.outbound.tail else s.pen.outbound
      sentRsn := i.rsn } }
  | _ => s

/-- R135: all cells of the unit in flight were sent. -/
def itemSent (s : State) : State :=
  match s.link.sending with
  | some d =>
    match d.current with
    | some u =>
      let s1 := unitSent u (recordOwn d.header s)
      { s1 with link := { s1.link with sending := some (nextUnit d s1) } }
    | none => s
  | none => s

/-- R135, R138, R150: a read-back mismatch. A cell heard after it and before the absent gap opens no transmission (R133,
R134). -/
def collide (onHeader : Bool) (s : State) : State :=
  match s.link.sending with
  | some d =>
    if d.join then enterDuplicate s
    else
      let s1 := if onHeader then s else recordOwn d.header s
      { s1 with link := { s1.link with sending := none, busy := true, rx := .unknown } }
  | none => if beaconDue s || backoffDue s then beaconCollided s else s

/-! ## What is received (R134, R139, R141, R142, R151) -/

/-- The station takes cells now: it hears, and is not driving the pair itself (R134). -/
def receives (s : State) : Bool := hears s && s.link.sending.isNone

/-- The sender of a cell that is not a beacon's: the station named in the header that opened the transmission (R134). -/
def Rx.sender (r : Rx) : Option Station :=
  match r with
  | .window h _ => some h.station
  | _ => none

/-- A cell heard and discarded (R134): what it opened has no known sender, what it stood in goes on. -/
def Rx.afterDiscard (r : Rx) (cells : Nat) : Rx :=
  match r with
  | .window h n => .window h (n + cells)
  | _ => .unknown

def discardCells (cells : Nat) (s : State) : State :=
  { s with link := { s.link with busy := true, rx := s.link.rx.afterDiscard cells } }

/-- Cells discarded whose words have been judged: the corrected ones count for the transmission's sender (R134). -/
def discardJudged (cs : List RxCell) (s : State) : State := discardCells cs.length (countWords s.link.rx.sender cs s)

/-- A transmission whose opening cell was discarded. -/
def unknownSender (s : State) : State := { s with link := { s.link with busy := true, rx := .unknown } }

/-- R139, R146: the window a header stands for, or the joiner it names. -/
def Link.placeHeader (l : Link) (h : Header) : Link :=
  match l.latest with
  | none => l
  | some b =>
    if inPlan b.plan h.station then
      match l.phase with
      | .none => l
      | .ended => l
      | _ => { l with phase := .window ((b.plan.map Prod.fst).dropWhile (fun n => decide (n ≠ h.station))) }
    else if l.phase = .joinSlot ∧ h.station.val = b.round.toNat % 8 then { l with joiner := some (h.station, h.role) }
    else l

/-- R142: a clean header taken. -/
def takeHeader (h : Header) (corrected : Nat) (s : State) : State :=
  let l := (s.link.recordHeader h corrected).placeHeader h
  let s1 := { s with link := { l with busy := true, rx := .window h 0, heard := h.station :: l.heard } }
  if inPlan (planOf s1) h.station then headerToPen h s1 else s1

/-- The header of a cell, when it may be taken (R134, R204). -/
def headerIn (c : RxCell) : Option Header := if cellUsable c then decodeHeader (cellValue c) else none

/-- A cell that is taken only where it opens a transmission, a header or the first of a beacon, opens one here: nothing has
been heard since the absent gap (R133, R134). -/
def opensHere (s : State) : Bool := decide (s.link.rx = .idle)

/-- HEADER_RECEIVED (R142, R138). A header in the middle of a transmission does not belong there and is discarded (R134). -/
def headerReceived (c : RxCell) (s : State) : State :=
  if ! receives s then s
  else if ! opensHere s then discardJudged [c] s
  else
    match headerIn c with
    | some h =>
      if h.station = s.straps.station then (if s.link.mode = .listen then enterDuplicate s else unknownSender s)
      else takeHeader h (cellCorrections c) s
    | none => unknownSender s

/-- The beacon of two cells, when both are taken (R134, R143, R204). -/
def beaconIn (c1 c2 : RxCell) : Option Beacon :=
  if cellUsable c1 && cellUsable c2 then decodeBeacon (cellValue c1) (cellValue c2) else none

/-- A TIMEKEEPER carries on against a higher number (R151). -/
def carriesOn (b : Beacon) (s : State) : Bool :=
  decide (s.link.role = .timekeeper) && decide (s.straps.station.val < b.timekeeper.val)

/-- The sender of a beacon's cells: the timekeeper named in its first cell. Where that cell is discarded, no sender is known
(R134). -/
def beaconSender (c1 : RxCell) : Option Station := if cellUsable c1 then beaconNames (cellValue c1) else none

/-- BEACON_RECEIVED (R143, R138, R151). Beacon cells in the middle of a transmission do not belong there and are discarded;
the first of them names no known sender then, and nothing is counted (R134; DEDUCED, log 19). -/
def beaconReceived (c1 c2 : RxCell) (s : State) : State :=
  if ! receives s then s
  else if ! opensHere s then discardCells 2 s
  else
    let s1 := countWords (beaconSender c1) [c1, c2] s
    match beaconIn c1 c2 with
    | some b =>
      if b.timekeeper = s.straps.station then enterDuplicate s1
      else if carriesOn b s then { s1 with link := { s1.link with busy := true, rx := .beacon } }
      else takeBeacon false b s1
    | none => unknownSender s1

/-- The cells of a window a receiver takes after the header (R141). -/
def budgetOf (h : Header) (s : State) : Nat :=
  match s.link.latest with
  | some b => if b.holder = some h.station then Config.holderBudget else Config.otherBudget
  | none => Config.otherBudget

/-- The cells of an item handed up: they count against the window's budget, are discarded past it or when they cannot be
taken, and reach the pen side with the window's header (R134, R141, R171). Their corrected words are counted for the window's
owner in either case (R134). -/
def cellsReceived (cs : List RxCell) (take : Option (Header → State → State)) (s : State) : State :=
  if receives s then
    match s.link.rx, take with
    | .window h n, some f =>
      if cs.all cellUsable && decide (n + cs.length ≤ budgetOf h s) then
        let s1 := countWords (some h.station) cs s
        f h { s1 with link := { s1.link with busy := true, rx := .window h (n + cs.length) } }
      else discardJudged cs s
    | _, _ => discardJudged cs s
  else s

/-- An item of the record stream, judged and applied (R171, R172). -/
def streamItem (i : Item) (h : Header) (s : State) : State := if acceptsItem h i.epoch s then itemIn i s else s

def streamGap (g : GapItem) (h : Header) (s : State) : State := if acceptsItem h g.epoch s then gapIn g s else s

def streamMark (m : MarkItem) (h : Header) (s : State) : State := if acceptsMark h s then applyMark m s else s

/-- CELL_DISCARDED (R134). The command carries no word, so none is counted; a cell whose words have been judged comes as
the command of its kind (DEDUCED, log 19). -/
def cellDiscarded (s : State) : State := if receives s then discardCells 1 s else s

end Sys2Proof.Machine
end

