-- ==== Sys2Proof/Machine/StoreWords.lean ====
section
/-! DEFINITION. The words of the store (R63 to R71, R205): marks, classes, layouts, reading with faults counted, and
programming by pulses. -/

namespace Sys2Proof.Machine

/-! ## Fault record (R84) -/

def FaultRecord.count (f : FaultRecord) : FaultKind → FaultRecord
  | .corrected => { f with corrected := satInc f.corrected 255 }
  | .uncorrectable => { f with uncorrectable := satInc f.uncorrectable 255 }
  | .programFail => { f with programFail := satInc f.programFail 255 }
  | .eraseFail => { f with eraseFail := satInc f.eraseFail 255 }

/-- A fault counted; the first one since the record was cleared is kept (R84). -/
def FaultRecord.add (f : FaultRecord) (n : FirstFault) : FaultRecord :=
  { f.count n.kind with first := some (f.first.getD n) }

/-- A store fault met: counted, and all but CORRECTED raise STORE-FAULT (R67, R71, R75, R84). -/
def noteFault (kind : FaultKind) (sector word : Nat) (s : State) : State :=
  let n : FirstFault := { sector := sector, word := word, kind := kind, time := s.clock.linkTime }
  raiseIf (decide (kind ≠ .corrected)) .storeFault { s with ctl := { s.ctl with fault := s.ctl.fault.add n } }

/-! ## Classes (R67; log 9) -/

inductive WordClass where
  | erased
  | clean
  | corrected
  | uncorrectable
deriving DecidableEq, Repr

def classOf (w : StoreWord) : WordClass :=
  match w.check with
  | .erased => if w.bits = BitVec.allOnes 32 then .erased else .uncorrectable
  | .agrees => .clean
  | .oneWrong => .corrected
  | .twoWrong => .uncorrectable

/-- The mark bits of an entry header word (R205). -/
def entryMarkBits : BitVec 32 := 511#32 <<< 23

/-- An entry header word with its mark bits taken as 1, as it is judged (R205). -/
def unmarked (w : StoreWord) : StoreWord := { w with bits := w.bits ||| entryMarkBits }

/-- A word of which nothing is programmed. -/
def isBlank (w : StoreWord) : Bool := decide (classOf w = .erased)

/-! ## Marks (R63): three copies in adjacent bits, the first at bit `hi`; 0 is programmed -/

def markMask (hi : Nat) : BitVec 32 := 7#32 <<< (hi - 2)

/-- How many copies read programmed. -/
def copiesSet (bits : BitVec 32) (hi : Nat) : Nat :=
  (cond (bits.getLsbD hi) 0 1) + (cond (bits.getLsbD (hi - 1)) 0 1) + (cond (bits.getLsbD (hi - 2)) 0 1)

/-- A mark reads set with two or three copies programmed (R63). -/
def markSet (bits : BitVec 32) (hi : Nat) : Bool := decide (2 ≤ copiesSet bits hi)

/-- One of the marks WRITING, LIVE and RETIRED of an entry header word reads set (R63, R205). -/
def entryMarked (w : StoreWord) : Bool := markSet w.bits 31 || markSet w.bits 28 || markSet w.bits 25

/-- An entry header word that reads erased: the end of a sector's entries (R66). Its mark bits are taken as 1 (R205), and a
header on which WRITING reads set never reads erased (R66), nor does one on which LIVE or RETIRED does: an entry stands
there (DEDUCED, log 95). -/
def isBlankHeader (w : StoreWord) : Bool := decide (classOf (unmarked w) = .erased) && ! entryMarked w

/-- A mark: its word and its first bit (R205). -/
structure Mark where
  word : Nat
  hi : Nat
deriving DecidableEq, Repr

def markBase : Mark := { word := 1, hi := 31 }
def markSession : Mark := { word := 1, hi := 28 }
def markConfig : Mark := { word := 1, hi := 25 }
def markBadSector : Mark := { word := 1, hi := 22 }
def markKeyed : Mark := { word := 2, hi := 31 }
def markClosed : Mark := { word := 2, hi := 28 }
def markActive : Mark := { word := 2, hi := 31 }
def markFull : Mark := { word := 2, hi := 28 }
def markCopyTarget : Mark := { word := 2, hi := 25 }
def markSealed : Mark := { word := 2, hi := 22 }
def markReleased : Mark := { word := 2, hi := 19 }
def markProtectA : Mark := { word := 2, hi := 31 }
def markProtectB : Mark := { word := 2, hi := 28 }
def markUnprotectPending : Mark := { word := 2, hi := 25 }
def markBaseCleared : Mark := { word := 2, hi := 22 }

/-- The marks of an entry or config record header at word `w` (R66, R205). -/
def writingAt (w : Nat) : Mark := { word := w, hi := 31 }
def liveAt (w : Nat) : Mark := { word := w, hi := 28 }
def retiredAt (w : Nat) : Mark := { word := w, hi := 25 }

def wordAt (s : State) (sector word : Nat) : StoreWord := s.store.read (addrOf sector word)

/-- A mark of a sector as it reads. -/
def readsMark (s : State) (sector : Nat) (m : Mark) : Bool := markSet (wordAt s sector m.word).bits m.hi

/-! ## Layouts (R205) -/

/-- The partition code of a sector (R62, R205). -/
def partitionOf (sector : Nat) : Nat :=
  if sector < Config.firstSession then 1 else if sector < Config.configSector then 2 else 3

/-- The fields of a format word: sector and partition (R205). Its other bits are not looked at, so a word with one of them
set is still the sector's number and partition of R64 (DESIGN CHOICE, unsafe, log 104). -/
def formatFields (v : BitVec 32) : Nat × Nat := (v.toNat / 256 % 256, v.toNat % 4)

def formatWord (sector : Nat) : BitVec 32 := BitVec.ofNat 32 (sector * 256 + partitionOf sector)

/-- The fields of an entry header word. -/
structure EntryFields where
  chords : Nat
  length : Nat
  attrs : Attrs
deriving DecidableEq, Repr

/-- The fields of R205; bits 7 to 0, which no layout names, are not looked at in a word that reads clean (DESIGN CHOICE,
unsafe, log 109). -/
def entryFields (v : BitVec 32) : EntryFields :=
  { chords := v.toNat / 2 ^ 20 % 8, length := v.toNat / 2 ^ 14 % 64, attrs := BitVec.ofNat 6 (v.toNat / 2 ^ 8) }

/-- The size of an entry in words (R65). -/
def EntryFields.size (f : EntryFields) : Nat := 1 + f.chords + (f.length + 3) / 4

/-- A header word with its fields, every mark unset. -/
def entryHeader (k : Key) (a : Attrs) (t : Text) : BitVec 32 :=
  BitVec.ofNat 32 (511 * 2 ^ 23 + k.length % 8 * 2 ^ 20 + t.length % 64 * 2 ^ 14 + a.toNat * 2 ^ 8)

/-- A chord count of 0 or 7, or a text length above 48, counts as uncorrectable (R205). -/
def headerValueOk (v : BitVec 32) : Bool :=
  decide (1 ≤ (entryFields v).chords) && decide ((entryFields v).chords ≤ 6) && decide ((entryFields v).length ≤ 48)

def chordValueOk (v : BitVec 32) : Bool := decide (1 ≤ v.toNat) && decide (v.toNat ≤ 8388607)

/-- A slot word's entry word number, bits 11–0, lies in 16 to 4095 (R205). Bits 31 to 12, which no layout names, are not
looked at (DESIGN CHOICE, unsafe, log 109). -/
def slotValueOk (v : BitVec 32) : Bool := decide (Config.bodyStart ≤ v.toNat % 4096)

def anyValueOk (_ : BitVec 32) : Bool := true

/-- The text words of a text, four characters a word, spaces in the places left (R65). -/
def textWord (t : Text) (i : Nat) : BitVec 32 :=
  BitVec.ofNat 32 (beNat ((List.range 4).map (fun j => t.getD (4 * i + j) spaceCh)))

def textWords (t : Text) : List (BitVec 32) := (List.range ((t.length + 3) / 4)).map (textWord t)

/-- The first `n` characters of text words. Bit 7 of a byte, which R205 has 0, stays in the character where a clean word
holds it set (DESIGN CHOICE, unsafe, log 109). -/
def textOfWords (n : Nat) (l : List (BitVec 32)) : Text :=
  (l.flatMap (fun v => beBytes 4 v.toNat)).take n

/-- The size of an entry of a key and a text (R65). -/
def entrySize (k : Key) (t : Text) : Nat := 1 + k.length + (t.length + 3) / 4

/-! ## Reading (R67, R68) -/

/-- What reading some words gave. -/
structure Reading where
  /-- the values, none when a word was uncorrectable -/
  values : Option (List (BitVec 32))
  corrected : Bool
deriving DecidableEq, Repr

/-- The class of a word where a programmed one is expected: erased counts as uncorrectable, and so does a value its
layout does not allow (R67, R205). -/
def expectedClass (ok : BitVec 32 → Bool) (w : StoreWord) : WordClass :=
  match classOf w with
  | .erased => .uncorrectable
  | .uncorrectable => .uncorrectable
  | .clean => if ok w.bits then .clean else .uncorrectable
  | .corrected => if ok w.bits then .corrected else .uncorrectable

/-- One word read where a programmed one is expected, its fault counted. -/
def readWord (ok : BitVec 32 → Bool) (sector word : Nat) (s : State) : State × Reading :=
  let w := wordAt s sector word
  match expectedClass ok w with
  | .clean => (s, { values := some [w.bits], corrected := false })
  | .corrected => (noteFault .corrected sector word s, { values := some [w.bits], corrected := true })
  | _ => (noteFault .uncorrectable sector word s, { values := none, corrected := false })

/-- Consecutive words read, stopping at the first uncorrectable one (log 38). -/
def readWords (ok : BitVec 32 → Bool) (sector : Nat) : Nat → Nat → State → State × Reading
  | 0, _, s => (s, { values := some [], corrected := false })
  | n + 1, word, s =>
    let r := readWord ok sector word s
    match r.2.values with
    | none => r
    | some v =>
      let q := readWords ok sector n (word + 1) r.1
      (q.1, { values := q.2.values.map (fun l => v ++ l), corrected := r.2.corrected || q.2.corrected })

/-- What reading an entry gave; `corrected` when a word read before the uncorrectable one, or any word of a good entry,
was corrected. -/
inductive EntryRead where
  | good (key : Key) (attrs : Attrs) (text : Text) (corrected : Bool)
  | badHeader
  | badChord (corrected : Bool)
  | badText (key : Key) (corrected : Bool)
deriving DecidableEq, Repr

/-- A corrected word was read in the entry (R68). -/
def EntryRead.corrected : EntryRead → Bool
  | .good _ _ _ c => c
  | .badHeader => false
  | .badChord c => c
  | .badText _ c => c

/-- An entry that would pass word 4095 cannot be one: its header counts as uncorrectable (R65; log 39). -/
def headerFits (word : Nat) (v : BitVec 32) : Bool :=
  headerValueOk v && decide (word + (entryFields v).size ≤ Config.sectorWords)

/-- An entry read whole: header, chords, text (R65). -/
def readEntryAt (sector word : Nat) (s : State) : State × EntryRead :=
  let h := readWord (headerFits word) sector word s
  match h.2.values with
  | some [v] =>
    let f := entryFields v
    let c := readWords chordValueOk sector f.chords (word + 1) h.1
    match c.2.values with
    | some cs =>
      let k := cs.map BitVec.toNat
      let t := readWords anyValueOk sector ((f.length + 3) / 4) (word + 1 + f.chords) c.1
      match t.2.values with
      | some ts =>
        (t.1, .good k f.attrs (textOfWords f.length ts) (h.2.corrected || c.2.corrected || t.2.corrected))
      | none => (t.1, .badText k (h.2.corrected || c.2.corrected || t.2.corrected))
    | none => (c.1, .badChord (h.2.corrected || c.2.corrected))
  | _ => (h.1, .badHeader)

/-- The size an entry's stored header gives (log 41). -/
def storedSize (s : State) (l : Location) : Nat := (entryFields (wordAt s l.sector l.word).bits).size

/-! ## Programming (R71; log 7) -/

/-- How a pulse loop ended. -/
inductive PulseEnd where
  | matched
  | over
  | spent
deriving DecidableEq, Repr

/-- Up to `n` pulses: after each, the word shows what the cells answer, and no bit comes back from 0 to 1. The first match
ends it, and so does a bit programmed that the target holds erased. -/
def pulseLoop (target : StoreWord) : Nat → List StoreWord → StoreWord → StoreWord × PulseEnd
  | 0, _, w => (w, .spent)
  | n + 1, answers, w =>
    let r := answers.headD target
    let v : StoreWord := { bits := r.bits &&& w.bits, check := r.check }
    if v = target then (v, .matched)
    else if v.bits &&& target.bits ≠ target.bits then (v, .over)
    else pulseLoop target n answers.tail v

/-- One programming operation: the word left in the store and how it ended. The next answers of the script are used. -/
def pulseWord (target : StoreWord) (sector word : Nat) (s : State) : State × PulseEnd :=
  let r := pulseLoop target Config.pulseLimit (s.script.prog.headD []) (wordAt s sector word)
  ({ s with store := s.store.write (addrOf sector word) r.1, script := { s.script with prog := s.script.prog.tail } },
   r.2)

/-- A word programmed; a failure is a PROGRAM-FAIL (R71). -/
def programWord (target : StoreWord) (sector word : Nat) (s : State) : State × Bool :=
  let r := pulseWord target sector word s
  match r.2 with
  | .matched => (r.1, true)
  | _ => (noteFault .programFail sector word r.1, false)

/-- A word of fields, its check bits agreeing. -/
def fieldWord (v : BitVec 32) : StoreWord := { bits := v, check := .agrees }

/-- A mark programmed: its three copies together; with two copies after 16 pulses it is taken as programmed and the
shortfall counted (R71). Each read-back is compared as a whole word, the mark's copies and the bits beside them (DESIGN
CHOICE, log 80). -/
def programMark (sector : Nat) (m : Mark) (s : State) : State × Bool :=
  let w := wordAt s sector m.word
  let r := pulseWord { w with bits := w.bits &&& ~~~ markMask m.hi } sector m.word s
  match r.2 with
  | .matched => (r.1, true)
  | .over => (noteFault .programFail sector m.word r.1, false)
  | .spent =>
    if markSet (wordAt r.1 sector m.word).bits m.hi then (noteFault .corrected sector m.word r.1, true)
    else (noteFault .programFail sector m.word r.1, false)

/-- Consecutive words programmed, stopping at the first failure. -/
def programWords (sector : Nat) : Nat → List (BitVec 32) → State → State × Bool
  | _, [], s => (s, true)
  | word, v :: l, s =>
    let r := programWord (fieldWord v) sector word s
    if r.2 then programWords sector (word + 1) l r.1 else r

/-- An entry written: header with WRITING, chords, text, then LIVE (R66). The header is programmed as one word, so one whose
fields match while WRITING has two copies after 16 pulses has not matched and is a PROGRAM-FAIL (R71; DESIGN CHOICE,
log 70). -/
def writeEntryWords (sector word : Nat) (k : Key) (a : Attrs) (t : Text) (s : State) : State × Bool :=
  let h := programWord (fieldWord (entryHeader k a t &&& ~~~ markMask 31)) sector word s
  if h.2 then
    let b := programWords sector (word + 1) (k.map (BitVec.ofNat 32) ++ textWords t) h.1
    if b.2 then programMark sector (liveAt word) b.1 else b
  else h

end Sys2Proof.Machine
end

