-- ==== Sys2Proof/Machine/Directory.lean ====
section
/-! DEFINITION. What the controller holds of the session partition in RAM: the directory (R92, R93), sector states and
accounts (R94), the reserve (R95), the repair list (R103); and marking a sector BAD (R73). -/

namespace Sys2Proof.Machine

/-! ## The session directory (R92, R93) -/

def dirFind (d : List DirRecord) (k : Key) : Option DirRecord := d.find? (fun r => decide (r.key = k))

/-- The location of a key. -/
def dirLoc (d : List DirRecord) (k : Key) : Option Location :=
  match dirFind d k with
  | some r => r.loc
  | none => none

/-- The extension count of a key (R45). -/
def dirCount (d : List DirRecord) (k : Key) : Nat :=
  match dirFind d k with
  | some r => r.count
  | none => 0

/-- The key whose location this is. -/
def dirKeyAt (d : List DirRecord) (l : Location) : Option Key :=
  (d.find? (fun r => decide (r.loc = some l))).map DirRecord.key

def dirHas (d : List DirRecord) (k : Key) : Bool := (dirFind d k).isSome

/-- The records a new location for a key needs: one for itself and one for each proper prefix, where absent (R97). -/
def recordsNeeded (d : List DirRecord) (k : Key) : Nat :=
  ((k :: prefixesOf k).filter (fun p => ! dirHas d p)).length

/-- The record of a key changed, created first when absent. -/
def dirUpdate (d : List DirRecord) (k : Key) (f : DirRecord → DirRecord) : List DirRecord :=
  if dirHas d k then d.map (fun r => if r.key = k then f r else r)
  else d ++ [f { key := k, loc := none, count := 0 }]

/-- A key without a location takes one: the counts of its proper prefixes rise (R93). -/
def dirGive (d : List DirRecord) (k : Key) (l : Location) : List DirRecord :=
  (prefixesOf k).foldl (fun e p => dirUpdate e p (fun r => { r with count := r.count + 1 }))
    (dirUpdate d k (fun r => { r with loc := some l }))

/-- A key's location moves; no count changes (R93). -/
def dirMove (d : List DirRecord) (k : Key) (l : Location) : List DirRecord :=
  d.map (fun r => if r.key = k then { r with loc := some l } else r)

/-- A location given or moved (R93). -/
def dirSet (d : List DirRecord) (k : Key) (l : Location) : List DirRecord :=
  match dirLoc d k with
  | some _ => dirMove d k l
  | none => dirGive d k l

/-- A key's location taken away: its prefixes' counts fall, records left with neither are freed (R93). -/
def dirTake (d : List DirRecord) (k : Key) : List DirRecord :=
  (d.map (fun r =>
    if r.key = k then { r with loc := none }
    else if properPrefix r.key k then { r with count := r.count - 1 } else r)).filter
    (fun r => r.loc.isSome || decide (r.count ≠ 0))

def setDirectory (d : List DirRecord) (s : State) : State := { s with ctl := { s.ctl with directory := d } }

/-! ## Sector states and accounts (R94) -/

def Control.sectorState (c : Control) (n : Nat) : SecState := c.sectors.getD n .unknown

def Control.account (c : Control) (n : Nat) : Account := c.accounts.getD (n - Config.firstSession) Account.fresh

def setSector (n : Nat) (st : SecState) (s : State) : State :=
  { s with ctl := { s.ctl with sectors := s.ctl.sectors.set n st } }

def modAccount (n : Nat) (f : Account → Account) (s : State) : State :=
  { s with ctl := { s.ctl with accounts := s.ctl.accounts.modify (n - Config.firstSession) f } }

/-- The 31 session sectors and the 224 base sectors, ascending (R62). -/
def sessionSectors : List Nat := (List.range 31).map (fun i => Config.firstSession + i)
def baseSectors : List Nat := List.range Config.firstSession

/-- The session sectors in a state, ascending. -/
def Control.sessionIn (c : Control) (st : SecState) : List Nat :=
  sessionSectors.filter (fun n => decide (c.sectorState n = st))

def Control.freeCount (c : Control) : Nat := (c.sessionIn .free).length

/-- The sector that was ACTIVE before a seal, from SEALED to the FULL that ends its being ACTIVE (R108). -/
def Control.succeeded (c : Control) : Option Nat :=
  match c.comp.state, c.comp.sealStep with
  | .seal, .full n => some n
  | _, _ => none

/-- The ACTIVE sector (R96). At the moment of a seal, when two sectors are ACTIVE, it is the target (DESIGN CHOICE,
log 93). -/
def Control.activeSector (c : Control) : Option Nat :=
  (c.sessionIn .active).find? (fun n => decide (c.succeeded ≠ some n))

/-- An entry written (R94). -/
def Account.wrote (a : Account) (size : Nat) : Account :=
  { a with appendPoint := a.appendPoint + size, live := a.live + size }

/-- A dead entry (R94). -/
def Account.wroteDead (a : Account) (size : Nat) : Account :=
  { a with appendPoint := a.appendPoint + size, dead := a.dead + size }

/-- An entry retired, or its location gone (R94). -/
def Account.retired (a : Account) (size : Nat) : Account := { a with live := a.live - size, dead := a.dead + size }

/-! ## The reserve (R95) -/

/-- With no reserve named, or one that is no longer FREE, the lowest FREE session sector is named. -/
def nameReserve (s : State) : State :=
  { s with ctl :=
    { s.ctl with reserve :=
      match s.ctl.reserve with
      | some n => if s.ctl.sectorState n = .free then some n else (s.ctl.sessionIn .free).head?
      | none => (s.ctl.sessionIn .free).head? } }

/-! ## BAD sectors (R73, R74) -/

/-- The words a pre-zero pass programs: all but header words 1 and 2, the format word first (R74). -/
def prezeroWords : List Nat := 0 :: (List.range (Config.sectorWords - 3)).map (fun i => i + 3)

/-- A word of a sector programmed to zero, unless it reads zero (R74; log 10). Its class is not judged: the pre-zero pass
counts no CORRECTED and no UNCORRECTABLE word (DESIGN CHOICE, log 59). -/
def zeroWord (sector word : Nat) (s : State) : State × Bool :=
  if (wordAt s sector word).bits = 0 then (s, true) else programWord (fieldWord 0) sector word s

/-- Words pre-zeroed one after another, stopping at the first failure. -/
def zeroWords (sector : Nat) : List Nat → State → State × Bool
  | [], s => (s, true)
  | w :: l, s =>
    let r := zeroWord sector w s
    if r.2 then zeroWords sector l r.1 else r

/-- A sector marked BAD; when the mark will not take, it is pre-zeroed and out of use for the rest of this start (R73),
the whole pass in the step that met the failure (DESIGN CHOICE, log 77). A PROGRAM-FAIL within that pass ends it at its word
and is counted as PROGRAM-FAIL, not as ERASE-FAIL; the sector is out of use all the same, and its format word may still be
valid (DESIGN CHOICE, unsafe, log 105). A reserve that goes BAD is replaced (R95). -/
def markBad (n : Nat) (s : State) : State :=
  let r := programMark n markBadSector s
  nameReserve
    (if r.2 then setSector n .bad r.1 else setSector n .outOfUse (zeroWords n prezeroWords r.1).1)

/-! ## Repair list (R68, R103) -/

def offerRepair (l : Location) (s : State) : State :=
  if s.ctl.repair.contains l ∨ Config.repairSize ≤ s.ctl.repair.length then s
  else { s with ctl := { s.ctl with repair := s.ctl.repair ++ [l] } }

def offerRepairIf (b : Bool) (l : Location) (s : State) : State := if b then offerRepair l s else s

/-- A live session entry read in a lookup, a READ-ENTRY, the scan or a compaction copy: with a corrected word among those
read, its location is offered to the repair list, whatever else the reading met (R68, R103). -/
def readLive (l : Location) (s : State) : State × EntryRead :=
  let r := readEntryAt l.sector l.word s
  (offerRepairIf r.2.corrected l r.1, r.2)

/-! ## Snoop (R57, R58) -/

def snoop (k : Key) (s : State) : State := { s with cache := s.cache.snoop k }

/-- R70, R93: a key loses its location; its prefixes' counts fall and the key is snooped. -/
def loseKey (k : Key) (s : State) : State := snoop k (setDirectory (dirTake s.ctl.directory k) s)

/-- The keys whose location lies in a sector. -/
def keysIn (d : List DirRecord) (n : Nat) : List Key :=
  (d.filter (fun r => decide (r.loc.map Location.sector = some n))).map DirRecord.key

/-- Every key whose location lies in a sector loses it. -/
def loseSector (n : Nat) (s : State) : State := (keysIn s.ctl.directory n).foldl (fun t k => loseKey k t) s

/-! ## The answer to a direct request (R197) -/

/-- The owning block's answer: the port enters READY with the request's tag. -/
def answer (code : RespCode) (body : List Byte) (s : State) : State :=
  match s.port with
  | .working tag _ => { s with port := .ready { tag := tag, code := code, body := body } }
  | _ => s

/-- The direct request answered and gone. -/
def finishDirect (code : RespCode) (body : List Byte) (s : State) : State :=
  answer code body { s with ctl := { s.ctl with direct := none } }

/-- A define-queue request leaves the queue with its outcome; the cache tests a held lookup again (R51, R91, R102). -/
def leaveQueue (reason : Option Reason) (s : State) : State :=
  match s.ctl.queue with
  | [] => s
  | r :: l =>
    retestHeld
      { s with
        ctl := { s.ctl with queue := l, headWaiting := false }
        att := s.att.addOutcome { id := r.id, reason := reason } }

end Sys2Proof.Machine
end

