-- ==== Sys2Proof/Machine/Lookup.lean ====
section
/-! DEFINITION. The result of a key (R44, R45, R69): the session part through the directory, the base lookup of R80; and the
service order of the store controller (R89). -/

namespace Sys2Proof.Machine

/-! ## Base lookup (R79, R80) -/

/-- The last listed sector whose first key is at or before `k`. -/
def rowFor (t : List KeyRow) (k : Key) : Option KeyRow := t.reverse.find? (fun r => ! keyLt k r.firstKey)

/-- The row after the one of a sector. -/
def rowAfter (t : List KeyRow) (sector : Nat) : Option KeyRow := t.find? (fun r => decide (sector < r.sector))

/-- What the words of a lookup have met so far: an uncorrectable one (R69), a corrected one (R68). -/
structure Met where
  damaged : Bool
  corrected : Bool
deriving DecidableEq, Repr

def Met.none : Met := { damaged := false, corrected := false }

def Met.join (a b : Met) : Met :=
  { damaged := a.damaged || b.damaged, corrected := a.corrected || b.corrected }

/-- What probing a slot gave (R69, R80; log 42). -/
inductive Probe where
  /-- the slot word or a chord word is uncorrectable; whether a word was corrected -/
  | broken (corrected : Bool)
  /-- the entry's word, its key, and what was met; damaged when its header word is uncorrectable -/
  | key (word : Nat) (k : Key) (met : Met)
deriving DecidableEq, Repr

/-- The key of the entry at a slot; where the header word is uncorrectable, as many chords as `n` are read. -/
def probeSlot (sector slot n : Nat) (s : State) : State × Probe :=
  let p := readWord slotValueOk sector (Config.sectorWords - 1 - slot) s
  match p.2.values with
  | some [v] =>
    let w := v.toNat % 4096
    let h := readWord (headerFits w) sector w p.1
    let count :=
      match h.2.values with
      | some [x] => (entryFields x).chords
      | _ => n
    let c := readWords chordValueOk sector count (w + 1) h.1
    let corrected := p.2.corrected || h.2.corrected || c.2.corrected
    match c.2.values with
    | some cs => (c.1, .key w (cs.map BitVec.toNat) { damaged := h.2.values.isNone, corrected := corrected })
    | none => (c.1, .broken corrected)
  | _ => (p.1, .broken false)

/-- Where the search of a slot table ended, and what it met. -/
inductive Search where
  | broken (corrected : Bool)
  /-- K stands at a slot -/
  | held (slot word : Nat) (met : Met)
  | notHeld (slot : Nat) (met : Met)
deriving DecidableEq, Repr

/-- Slots `lo` to `hi - 1` searched for `k` (R80); the fuel is their number. -/
def searchSlots (sector : Nat) (k : Key) : Nat → Nat → Nat → Met → State → State × Search
  | 0, lo, _, met, s => (s, .notHeld lo met)
  | fuel + 1, lo, hi, met, s =>
    if hi ≤ lo then (s, .notHeld lo met)
    else
      let mid := (lo + hi - 1) / 2
      let p := probeSlot sector mid k.length s
      match p.2 with
      | .broken c => (p.1, .broken (met.corrected || c))
      | .key w e m =>
        if e = k then (p.1, .held mid w (met.join m))
        else if keyLt e k then searchSlots sector k fuel (mid + 1) hi (met.join m) p.1
        else searchSlots sector k fuel lo mid (met.join m) p.1

/-- The base part of a lookup: the entry's location when K is held, extends, and what was met. -/
structure BasePart where
  entry : Option Location
  ext : Bool
  met : Met
deriving DecidableEq, Repr

/-- A next key taken from the first key of a listed sector, with no store read (R80). -/
def extendsByRow (k : Key) (r : Option KeyRow) : Bool :=
  match r with
  | some r => properPrefix k r.firstKey
  | none => false

/-- The base part of extends from the next key: at a slot, or past the last slot the next listed sector's first key
(R80). Where the header word of the next key's entry is uncorrectable the base part is taken as false (DESIGN CHOICE,
log 42: R69 names the slot word and the chord words only). -/
def nextExtends (t : List KeyRow) (r : KeyRow) (slot : Nat) (k : Key) (s : State) : State × Bool × Met :=
  if slot < r.slots then
    let p := probeSlot r.sector slot (k.length + 1) s
    match p.2 with
    | .broken c => (p.1, false, { damaged := true, corrected := c })
    | .key _ e m => (p.1, ! m.damaged && properPrefix k e, m)
  else (s, extendsByRow k (rowAfter t r.sector), Met.none)

/-- R80: the base lookup of a key, but for the text of its entry: the next key is tested before the text is read (DESIGN
CHOICE, log 94). -/
def baseSearch (k : Key) (s : State) : State × BasePart :=
  let t := s.ctl.keyTable
  match rowFor t k with
  | none => (s, { entry := none, ext := extendsByRow k t.head?, met := Met.none })
  | some r =>
    let f := searchSlots r.sector k (r.slots + 1) 0 r.slots Met.none s
    match f.2 with
    | .broken c => (f.1, { entry := none, ext := false, met := { damaged := true, corrected := c } })
    | .held slot w met =>
      let n := nextExtends t r (slot + 1) k f.1
      (n.1, { entry := some { sector := r.sector, word := w }, ext := n.2.1, met := met.join n.2.2 })
    | .notHeld slot met =>
      let n := nextExtends t r slot k f.1
      (n.1, { entry := none, ext := n.2.1, met := met.join n.2.2 })

/-! ## The whole result (R44, R45, R69, R85) -/

inductive Partition where
  | none
  | session
  | base
deriving DecidableEq, Repr

/-- A result with the damaged and the corrected mark that go back to the Entry Cache (R52). -/
structure Result where
  ans : Answer
  damaged : Bool
  corrected : Bool
  part : Partition
deriving DecidableEq, Repr

/-- The answer of an entry; SUPPRESS makes the key absent (R44). -/
def entryAnswer (a : Attrs) (t : Text) (ext : Bool) : Answer :=
  if Attrs.suppress a then { Answer.absent with ext := ext } else { found := true, text := t, attrs := a, ext := ext }

/-- The answer of a base entry; SUPPRESS is never among its attributes (R44). -/
def baseAnswer (a : Attrs) (t : Text) (ext : Bool) : Answer := { found := true, text := t, attrs := a &&& 0x1F, ext := ext }

/-- A result, absent where an uncorrectable word was met, whatever else was read (R69). -/
def resultWith (met : Met) (a : Answer) (p : Partition) : Result :=
  { ans := if met.damaged then { Answer.absent with ext := a.ext } else a
    damaged := met.damaged, corrected := met.corrected, part := p }

/-- A damaged result (R69). -/
def damagedResult (ext corrected : Bool) (p : Partition) : Result :=
  resultWith { damaged := true, corrected := corrected } { Answer.absent with ext := ext } p

/-- The result from a live session entry (R44, R68, R69). A damaged one, whichever word was uncorrectable, is reported as of
the session (R85; DESIGN CHOICE, log 71). -/
def sessionResult (l : Location) (ext : Bool) (met : Met) (s : State) : State × Result :=
  let r := readLive l s
  let corrected := met.corrected || r.2.corrected
  match r.2 with
  | .good _ a t _ => (r.1, resultWith { met with corrected := corrected } (entryAnswer a t ext) .session)
  | _ => (r.1, damagedResult ext corrected .session)

/-- The text of an entry whose header and chords have been read. -/
def readText (l : Location) (s : State) : State × Option (Attrs × Text) × Bool :=
  let f := entryFields (wordAt s l.sector l.word).bits
  let r := readWords anyValueOk l.sector ((f.length + 3) / 4) (l.word + 1 + f.chords) s
  (r.1, r.2.values.map (fun ts => (f.attrs, textOfWords f.length ts)), r.2.corrected)

/-- The result from the base entry, whose header and chords the search has read, or absent (R44, R69, R80). Where a word of
the base search or of the next key was uncorrectable the text stays unread (DESIGN CHOICE, log 94). -/
def baseResult (l : Option Location) (ext : Bool) (met : Met) (s : State) : State × Result :=
  match l with
  | none => (s, resultWith met { Answer.absent with ext := ext } .none)
  | some l =>
    if met.damaged then (s, damagedResult ext met.corrected .none)
    else
      let r := readText l s
      let corrected := met.corrected || r.2.2
      match r.2.1 with
      | some (a, t) => (r.1, resultWith { met with corrected := corrected } (baseAnswer a t ext) .base)
      | none => (r.1, damagedResult ext corrected .none)

/-- The result of a key (R44, R45). The base search comes first, and is made even when the session part decides both
found and extends; a word it finds uncorrectable makes the result damaged then too (DESIGN CHOICE, log 58). -/
def resultOf (k : Key) (s : State) : State × Result :=
  let b := baseSearch k s
  let ext := decide (dirCount s.ctl.directory k ≠ 0) || b.2.ext
  match dirLoc s.ctl.directory k with
  | some l => sessionResult l ext b.2.met b.1
  | none => baseResult b.2.entry ext b.2.met b.1

/-! ## The service order (R89) -/

inductive Work where
  | none
  | define
  | retire
  | lookup
  | direct
  | repair
  | compaction
deriving DecidableEq, Repr

/-- A lookup waits at the store controller (R52). -/
def lookupWaits (s : State) : Bool :=
  match s.cache.path with
  | .fetching _ _ => true
  | _ => false

/-- The first tier's define-queue work: the head, or a compaction step in its place while it waits for space (R89). -/
def queueWork (r : QueuedReq) (waiting : Bool) : Work :=
  if waiting then .compaction
  else
    match r.op with
    | .define _ _ _ => .define
    | .retire _ => .retire

/-- R89: the work the controller takes next; nothing is served during the start scan. -/
def nextWork (s : State) : Work :=
  if s.start = .storeScan then .none
  else
    match s.ctl.queue with
    | r :: _ => queueWork r s.ctl.headWaiting
    | [] =>
      if lookupWaits s then .lookup
      else if s.ctl.direct.isSome then .direct
      else if ! s.ctl.repair.isEmpty then .repair
      else .compaction

/-- R52, R53, R54, R59: the waiting lookup served; a fresh result that is not damaged fills a line, and one with the
corrected mark is used and cached like a clean one. -/
def serveLookup (s : State) : State :=
  match s.cache.path with
  | .fetching k stale =>
    if nextWork s = .lookup then
      let r := resultOf k s
      let c := if r.2.damaged || stale then r.1.cache else r.1.cache.fill k r.2.ans
      lookupDone r.2.ans { r.1 with cache := { c with path := .idle } }
    else s
  | _ => s

/-- The body of a READ-ENTRY answer (R206). Where the result is absent or damaged the attribute set and the text are sent
empty, as bytes 0 and 0 (R85; DESIGN CHOICE, log 86). -/
def readEntryBody (r : Result) : List Byte :=
  let part : Byte := match r.part with
    | .none => 0
    | .session => 1
    | .base => 2
  boolByte r.ans.found ++ [part] ++ boolByte r.ans.ext ++ boolByte r.damaged ++
    [r.ans.attrs.setWidth 8, BitVec.ofNat 8 r.ans.text.length] ++ r.ans.text

/-- R85: READ-ENTRY served in one step. -/
def serveReadEntry (s : State) : State :=
  match s.ctl.direct with
  | some (.readEntry k) =>
    if nextWork s = .direct then
      let r := resultOf k s
      if r.2.part = .base ∧ r.2.ans.found = true ∧ s.ctl.baseProtected = true then
        finishDirect .protectedBase [] r.1
      else finishDirect .done (readEntryBody r.2) r.1
    else s
  | _ => s

end Sys2Proof.Machine
end

