-- ==== Sys2Proof/Machine/SessionStore.lean ====
section
/-! DEFINITION. DEFINE, RETIRE and repair (R96 to R104): checking, placing an entry, making it effective, and compaction's
trigger and abandonment, which they meet (R100, R105, R107, R110). -/

namespace Sys2Proof.Machine

/-! ## Compaction met by other work -/

/-- A FULL sector that compaction may choose (R105); the reserve is FREE and is none (R95). -/
def mayBeVictim (c : Control) (n : Nat) : Bool :=
  decide (0 < (c.account n).dead) && ! (c.account n).passedOver && decide (c.reserve ≠ some n)

def victims (c : Control) : List Nat := (c.sessionIn .full).filter (mayBeVictim c)

/-- The victim: the most retired-or-dead words, the lowest number on a tie (R105). -/
def mostDead (c : Control) : List Nat → Option Nat
  | [] => none
  | n :: l =>
    match mostDead c l with
    | some m => if (c.account n).dead < (c.account m).dead then some m else some n
    | none => some n

/-- The trigger's conditions other than the service order (R105). -/
def triggerHolds (c : Control) : Bool :=
  decide (c.freeCount ≤ 2) && c.reserve.isSome && ! (victims c).isEmpty

/-- Compaction can still win a sector (R100). -/
def compactionCanWin (c : Control) : Bool := decide (c.comp.state ≠ .idle) || triggerHolds c

def modComp (f : Compaction → Compaction) (s : State) : State :=
  { s with ctl := { s.ctl with comp := f s.ctl.comp } }

/-- The erase of a sector begins within compaction (R109, R110). -/
def Compaction.startErase (c : Compaction) (sector : Nat) : Compaction :=
  { c with state := .prezero, erasing := sector, phase := .prezero 0 }

/-- R110: compaction abandons; the victim is passed over, the copy list emptied, the target is to be erased. Between SEALED
and FULL the sector that was ACTIVE before the seal stays so; after FULL it stays FULL (DESIGN CHOICE, log 78). -/
def abandonCompaction (s : State) : State :=
  modComp (fun c => { c.startErase c.target with copies := [], failed := none })
    (modAccount s.ctl.comp.victim (fun a => { a with passedOver := true }) s)

/-- Compaction is IDLE again, and a DEFINE waiting for space is placed again (R100). -/
def compactionIdle (s : State) : State :=
  { s with ctl := { s.ctl with headWaiting := false, comp := { s.ctl.comp with state := .idle, copies := [] } } }

/-- The directory step of SEAL is still to come (R107). -/
def beforeSeal (c : Compaction) : Bool := decide (c.state = .copy) || decide (c.state = .seal)

/-- The copy of a victim location. -/
def copyOf (c : Compaction) (l : Location) : Option Nat :=
  if beforeSeal c ∧ l.sector = c.victim then (c.copies.find? (fun p => decide (p.1 = l.word))).map Prod.snd else none

/-- R107: the copy of an entry that has been retired is retired too; when RETIRED will not take, compaction abandons, which
the flag says. A target whose seal had taken effect is a COPY-TARGET in RAM again until it has been erased (DESIGN CHOICE,
log 93). -/
def retireCopy (l : Location) (s : State) : State × Bool :=
  match copyOf s.ctl.comp l with
  | none => (s, false)
  | some w =>
    let size := storedSize s { sector := s.ctl.comp.target, word := w }
    let r := programMark s.ctl.comp.target (retiredAt w) s
    if r.2 then
      (modComp (fun c => { c with copies := c.copies.filter (fun p => decide (p.1 ≠ l.word)) })
        (modAccount s.ctl.comp.target (fun a => { a with dead := a.dead + size }) r.1), false)
    else (abandonCompaction (setSector s.ctl.comp.target .copyTarget r.1), true)

/-- R110 erases an abandoned target with no key changed, since no copy was ever named by the directory. An entry that a
DEFINE or a repair wrote in it after SEALED is named, and it goes with the target: its key loses its location (DESIGN
CHOICE, log 93). -/
def loseWithTarget (abandoned : Bool) (s : State) : State := if abandoned then loseSector s.ctl.comp.target s else s

/-! ## Placing an entry (R96, R98, R72) -/

/-- FULL programmed on a session sector; it is FULL in RAM whether or not the mark takes (R73). -/
def makeFull (n : Nat) (s : State) : State := setSector n .full (programMark n markFull s).1

/-- R96: one FREE sector tried: sequence word, then ACTIVE. Past 4,294,967,295 the number in RAM goes on rising, and the
32-bit word is programmed with its low 32 bits (DESIGN CHOICE, unsafe, log 100). -/
def tryActivate (n : Nat) (s : State) : State × Bool :=
  let seq := s.ctl.highestSeq + 1
  let s0 := { s with ctl := { s.ctl with highestSeq := seq } }
  let q := programWord (fieldWord (BitVec.ofNat 32 seq)) n 3 s0
  if q.2 then
    let m := programMark n markActive q.1
    if m.2 then (setSector n .active (modAccount n (fun _ => Account.fresh) m.1), true) else (markBad n m.1, false)
  else (markBad n q.1, false)

/-- The FREE sectors tried one after another; a sector that is the reserve by then is left out (R95, R96). -/
def activateFrom : List Nat → State → State × Option Nat
  | [], s => (s, none)
  | n :: l, s =>
    if s.ctl.reserve = some n then activateFrom l s
    else
      let r := tryActivate n s
      if r.2 then (r.1, some n) else activateFrom l r.1

/-- R96: a sector activated. -/
def activate (s : State) : State × Option Nat := activateFrom (s.ctl.sessionIn .free) s

/-- An entry written at a sector's append point; a failed one is dead (R66, R72, R94). -/
def appendEntry (n : Nat) (k : Key) (a : Attrs) (t : Text) (s : State) : State × Bool :=
  let r := writeEntryWords n (s.ctl.account n).appendPoint k a t s
  (modAccount n (fun c => if r.2 then c.wrote (entrySize k t) else c.wroteDead (entrySize k t)) r.1, r.2)

inductive Placed where
  | at_ (l : Location)
  /-- no sector could be activated for the first write -/
  | noSector
  /-- no sector could be activated for the retry -/
  | noRetry
  /-- a second program failure -/
  | failed
deriving DecidableEq, Repr

/-- The retry in a newly activated sector (R72, R98). -/
def placeRetry (k : Key) (a : Attrs) (t : Text) (s : State) : State × Placed :=
  let v := activate s
  match v.2 with
  | none => (v.1, .noRetry)
  | some n =>
    let l : Location := { sector := n, word := (v.1.ctl.account n).appendPoint }
    let r := appendEntry n k a t v.1
    if r.2 then (r.1, .at_ l) else (makeFull n r.1, .failed)

/-- The first write in a sector, and the retry after a program failure (R98). -/
def placeIn (n : Nat) (k : Key) (a : Attrs) (t : Text) (s : State) : State × Placed :=
  let l : Location := { sector := n, word := (s.ctl.account n).appendPoint }
  let r := appendEntry n k a t s
  if r.2 then (r.1, .at_ l) else placeRetry k a t (makeFull n r.1)

/-- The sector the entry goes to: the ACTIVE one when it fits, else a newly activated one (R98). -/
def sectorFor (size : Nat) (s : State) : State × Option Nat :=
  match s.ctl.activeSector with
  | some n => if (s.ctl.account n).appendPoint + size ≤ Config.sectorWords then (s, some n) else activate (makeFull n s)
  | none => activate s

/-- R98: an entry placed. -/
def placeEntry (k : Key) (a : Attrs) (t : Text) (s : State) : State × Placed :=
  let f := sectorFor (entrySize k t) s
  match f.2 with
  | some n => placeIn n k a t f.1
  | none => (f.1, .noSector)

/-! ## Making it effective (R99, R101) -/

/-- The entry at a location programmed RETIRED. -/
def programRetired (l : Location) (s : State) : State × Bool := programMark l.sector (retiredAt l.word) s

/-- Its words move to the retired-or-dead count (R94). -/
def accountRetired (l : Location) (s : State) : State :=
  modAccount l.sector (fun a => a.retired (storedSize s l)) s

/-- R99: the old entry retired, its copy too; a RETIRED that will not take leaves the supersession complete (R73). The flag
says that compaction has abandoned (R107). -/
def supersede (old : Option Location) (s : State) : State × Bool :=
  match old with
  | some l => retireCopy l (accountRetired l (programRetired l s).1)
  | none => (s, false)

/-- R99: supersession, directory, snoop. -/
def makeEffective (k : Key) (l : Location) (s : State) : State :=
  let r := supersede (dirLoc s.ctl.directory k) s
  loseWithTarget r.2 (snoop k (setDirectory (dirSet r.1.ctl.directory k l) r.1))

/-! ## DEFINE (R97 to R100) -/

/-- R97: the checks of a DEFINE, in order. -/
def defineCheck (k : Key) (t : Text) (d : List DirRecord) : Option Reason :=
  if ! keyOk k || decide (k = [2048]) || ! textOk t then some .badEntry
  else if Config.directorySize < d.length + recordsNeeded d k then some .directoryFull
  else none

/-- A DEFINE whose activation failed waits for space, or is refused (R100). -/
def waitForSpace (s : State) : State :=
  if compactionCanWin s.ctl then { s with ctl := { s.ctl with headWaiting := true } }
  else leaveQueue (some .storeFull) s

def applyDefine (k : Key) (a : Attrs) (t : Text) (s : State) : State :=
  match defineCheck k t s.ctl.directory with
  | some r => leaveQueue (some r) s
  | none =>
    let p := placeEntry k a t s
    match p.2 with
    | .at_ l => leaveQueue none (makeEffective k l p.1)
    | .noSector => waitForSpace p.1
    | .noRetry => leaveQueue (some .storeFull) p.1
    | .failed => leaveQueue (some .storeFault) p.1

/-- SERVE_DEFINE (R99). -/
def serveDefine (s : State) : State :=
  match s.ctl.queue with
  | { id := _, op := .define k a t } :: _ => if nextWork s = .define then applyDefine k a t s else s
  | _ => s

/-! ## RETIRE (R101) -/

def applyRetire (k : Key) (s : State) : State :=
  if ! keyOk k then leaveQueue (some .badEntry) s
  else
    match dirLoc s.ctl.directory k with
    | none => leaveQueue (some .absent) s
    | some l =>
      let r := programRetired l s
      if r.2 then
        let c := retireCopy l (accountRetired l r.1)
        leaveQueue none (loseWithTarget c.2 (loseKey k c.1))
      else leaveQueue (some .storeFault) r.1

/-- SERVE_RETIRE (R101). -/
def serveRetire (s : State) : State :=
  match s.ctl.queue with
  | { id := _, op := .retire k } :: _ => if nextWork s = .retire then applyRetire k s else s
  | _ => s

/-! ## Repair (R104) -/

/-- The entry at a location written anew, with its key, text and attributes as read; without a sector, or at a second
failure, the repair is dropped. The location that moves is that of the directory's key (DEDUCED, log 47). -/
def rewriteEntry (l : Location) (s : State) : State :=
  let r := readEntryAt l.sector l.word s
  match r.2, dirKeyAt s.ctl.directory l with
  | .good e a t _, some k =>
    let p := placeEntry e a t r.1
    match p.2 with
    | .at_ n => makeEffective k n p.1
    | _ => p.1
  | _, _ => r.1

/-- SERVE_REPAIR (R104): the oldest location leaves the list; one that no longer holds its key's location is dropped
(log 47). -/
def serveRepair (s : State) : State :=
  match s.ctl.repair with
  | l :: rest =>
    if nextWork s = .repair then
      let s1 := { s with ctl := { s.ctl with repair := rest } }
      if (dirKeyAt s.ctl.directory l).isSome then rewriteEntry l s1 else s1
    else s
  | [] => s

end Sys2Proof.Machine
end

