-- ==== Sys2Proof/Machine/Compaction.lean ====
section
/-! DEFINITION. Compaction's own steps up to the erase (R105 to R109). -/

namespace Sys2Proof.Machine

/-- The next work is a compaction step of this state (R89, R90). -/
def compactionAt (st : CompState) (s : State) : Bool :=
  decide (nextWork s = .compaction) && decide (s.ctl.comp.state = st)

/-! ## SELECT (R105) -/

/-- COPY-TARGET programmed on the reserve, which stops being the reserve; when it fails the reserve goes BAD and
compaction stays IDLE. -/
def chooseTarget (victim reserve : Nat) (s : State) : State :=
  let s0 := { s with ctl := { s.ctl with reserve := none } }
  let r := programMark reserve markCopyTarget s0
  if r.2 then
    nameReserve
      (modComp (fun c => { c with state := .copy, victim := victim, target := reserve, targetAppend := Config.bodyStart,
                                  copies := [], cursor := Config.bodyStart, failed := none })
        (modAccount reserve (fun _ => Account.fresh) (setSector reserve .copyTarget r.1)))
  else compactionIdle (markBad reserve r.1)

/-- COMPACT_SELECT: a victim without live words goes straight to RETIRE-VICTIM (R105). -/
def compactSelect (s : State) : State :=
  if compactionAt .idle s && triggerHolds s.ctl then
    match mostDead s.ctl (victims s.ctl), s.ctl.reserve with
    | some v, some r =>
      if (s.ctl.account v).live = 0 then
        modComp (fun c => { c with state := .retireVictim, victim := v, copies := [] }) s
      else chooseTarget v r s
    | _, _ => s
  else s

/-! ## COPY (R106) -/

/-- The next word of the victim, at or after the cursor, that holds its key's directory location (R106). It is taken from
the directory and not from the entry headers in between (DESIGN CHOICE, log 60). -/
def nextHeld (d : List DirRecord) (victim cursor : Nat) : Option Nat :=
  lowest ((d.filterMap DirRecord.loc).filterMap (fun l =>
    if l.sector = victim ∧ cursor ≤ l.word then some l.word else none))

/-- An entry that cannot be read loses its key's location (R70); RETIRED is programmed on it (log 48). -/
def loseEntry (l : Location) (s : State) : State :=
  match dirKeyAt s.ctl.directory l with
  | some k => loseKey k (accountRetired l (programRetired l s).1)
  | none => s

/-- One copy written at the target's append point; a failed one is dead (R106). -/
def writeCopy (k : Key) (a : Attrs) (t : Text) (s : State) : State × Bool :=
  let size := entrySize k t
  let r := writeEntryWords s.ctl.comp.target s.ctl.comp.targetAppend k a t s
  (modComp (fun c => { c with targetAppend := c.targetAppend + size })
    (modAccount s.ctl.comp.target (fun c => { c with appendPoint := c.appendPoint + size,
                                                     dead := if r.2 then c.dead else c.dead + size }) r.1), r.2)

def copyFits (k : Key) (t : Text) (s : State) : Bool :=
  decide (s.ctl.comp.targetAppend + entrySize k t ≤ Config.sectorWords)

/-- A copy that has failed: the same entry is tried once more by the next COPY step, and a second failure on it abandons
compaction (R106; log 57). -/
def copyFailed (word : Nat) (s : State) : State :=
  if s.ctl.comp.failed = some word then abandonCompaction s
  else modComp (fun c => { c with cursor := word, failed := some word }) s

/-- A copy tried, one entry written in one step (R76, R90); without room compaction abandons. -/
def tryCopy (word : Nat) (k : Key) (a : Attrs) (t : Text) (s : State) : State :=
  if copyFits k t s then
    let at_ := s.ctl.comp.targetAppend
    let r := writeCopy k a t s
    if r.2 then
      modComp (fun c => { c with copies := c.copies ++ [(word, at_)], cursor := word + 1, failed := none }) r.1
    else copyFailed word r.1
  else abandonCompaction s

/-- The next live entry of the victim copied from the values read, its key's chords among them (R106; log 47). An entry
with an uncorrectable word, its header word included, is the one entry lost: the step after it goes on with the victim's
later entries, which the directory names (DESIGN CHOICE, log 60). -/
def copyEntry (word : Nat) (s : State) : State :=
  let l : Location := { sector := s.ctl.comp.victim, word := word }
  let r := readLive l s
  match r.2 with
  | .good k a t _ => tryCopy word k a t r.1
  | _ => modComp (fun c => { c with cursor := word + 1, failed := none }) (loseEntry l r.1)

/-- With no entry left from the cursor on, SEAL is next (R106), and compaction enters it in the step that copies or loses
the last held entry (DESIGN CHOICE, log 81). -/
def sealIfDone (s : State) : State :=
  if s.ctl.comp.state = .copy ∧ nextHeld s.ctl.directory s.ctl.comp.victim s.ctl.comp.cursor = none then
    modComp (fun c => { c with state := .seal, sealStep := .seq }) s
  else s

/-- COMPACT_COPY (R106). Where other work has left no held entry from the cursor on, the step writes nothing and enters
SEAL (DESIGN CHOICE, log 81). -/
def compactCopy (s : State) : State :=
  if compactionAt .copy s then
    match nextHeld s.ctl.directory s.ctl.comp.victim s.ctl.comp.cursor with
    | some w => sealIfDone (copyEntry w s)
    | none => sealIfDone s
  else s

/-! ## SEAL (R108) -/

/-- The target becomes ACTIVE when none is, or when its free words exceed the ACTIVE sector's. -/
def targetActive (c : Control) : Bool :=
  match c.activeSector with
  | some n => decide ((c.account n).appendPoint > c.comp.targetAppend)
  | none => true

/-- The size of each copy. -/
def copiesSize (s : State) : Nat :=
  (s.ctl.comp.copies.map (fun p => storedSize s { sector := s.ctl.comp.target, word := p.2 })).foldl (fun a b => a + b) 0

/-- The directory step: each key on the copy list moves to its copy, no snoop is made. -/
def moveCopies : List (Nat × Nat) → State → State
  | [], s => s
  | (v, w) :: l, s =>
    moveCopies l
      (match dirKeyAt s.ctl.directory { sector := s.ctl.comp.victim, word := v } with
       | some k => setDirectory (dirMove s.ctl.directory k { sector := s.ctl.comp.target, word := w }) s
       | none => s)

def sealNext (st : SealStep) (s : State) : State := modComp (fun c => { c with sealStep := st }) s

/-- A step of SEAL done, or compaction abandoned when its word or mark has failed (R108). -/
def sealWent (r : State × Bool) (st : SealStep) : State := if r.2 then sealNext st r.1 else abandonCompaction r.1

/-- The sequence word: the highest sequence number raised by one, past 4,294,967,295 as in `tryActivate` (DESIGN CHOICE,
unsafe, log 100). -/
def sealSeq (s : State) : State :=
  let seq := s.ctl.highestSeq + 1
  sealWent
    (programWord (fieldWord (BitVec.ofNat 32 seq)) s.ctl.comp.target 3
      { s with ctl := { s.ctl with highestSeq := seq } }) .state

/-- The mark of the state the target takes. -/
def sealState (s : State) : State :=
  let active := targetActive s.ctl
  sealWent (programMark s.ctl.comp.target (if active then markActive else markFull) s) (.sealed active)

/-- What follows SEALED: FULL on the sector that is ACTIVE where the target is to be ACTIVE, else the directory step. -/
def afterSealed (active : Bool) (c : Control) : SealStep :=
  match active, c.activeSector with
  | true, some n => .full n
  | _, _ => .directory

/-- SEALED. Once it has verified the seal takes effect: the target stands in its state, and an ACTIVE one takes the entries
written from here on (R96, R108; log 93). -/
def sealSealed (active : Bool) (s : State) : State :=
  let n := s.ctl.comp.target
  let r := programMark n markSealed s
  if r.2 then sealNext (afterSealed active r.1.ctl) (setSector n (if active then .active else .full) r.1)
  else abandonCompaction r.1

/-- The directory step: the locations move, the target's copies and the victim's entries change counts, and compaction
enters RETIRE-VICTIM. -/
def sealDirectory (s : State) : State :=
  let size := copiesSize s
  modComp (fun c => { c with state := .retireVictim, copies := [] })
    (modAccount s.ctl.comp.victim (fun a => { a with live := 0, dead := a.dead + a.live })
      (modAccount s.ctl.comp.target (fun a => { a with live := a.live + size }) (moveCopies s.ctl.comp.copies s)))

/-- One step of SEAL (R90, R108; log 57): the sequence word, the state mark, SEALED, FULL on the sector that was ACTIVE, or
the directory. -/
def compactSeal (s : State) : State :=
  if compactionAt .seal s then
    match s.ctl.comp.sealStep with
    | .seq => sealSeq s
    | .state => sealState s
    | .sealed active => sealSealed active s
    | .full n => sealNext .directory (makeFull n s)
    | .directory => sealDirectory s
  else s

/-! ## RETIRE-VICTIM (R109) -/

/-- COMPACT_RETIRE_VICTIM: RELEASED programmed; compaction goes on whether it takes or not. -/
def compactRetireVictim (s : State) : State :=
  if compactionAt .retireVictim s then
    let v := s.ctl.comp.victim
    modComp (fun c => c.startErase v) (setSector v .released (programMark v markReleased s).1)
  else s

end Sys2Proof.Machine
end

