-- ==== Sys2Proof/Machine/Base.lean ====
section
/-! DEFINITION. Loading the base partition, protection and configuration records (R77, R81, R83). -/

namespace Sys2Proof.Machine

/-! ## Loading (R77) -/

/-- The order test of a LOAD-ENTRY (R77, R88). -/
def orderOk (l : LastKey) (k : Key) : Bool :=
  match l with
  | .none => true
  | .key p => keyLt p k
  | .justBefore f => ! keyLt k f
  | .untrusted => false

def setSlots (n slots : Nat) (s : State) : State :=
  let t := s.ctl.keyTable.map (fun r => if r.sector = n then { r with slots := slots } else r)
  { s with ctl := { s.ctl with keyTable := t } }

def slotsOf (c : Control) (n : Nat) : Nat :=
  match c.keyTable.find? (fun r => decide (r.sector = n)) with
  | some r => r.slots
  | none => 0

/-- CLOSED programmed on a base sector; it is CLOSED in RAM whether or not the mark takes (R73). -/
def closeBase (n : Nat) (s : State) : State :=
  let s1 := setSector n .closed (programMark n markClosed s).1
  { s1 with ctl := { s1.ctl with openSector := none } }

/-- The entry and its slot written in the open sector (R77). -/
def loadInto (n fill : Nat) (k : Key) (a : Attrs) (t : Text) (s : State) : State × Bool :=
  let slots := slotsOf s.ctl n
  let r := writeEntryWords n fill k a t s
  if r.2 then
    let q := programWord (fieldWord (BitVec.ofNat 32 fill)) n (Config.sectorWords - 1 - slots) r.1
    if q.2 then
      let s1 := setSlots n (slots + 1) q.1
      ({ s1 with ctl := { s1.ctl with openSector := some (n, fill + entrySize k t), lastKey := .key k } }, true)
    else (closeBase n q.1, false)
  else (closeBase n r.1, false)

/-- One more than the last keyed base sector, 0 when none is keyed (R77). -/
def aboveKeyed (c : Control) : Nat :=
  (baseSectors.filter (fun n => decide (c.sectorState n = .filling) || decide (c.sectorState n = .closed))).foldl
    (fun _ n => n + 1) 0

/-- The lowest EMPTY base sector above the last keyed one. -/
def nextEmpty (c : Control) : Option Nat :=
  baseSectors.find? (fun n => decide (aboveKeyed c ≤ n) && decide (c.sectorState n = .empty))

/-- A base sector opened for a key: first key, KEYED, a row of the sector key table (R77, R79). In a retried load the row
joins the table though the sector opened before it has the same first key (DESIGN CHOICE, log 79). -/
def openBase (n : Nat) (k : Key) (s : State) : State × Bool :=
  let w := programWords n 3 (BitVec.ofNat 32 k.length :: k.map (BitVec.ofNat 32)) s
  let m := if w.2 then programMark n markKeyed w.1 else w
  if m.2 then
    let s1 := setSector n .filling m.1
    ({ s1 with ctl :=
      { s1.ctl with
        keyTable := s1.ctl.keyTable ++ [{ sector := n, firstKey := k, slots := 0 }]
        openSector := some (n, Config.bodyStart) } }, true)
  else (markBad n m.1, false)

/-- The load in a newly opened sector; `tries` is how many writes are left (R72, R73, R77). -/
def loadFresh (k : Key) (a : Attrs) (t : Text) : Nat → State → State × RespCode
  | 0, s => (s, .storeFault)
  | tries + 1, s =>
    match nextEmpty s.ctl with
    | none => (s, .storeFull)
    | some n =>
      let o := openBase n k s
      if o.2 then
        let r := loadInto n Config.bodyStart k a t o.1
        if r.2 then (r.1, .done) else loadFresh k a t tries r.1
      else loadFresh k a t tries o.1

/-- The entry fits in the open sector (R77). -/
def loadFits (n fill : Nat) (k : Key) (t : Text) (s : State) : Bool :=
  decide (fill + entrySize k t + slotsOf s.ctl n + 1 ≤ Config.sectorWords)

def loadEntry (k : Key) (a : Attrs) (t : Text) (s : State) : State × RespCode :=
  match s.ctl.openSector with
  | some (n, fill) =>
    if loadFits n fill k t s then
      let r := loadInto n fill k a t s
      if r.2 then (r.1, .done) else loadFresh k a t 1 r.1
    else loadFresh k a t 2 (closeBase n s)
  | none => loadFresh k a t 2 s

/-- The answer of a LOAD-ENTRY (R77). -/
def loadAnswer (k : Key) (a : Attrs) (t : Text) (s : State) : State × RespCode :=
  if ! keyOk k || ! textOk t then (s, .badEntry)
  else if ! orderOk s.ctl.lastKey k then (s, .order)
  else loadEntry k a t s

/-- SERVE_LOAD_ENTRY (R77). -/
def serveLoadEntry (s : State) : State :=
  match s.ctl.direct with
  | some (.loadEntry k a t) =>
    if nextWork s = .direct then
      let r := loadAnswer k a t s
      finishDirect r.2 [] r.1
    else s
  | _ => s

/-! ## Protection (R81) -/

/-- The config sector stands as one, neither BAD nor out of use. R86 names a BAD one: PROTECT, WRITE-CONFIG and the reading
of protect state and record take one whose BAD mark would not take, out of use for this start (R73), like a BAD one (DESIGN
CHOICE, unsafe, log 106). -/
def configGood (s : State) : Bool := decide (s.ctl.sectorState Config.configSector = .config)

def protectedNow (s : State) : State := { s with ctl := { s.ctl with baseProtected := true } }

/-- R81: PROTECT-A, failing that PROTECT-B. When either reads set the base is protected and nothing is programmed; nor is
anything when the config sector is BAD (R86), or out of use (DESIGN CHOICE, log 106). -/
def protectBase (s : State) : State × RespCode :=
  if ! configGood s then (s, .storeFault)
  else if readsMark s Config.configSector markProtectA || readsMark s Config.configSector markProtectB then
    (protectedNow s, .done)
  else
    let a := programMark Config.configSector markProtectA s
    if a.2 then (protectedNow a.1, .done)
    else
      let b := programMark Config.configSector markProtectB a.1
      if b.2 then (protectedNow b.1, .done) else (b.1, .storeFault)

/-- SERVE_PROTECT (R81). -/
def serveProtect (s : State) : State :=
  match s.ctl.direct with
  | some .protect =>
    if nextWork s = .direct then
      let r := protectBase s
      finishDirect r.2 [] r.1
    else s
  | _ => s

/-! ## Configuration records (R83) -/

/-- Two 16-bit fields in a word, the first in bits 31-16 (R205). -/
def twoFields (a b : BitVec 16) : BitVec 32 := a ++ b

def configWords (f : ConfigFields) : List (BitVec 32) :=
  [twoFields f.lineWidth f.debounce, twoFields f.settle f.handoff, twoFields f.rows f.reviewIdle]

/-- The six fields of the three words of a record. -/
def configOfWords : List (BitVec 32) → Option ConfigFields
  | [a, b, c] =>
    some { lineWidth := (a >>> 16).setWidth 16, debounce := a.setWidth 16, settle := (b >>> 16).setWidth 16
           handoff := b.setWidth 16, rows := (c >>> 16).setWidth 16, reviewIdle := c.setWidth 16 }
  | _ => none

/-- A record written at a place: WRITING, the three words, LIVE (R66, R83). -/
def writeRecord (f : ConfigFields) (word : Nat) (s : State) : State × Bool :=
  let h := programMark Config.configSector (writingAt word) s
  if h.2 then
    let b := programWords Config.configSector (word + 1) (configWords f) h.1
    if b.2 then programMark Config.configSector (liveAt word) b.1 else b
  else h

/-- A record appended, once more at the next place after a failure (R83); `tries` is how many writes are left. -/
def appendRecord (f : ConfigFields) : Nat → State → State × RespCode
  | 0, s => (s, .storeFault)
  | tries + 1, s =>
    let w := s.ctl.configAppend
    if w + 4 ≤ Config.sectorWords then
      let r := writeRecord f w s
      let s1 := { r.1 with ctl := { r.1.ctl with configAppend := w + 4 } }
      if r.2 then (s1, .done) else appendRecord f tries s1
    else (s, .storeFull)

/-- R83, R86: WRITE-CONFIG; a BAD config sector refuses it, and so does one out of use (DESIGN CHOICE, log 106). -/
def writeConfig (f : ConfigFields) (s : State) : State × RespCode :=
  if configGood s then appendRecord f 2 s else (s, .storeFault)

/-- SERVE_WRITE_CONFIG (R83, R195): DONE names the fields out of range. -/
def serveWriteConfig (s : State) : State :=
  match s.ctl.direct with
  | some (.writeConfig f) =>
    if nextWork s = .direct then
      let r := writeConfig f s
      finishDirect r.2 (if r.2 = .done then [(fieldsOutOfRange f).setWidth 8] else []) r.1
    else s
  | _ => s

end Sys2Proof.Machine
end

