-- ==== Sys2Proof/Machine/Erase.lean ====
section
/-! DEFINITION. Erasing (R74, R75): pre-zero words, erase pulses, formatting, and what ends an erase within compaction
(R109, R110), ERASE-BASE (R78) and UNPROTECT (R82). -/

namespace Sys2Proof.Machine

/-- The piece of work an erase belongs to. -/
inductive EraseOwner where
  | compaction
  | direct
deriving DecidableEq, Repr

/-- The erase whose step is next: its owner, its sector and how far it has come (R89, R90). -/
structure EraseAt where
  owner : EraseOwner
  sector : Nat
  phase : ErasePhase
deriving DecidableEq, Repr

def compErase (c : Compaction) : Option EraseAt :=
  if c.state = .prezero ∨ c.state = .erase then
    some { owner := .compaction, sector := c.erasing, phase := c.phase }
  else none

def directErase (d : Option Direct) : Option EraseAt :=
  match d with
  | some (.eraseBase (n :: _) ph) => some { owner := .direct, sector := n, phase := ph }
  | some (.unprotect (n :: _) ph _) => some { owner := .direct, sector := n, phase := ph }
  | some (.unprotect [] ph _) => some { owner := .direct, sector := Config.configSector, phase := ph }
  | _ => none

def eraseNow (s : State) : Option EraseAt :=
  match nextWork s with
  | .compaction => compErase s.ctl.comp
  | .direct => directErase s.ctl.direct
  | _ => none

/-- The state of compaction in a phase of its erase (R109). -/
def eraseState : ErasePhase → CompState
  | .prezero _ => .prezero
  | _ => .erase

def Direct.setPhase (d : Direct) (ph : ErasePhase) : Direct :=
  match d with
  | .eraseBase l _ => .eraseBase l ph
  | .unprotect l _ f => .unprotect l ph f
  | d => d

def setPhase (o : EraseOwner) (ph : ErasePhase) (s : State) : State :=
  match o with
  | .compaction => modComp (fun c => { c with phase := ph, state := eraseState ph }) s
  | .direct => { s with ctl := { s.ctl with direct := s.ctl.direct.map (fun d => d.setPhase ph) } }

/-! ## What follows the last step of one sector's erase -/

/-- The base partition is empty: no key, no open sector, no last key (R78, R82). -/
def baseCleared (s : State) : State :=
  { s with ctl := { s.ctl with keyTable := [], openSector := none, lastKey := .none } }

def emptyCount (c : Control) : Nat := (baseSectors.filter (fun n => decide (c.sectorState n = .empty))).length

/-- R78: the last sector is done. -/
def eraseBaseDone (s : State) : State :=
  let s1 := baseCleared s
  finishDirect .done [BitVec.ofNat 8 (emptyCount s1.ctl)] s1

/-- R82: the third stage is done. BASE-CLEARED is the next step, unless the config sector went BAD, which ends UNPROTECT
with STORE-FAULT (log 44). -/
def unprotectDone (failed : Bool) (s : State) : State :=
  if failed then finishDirect .storeFault [] (baseCleared s)
  else { s with ctl := { s.ctl with direct := some (.unprotect [] .cleared false) } }

/-- R82, fourth stage: BASE-CLEARED programmed and UNPROTECT answered; STORE-FAULT when the mark will not take (DESIGN
CHOICE, log 63). -/
def clearedStep (s : State) : State :=
  let m := programMark Config.configSector markBaseCleared (baseCleared s)
  finishDirect (if m.2 then .done else .storeFault) [] m.1

/-- The next sector of a direct erase, or its end. -/
def nextSector (s : State) : State :=
  match s.ctl.direct with
  | some (.eraseBase l _) =>
    if l.tail.isEmpty then eraseBaseDone s
    else { s with ctl := { s.ctl with direct := some (.eraseBase l.tail (.prezero 0)) } }
  | some (.unprotect l _ f) =>
    if l.tail.isEmpty then unprotectDone f s
    else { s with ctl := { s.ctl with direct := some (.unprotect l.tail (.prezero 0) f) } }
  | _ => s

/-- The config sector's erase has failed: UNPROTECT is to be answered STORE-FAULT (R82). -/
def configFailed (n : Nat) (s : State) : State :=
  match s.ctl.direct with
  | some (.unprotect l ph _) =>
    if n = Config.configSector then
      { s with ctl := { s.ctl with direct := some (.unprotect l ph true), baseProtected := false } }
    else s
  | _ => s

/-- R75: the erase of a sector has failed. -/
def sectorLost (n : Nat) (s : State) : State := noteFault .eraseFail n 0 (markBad n s)

def eraseFailed (o : EraseOwner) (n : Nat) (s : State) : State :=
  match o with
  | .compaction => compactionIdle (sectorLost n s)
  | .direct => nextSector (configFailed n (sectorLost n s))

/-- R82, second stage: the config sector stands formatted, its protect marks gone and its body empty. The record read at
start is programmed by the next step; with none, the third stage is next (log 44). -/
def configFormatted (s : State) : State :=
  let s1 := { s with ctl := { s.ctl with configAppend := Config.bodyStart, baseProtected := false } }
  if s1.ctl.configRecord.isSome then setPhase .direct (.record false) s1 else nextSector s1

/-- R82, second stage: the record read at start is programmed again as the first one, one write in one step (R76). A record
that will not take is tried once more as R83 has it, and a second failure leaves none, with UNPROTECT going on (DESIGN
CHOICE, log 62). -/
def recordStep (again : Bool) (s : State) : State :=
  match s.ctl.configRecord with
  | some f =>
    let r := appendRecord f 1 s
    if r.2 = .done ∨ again = true then nextSector r.1 else setPhase .direct (.record true) r.1
  | none => nextSector s

/-- The state a formatted sector takes (R75). -/
def formattedState (n : Nat) : SecState :=
  if n < Config.firstSession then .empty else if n < Config.configSector then .free else .config

/-- A sector has been erased and formatted (R75, R109, R110). -/
def eraseSucceeded (o : EraseOwner) (n : Nat) (s : State) : State :=
  let s1 := setSector n (formattedState n) s
  match o with
  | .compaction => compactionIdle (nameReserve (modAccount n (fun _ => Account.fresh) s1))
  | .direct => if n = Config.configSector then configFormatted s1 else nextSector s1

/-! ## The three stages -/

/-- The next word from `w` on that the pre-zero pass has to program (R74). -/
def nextToZero (n w : Nat) (s : State) : Option Nat :=
  prezeroWords.find? (fun i => decide (w ≤ i) && decide ((wordAt s n i).bits ≠ 0))

/-- PREZERO_WORD (R74): one word to zero; with none left the pulses are next. -/
def prezeroStep (e : EraseAt) (w : Nat) (s : State) : State :=
  match nextToZero e.sector w s with
  | none => setPhase e.owner (.pulses 0) s
  | some i =>
    let r := programWord (fieldWord 0) e.sector i s
    if r.2 then setPhase e.owner (.prezero (i + 1)) (setSector e.sector .invalid r.1)
    else eraseFailed e.owner e.sector r.1

/-- One erase pulse: every word erased but those the cells still show (log 8). -/
def pulseSector (n : Nat) (s : State) : State :=
  let left := (s.script.erase.headD []).map (fun p => (addrOf n p.1.toNat, p.2))
  { s with store := (s.store.clearSector n).writeAll left, script := { s.script with erase := s.script.erase.tail } }

/-- The erase-verify: no word of the sector is listed (R67, R75). A word it finds in another class is no more than not
erased: it is not counted as CORRECTED or UNCORRECTABLE (DESIGN CHOICE, log 59). -/
def verifiedErased (m : Memory) (n : Nat) : Bool := m.all (fun c => ! decide (c.1 / Config.sectorWords = n))

/-- ERASE_PULSE (R75). -/
def pulseStep (e : EraseAt) (given : Nat) (s : State) : State :=
  let s1 := pulseSector e.sector s
  if verifiedErased s1.store e.sector then setPhase e.owner .format s1
  else if Config.pulseLimit ≤ given + 1 then eraseFailed e.owner e.sector s1
  else setPhase e.owner (.pulses (given + 1)) s1

/-- The marks of a sector's new use (R75). -/
def formatMarks (n : Nat) : List Mark :=
  if n < Config.firstSession then [markBase]
  else if n < Config.configSector then [markSession]
  else [markConfig, markUnprotectPending]

def programMarks (n : Nat) : List Mark → State → State × Bool
  | [], s => (s, true)
  | m :: l, s =>
    let r := programMark n m s
    if r.2 then programMarks n l r.1 else r

/-- A sector formatted: its marks, then its format word (R75). -/
def formatSector (n : Nat) (s : State) : State × Bool :=
  let m := programMarks n (formatMarks n) s
  if m.2 then programWord (fieldWord (formatWord n)) n 0 m.1 else m

/-- FORMAT_SECTOR (R75). -/
def formatStep (e : EraseAt) (s : State) : State :=
  let r := formatSector e.sector s
  if r.2 then eraseSucceeded e.owner e.sector r.1 else eraseFailed e.owner e.sector r.1

/-- The step of the erase in progress, when it is of the stage commanded. -/
def prezeroWord (s : State) : State :=
  match eraseNow s with
  | some e =>
    match e.phase with
    | .prezero w => prezeroStep e w s
    | _ => s
  | none => s

def erasePulse (s : State) : State :=
  match eraseNow s with
  | some e =>
    match e.phase with
    | .pulses n => pulseStep e n s
    | _ => s
  | none => s

def formatCommand (s : State) : State :=
  match eraseNow s with
  | some e =>
    match e.phase with
    | .format => formatStep e s
    | .record again => recordStep again s
    | .cleared => clearedStep s
    | _ => s
  | none => s

end Sys2Proof.Machine
end

