-- ==== Sys2Proof/Machine/Scan.lean ====
section
/-! DEFINITION. The start scan (R64, R79, R83, R86 to R88): decoding headers, finishing or undoing what was cut short,
rebuilding the directory and the sector key table. -/

namespace Sys2Proof.Machine

/-! ## Decoding headers (R64) -/

/-- The role mark of a sector's partition. -/
def roleMark (n : Nat) : Mark :=
  if n < Config.firstSession then markBase else if n < Config.configSector then markSession else markConfig

/-- Exactly one role mark is set, and it matches the partition. -/
def roleGood (s : State) (n : Nat) : Bool :=
  [markBase, markSession, markConfig].all (fun m => readsMark s n m == decide (m = roleMark n))

/-- The format word holds this sector's number and partition (R64). -/
def formatGood (s : State) (n : Nat) : Bool :=
  let w := wordAt s n 0
  (decide (classOf w = .clean) || decide (classOf w = .corrected)) &&
    decide (formatFields w.bits = (n, partitionOf n))

/-- The state of a base sector from KEYED and CLOSED. -/
def baseState (keyed closed : Bool) : SecState :=
  match keyed, closed with
  | false, false => .empty
  | true, false => .filling
  | true, true => .closed
  | false, true => .invalid

/-- The state of a session sector from its five marks (R64). -/
def sessionState (active full copyTarget isSealed released : Bool) : SecState :=
  if released then (if full then .released else .invalid)
  else
    match copyTarget, isSealed with
    | false, false => if full then .full else if active then .active else .free
    | true, false => .copyTarget
    | true, true => if full then .full else if active then .active else .invalid
    | false, true => .invalid

/-- Role and state decoded from a header (R64). -/
def decodeSector (s : State) (n : Nat) : SecState :=
  if readsMark s n markBadSector then .bad
  else if ! formatGood s n || ! roleGood s n then .invalid
  else if n < Config.firstSession then baseState (readsMark s n markKeyed) (readsMark s n markClosed)
  else if n < Config.configSector then
    sessionState (readsMark s n markActive) (readsMark s n markFull) (readsMark s n markCopyTarget)
      (readsMark s n markSealed) (readsMark s n markReleased)
  else .config

/-- A format word that is corrected or uncorrectable is counted (R67); an erased one is an unformatted sector. -/
def noteFormat (n : Nat) (s : State) : State :=
  if readsMark s n markBadSector then s
  else
    match classOf (wordAt s n 0) with
    | .corrected => noteFault .corrected n 0 s
    | .uncorrectable => noteFault .uncorrectable n 0 s
    | _ => s

/-- The config sector, then every other sector, ascending: R86 names the config sector first and states no order of the
others (DESIGN CHOICE, log 88). -/
def headerOrder : List Nat := Config.configSector :: List.range Config.configSector

/-- ACTIVE, FULL and RELEASED sectors hold a sequence number. -/
def holdsSeq (st : SecState) : Bool := decide (st = .active) || decide (st = .full) || decide (st = .released)

/-- The sequence number of a sector, an uncorrectable one taken as 0 (R64). -/
def readSeq (n : Nat) (s : State) : State × Nat :=
  let r := readWord anyValueOk n 3 s
  match r.2.values with
  | some [v] => (r.1, v.toNat)
  | _ => (r.1, 0)

/-- One header read: the format word, the state it decodes to, and the sequence number of a sector that holds one (R64,
R86). -/
def readHeader (n : Nat) (s : State) : State × List (Nat × Nat) :=
  let st := decodeSector s n
  let s1 := setSector n st (noteFormat n s)
  if holdsSeq st then
    let r := readSeq n s1
    (r.1, [(n, r.2)])
  else (s1, [])

/-- Every header read, before anything is recovered, with the sequence numbers found (R86). -/
def readHeaders : List Nat → State → State × List (Nat × Nat)
  | [], s => (s, [])
  | n :: l, s =>
    let r := readHeader n s
    let q := readHeaders l r.1
    (q.1, r.2 ++ q.2)

/-! ## Erasing to completion (R74, R75, R86) -/

/-- The pre-zero pass of one sector. Where no cell answers otherwise every word is programmed to zero, and the pulses that
follow leave nothing of it (log 37). -/
def prezeroAll (n : Nat) (s : State) : State × Bool :=
  if s.script.prog.isEmpty then (s, true) else zeroWords n prezeroWords s

/-- Up to so many pulses until the erase-verify finds every word erased. -/
def pulseAll (n : Nat) : Nat → State → State × Bool
  | 0, s => (s, false)
  | k + 1, s =>
    let s1 := pulseSector n s
    if verifiedErased s1.store n then (s1, true) else pulseAll n k s1

/-- A sector erased and formatted whole; a failure makes it BAD (R75). -/
def eraseWhole (n : Nat) (s : State) : State × Bool :=
  let z := prezeroAll n s
  let p := if z.2 then pulseAll n Config.pulseLimit z.1 else z
  let f := if p.2 then formatSector n p.1 else p
  if f.2 then (setSector n (formattedState n) f.1, true) else (sectorLost n f.1, false)

def eraseEach : List Nat → State → State
  | [], s => s
  | n :: l, s => eraseEach l (eraseWhole n s).1

/-- The base sectors that are not BAD (R78, R82). One whose BAD mark would not take, out of use for the rest of this start
(R73), is among them: it is not BAD, and it is erased and formatted again (DESIGN CHOICE, log 61). -/
def baseToErase (c : Control) : List Nat := baseSectors.filter (fun n => decide (c.sectorState n ≠ .bad))

/-- The third stage of R82, and the fourth where the config sector stands. In the scan's own recovery (R86) a BASE-CLEARED
that will not take is counted as a PROGRAM-FAIL, and the scan goes on with the config sector valid (DESIGN CHOICE, unsafe,
log 99). -/
def eraseBaseWhole (configStands : Bool) (s : State) : State :=
  let s1 := eraseEach (baseToErase s.ctl) s
  if configStands then (programMark Config.configSector markBaseCleared s1).1 else s1

/-- R86: the config sector recovered. UNPROTECT-PENDING without BASE-CLEARED completes the base erase also where a protect
mark is set, though R81 keeps a protected base from being erased (DESIGN CHOICE, log 69). -/
def recoverConfig (s : State) : State :=
  match s.ctl.sectorState Config.configSector with
  | .bad => s
  | .config =>
    if readsMark s Config.configSector markUnprotectPending && ! readsMark s Config.configSector markBaseCleared then
      eraseBaseWhole true s
    else s
  | _ =>
    let r := eraseWhole Config.configSector s
    eraseBaseWhole r.2 r.1

/-! ## Configuration record (R83) -/

/-- The 1020 record places, from word 16 upward (R83). -/
def recordPlaces : List Nat := (List.range 1020).map (fun i => Config.bodyStart + 4 * i)

/-- One record place looked at, by its two marks alone (R63, R205): a place with LIVE set holds the newest LIVE record so
far, and the append point lies after a place on which either mark reads set. -/
def walkRecord (s : State) (found : Nat × Option Nat) (w : Nat) : Nat × Option Nat :=
  if readsMark s Config.configSector (liveAt w) then (w + 4, some w)
  else if readsMark s Config.configSector (writingAt w) then (w + 4, found.2)
  else found

/-- The append point, after the last place that a mark reads set on, and the newest LIVE record (R83). A place whose
WRITING took no copy reads unset, and the walk goes on past it to the record its retry wrote (DESIGN CHOICE, log 68). -/
def walkRecords (s : State) : Nat × Option Nat := recordPlaces.foldl (walkRecord s) (Config.bodyStart, none)

/-- Protect state and configuration record read from a good config sector; a BAD one gives neither (R83, R86), nor does one
out of use (DESIGN CHOICE, log 106). -/
def readConfig (s : State) : State :=
  if configGood s then
    let p := readsMark s Config.configSector markProtectA || readsMark s Config.configSector markProtectB
    let w := walkRecords s
    let s1 := { s with ctl := { s.ctl with baseProtected := p, configAppend := w.1 } }
    match w.2 with
    | none => { s1 with ctl := { s1.ctl with configRecord := none } }
    | some a =>
      let r := readWords anyValueOk Config.configSector 3 (a + 1) s1
      { r.1 with ctl := { r.1.ctl with configRecord := match r.2.values with
                                                       | some l => configOfWords l
                                                       | none => none } }
  else { s with ctl := { s.ctl with baseProtected := false, configRecord := none } }

/-! ## Session sectors and base sectors recovered (R86) -/

/-- The session sectors to be erased to FREE, invalid, COPY-TARGET and RELEASED ones together in ascending number (R86;
DESIGN CHOICE, log 96). -/
def staleSession (c : Control) : List Nat :=
  sessionSectors.filter (fun n =>
    decide (c.sectorState n = .invalid) || decide (c.sectorState n = .copyTarget) ||
      decide (c.sectorState n = .released))

/-- The base sectors to be erased to EMPTY, ascending (R86; DESIGN CHOICE, log 96). -/
def invalidBase (c : Control) : List Nat := baseSectors.filter (fun n => decide (c.sectorState n = .invalid))

/-- While the base is protected an invalid base sector is left out of use, and STORE-FAULT is raised. -/
def recoverBase (s : State) : State :=
  if s.ctl.baseProtected then
    (invalidBase s.ctl).foldl (fun t n => raise .storeFault (setSector n .outOfUse t)) s
  else eraseEach (invalidBase s.ctl) s

/-! ## The directory (R87) -/

/-- The entry at a location programmed RETIRED. -/
def retireInStore (l : Location) (s : State) : State := (programRetired l s).1

/-- Words of the walked sector counted dead. -/
def countDead (n size : Nat) (s : State) : State := modAccount n (fun a => { a with dead := a.dead + size }) s

/-- The earlier entry of a key programmed RETIRED and counted as retired. -/
def retireEarlier (k : Key) (s : State) : State :=
  match dirLoc s.ctl.directory k with
  | some l => accountRetired l (retireInStore l s)
  | none => s

/-- A live entry whose text is lost: retired, and its key left without a location (R70, R87). -/
def scanLost (k : Key) (l : Location) (size : Nat) (s : State) : State :=
  let s1 := countDead l.sector size (retireInStore l s)
  match dirLoc s1.ctl.directory k with
  | some _ =>
    let s2 := retireEarlier k s1
    snoop k (setDirectory (dirTake s2.ctl.directory k) s2)
  | none => s1

/-- A live entry read good enters the directory; the record beyond the 8192th loses it (R87, R92). -/
def scanEnter (k : Key) (l : Location) (size : Nat) (s : State) : State :=
  if (dirLoc s.ctl.directory k).isNone ∧
      Config.directorySize < s.ctl.directory.length + recordsNeeded s.ctl.directory k then
    noteFault .uncorrectable l.sector l.word (countDead l.sector size (retireInStore l s))
  else
    let s1 := retireEarlier k s
    modAccount l.sector (fun a => { a with live := a.live + size })
      (snoop k (setDirectory (dirSet s1.ctl.directory k l) s1))

/-- A live entry met by the walk (R68, R70, R87). -/
def scanLive (l : Location) (size : Nat) (s : State) : State :=
  let r := readLive l s
  match r.2 with
  | .good k _ _ _ => scanEnter k l size r.1
  | .badText k _ => scanLost k l size r.1
  | _ => countDead l.sector size (retireInStore l r.1)

/-- The walk ends at an uncorrectable header: the rest is dead, an ACTIVE sector becomes FULL (R87). -/
def walkBroken (n w : Nat) (s : State) : State :=
  let s1 := noteFault .uncorrectable n w s
  let s2 := modAccount n (fun a => { a with appendPoint := Config.sectorWords, dead := a.dead + (Config.sectorWords - w) }) s1
  if s2.ctl.sectorState n = .active then makeFull n s2 else s2

/-- The entry header at a word is live and not retired (R66). -/
def isLive (s : State) (n w : Nat) : Bool := readsMark s n (liveAt w) && ! readsMark s n (retiredAt w)

/-- The walk of one sector from a word on (R87). -/
def walkSector (n : Nat) : Nat → Nat → State → State
  | 0, w, s => modAccount n (fun a => { a with appendPoint := w }) s
  | fuel + 1, w, s =>
    let h := wordAt s n w
    if Config.sectorWords ≤ w ∨ isBlankHeader h = true then modAccount n (fun a => { a with appendPoint := w }) s
    else
      match expectedClass (headerFits w) h with
      | .uncorrectable => walkBroken n w s
      | cls =>
        let size := (entryFields h.bits).size
        let l : Location := { sector := n, word := w }
        if isLive s n w then walkSector n fuel (w + size) (scanLive l size s)
        else
          walkSector n fuel (w + size)
            (countDead n size (if cls = .corrected then noteFault .corrected n w s else s))

/-- Into a list in ascending sequence number, equal ones in ascending sector number. -/
def insertSeq (p : Nat × Nat) : List (Nat × Nat) → List (Nat × Nat)
  | [] => [p]
  | q :: l => if p.2 < q.2 ∨ (p.2 = q.2 ∧ p.1 < q.1) then p :: q :: l else q :: insertSeq p l

def sortSeqs (l : List (Nat × Nat)) : List (Nat × Nat) := l.foldr insertSeq []

/-- The sectors to walk, in order (R87). -/
def walkOrder (c : Control) (seqs : List (Nat × Nat)) : List Nat :=
  (sortSeqs (seqs.filter (fun p => decide (c.sectorState p.1 = .active) || decide (c.sectorState p.1 = .full)))).map
    Prod.fst

/-- Of several ACTIVE sectors all but the one walked last become FULL (R87). -/
def oneActive (walked : List Nat) (s : State) : State :=
  ((walked.filter (fun n => decide (s.ctl.sectorState n = .active))).dropLast).foldl (fun t n => makeFull n t) s

/-- R87: the directory rebuilt from an empty one. -/
def rebuildDirectory (seqs : List (Nat × Nat)) (s : State) : State :=
  let order := walkOrder s.ctl seqs
  oneActive order (order.foldl (fun t n => walkSector n 2048 Config.bodyStart t) (setDirectory [] s))

/-! ## The sector key table (R79, R88) -/

/-- A first key's chord count, bits 2 to 0 of base word 3 (R205). Its other bits, which no layout names, are not looked at
(DESIGN CHOICE, unsafe, log 109). -/
def countValueOk (v : BitVec 32) : Bool := decide (1 ≤ v.toNat % 8) && decide (v.toNat % 8 ≤ 6)

/-- The slot words from word 4095 down before the first erased one, each read and its fault counted (R67, R77, R88). In a
sector filled to its last word no erased word stands between the lowest slot and the last entry, and the count goes on
through the words of the entries, down to word 16 (DESIGN CHOICE, log 89). -/
def countSlots (n : Nat) : Nat → Nat → State → State × Nat
  | 0, c, s => (s, c)
  | fuel + 1, c, s =>
    if isBlank (wordAt s n (Config.sectorWords - 1 - c)) then (s, c)
    else countSlots n fuel (c + 1) (readWord slotValueOk n (Config.sectorWords - 1 - c) s).1

/-- The first key of a base sector, none when it cannot be read (R79; log 40). -/
def readFirstKey (n : Nat) (s : State) : State × Option Key :=
  let c := readWord countValueOk n 3 s
  match c.2.values with
  | some [v] =>
    let r := readWords chordValueOk n (v.toNat % 8) 4 c.1
    (r.1, r.2.values.map (fun l => l.map BitVec.toNat))
  | _ => (c.1, none)

/-- The first key stands after the one listed before it. -/
def ascends (t : List KeyRow) (k : Key) : Bool :=
  match t.getLast? with
  | some r => keyLt r.firstKey k
  | none => true

/-- One keyed sector listed or excluded (R79). -/
def listSector (n : Nat) (s : State) : State :=
  let r := readFirstKey n s
  match r.2 with
  | none => raise .storeFault r.1
  | some k =>
    if ascends r.1.ctl.keyTable k then
      let c := countSlots n 4080 0 r.1
      let row : KeyRow := { sector := n, firstKey := k, slots := c.2 }
      { c.1 with ctl := { c.1.ctl with keyTable := c.1.ctl.keyTable ++ [row] } }
    else raise .storeFault r.1

def isKeyed (st : SecState) : Bool := decide (st = .filling) || decide (st = .closed)

def buildKeyTable (s : State) : State :=
  (baseSectors.filter (fun n => isKeyed (s.ctl.sectorState n))).foldl (fun t n => listSector n t)
    { s with ctl := { s.ctl with keyTable := [] } }

/-- The last listed sector. -/
def lastListed (c : Control) : Option KeyRow := c.keyTable.getLast?

/-- FILLING sectors other than the last listed one have CLOSED programmed, while the base is not protected (R88). -/
def closeStale (s : State) : State :=
  if s.ctl.baseProtected then s
  else
    (baseSectors.filter (fun n => decide (s.ctl.sectorState n = .filling) &&
        decide ((lastListed s.ctl).map KeyRow.sector ≠ some n))).foldl (fun t n => closeBase n t) s

/-- The fill point of a base sector: the first word after its entries, whose headers are read as the walk of R87 reads
them (R88). The walk enters no directory, and it reads no chord and no text word (DESIGN CHOICE, log 90). The entries end at
the lowest slot word at the latest, `bound`: no word of the slot table is a header (R77). -/
def fillPoint (n bound : Nat) : Nat → Nat → State → State × Nat
  | 0, w, s => (s, w)
  | fuel + 1, w, s =>
    if bound ≤ w ∨ isBlankHeader (wordAt s n w) = true then (s, w)
    else
      let r := readWord (headerFits w) n w s
      match r.2.values with
      | some [v] => fillPoint n bound fuel (w + (entryFields v).size) r.1
      | _ => (r.1, Config.sectorWords)

/-- The last loaded key, from the last slot of the last listed sector (R88). Where the header word of the entry at that slot
is uncorrectable, one chord word after it is still read and its fault counted, as probing a slot does, before the key is
taken as one that cannot be read (DESIGN CHOICE, unsafe, log 107). -/
def readLastKey (r : KeyRow) (s : State) : State × LastKey :=
  if r.slots = 0 then (s, .justBefore r.firstKey)
  else
    let p := probeSlot r.sector (r.slots - 1) 1 s
    match p.2 with
    | .key _ k m => (p.1, if m.damaged then .untrusted else .key k)
    | .broken _ => (p.1, .untrusted)

/-- The sector open for loading and its fill point, when the last listed sector is FILLING (R88). -/
def openLast (r : KeyRow) (s : State) : State :=
  if s.ctl.sectorState r.sector = .filling then
    let f := fillPoint r.sector (Config.sectorWords - r.slots) 2048 Config.bodyStart s
    { f.1 with ctl := { f.1.ctl with openSector := some (r.sector, f.2) } }
  else { s with ctl := { s.ctl with openSector := none } }

/-- In a maintenance start: the open sector, then the last loaded key, in the order in which R88 names them (DEDUCED,
log 91). Where base sectors stand keyed and none is listed, all of them excluded (R79), no last loaded key is held and no
sector is open, so LOAD-ENTRY takes any key (DESIGN CHOICE, unsafe, log 98). -/
def openForLoading (s : State) : State :=
  match lastListed s.ctl with
  | none => s
  | some r =>
    let k := readLastKey r (openLast r s)
    { k.1 with ctl := { k.1.ctl with lastKey := k.2 } }

/-! ## The scan as a whole -/

def maxSeq (l : List (Nat × Nat)) : Nat := l.foldl (fun m p => max m p.2) 0

/-- R86: once every header has been read, the config sector, protect state and record, the sectors recovered, the reserve
named. -/
def recoverSectors (seqs : List (Nat × Nat)) (s : State) : State :=
  let s1 := readConfig (recoverConfig { s with ctl := { s.ctl with highestSeq := maxSeq seqs } })
  let s2 := recoverBase (eraseEach (staleSession s1.ctl) s1)
  nameReserve { s2 with ctl := { s2.ctl with reserve := none } }

/-- R86: the headers, then the recovery; with the sequence numbers found. -/
def scanRecovery (s : State) : State × List (Nat × Nat) :=
  let h := readHeaders headerOrder s
  (recoverSectors h.2 h.1, h.2)

/-- R86 to R88: the start scan. -/
def startScan (s : State) : State :=
  let r := scanRecovery s
  let s1 := closeStale (buildKeyTable (rebuildDirectory r.2 r.1))
  if s1.straps.maintenance then openForLoading s1 else s1

end Sys2Proof.Machine
end

