-- ==== Sys2Proof/Machine/Screen.lean ====
section
/-! DEFINITION. The Screen Controller's buttons and timer (R183, R184, R187) and the screen port (R182). -/

namespace Sys2Proof.Machine

/-! ## Buttons (R183, R184, R187) -/

/-- The full review idle time in ms. -/
def idleTime (s : State) : Option Nat := some (s.settings.reviewIdle * 1000)

/-- The greatest top: the first line row's RLN in LIVE, or the oldest held RLN when that is later (R183). -/
def greatestTop (s : State) : Nat := max (s.record.lastRln + 1 - lineRows s) s.record.oldest

/-- R183: the view after UP. -/
def viewUp (s : State) : View :=
  match s.screen.view with
  | .live => .review (max (s.record.lastRln - lineRows s) s.record.oldest)
  | .review top => .review (if s.record.oldest < top then top - 1 else top)

def pressUp (s : State) : State :=
  { s with screen := { s.screen with view := viewUp s, idle := idleTime s, markRefused := false } }

/-- R183: DOWN; in LIVE the view stays. -/
def pressDown (s : State) : State :=
  match s.screen.view with
  | .live => { s with screen := { s.screen with markRefused := false } }
  | .review top =>
    { s with screen :=
      { s.screen with
        view := .review (if top < greatestTop s then top + 1 else top), idle := idleTime s, markRefused := false } }

/-- R184: LIVE. -/
def pressLive (s : State) : State := { s with screen := s.screen.sessionReset }

/-- The RLN a MARK press stands for (R187). -/
def pressLine (s : State) : Nat :=
  match s.screen.view with
  | .live => s.record.lastRln
  | .review top => top

/-- The review idle timer after a press taken: started again in REVIEW (R184). -/
def idleAfterPress (s : State) : Option Nat := if inReview s.screen.view then idleTime s else s.screen.idle

/-- The MARK item of a pending start and the press's line (R187, R188). -/
def newMark (start line : Nat) (s : State) : MarkItem :=
  { origin := s.straps.station, id := s.pen.markId, first := min start line, last := max start line }

/-- R187: MARK starts a mark, ends it by queuing a MARK item, or is refused. A refused press is not taken and leaves the
review idle timer as it is (R184; DESIGN CHOICE, log 74). -/
def pressMark (s : State) : State :=
  if s.pen.session = 0 then { s with screen := { s.screen with markRefused := true } }
  else
    match s.screen.pendingStart with
    | none =>
      { s with screen :=
        { s.screen with pendingStart := some (pressLine s), markRefused := false, idle := idleAfterPress s } }
    | some p =>
      if Config.markQueueSize ≤ s.pen.markQueue.length then { s with screen := { s.screen with markRefused := true } }
      else
        { s with
          screen := { s.screen with pendingStart := none, markRefused := false, idle := idleAfterPress s }
          pen := { s.pen with markQueue := s.pen.markQueue ++ [newMark p (pressLine s) s], markId := s.pen.markId + 1 } }

/-- The review idle timer has run out (R184). -/
def idleOver (s : State) : Bool := inReview s.screen.view && decide (s.screen.idle = some 0)

def reviewIdleExpiry (s : State) : State :=
  if idleOver s then { s with screen := { s.screen with view := .live, idle := none, newText := false } } else s

/-! ## The screen port (R182) -/

/-- The lowest dirty row starts to be written, with its content at this moment. -/
def writeStart (s : State) : State :=
  match s.screen.dirty, s.screen.writing with
  | i :: l, none =>
    if s.start = .storeScan then s
    else { s with screen := { s.screen with dirty := l, writing := some (i, rowContent s i) } }
  | _, _ => s

/-- The write ends: its content becomes the row's shown content. -/
def writeDone (s : State) : State :=
  match s.screen.writing with
  | some (i, t) => { s with screen := { s.screen with shown := s.screen.shown.set i (some t), writing := none } }
  | none => s

/-- The rows in force from the end of the start scan (R178). -/
def Screen.withRows (sc : Screen) (n : Nat) : Screen :=
  { sc with rows := n, dirty := List.range n, shown := List.replicate n none }

end Sys2Proof.Machine
end

