-- ==== Sys2Proof/Machine/Frames.lean ====
section
/-! DEFINITION. The frames of the service port (R206): request bodies and frames as bytes, parsing them back, response
frames, and the bodies of the responses. -/

namespace Sys2Proof.Machine

/-! ## Request frames -/

def keyBytes (k : Key) : List Byte := BitVec.ofNat 8 k.length :: k.flatMap (beBytes 3)

def textBytes (t : Text) : List Byte := BitVec.ofNat 8 t.length :: t

/-- The request kind (R206). -/
def Request.kind : Request → Nat
  | .status => 1
  | .readAttention => 2
  | .maskAttention _ => 3
  | .ackAttention _ _ => 4
  | .define _ _ _ => 5
  | .retire _ => 6
  | .readEntry _ => 7
  | .openSession => 8
  | .closeSession => 9
  | .readJournal _ => 10
  | .readRecord _ _ => 11
  | .readMarks => 12
  | .readFault => 13
  | .clearFault => 14
  | .eraseBase => 15
  | .loadEntry _ _ _ => 16
  | .writeConfig _ => 17
  | .protect => 18
  | .unprotect => 19

def configBytes (f : ConfigFields) : List Byte :=
  beBytes 2 f.lineWidth.toNat ++ beBytes 2 f.debounce.toNat ++ beBytes 2 f.settle.toNat ++ beBytes 2 f.handoff.toNat ++
  beBytes 2 f.rows.toNat ++ beBytes 2 f.reviewIdle.toNat

def entryBytes (k : Key) (a : Attrs) (t : Text) : List Byte := keyBytes k ++ a.setWidth 8 :: textBytes t

/-- The body of a request (R206). -/
def Request.body : Request → List Byte
  | .maskAttention m => beBytes 2 m.toNat
  | .ackAttention c n => beBytes 2 c.toNat ++ [n]
  | .define k a t => entryBytes k a t
  | .retire k => keyBytes k
  | .readEntry k => keyBytes k
  | .readJournal n => [n]
  | .readRecord f n => beBytes 3 f.toNat ++ [n]
  | .loadEntry k a t => entryBytes k a t
  | .writeConfig f => configBytes f
  | _ => []

/-- The byte that makes the 8-bit total 0 (R206). -/
def sumByte (l : List Byte) : Byte := 0 - l.foldl (fun a b => a + b) 0

def totalByte (l : List Byte) : Byte := l.foldl (fun a b => a + b) 0

/-- A frame: its length, its bytes, its sum. -/
def frameOf (l : List Byte) : List Byte :=
  let h := beBytes 2 (l.length + 1) ++ l
  h ++ [sumByte h]

def requestFrame (tag : Byte) (r : Request) : List Byte := frameOf (BitVec.ofNat 8 r.kind :: tag :: r.body)

/-! ## Parsing (R197, R206) -/

/-- The first `n` chords of a key, three bytes each, when there are enough bytes. -/
def chordsOf : Nat → List Byte → Option (Key × List Byte)
  | 0, l => some ([], l)
  | n + 1, a :: b :: c :: l =>
    match chordsOf n l with
    | some (k, r) => some (beNat [a, b, c] :: k, r)
    | none => none
  | _ + 1, _ => none

def parseKey : List Byte → Option (Key × List Byte)
  | [] => none
  | n :: l => chordsOf n.toNat l

/-- A text that fills the rest of the body. -/
def parseText : List Byte → Option Text
  | [] => none
  | n :: l => if n.toNat = l.length then some l else none

/-- A key that fills the body. -/
def parseKeyOnly (l : List Byte) : Option Key :=
  match parseKey l with
  | some (k, []) => some k
  | _ => none

/-- A key, an attribute set whose two unused bits are not read (log 35), and a text. -/
def parseEntry (l : List Byte) : Option (Key × Attrs × Text) :=
  match parseKey l with
  | some (k, a :: r) => (parseText r).map (fun t => (k, a.setWidth 6, t))
  | _ => none

def parseConfig : List Byte → Option ConfigFields
  | [a1, a0, b1, b0, c1, c0, d1, d0, e1, e0, f1, f0] =>
    some { lineWidth := a1 ++ a0, debounce := b1 ++ b0, settle := c1 ++ c0, handoff := d1 ++ d0, rows := e1 ++ e0
           reviewIdle := f1 ++ f0 }
  | _ => none

/-- A request without a body. -/
def plain (r : Request) (l : List Byte) : Option Request := if l.isEmpty then some r else none

/-- The request of a kind and a body that agrees with it (R206). -/
def parseBody (kind : Nat) (l : List Byte) : Option Request :=
  match kind with
  | 1 => plain .status l
  | 2 => plain .readAttention l
  | 3 => match l with | [a, b] => some (.maskAttention (a ++ b)) | _ => none
  | 4 => match l with | [a, b, n] => some (.ackAttention (a ++ b) n) | _ => none
  | 5 => (parseEntry l).map (fun e => .define e.1 e.2.1 e.2.2)
  | 6 => (parseKeyOnly l).map .retire
  | 7 => (parseKeyOnly l).map .readEntry
  | 8 => plain .openSession l
  | 9 => plain .closeSession l
  | 10 => match l with | [n] => some (.readJournal n) | _ => none
  | 11 => match l with | [a, b, c, n] => some (.readRecord (a ++ b ++ c) n) | _ => none
  | 12 => plain .readMarks l
  | 13 => plain .readFault l
  | 14 => plain .clearFault l
  | 15 => plain .eraseBase l
  | 16 => (parseEntry l).map (fun e => .loadEntry e.1 e.2.1 e.2.2)
  | 17 => (parseConfig l).map .writeConfig
  | 18 => plain .protect l
  | 19 => plain .unprotect l
  | _ => none

/-- What the bytes of a transaction are (R196, R197, R206). -/
inductive Parsed where
  | poll
  | badFrame (tag : Byte)
  | badRequest (tag : Byte)
  | good (tag : Byte) (r : Request)
deriving DecidableEq, Repr

/-- The tag a BAD-FRAME carries: the second byte after the length when it was received and the length is 3 or more. -/
def badTag (len : Nat) (rest : List Byte) : Byte := if 3 ≤ len then rest.getD 1 0 else 0

/-- The kind, tag and body of a frame that is whole. -/
def parseWhole (content : List Byte) : Parsed :=
  match content with
  | k :: tag :: r =>
    match parseBody k.toNat r.dropLast with
    | some q => .good tag q
    | none => .badRequest tag
  | _ => .badFrame 0

/-- R206: a transaction's bytes. -/
def parseFrame (l : List Byte) : Parsed :=
  match l with
  | [] => .poll
  | [_] => .badFrame 0
  | a :: b :: rest =>
    let len := beNat [a, b]
    if len = 0 then .poll
    else if len < 3 ∨ Config.frameMax < len ∨ rest.length < len then .badFrame (badTag len rest)
    else if totalByte (a :: b :: rest.take len) ≠ 0 then .badFrame (badTag len rest)
    else parseWhole (rest.take len)

/-! ## Response frames -/

/-- The number of a response code: its place in the list (R206). -/
def RespCode.num : RespCode → Nat
  | .empty => 0
  | .done => 1
  | .queued => 2
  | .busy => 3
  | .badFrame => 4
  | .badRequest => 5
  | .mode => 6
  | .protectedBase => 7
  | .badEntry => 8
  | .order => 9
  | .storeFull => 10
  | .storeFault => 11
  | .inSession => 12
  | .noSession => 13
  | .penPending => 14
  | .role => 15

def responseFrame (r : Response) : List Byte := frameOf (r.tag :: BitVec.ofNat 8 r.code.num :: r.body)

/-- The bytes the part clocks out in a transaction, chosen at its start (R196). -/
def outgoing (p : PortState) : List Byte :=
  match p with
  | .idle => responseFrame { tag := 0, code := .empty, body := [] }
  | .working tag _ => responseFrame { tag := tag, code := .busy, body := [] }
  | .ready r => responseFrame r

/-! ## Response bodies -/

def byteOf (n : Nat) : List Byte := [BitVec.ofNat 8 n]

def posBytes (p : Pos) : List Byte := beBytes 3 p.rln ++ byteOf p.col

/-- The result byte of an outcome (R206). -/
def resultCode (r : Option Reason) : Nat :=
  match r with
  | none => 1
  | some .badEntry => 8
  | some .storeFull => 10
  | some .storeFault => 11
  | some .directoryFull => 16
  | some .absent => 17

def attentionBody (a : Attention) : List Byte :=
  beBytes 2 a.pendingSet.toNat ++ beBytes 2 a.mask.toNat ++ boolByte a.lost ++ byteOf a.outcomes.length ++
    a.outcomes.flatMap (fun o => byteOf o.id ++ byteOf (resultCode o.reason))

def strokeBytes (k : Stroke) : List Byte :=
  beBytes 4 k.sn ++ beBytes 3 k.chord.toNat ++ beBytes 4 k.downTime.toNat ++ beBytes 4 k.upTime.toNat ++
    byteOf (natOfBits [k.retract, k.unsynced]) ++ byteOf k.refusedBefore

def journalBody (j : Journal) (n : Nat) : List Byte :=
  byteOf j.archiveLost ++ byteOf (j.toArchive n).length ++ (j.toArchive n).flatMap strokeBytes

def lineBytes (l : RecLine) : List Byte :=
  beBytes 3 l.rln ++ byteOf (natOfBits [l.isOpen, l.marked, l.gap]) ++ beBytes 2 l.tag.toNat ++ textBytes l.text

def recordBody (r : Record) (first n : Nat) : List Byte :=
  beBytes 3 r.oldest ++ posBytes r.endPos ++ byteOf (r.readFrom first n).length ++
    (r.readFrom first n).flatMap lineBytes

def markBytes (m : MarkEntry) : List Byte :=
  byteOf m.origin.val ++ [m.id] ++ beBytes 3 m.first ++ beBytes 3 m.last ++ beBytes 4 m.time.toNat ++ beBytes 2 m.flagged

def marksBody (l : List MarkEntry) : List Byte := byteOf l.length ++ l.flatMap markBytes

/-- The kind of a fault as READ-FAULT sends it (R206). -/
def FaultKind.num : FaultKind → Nat
  | .corrected => 0
  | .uncorrectable => 1
  | .programFail => 2
  | .eraseFail => 3

def firstFaultBytes (f : Option FirstFault) : List Byte :=
  match f with
  | some n => byteOf 1 ++ byteOf n.sector ++ beBytes 2 n.word ++ byteOf n.kind.num ++ beBytes 4 n.time.toNat
  | none => byteOf 0 ++ byteOf 0 ++ beBytes 2 0 ++ byteOf 0 ++ beBytes 4 0

def faultBody (f : FaultRecord) : List Byte :=
  firstFaultBytes f.first ++ byteOf f.corrected ++ byteOf f.uncorrectable ++ byteOf f.programFail ++ byteOf f.eraseFail

/-! ## STATUS (R199): states coded by their place in their table (R206) -/

def StartState.num : StartState → Nat
  | .storeScan => 0
  | .running => 1
  | .maintenance => 2

def TransMode.num : TransMode → Nat
  | .stopped => 0
  | .scanWait => 1
  | .ready => 2
  | .looking => 3
  | .stalled => 4
  | .catchingUp => 5

def CompState.num : CompState → Nat
  | .idle => 0
  | .select => 1
  | .copy => 2
  | .seal => 3
  | .retireVictim => 4
  | .prezero => 5
  | .erase => 6

def CompMode.num : CompMode → Nat
  | .stopped => 0
  | .shadow => 1
  | .publish => 2

def LinkMode.num : LinkMode → Nat
  | .start => 0
  | .listen => 1
  | .joined => 2
  | .duplicate => 3
  | .maintenance => 4

def TkRole.num : TkRole → Nat
  | .following => 0
  | .backoff => 1
  | .timekeeper => 2

def PenState.num : PenState → Nat
  | .outside => 0
  | .shadow => 1
  | .requesting => 2
  | .holding => 3
  | .releasing => 4
  | .handing => 5
  | .catchingUp => 6

open Config (statusCode)

/-- The Service Port's fields of STATUS (R199). The port state, always WORKING, is sent as 1, its place in R196's sentence
(R206; DESIGN CHOICE, log 84). -/
def statusPort (s : State) : List Byte :=
  byteOf s.straps.station.val ++ byteOf (statusCode (.role s.straps.role)) ++ boolByte s.straps.maintenance ++
  byteOf s.start.num ++ beBytes 2 s.settings.lineWidth ++ beBytes 2 s.settings.debounce ++ beBytes 2 s.settings.settle ++
  beBytes 2 s.settings.handoff ++ beBytes 2 s.settings.rows ++ beBytes 2 s.settings.reviewIdle ++
  [s.settings.defaulted.setWidth 8] ++ byteOf 1

def statusJournal (j : Journal) : List Byte :=
  beBytes 2 j.strokes.length ++ beBytes 2 j.untranslated ++ beBytes 2 j.unarchived ++ byteOf j.refused

/-- The strokes still to replay (R18); while no replay runs the spec gives the field no value (log 32). -/
def toReplay (t : Translator) (j : Journal) : Nat :=
  match t.replayEnd with
  | some n => n - j.readPoint
  | none => statusCode .noReplay

def statusTranslator (t : Translator) (j : Journal) : List Byte :=
  byteOf t.mode.num ++ byteOf t.run.length ++ byteOf t.undo.length ++ boolByte t.publishing ++
  boolByte (decide (t.forced ≠ .clear)) ++ beBytes 2 (toReplay t j)

def statusStore (c : Control) : List Byte :=
  byteOf c.queue.length ++ beBytes 2 c.directory.length ++ byteOf c.repair.length ++ byteOf c.freeCount ++
  byteOf (c.reserve.getD (statusCode .noReserve)) ++ byteOf c.comp.state.num

def statusRoster (e : RosterEntry) : List Byte :=
  boolByte e.listed ++ byteOf (statusCode (match e.role with | some r => .role r | none => .noRole)) ++
  beBytes 2 (match e.header with | some _ => e.round.toNat | none => statusCode .noHeaderRound) ++ byteOf e.silent ++
  byteOf e.corrected

def statusLink (l : Link) : List Byte :=
  byteOf l.mode.num ++ byteOf l.role.num ++
  beBytes 2 (match l.latest with | some b => b.round.toNat | none => statusCode .noBeaconRound) ++
  l.roster.flatMap statusRoster

def statusPen (p : Pen) : List Byte :=
  beBytes 2 p.session.toNat ++ beBytes 2 p.epoch.toNat ++
  byteOf (match p.holder with | some n => n.val | none => statusCode .noHolder) ++
  byteOf (match p.state with | some q => q.num | none => statusCode .noPenState) ++ beBytes 3 p.applied ++
  beBytes 3 p.need ++ byteOf p.outbound.length ++ byteOf p.reorder.length ++ beBytes 2 p.log.length ++
  byteOf p.markQueue.length ++ [p.markId]

def statusRecord (r : Record) : List Byte := beBytes 3 r.oldest ++ posBytes r.endPos ++ byteOf r.marks.length

/-- The Screen Controller's fields of STATUS (R199). The view is sent as 0 for LIVE and 1 for REVIEW, the order in which
section 9.2 names them (R206; DESIGN CHOICE, log 97). -/
def statusScreen (sc : Screen) : List Byte :=
  boolByte (inReview sc.view) ++
  beBytes 3 (match sc.view with | .review top => top | .live => statusCode .noTop) ++ boolByte sc.newText ++
  beBytes 3 (sc.pendingStart.getD (statusCode .noPendingStart))

/-- R199: every field in the order of the table. -/
def statusBody (s : State) : List Byte :=
  statusPort s ++ statusJournal s.journal ++ statusTranslator s.trans s.journal ++ byteOf s.cache.parityCount ++
  statusStore s.ctl ++ statusLink s.link ++ statusPen s.pen ++ byteOf s.composer.mode.num ++ statusRecord s.record ++
  statusScreen s.screen

end Sys2Proof.Machine
end

