-- ==== Sys2Proof/Machine/Port.lean ====
section
/-! DEFINITION. The Service Port (R196 to R203): transactions, the request in progress, each request passed to its owner,
and its answer. -/

namespace Sys2Proof.Machine

/-! ## The owners' answers (section 10.5). Each is called with the port WORKING for the request. -/

/-- The next request id; 255 is followed by 1 (R91). -/
def idAfter (n : Nat) : Nat := if 255 ≤ n then 1 else n + 1

/-- R91: DEFINE and RETIRE join the define queue, or are answered BUSY. -/
def queueRequest (op : DefOp) (s : State) : State :=
  if Config.defineQueueSize ≤ s.ctl.queue.length then answer .busy [] s
  else
    answer .queued (byteOf s.ctl.nextId)
      { s with ctl :=
        { s.ctl with queue := s.ctl.queue ++ [{ id := s.ctl.nextId, op := op }], nextId := idAfter s.ctl.nextId } }

def setDirect (d : Direct) (s : State) : State := { s with ctl := { s.ctl with direct := some d } }

/-- R85: the key check, then the store controller. A bad key is answered BAD-ENTRY at once as the request is passed, also
while requests stand in the define queue (DESIGN CHOICE, unsafe, log 103). -/
def askEntry (k : Key) (s : State) : State :=
  if keyOk k then setDirect (.readEntry k) s else answer .badEntry [] s

/-- R154. -/
def askOpenSession (s : State) : State :=
  match s.pen.state with
  | none => answer .role [] s
  | some .outside => answer .done [] (refreshScreen (openSession s))
  | some _ => answer .inSession [] s

/-- A PASS naming this station is pending (R156, R157). -/
def passToSelf (s : State) : Bool :=
  match s.pen.passPending with
  | some p => decide (p.target = s.straps.station)
  | none => false

/-- R156. -/
def askCloseSession (s : State) : State :=
  match s.pen.state with
  | none => answer .role [] s
  | some p =>
    if p = .outside then answer .noSession [] s
    else if p = .handing ∨ p = .catchingUp ∨ passToSelf s = true then answer .penPending [] s
    else if p = .shadow ∨ p = .requesting then answer .done [] (refreshScreen (leaveSession s))
    else answer .done [] (refreshScreen (closeAsHolder s))

/-- R15. -/
def askJournal (n : Nat) (s : State) : State :=
  answer .done (journalBody s.journal n) { s with journal := s.journal.archive n }

/-- R84, R56. -/
def clearFaults (s : State) : State :=
  { s with ctl := { s.ctl with fault := FaultRecord.clear }, cache := { s.cache with parityCount := 0 } }

/-- R78: refused while protected; with no sector to erase it is done at once (log 45). -/
def askEraseBase (s : State) : State :=
  if s.ctl.baseProtected then answer .protectedBase [] s
  else
    match baseToErase s.ctl with
    | [] => eraseBaseDone (setDirect (.eraseBase [] (.prezero 0)) s)
    | l => setDirect (.eraseBase l (.prezero 0)) s

/-- R81: refused while protected (log 49), else the store controller. -/
def askLoad (k : Key) (a : Attrs) (t : Text) (s : State) : State :=
  if s.ctl.baseProtected then answer .protectedBase [] s else setDirect (.loadEntry k a t) s

/-- The sectors of an UNPROTECT: the config sector unless it is BAD, then the base (R82; log 43). A config sector out of
use for the rest of this start is not BAD, and is among them (DESIGN CHOICE, log 61). -/
def unprotectSectors (c : Control) : List Nat :=
  (if c.sectorState Config.configSector = .bad then [] else [Config.configSector]) ++ baseToErase c

def askUnprotect (s : State) : State :=
  let failed := decide (s.ctl.sectorState Config.configSector = .bad)
  match unprotectSectors s.ctl with
  | [] => unprotectDone failed (setDirect (.unprotect [] (.prezero 0) failed) s)
  | l => setDirect (.unprotect l (.prezero 0) failed) s

/-- A request passed to its owner (section 10.5). -/
def serveRequest (r : Request) (s : State) : State :=
  match r with
  | .status => answer .done (statusBody s) s
  | .readAttention => answer .done (attentionBody s.att) s
  | .maskAttention m => answer .done [] { s with att := s.att.setMask m }
  | .ackAttention c n => answer .done [] { s with att := s.att.ack c n.toNat }
  | .define k a t => queueRequest (.define k a t) s
  | .retire k => queueRequest (.retire k) s
  | .readEntry k => askEntry k s
  | .openSession => askOpenSession s
  | .closeSession => askCloseSession s
  | .readJournal n => askJournal n.toNat s
  | .readRecord f n => answer .done (recordBody s.record f.toNat n.toNat) s
  | .readMarks => answer .done (marksBody s.record.marks) s
  | .readFault => answer .done (faultBody s.ctl.fault) s
  | .clearFault => answer .done [] (clearFaults s)
  | .eraseBase => askEraseBase s
  | .loadEntry k a t => askLoad k a t s
  | .writeConfig f => setDirect (.writeConfig f) s
  | .protect => setDirect .protect s
  | .unprotect => askUnprotect s

/-! ## Judging (R197) -/

/-- Taken only in MAINTENANCE (R194). -/
def Request.maintenanceOnly : Request → Bool
  | .eraseBase => true
  | .loadEntry _ _ _ => true
  | .writeConfig _ => true
  | .protect => true
  | .unprotect => true
  | _ => false

/-- Answered by the Service Port itself in every start state (R197). -/
def Request.ownAnswer : Request → Bool
  | .status => true
  | .readAttention => true
  | .maskAttention _ => true
  | .ackAttention _ _ => true
  | _ => false

/-- A READ-JOURNAL of 1 to 16 records, a READ-RECORD of 1 to 8 lines (R197). -/
def Request.countOk : Request → Bool
  | .readJournal n => decide (1 ≤ n.toNat) && decide (n.toNat ≤ 16)
  | .readRecord _ n => decide (1 ≤ n.toNat) && decide (n.toNat ≤ 8)
  | _ => true

def respond (tag : Byte) (code : RespCode) (s : State) : State :=
  { s with port := .ready { tag := tag, code := code, body := [] } }

/-- A whole request judged in IDLE: refused, held during the start scan, or passed to its owner (R197). -/
def judgeRequest (tag : Byte) (r : Request) (s : State) : State :=
  if ! r.countOk then respond tag .badRequest s
  else if r.maintenanceOnly && decide (s.start ≠ .maintenance) then respond tag .mode s
  else if decide (s.start = .storeScan) && ! r.ownAnswer then { s with port := .working tag (some r) }
  else serveRequest r { s with port := .working tag none }

/-- What the bytes of a transaction call for (R196, R197). -/
def judgeBytes (l : List Byte) (s : State) : State :=
  match parseFrame l with
  | .poll => s
  | .badFrame tag => respond tag .badFrame s
  | .badRequest tag => respond tag .badRequest s
  | .good tag r => judgeRequest tag r s

/-! ## Transactions (R196) -/

/-- The port after `n` bytes have been clocked: a response wholly clocked out is delivered. -/
def PortState.afterClocks (p : PortState) (n : Nat) : PortState :=
  match p with
  | .ready r => if (responseFrame r).length ≤ n then .idle else .ready r
  | p => p

/-- A transaction of `n` bytes: what is clocked out, and the delivery of a held response. A host that clocks on past the
last byte of the response is given no further byte (DESIGN CHOICE, unsafe, log 101). -/
def clockOut (n : Nat) (s : State) : State :=
  { s with portOut := (outgoing s.port).take n, port := s.port.afterClocks n }

/-- A transaction with a request's frame, of at least the frame's bytes. The frame is judged when the port is IDLE then;
one whose length passes 96 is a BAD-FRAME (R206). -/
def transaction (tag : Byte) (clocks : Nat) (r : Request) (s : State) : State :=
  let f := requestFrame tag r
  let s1 := clockOut (max clocks f.length) s
  if s1.port = .idle then
    (if Config.frameMax + 2 < f.length then respond tag .badFrame s1 else judgeRequest tag r s1)
  else s1

/-- A transaction without a frame (R196). R206 knows a poll by its first two bytes; a POLL of no byte or of one is taken as
a poll too, though a raw transaction of one byte is a BAD-FRAME (DESIGN CHOICE, unsafe, log 102; log 33). -/
def pollPort (clocks : Nat) (s : State) : State := clockOut clocks s

/-- A transaction of raw bytes (R196, R197; log 34). -/
def rawFrame (l : List Byte) (s : State) : State :=
  let s1 := clockOut l.length s
  if s1.port = .idle then judgeBytes l s1 else s1

/-- A request held during the start scan is passed to its owner at the end of the scan (R197). -/
def passHeld (s : State) : State :=
  match s.port with
  | .working tag (some r) => serveRequest r { s with port := .working tag none }
  | _ => s

end Sys2Proof.Machine
end

