-- ==== Sys2Proof/Machine/Startup.lean ====
section
/-! DEFINITION. Family start-up: RESET (R193) and SCAN_COMPLETE (R88). -/

namespace Sys2Proof.Machine

/-- RESET (R193, R76): every block in its reset state for the straps found, the store kept but for the words a step left
torn (log 5). -/
def execReset (straps : Straps) (torn : List (Nat × StoreWord)) (s : State) : Host.Outcome State Fault Refusal :=
  if allInStore torn then .next (State.atReset straps (s.store.writeAll torn) s.pending) else .fault .noSuchStoreWord

/-- R83, R195: the configuration judged; CONFIG-FAULT once when any field was defaulted. Like any cause it is not recorded
where the host has masked it during the scan (R200; DESIGN CHOICE, log 85). -/
def configure (s : State) : State :=
  let c := judgeConfig s.ctl.configRecord
  raiseIf (decide (c.defaulted ≠ 0)) .configFault
    { s with settings := c, screen := s.screen.withRows c.rows }

/-- The configuration record that the scan reads in the store as it stands (R83, R86). -/
def scanRecord (s : State) : Option ConfigFields :=
  (readConfig (setSector Config.configSector (decodeSector s Config.configSector) s)).ctl.configRecord

/-- R193: the scan has read the configuration record, and the key and button lines use its debounce time from here on. The
other values in force are handed out at the end of the scan (log 87). -/
def useDebounce (s : State) : State :=
  if s.start = .storeScan then { s with settings := s.settings.withDebounce (judgeConfig (scanRecord s)) } else s

/-- R18, R136, R193: the start state, the Translator and the Link at the end of the scan. -/
def leaveScan (s : State) : State :=
  let m := s.straps.maintenance
  raise .linkState
    { s with
      start := if m then .maintenance else .running
      trans := { s.trans with mode := if s.trans.mode = .scanWait then (if m then .stopped else .ready)
                                      else s.trans.mode }
      link := { s.link with mode := if m then .maintenance else .listen
                            quiet := if m then none else some Config.quietMs } }

/-- The end of the start scan. -/
def scanComplete (s : State) : State := refreshScreen (passHeld (leaveScan (configure (startScan s))))

/-- SCAN_COMPLETE (R86 to R88, R193); the scan is run whole in this step (log 37). -/
def execScanComplete (script : StoreScript) (s : State) : Host.Outcome State Fault Refusal :=
  if s.start = .storeScan then
    .next { scanComplete { s with script := script } with script := StoreScript.none }
  else .next s

end Sys2Proof.Machine
end

