-- ==== Sys2Proof/Machine/Timebase.lean ====
section
/-! DEFINITION. Family timebase: TICK (R132), every timer of the part, and the upsets of a millisecond. -/

namespace Sys2Proof.Machine

def Clock.tick (c : Clock) : Clock := { c with linkTime := c.linkTime + 1 }

/-- A running timer falls by one ms and stays at 0 until its expiry is taken (log 13). -/
def countDown (t : Option Nat) : Option Nat := t.map (fun n => n - 1)

/-- The settle timer runs in READY with a waiting run and an empty re-take list (R26). -/
def Translator.tick (t : Translator) : Translator :=
  if t.mode = .ready ∧ t.retake = [] then { t with settle := countDown t.settle } else t

/-- The backoff falls by a tick's bit times (R148; log 13). -/
def Backoff.tick : Backoff → Backoff
  | .running n => .running (n - Config.bitsPerTick)
  | b => b

/-- Quiet timer, backoff, and the time since the own beacon (R144, R148). -/
def Link.tick (l : Link) : Link :=
  { l with
    quiet := if l.role = .following then countDown l.quiet else l.quiet
    backoff := l.backoff.tick
    sinceBeacon := l.sinceBeacon + 1 }

/-- The stroke-quiet count rises to 10,000 (R153). -/
def Pen.tick (p : Pen) : Pen := { p with strokeQuiet := satInc p.strokeQuiet Config.strokeQuietMax }

/-- The review idle timer runs in REVIEW (R184). -/
def Screen.tick (sc : Screen) : Screen := if inReview sc.view then { sc with idle := countDown sc.idle } else sc

/-- R132: one millisecond. Keys due since the tick before are taken first (log 11); where the scan has read the
configuration record since then, this sample is the first with its debounce time (R193; log 87). -/
def tick (keys : BitVec 23) (buttons : BitVec 5) (configRead : Bool) (s : State) : State :=
  let s1 := if configRead then useDebounce (takeDueKeys s) else takeDueKeys s
  { s1 with
    clock := s1.clock.tick
    scanner := s1.scanner.sample s1.settings.debounce keys s1.clock.tick
    buttons := s1.buttons.sample s1.settings.debounce buttons (decide (s1.start ≠ .storeScan))
      (decide (s1.straps.role = .writer))
    trans := s1.trans.tick
    link := s1.link.tick
    pen := s1.pen.tick
    screen := s1.screen.tick }

/-! ## Upsets (log 6) -/

/-- A line whose stored parity no longer fits. -/
def flipParity (l : CacheLine) : CacheLine := { l with parity := ! l.parity }

def applyUpset (s : State) : Upset → State
  | .storeWord a w => { s with store := s.store.write a w }
  | .cacheParity set way =>
    { s with cache := { s.cache with sets := s.cache.sets.modify set (fun ls => ls.modify way flipParity) } }

/-- Every store word named exists. -/
def upsetInStore : Upset → Bool
  | .storeWord a _ => decide (a < Config.storeWords)
  | .cacheParity _ _ => true

/-- TICK (R132, R1, R177). -/
def execTick (keys : BitVec 23) (buttons : BitVec 5) (events : TickEvents) (s : State) :
    Host.Outcome State Fault Refusal :=
  if events.upsets.all upsetInStore then .next (events.upsets.foldl applyUpset (tick keys buttons events.configRead s))
  else .fault .noSuchStoreWord

end Sys2Proof.Machine
end

