-- ==== Sys2Proof/Machine/ButtonCommands.lean ====
section
/-! DEFINITION. Family buttons (R157, R177, R183, R184, R187): a press debounced and not yet taken is taken; without one
nothing changes (log 1, log 12). -/

namespace Sys2Proof.Machine

def Button.taken (b : Button) : Button := { b with pressed := false }

/-- RELIEF_PRESS (R157). -/
def execReliefPress (s : State) : Host.Outcome State Fault Refusal :=
  if s.buttons.relief.pressed then
    .next (refreshScreen (relief { s with buttons := { s.buttons with relief := s.buttons.relief.taken } }))
  else .next s

/-- UP_PRESS (R183). -/
def execUpPress (s : State) : Host.Outcome State Fault Refusal :=
  if s.buttons.up.pressed then
    .next (refreshScreen (pressUp { s with buttons := { s.buttons with up := s.buttons.up.taken } }))
  else .next s

/-- DOWN_PRESS (R183). -/
def execDownPress (s : State) : Host.Outcome State Fault Refusal :=
  if s.buttons.down.pressed then
    .next (refreshScreen (pressDown { s with buttons := { s.buttons with down := s.buttons.down.taken } }))
  else .next s

/-- LIVE_PRESS (R184). -/
def execLivePress (s : State) : Host.Outcome State Fault Refusal :=
  if s.buttons.live.pressed then
    .next (refreshScreen (pressLive { s with buttons := { s.buttons with live := s.buttons.live.taken } }))
  else .next s

/-- MARK_PRESS (R187). -/
def execMarkPress (s : State) : Host.Outcome State Fault Refusal :=
  if s.buttons.mark.pressed then
    .next (refreshScreen (pressMark { s with buttons := { s.buttons with mark := s.buttons.mark.taken } }))
  else .next s

end Sys2Proof.Machine
end

