-- ==== Sys2Proof/Machine/TranslationCommands.lean ====
section
/-! DEFINITION. Family translation (R19, R27, R36) and the pen events the station itself takes (R158, R159). -/

namespace Sys2Proof.Machine

/-- TAKE_STROKE (R19). -/
def execTakeStroke (s : State) : Host.Outcome State Fault Refusal := .next (refreshScreen (takeStroke s))

/-- SETTLE_EXPIRY (R27). -/
def execSettleExpiry (s : State) : Host.Outcome State Fault Refusal := .next (refreshScreen (settleExpiry s))

/-- OUTBOUND_SPACE_FREE (R36). -/
def execOutboundSpaceFree (s : State) : Host.Outcome State Fault Refusal := .next (refreshScreen (spaceFree s))

/-- HANDOFF_QUIET_REACHED (R158). -/
def execHandoffQuietReached (s : State) : Host.Outcome State Fault Refusal := .next (refreshScreen (handoffQuiet s))

/-- PASS_QUEUE (R159). -/
def execPassQueue (s : State) : Host.Outcome State Fault Refusal := .next (refreshScreen (queuePass s))

end Sys2Proof.Machine
end

