-- ==== Sys2Proof/Machine/StoreCommands.lean ====
section
/-! DEFINITION. Families store service and compaction (R52, R74 to R85, R89 to R110). A command that the service order does
not offer now changes nothing (log 1). -/

namespace Sys2Proof.Machine

/-- A step taken with what the cells answer to its pulses; the rows are looked at again after it (R181). -/
def withScript (script : StoreScript) (f : State → State) (s : State) : State :=
  { refreshScreen (f { s with script := script }) with script := StoreScript.none }

/-- SERVE_LOOKUP (R52). -/
def execServeLookup (s : State) : Host.Outcome State Fault Refusal := .next (refreshScreen (serveLookup s))

/-- SERVE_DEFINE (R99). -/
def execServeDefine (script : StoreScript) (s : State) : Host.Outcome State Fault Refusal :=
  .next (withScript script serveDefine s)

/-- SERVE_RETIRE (R101). -/
def execServeRetire (script : StoreScript) (s : State) : Host.Outcome State Fault Refusal :=
  .next (withScript script serveRetire s)

/-- SERVE_REPAIR (R104). -/
def execServeRepair (script : StoreScript) (s : State) : Host.Outcome State Fault Refusal :=
  .next (withScript script serveRepair s)

/-- COMPACT_SELECT (R105). -/
def execCompactSelect (script : StoreScript) (s : State) : Host.Outcome State Fault Refusal :=
  .next (withScript script compactSelect s)

/-- COMPACT_COPY (R106). -/
def execCompactCopy (script : StoreScript) (s : State) : Host.Outcome State Fault Refusal :=
  .next (withScript script compactCopy s)

/-- COMPACT_SEAL (R108). -/
def execCompactSeal (script : StoreScript) (s : State) : Host.Outcome State Fault Refusal :=
  .next (withScript script compactSeal s)

/-- COMPACT_RETIRE_VICTIM (R109). -/
def execCompactRetireVictim (script : StoreScript) (s : State) : Host.Outcome State Fault Refusal :=
  .next (withScript script compactRetireVictim s)

/-- PREZERO_WORD (R74). -/
def execPrezeroWord (script : StoreScript) (s : State) : Host.Outcome State Fault Refusal :=
  .next (withScript script prezeroWord s)

/-- ERASE_PULSE (R75). -/
def execErasePulse (script : StoreScript) (s : State) : Host.Outcome State Fault Refusal :=
  .next (withScript script erasePulse s)

/-- FORMAT_SECTOR (R75). -/
def execFormatSector (script : StoreScript) (s : State) : Host.Outcome State Fault Refusal :=
  .next (withScript script formatCommand s)

/-- SERVE_READ_ENTRY (R85). -/
def execServeReadEntry (s : State) : Host.Outcome State Fault Refusal := .next (serveReadEntry s)

/-- SERVE_LOAD_ENTRY (R77). -/
def execServeLoadEntry (script : StoreScript) (s : State) : Host.Outcome State Fault Refusal :=
  .next (withScript script serveLoadEntry s)

/-- SERVE_PROTECT (R81). -/
def execServeProtect (script : StoreScript) (s : State) : Host.Outcome State Fault Refusal :=
  .next (withScript script serveProtect s)

/-- SERVE_WRITE_CONFIG (R83). -/
def execServeWriteConfig (script : StoreScript) (s : State) : Host.Outcome State Fault Refusal :=
  .next (withScript script serveWriteConfig s)

end Sys2Proof.Machine
end

