-- ==== Sys2Proof/Machine/PortCommands.lean ====
section
/-! DEFINITION. Family service port (R15, R77 to R85, R91, R127, R154, R156, R190, R196 to R202): each command is one
transaction with its request's frame. -/

namespace Sys2Proof.Machine

/-- STATUS (R199). -/
def execStatus (tag : Byte) (clocks : Nat) (s : State) : Host.Outcome State Fault Refusal :=
  .next (transaction tag clocks .status s)

/-- READ_ATTENTION (R202). -/
def execReadAttention (tag : Byte) (clocks : Nat) (s : State) : Host.Outcome State Fault Refusal :=
  .next (transaction tag clocks .readAttention s)

/-- MASK_ATTENTION (R202). -/
def execMaskAttention (tag : Byte) (clocks : Nat) (mask : BitVec 16) (s : State) : Host.Outcome State Fault Refusal :=
  .next (transaction tag clocks (.maskAttention mask) s)

/-- ACK_ATTENTION (R202). -/
def execAckAttention (tag : Byte) (clocks : Nat) (causes : BitVec 16) (count : Byte) (s : State) :
    Host.Outcome State Fault Refusal :=
  .next (transaction tag clocks (.ackAttention causes count) s)

/-- DEFINE (R91). -/
def execDefine (tag : Byte) (clocks : Nat) (key : Key) (attrs : Attrs) (text : Text) (s : State) :
    Host.Outcome State Fault Refusal :=
  .next (transaction tag clocks (.define key attrs text) s)

/-- RETIRE (R91). -/
def execRetire (tag : Byte) (clocks : Nat) (key : Key) (s : State) : Host.Outcome State Fault Refusal :=
  .next (transaction tag clocks (.retire key) s)

/-- READ_ENTRY (R85). -/
def execReadEntry (tag : Byte) (clocks : Nat) (key : Key) (s : State) : Host.Outcome State Fault Refusal :=
  .next (transaction tag clocks (.readEntry key) s)

/-- OPEN_SESSION (R154). -/
def execOpenSession (tag : Byte) (clocks : Nat) (s : State) : Host.Outcome State Fault Refusal :=
  .next (transaction tag clocks .openSession s)

/-- CLOSE_SESSION (R156). -/
def execCloseSession (tag : Byte) (clocks : Nat) (s : State) : Host.Outcome State Fault Refusal :=
  .next (transaction tag clocks .closeSession s)

/-- READ_JOURNAL (R15). -/
def execReadJournal (tag : Byte) (clocks : Nat) (count : Byte) (s : State) : Host.Outcome State Fault Refusal :=
  .next (transaction tag clocks (.readJournal count) s)

/-- READ_RECORD (R127). -/
def execReadRecord (tag : Byte) (clocks : Nat) (first : BitVec 24) (count : Byte) (s : State) :
    Host.Outcome State Fault Refusal :=
  .next (transaction tag clocks (.readRecord first count) s)

/-- READ_MARKS (R190). -/
def execReadMarks (tag : Byte) (clocks : Nat) (s : State) : Host.Outcome State Fault Refusal :=
  .next (transaction tag clocks .readMarks s)

/-- READ_FAULT (R84). -/
def execReadFault (tag : Byte) (clocks : Nat) (s : State) : Host.Outcome State Fault Refusal :=
  .next (transaction tag clocks .readFault s)

/-- CLEAR_FAULT (R84). -/
def execClearFault (tag : Byte) (clocks : Nat) (s : State) : Host.Outcome State Fault Refusal :=
  .next (transaction tag clocks .clearFault s)

/-- ERASE_BASE (R78). -/
def execEraseBase (tag : Byte) (clocks : Nat) (s : State) : Host.Outcome State Fault Refusal :=
  .next (transaction tag clocks .eraseBase s)

/-- LOAD_ENTRY (R77). -/
def execLoadEntry (tag : Byte) (clocks : Nat) (key : Key) (attrs : Attrs) (text : Text) (s : State) :
    Host.Outcome State Fault Refusal :=
  .next (transaction tag clocks (.loadEntry key attrs text) s)

/-- WRITE_CONFIG (R83). -/
def execWriteConfig (tag : Byte) (clocks : Nat) (fields : ConfigFields) (s : State) :
    Host.Outcome State Fault Refusal :=
  .next (transaction tag clocks (.writeConfig fields) s)

/-- PROTECT (R81). -/
def execProtect (tag : Byte) (clocks : Nat) (s : State) : Host.Outcome State Fault Refusal :=
  .next (transaction tag clocks .protect s)

/-- UNPROTECT (R82). -/
def execUnprotect (tag : Byte) (clocks : Nat) (s : State) : Host.Outcome State Fault Refusal :=
  .next (transaction tag clocks .unprotect s)

/-- POLL (R196). -/
def execPoll (clocks : Nat) (s : State) : Host.Outcome State Fault Refusal := .next (pollPort clocks s)

/-- FRAME_REJECTED (R197). -/
def execFrameRejected (bytes : List Byte) (s : State) : Host.Outcome State Fault Refusal := .next (rawFrame bytes s)

end Sys2Proof.Machine
end

