-- ==== Sys2Proof/Machine/LinkCommands.lean ====
section
/-! DEFINITION. Families of the Bench Link, in and out (chapters 7 and 8). -/

namespace Sys2Proof.Machine

/-- BEACON_RECEIVED (R143). -/
def execBeaconReceived (first second : RxCell) (s : State) : Host.Outcome State Fault Refusal :=
  .next (refreshScreen (beaconReceived first second s))

/-- HEADER_RECEIVED (R142). -/
def execHeaderReceived (cell : RxCell) (s : State) : Host.Outcome State Fault Refusal :=
  .next (refreshScreen (headerReceived cell s))

/-- APPEND_RECEIVED (R122). -/
def execAppendReceived (first second : RxCell) (s : State) : Host.Outcome State Fault Refusal :=
  .next (refreshScreen (cellsReceived [first, second]
    ((decodeAppend (cellValue first) (cellValue second)).map streamItem) s))

/-- BREAK_RECEIVED (R123). -/
def execBreakReceived (cell : RxCell) (s : State) : Host.Outcome State Fault Refusal :=
  .next (refreshScreen (cellsReceived [cell] ((decodeBreak (cellValue cell)).map streamItem) s))

/-- CUT_RECEIVED (R124). -/
def execCutReceived (cell : RxCell) (s : State) : Host.Outcome State Fault Refusal :=
  .next (refreshScreen (cellsReceived [cell] ((decodeCut (cellValue cell)).map streamItem) s))

/-- PASS_RECEIVED (R160). -/
def execPassReceived (cell : RxCell) (s : State) : Host.Outcome State Fault Refusal :=
  .next (refreshScreen (cellsReceived [cell] ((decodePass (cellValue cell)).map streamItem) s))

/-- GAP_RECEIVED (R175). -/
def execGapReceived (cell : RxCell) (s : State) : Host.Outcome State Fault Refusal :=
  .next (refreshScreen (cellsReceived [cell] ((decodeGap (cellValue cell)).map streamGap) s))

/-- MARK_RECEIVED (R189). -/
def execMarkReceived (cell : RxCell) (s : State) : Host.Outcome State Fault Refusal :=
  .next (refreshScreen (cellsReceived [cell] ((decodeMark (cellValue cell)).map streamMark) s))

/-- CELL_DISCARDED (R134). -/
def execCellDiscarded (s : State) : Host.Outcome State Fault Refusal := .next (cellDiscarded s)

/-- COLLISION (R135, R138, R150). -/
def execCollision (onHeader : Bool) (s : State) : Host.Outcome State Fault Refusal :=
  .next (refreshScreen (collide onHeader s))

/-- ITEM_SENT (R135). -/
def execItemSent (s : State) : Host.Outcome State Fault Refusal := .next (refreshScreen (itemSent s))

/-- ABSENT_GAP_EXPIRY (R133). -/
def execAbsentGapExpiry (s : State) : Host.Outcome State Fault Refusal := .next (refreshScreen (absentGap s))

/-- BEACON_DUE (R144): the beacon composed, sent without a collision, and taken (R149). -/
def execBeaconDue (s : State) : Host.Outcome State Fault Refusal :=
  if beaconDue s then .next (refreshScreen (sendBeacon s)) else .next s

/-- QUIET_TIMER_EXPIRY (R148). -/
def execQuietTimerExpiry (s : State) : Host.Outcome State Fault Refusal := .next (quietExpiry s)

/-- BACKOFF_EXPIRY (R148, R149). -/
def execBackoffExpiry (s : State) : Host.Outcome State Fault Refusal :=
  if backoffDue s then .next (refreshScreen (sendBeacon s)) else .next s

end Sys2Proof.Machine
end

