-- ==== Sys2Proof/Machine/ScreenCommands.lean ====
section
/-! DEFINITION. Family screen (R182, R184). -/

namespace Sys2Proof.Machine

/-- REVIEW_IDLE_EXPIRY (R184). -/
def execReviewIdleExpiry (s : State) : Host.Outcome State Fault Refusal := .next (refreshScreen (reviewIdleExpiry s))

/-- SCREEN_WRITE_START (R182). -/
def execScreenWriteStart (s : State) : Host.Outcome State Fault Refusal := .next (writeStart s)

/-- SCREEN_WRITE_DONE (R182). -/
def execScreenWriteDone (s : State) : Host.Outcome State Fault Refusal := .next (writeDone s)

end Sys2Proof.Machine
end

