-- ==== Sys2Proof/Machine/Dispatch.lean ====
section
/-! DEFINITION. One arm per command, each a direct call of its meaning. -/

namespace Sys2Proof.Machine

def exec (i : Instr) (s : State) : Host.Outcome State Fault Refusal :=
  match i with
  | .reset straps torn => Sys2Proof.Machine.execReset straps torn s
  | .scanComplete script => Sys2Proof.Machine.execScanComplete script s
  | .keyDebounced => Sys2Proof.Machine.execKeyDebounced s
  | .reliefPress => Sys2Proof.Machine.execReliefPress s
  | .upPress => Sys2Proof.Machine.execUpPress s
  | .downPress => Sys2Proof.Machine.execDownPress s
  | .livePress => Sys2Proof.Machine.execLivePress s
  | .markPress => Sys2Proof.Machine.execMarkPress s
  | .settleExpiry => Sys2Proof.Machine.execSettleExpiry s
  | .takeStroke => Sys2Proof.Machine.execTakeStroke s
  | .outboundSpaceFree => Sys2Proof.Machine.execOutboundSpaceFree s
  | .serveLookup => Sys2Proof.Machine.execServeLookup s
  | .serveDefine script => Sys2Proof.Machine.execServeDefine script s
  | .serveRetire script => Sys2Proof.Machine.execServeRetire script s
  | .serveRepair script => Sys2Proof.Machine.execServeRepair script s
  | .compactSelect script => Sys2Proof.Machine.execCompactSelect script s
  | .compactCopy script => Sys2Proof.Machine.execCompactCopy script s
  | .compactSeal script => Sys2Proof.Machine.execCompactSeal script s
  | .compactRetireVictim script => Sys2Proof.Machine.execCompactRetireVictim script s
  | .prezeroWord script => Sys2Proof.Machine.execPrezeroWord script s
  | .erasePulse script => Sys2Proof.Machine.execErasePulse script s
  | .formatSector script => Sys2Proof.Machine.execFormatSector script s
  | .serveReadEntry => Sys2Proof.Machine.execServeReadEntry s
  | .serveLoadEntry script => Sys2Proof.Machine.execServeLoadEntry script s
  | .serveProtect script => Sys2Proof.Machine.execServeProtect script s
  | .serveWriteConfig script => Sys2Proof.Machine.execServeWriteConfig script s
  | .status tag clocks => Sys2Proof.Machine.execStatus tag clocks s
  | .readAttention tag clocks => Sys2Proof.Machine.execReadAttention tag clocks s
  | .maskAttention tag clocks mask => Sys2Proof.Machine.execMaskAttention tag clocks mask s
  | .ackAttention tag clocks causes count => Sys2Proof.Machine.execAckAttention tag clocks causes count s
  | .define tag clocks key attrs text => Sys2Proof.Machine.execDefine tag clocks key attrs text s
  | .retire tag clocks key => Sys2Proof.Machine.execRetire tag clocks key s
  | .readEntry tag clocks key => Sys2Proof.Machine.execReadEntry tag clocks key s
  | .openSession tag clocks => Sys2Proof.Machine.execOpenSession tag clocks s
  | .closeSession tag clocks => Sys2Proof.Machine.execCloseSession tag clocks s
  | .readJournal tag clocks count => Sys2Proof.Machine.execReadJournal tag clocks count s
  | .readRecord tag clocks first count => Sys2Proof.Machine.execReadRecord tag clocks first count s
  | .readMarks tag clocks => Sys2Proof.Machine.execReadMarks tag clocks s
  | .readFault tag clocks => Sys2Proof.Machine.execReadFault tag clocks s
  | .clearFault tag clocks => Sys2Proof.Machine.execClearFault tag clocks s
  | .eraseBase tag clocks => Sys2Proof.Machine.execEraseBase tag clocks s
  | .loadEntry tag clocks key attrs text => Sys2Proof.Machine.execLoadEntry tag clocks key attrs text s
  | .writeConfig tag clocks fields => Sys2Proof.Machine.execWriteConfig tag clocks fields s
  | .protect tag clocks => Sys2Proof.Machine.execProtect tag clocks s
  | .unprotect tag clocks => Sys2Proof.Machine.execUnprotect tag clocks s
  | .poll clocks => Sys2Proof.Machine.execPoll clocks s
  | .frameRejected bytes => Sys2Proof.Machine.execFrameRejected bytes s
  | .beaconReceived first second => Sys2Proof.Machine.execBeaconReceived first second s
  | .headerReceived cell => Sys2Proof.Machine.execHeaderReceived cell s
  | .appendReceived first second => Sys2Proof.Machine.execAppendReceived first second s
  | .breakReceived cell => Sys2Proof.Machine.execBreakReceived cell s
  | .cutReceived cell => Sys2Proof.Machine.execCutReceived cell s
  | .passReceived cell => Sys2Proof.Machine.execPassReceived cell s
  | .gapReceived cell => Sys2Proof.Machine.execGapReceived cell s
  | .markReceived cell => Sys2Proof.Machine.execMarkReceived cell s
  | .cellDiscarded => Sys2Proof.Machine.execCellDiscarded s
  | .collision onHeader => Sys2Proof.Machine.execCollision onHeader s
  | .itemSent => Sys2Proof.Machine.execItemSent s
  | .absentGapExpiry => Sys2Proof.Machine.execAbsentGapExpiry s
  | .beaconDue => Sys2Proof.Machine.execBeaconDue s
  | .quietTimerExpiry => Sys2Proof.Machine.execQuietTimerExpiry s
  | .backoffExpiry => Sys2Proof.Machine.execBackoffExpiry s
  | .handoffQuietReached => Sys2Proof.Machine.execHandoffQuietReached s
  | .passQueue => Sys2Proof.Machine.execPassQueue s
  | .reviewIdleExpiry => Sys2Proof.Machine.execReviewIdleExpiry s
  | .screenWriteStart => Sys2Proof.Machine.execScreenWriteStart s
  | .screenWriteDone => Sys2Proof.Machine.execScreenWriteDone s
  | .tick keys buttons events => Sys2Proof.Machine.execTick keys buttons events s

end Sys2Proof.Machine
end

