-- ==== Sys2Proof/WellFormed.lean ====
section
/-! DEFINITION. Which commands can be sent: operands that name a place that exists, and frames that can be written in
bytes. -/

namespace Sys2Proof

/-- Every word named is a word of the store (R62). -/
def wordsInStore (l : List (Nat × StoreWord)) : Bool := l.all (fun c => decide (c.1 < Config.storeWords))

/-- A store word or a cache line that exists: 16 sets of 4 ways (R47, R62). -/
def Upset.wf : Upset → Bool
  | .storeWord a _ => decide (a < Config.storeWords)
  | .cacheParity set way => decide (set < 16) && decide (way < 4)

/-- A key that fits a frame: its count in one byte, each chord in three (R206). -/
def keyFits (k : Key) : Bool := decide (k.length < 256) && k.all (fun c => decide (c < 16777216))

/-- A text that fits a frame: its length in one byte (R206). -/
def textFits (t : Text) : Bool := decide (t.length < 256)

/-- At most 16 pulses for each programming operation and each sector (R71, R75). -/
def StoreScript.wf (s : StoreScript) : Bool := s.prog.all (fun l => decide (l.length ≤ Config.pulseLimit))

/-- The operands of a command are ones that can be sent. -/
def Instr.wf : Instr → Bool
  | .reset _ torn => wordsInStore torn
  | .tick _ _ events => events.upsets.all Upset.wf
  | .define _ _ k _ t => keyFits k && textFits t
  | .loadEntry _ _ k _ t => keyFits k && textFits t
  | .retire _ _ k => keyFits k
  | .readEntry _ _ k => keyFits k
  | .scanComplete s => s.wf
  | .serveDefine s => s.wf
  | .serveRetire s => s.wf
  | .serveRepair s => s.wf
  | .compactSelect s => s.wf
  | .compactCopy s => s.wf
  | .compactSeal s => s.wf
  | .compactRetireVictim s => s.wf
  | .prezeroWord s => s.wf
  | .erasePulse s => s.wf
  | .formatSector s => s.wf
  | .serveLoadEntry s => s.wf
  | .serveProtect s => s.wf
  | .serveWriteConfig s => s.wf
  | _ => true

end Sys2Proof
end

