-- ==== Sys2Proof/Safety.lean ====
section
/-! DEFINITION. What the statements say of states: a command completes, the store is in its canonical form, the journal,
the cache and the dirty-row set keep their laws (R8, R49, R62, R181), the waiting commands can be sent. -/

namespace Sys2Proof.Machine

/-- The command completes: exec answers a next state. -/
def Completes (c : Instr) (s : State) : Prop := ∃ t, exec c s = .next t

/-- The store is in its canonical form. -/
abbrev StoreGood (s : State) : Prop := s.store.wf = true

/-- Every waiting command can be sent. -/
abbrev QueueGood (s : State) : Prop := s.pending.all Instr.wf = true

/-- The SNs of held strokes are `n`, `n + 1`, ... -/
def snsFrom : Nat → List Stroke → Bool
  | _, [] => true
  | n, k :: l => decide (k.sn = n) && snsFrom (n + 1) l

/-- The SN of the oldest held stroke, next SN when none is held. -/
def Journal.firstSn (j : Journal) : Nat := j.nextSn - j.strokes.length

/-- R8: at most 2048 strokes, consecutive in SN up to next SN less one, both points among them or at next SN. -/
def Journal.lawful (j : Journal) : Bool :=
  decide (j.strokes.length ≤ Config.journalSize) && decide (j.strokes.length < j.nextSn) &&
  decide (j.nextSn ≤ Config.snEnd) && snsFrom j.firstSn j.strokes &&
  decide (j.firstSn ≤ j.readPoint) && decide (j.readPoint ≤ j.nextSn) &&
  decide (j.firstSn ≤ j.archivePoint) && decide (j.archivePoint ≤ j.nextSn)

abbrev JournalGood (s : State) : Prop := s.journal.lawful = true

/-- R47: a set has four ways, whose ages are 0, 1, 2 and 3, one each. -/
def agesGood (ls : List CacheLine) : Bool :=
  decide (ls.length = 4) && [0, 1, 2, 3].all (fun a => ls.any (fun l => decide (l.age = a)))

abbrev CacheGood (s : State) : Prop := s.cache.sets.length = 16 ∧ s.cache.sets.all agesGood = true

/-- Row numbers each once, the lowest first (R181, R182). -/
def rowsAscend : List Nat → Bool
  | a :: b :: l => decide (a < b) && rowsAscend (b :: l)
  | _ => true

/-- Every row has a shown content, and the dirty-row set holds rows of the screen, each once, the lowest first (R178,
R181). -/
def Screen.rowsGood (sc : Screen) : Bool :=
  rowsAscend sc.dirty && sc.dirty.all (fun i => decide (i < sc.rows)) && decide (sc.shown.length = sc.rows)

abbrev ScreenGood (s : State) : Prop := s.screen.rowsGood = true

/-- R105 to R108: until the directory step the target is not the victim, and no word of the victim is on the copy list
twice; while copies are made the listed words lie before the cursor. -/
def Compaction.lawful (c : Compaction) : Bool :=
  match c.state with
  | .copy =>
    decide (c.victim ≠ c.target) && decide ((c.copies.map Prod.fst).Nodup) &&
      c.copies.all (fun p => decide (p.1 < c.cursor))
  | .seal => decide (c.victim ≠ c.target) && decide ((c.copies.map Prod.fst).Nodup)
  | _ => true

/-- R92: the session directory holds each key once; and the copy list keeps its law. -/
abbrev CopiesGood (s : State) : Prop := (s.ctl.directory.map DirRecord.key).Nodup ∧ s.ctl.comp.lawful = true

/-- R181: from the end of the start scan on, a row that is not in the dirty-row set shows its content, or is being written
with it. -/
def RowsShown (s : State) : Prop :=
  s.start ≠ .storeScan → ∀ i, i < s.screen.rows → i ∈ s.screen.dirty ∨ s.screen.lastContent i = some (rowContent s i)

/-! ## Frames -/

/-- The screen but for the dirty-row set, which every command may add to (R181). -/
def Screen.butDirty (sc : Screen) : Screen := { sc with dirty := [] }

/-- What a step of the store controller alone leaves: all but the store, the controller's own RAM, the cache, the
attention state and the dirty-row set. -/
structure StoreSide (s t : State) : Prop where
  straps : t.straps = s.straps
  start : t.start = s.start
  settings : t.settings = s.settings
  port : t.port = s.port
  portOut : t.portOut = s.portOut
  clock : t.clock = s.clock
  scanner : t.scanner = s.scanner
  buttons : t.buttons = s.buttons
  journal : t.journal = s.journal
  translator : t.trans = s.trans
  composer : t.composer = s.composer
  record : t.record = s.record
  link : t.link = s.link
  pen : t.pen = s.pen
  screen : t.screen.butDirty = s.screen.butDirty
  pending : t.pending = s.pending

/-- What an event of the pen or of the record stream leaves: all but journal, Translator, Composer, record, pen side,
screen and the attention state. -/
structure PenSide (s t : State) : Prop where
  straps : t.straps = s.straps
  start : t.start = s.start
  settings : t.settings = s.settings
  port : t.port = s.port
  portOut : t.portOut = s.portOut
  clock : t.clock = s.clock
  scanner : t.scanner = s.scanner
  buttons : t.buttons = s.buttons
  cache : t.cache = s.cache
  store : t.store = s.store
  ctl : t.ctl = s.ctl
  link : t.link = s.link
  script : t.script = s.script
  pending : t.pending = s.pending

/-- The store words that superseding or retiring the entry at `old` touches, as `s` stands: its header, and that of its copy
(R99, R107). -/
def headersTouched (old : Option Location) (s : State) (a : Nat) : Bool :=
  match old with
  | none => false
  | some l =>
    decide (a = addrOf l.sector l.word) ||
      match copyOf s.ctl.comp l with
      | some w => decide (a = addrOf s.ctl.comp.target w)
      | none => false

/-- The state after a store step: the rows are looked at again, and nothing more is asked of the cells. -/
def afterStep (s : State) : State := { refreshScreen s with script := StoreScript.none }

/-! ## Strokes -/

/-- The keys debounced DOWN once the due changes are taken (R1). -/
def downAfter (s : State) : Chord := s.scanner.down ^^^ s.scanner.due

/-- The scanner with the due changes taken, in a mode and with a chord being formed. -/
def scannedAs (mode : ScanMode) (chord : Chord) (s : State) : Scanner :=
  { s.scanner.settleDue with mode := mode, chord := chord }

/-- Every key is up again: the stroke being formed ends now (R3). -/
abbrev strokeEnds (s : State) : Prop := s.scanner.mode = .forming ∧ s.scanner.due ≠ 0 ∧ downAfter s = 0

/-- The record of the stroke that ends (R4 to R7, R9). -/
def endingStroke (s : State) : Stroke where
  sn := s.journal.nextSn
  chord := s.scanner.chord
  downTime := s.scanner.downTime
  upTime := if s.scanner.dueTime.toNat < s.scanner.downTime.toNat then s.scanner.downTime else s.scanner.dueTime
  retract := decide (s.scanner.chord.toNat = 2048)
  unsynced := s.scanner.downUnsynced || s.scanner.dueUnsynced
  refusedBefore := s.journal.refused

/-- The Translator takes the stroke at the read point next: READY, nothing to re-take, no forced release (R19). -/
abbrev takesNext (k : Stroke) (s : State) : Prop :=
  s.trans.mode = .ready ∧ s.trans.retake = [] ∧ s.trans.forced = .clear ∧ s.journal.atReadPoint = some k

/-! ## Units and publishing -/

/-- The Composer on entering PUBLISH in an epoch over the held lines: CAP-NEXT where the last character that is not a space
is a full stop, a question mark or an exclamation mark, the other parts clear (R112, R130). -/
def Composer.publishing (c : Composer) (ls : List RecLine) (epoch : Epoch) : Composer :=
  let last := (ls.flatMap RecLine.text).reverse.find? (fun x => decide (x ≠ 0x20#8))
  { c with
    mode := .publish, epoch := epoch
    fmt :=
      { cap := decide (last = some 0x2E#8 ∨ last = some 0x3F#8 ∨ last = some 0x21#8), lower := false, attach := false } }

/-- The state after a unit has been handed over while publishing, `tr` being the Translator before it joins the undo history:
its items, those of its layout at the record end, are queued in order under the next RSNs and the followed epoch at the
unit's stroke time, and each is applied to the record (R33 to R35, R113 to R119, R169). -/
def unitPlaced (u : TransUnit) (tr : Translator) (s q : State) : Prop :=
  let p := s.record.endPos
  let bodies := if u.text.isEmpty then [] else unitItems s.settings.lineWidth s.composer.fmt u p
  let passes := ! u.text.isEmpty && passesRlnMax s.settings.lineWidth s.composer.fmt u p
  let items := bodies.mapIdx (fun n b => ({ rsn := s.pen.nextRsn + n, epoch := s.pen.epoch, time := u.time, body := b } : Item))
  s.pen.nextRsn + bodies.length ≤ 16777215 →
    q.pen = { s.pen with
      nextRsn := s.pen.nextRsn + bodies.length, outbound := s.pen.outbound ++ items
      applied := if bodies = [] then s.pen.applied else s.pen.nextRsn + bodies.length - 1
      lastStroke := if bodies = [] then s.pen.lastStroke else u.time
      log := if bodies = [] then s.pen.log else keepLast 256 (s.pen.log ++ items)
      closing := s.pen.closing || passes, exhausted := s.pen.exhausted || passes } ∧
    q.record.lines = bodies.foldl (fun ls b => applyBody ls b s.pen.epoch) s.record.lines ∧
    q.record.marks = s.record.marks ∧
    q.composer = { s.composer with fmt := formatAfter s.composer.fmt u.text u.attrs } ∧
    q.trans = { tr with
      undo := keepLast 32 (tr.undo ++ [{ u with start := p, before := s.composer.fmt }])
      floorTime := match tr.undo with
        | oldest :: _ => if 32 ≤ tr.undo.length then oldest.time else tr.floorTime
        | [] => tr.floorTime } ∧
    q.trans.lastPublished = u.time ∧ q.journal = s.journal ∧ PenSide s q

/-- The state after the run is resolved: its unit leaves the run, the strokes after the unit's come first on the re-take
list, and the unit is handed over, in SHADOW to the shadow buffer, while publishing with 8 free places as its items; without
them the Translator stalls with it (R23, R24, R33, R36). -/
def runResolved (s q : State) : Prop :=
  let u := resolvedUnit s.trans.run s.trans.results
  let t : Translator := { s.trans with
    run := [], results := [], settle := none
    retake := s.trans.run.drop (resolvedLength s.trans.results) ++ s.trans.retake }
  (s.trans.publishing = false → s.composer.mode = .shadow →
    ∃ d, (∀ i ∈ s.screen.dirty, i ∈ d) ∧
      q = refreshScreen { s with
        trans := t.remember { u with start := shadowEnd s.composer.shadow, before := s.composer.fmt }
        composer := { s.composer with
          shadow := (if u.text.isEmpty then [] else unitItems s.settings.lineWidth s.composer.fmt u (shadowEnd s.composer.shadow)).foldl shadowApply s.composer.shadow
          fmt := formatAfter s.composer.fmt u.text u.attrs }
        screen := { s.screen with dirty := d } }) ∧
  (s.trans.publishing = true → s.composer.mode = .publish → 8 ≤ s.pen.freePlaces → unitPlaced u t s q) ∧
  (s.trans.publishing = true → s.pen.freePlaces < 8 →
    q = refreshScreen { s with trans := { t with mode := .stalled, handOver := some (.unit u) } })

/-! ## Lookups -/

/-- The state after an answer has reached the Translator of `x`, which is otherwise as it was when it issued the lookup: an
answer that extends leaves the run waiting, one that does not, and any answer under forced release, resolves it at once. Where
the discard mark is set the answer is thrown away and the mark cleared, and a grant that waited for it is acted on: catching
up, or the replay from its cut time (R21, R37, R38, R41). -/
def answerReached (a : Answer) (x t : State) : Prop :=
  let results := x.trans.results ++ [a]
  let found : State := { x with trans := { x.trans with mode := .ready, results := results } }
  (x.trans.discard = false → a.ext = true → x.trans.forced ≠ .set →
    t = refreshScreen { x with trans := { x.trans with
      mode := .ready, results := results, settle := if x.settings.settle = 0 then none else some x.settings.settle } }) ∧
  (x.trans.discard = false → x.trans.run ≠ [] →
    (a.ext = false ∧ x.trans.forced ≠ .set) ∨
      (x.trans.forced = .set ∧ (x.trans.retake ≠ [] ∨ resolvedLength results < x.trans.run.length)) →
    runResolved found t) ∧
  (x.trans.discard = true → x.trans.forced ≠ .set →
    let r : Translator := { x.trans with discard := false, mode := .ready }
    (x.trans.grant = none → t = refreshScreen { x with trans := r }) ∧
    ∀ cut, x.trans.grant = some cut →
      let first := x.journal.strokes.find? (fun k => ! k.unsynced && decide (cut.toNat < k.downTime.toNat))
      let j : Journal := { x.journal with readPoint := (first.map Stroke.sn).getD x.journal.nextSn }
      (x.pen.state = some .catchingUp → t = refreshScreen { x with trans := { r with mode := .catchingUp } }) ∧
      (x.pen.state ≠ some .catchingUp →
        t = refreshScreen { x with
          journal := j
          trans := { r with grant := none, replayEnd := if j.readPoint < j.nextSn then some j.nextSn else none }
          composer := x.composer.publishing x.record.lines x.pen.epoch }))

/-- The state after the head request has left the define queue, `x` being the state with it gone (R51): a lookup that is held
stays held while a request left in the queue bears on it; with none left it is examined afresh, a miss sent to the store
controller and a hit answered. No other lookup is looked at. -/
def queueLeft (x t : State) : Prop :=
  ((∀ k, x.cache.path ≠ .held k) → t = afterStep x) ∧
  ∀ k, x.cache.path = .held k →
    let c := x.cache.checkSet k
    (bearsOn k x.ctl.queue = true → t = afterStep x) ∧
    (bearsOn k x.ctl.queue = false → c.lookup k = none →
      t = afterStep { x with cache := { c with path := .fetching k false } }) ∧
    ∀ a, bearsOn k x.ctl.queue = false → c.lookup k = some a →
      ∃ y, answerReached a { x with cache := { c.hit k with path := .idle } } y ∧ t = { y with script := StoreScript.none }

/-! ## Activation -/

/-- The FREE session sector that an activation tries: the lowest-numbered one other than the reserve (R96). -/
def nextFree (s : State) : Option Nat :=
  ((List.range 31).map (fun i => 224 + i)).find? (fun n => decide (s.ctl.sectorState n = .free) && decide (s.ctl.reserve ≠ some n))

/-- The sequence word of an activation programmed: the highest sequence number is raised by one and stands in the sector's
sequence word (R96; modulo 2 to the 32, log 100). -/
def sequenceProgrammed (m : Nat) (s : State) : State × Bool :=
  programWord (fieldWord (BitVec.ofNat 32 (s.ctl.highestSeq + 1))) m 3
    { s with ctl := { s.ctl with highestSeq := s.ctl.highestSeq + 1 } }

/-! ## Transactions -/

/-- The transaction a service-port command stands for: its tag, its bytes and its request. -/
def serviceOf : Instr → Option (Byte × Nat × Request)
  | .status tag n => some (tag, n, .status)
  | .readAttention tag n => some (tag, n, .readAttention)
  | .maskAttention tag n m => some (tag, n, .maskAttention m)
  | .ackAttention tag n c k => some (tag, n, .ackAttention c k)
  | .define tag n k a t => some (tag, n, .define k a t)
  | .retire tag n k => some (tag, n, .retire k)
  | .readEntry tag n k => some (tag, n, .readEntry k)
  | .openSession tag n => some (tag, n, .openSession)
  | .closeSession tag n => some (tag, n, .closeSession)
  | .readJournal tag n k => some (tag, n, .readJournal k)
  | .readRecord tag n f k => some (tag, n, .readRecord f k)
  | .readMarks tag n => some (tag, n, .readMarks)
  | .readFault tag n => some (tag, n, .readFault)
  | .clearFault tag n => some (tag, n, .clearFault)
  | .eraseBase tag n => some (tag, n, .eraseBase)
  | .loadEntry tag n k a t => some (tag, n, .loadEntry k a t)
  | .writeConfig tag n f => some (tag, n, .writeConfig f)
  | .protect tag n => some (tag, n, .protect)
  | .unprotect tag n => some (tag, n, .unprotect)
  | _ => none

/-- The bytes of a transaction with a frame. -/
def bytesOf (tag : Byte) (clocks : Nat) (r : Request) : Nat := max clocks (requestFrame tag r).length

/-- The frame of a request is one that may be sent (R206). -/
abbrev frameFits (tag : Byte) (r : Request) : Prop := (requestFrame tag r).length ≤ Config.frameMax + 2

/-- The port is IDLE when select is released: it was IDLE, or its response has just been delivered (R196). -/
abbrev portFree (tag : Byte) (clocks : Nat) (r : Request) (s : State) : Prop :=
  s.port.afterClocks (bytesOf tag clocks r) = .idle

/-- The state after a transaction that leaves the port in `p`. -/
def transacted (tag : Byte) (clocks : Nat) (r : Request) (p : PortState) (s : State) : State :=
  { s with portOut := (outgoing s.port).take (bytesOf tag clocks r), port := p }

/-- The state after a transaction that is answered in its own step. -/
def answered (tag : Byte) (clocks : Nat) (r : Request) (code : RespCode) (body : List Byte) (s : State) : State :=
  transacted tag clocks r (.ready { tag := tag, code := code, body := body }) s

/-! ## Beacons -/

/-- The beacon of two cells opens a transmission and is taken: it is not the station's own, and a timekeeper yields to it
(R134, R143, R151). -/
abbrev takesBeacon (c1 c2 : RxCell) (b : Beacon) (s : State) : Prop :=
  receives s = true ∧ s.link.rx = .idle ∧ beaconIn c1 c2 = some b ∧ b.timekeeper ≠ s.straps.station ∧
    (s.link.role = .timekeeper → b.timekeeper.val < s.straps.station.val)

/-! ## Items accepted (R171) -/

/-- An item of the record stream, of an epoch and under a header, is accepted. -/
abbrev itemAccepted (h : Header) (epoch : Epoch) (s : State) : Prop :=
  s.pen.session ≠ 0 ∧ s.pen.state ≠ some .outside ∧ h.session = s.pen.session ∧
    ∃ b, s.link.latest = some b ∧ b.holder = some h.station ∧ b.epoch = epoch

/-- A MARK under a header is accepted. -/
abbrev markAccepted (h : Header) (s : State) : Prop :=
  s.pen.session ≠ 0 ∧ s.pen.state ≠ some .outside ∧ h.session = s.pen.session ∧
    ∃ b, s.link.latest = some b ∧ inPlan b.plan h.station = true

/-! ## Cells as they are sent and received -/

/-- The roster after the corrected words of cells have been counted for a sender: 255 at most, and none in the station's own
entry (R134, R147). -/
def rosterCounted (sender : Station) (cells : List RxCell) (s : State) : List RosterEntry :=
  if sender = s.straps.station then s.link.roster
  else s.link.roster.modify sender.val (fun e => { e with corrected := min (e.corrected + corrections cells) 255 })

/-- The cells of an item command, and whether their fields hold an item that may be taken (R204). -/
def itemCells : Instr → Option (List RxCell × Bool)
  | .appendReceived a b => some ([a, b], (decodeAppend (cellValue a) (cellValue b)).isSome)
  | .breakReceived a => some ([a], (decodeBreak (cellValue a)).isSome)
  | .cutReceived a => some ([a], (decodeCut (cellValue a)).isSome)
  | .passReceived a => some ([a], (decodePass (cellValue a)).isSome)
  | .gapReceived a => some ([a], (decodeGap (cellValue a)).isSome)
  | .markReceived a => some ([a], (decodeMark (cellValue a)).isSome)
  | _ => none

/-- A word received without an error. -/
def cleanWord (v : Nat) : RxWord := { bits := BitVec.ofNat 32 v, cls := .clean }

/-- A cell received without an error. -/
def cellOf (v : Nat) : RxCell :=
  { w0 := cleanWord (v / 2 ^ 96), w1 := cleanWord (v / 2 ^ 64), w2 := cleanWord (v / 2 ^ 32), w3 := cleanWord v }

/-- A position that a cell can carry (R204). -/
def posSendable (p : Pos) : Bool := decide (p.rln < 2 ^ 24) && decide (p.col ≤ 64)

/-- A header that a station can send: the need is 0 or applied-through plus one, a display sends no request (R176,
R204). -/
def Header.sendable (h : Header) : Bool :=
  decide (h.applied < 2 ^ 24) && (decide (h.need = 0) || decide (h.need = h.applied + 1)) && posSendable h.recordEnd &&
    (decide (h.role = .writer) || decide (h.request = .none))

/-- A plan in ascending station number. -/
def planAscends : List (Station × Role) → Bool
  | a :: b :: l => decide (a.1.val < b.1.val) && planAscends (b :: l)
  | _ => true

/-- A beacon that may be taken (R144, R204). -/
def Beacon.sendable (b : Beacon) : Bool :=
  planAscends b.plan && inPlan b.plan b.timekeeper && holderInPlan b.plan b.holder && decide (1 ≤ b.startRsn) &&
    decide (b.startRsn < 2 ^ 24) && posSendable b.startPos

/-- An item whose fields fit its cells (R204). -/
def Item.sendable (i : Item) : Bool :=
  decide (i.rsn < 2 ^ 24) &&
    match i.body with
    | .append p t => posSendable p && decide (1 ≤ t.length) && decide (t.length ≤ 20) && t.all charOk
    | .brk p => posSendable p
    | .cut p => posSendable p
    | .pass _ p => posSendable p

end Sys2Proof.Machine
end

