-- ==== Sys2Proof/Certificates/Slice0/Obligations.lean ====
section
/-! DEFINITION. The statements for the provers. -/

open Sys2Proof Sys2Proof.Machine

/-! ## The queue, reset, and what every command keeps -/

/-- A step runs the front command on the rest of the queue; an empty queue idles (95; the idling is log 2). -/
def Obligations.StepRunsTheFrontCommand : Prop :=
  (∀ (c : Instr) (rest : List Instr) (s : State), step { s with pending := c :: rest } = exec c { s with pending := rest }) ∧
  ∀ s : State, s.pending = [] → step s = .next s

/-- RESET puts every block in its reset state for the straps found and keeps the store but for the torn words (R193; R2, R16
to R18, R47, R56, R60, R84, R91, R92, R94, R105, R112, R120, R128, R136, R147, R153, R177, R178, R195, R201). What the spec
gives no reset value, and the queue kept, are the model's (log 3, log 5). -/
def Obligations.ResetRestoresEveryBlock : Prop :=
  ∀ (straps : Straps) (torn : List (Nat × StoreWord)) (s : State), wordsInStore torn = true →
    let up : Button := { down := true, count := 0, pressed := false }
    let none_ : Answer := { found := false, text := [], attrs := 0, ext := false }
    let line (way : Nat) : CacheLine := { valid := false, key := [], ans := none_, age := way, parity := false }
    let clear : FormatState := { cap := false, lower := false, attach := false }
    exec (.reset straps torn) s = .next {
      straps := straps, start := .storeScan, port := .idle, portOut := []
      settings := { lineWidth := 56, debounce := 4, settle := 300, handoff := 3, rows := 16, reviewIdle := 30, defaulted := 0x3F }
      att := { mask := 0, raised := 0, outcomes := [], lost := false }
      clock := { linkTime := 0, synced := false }
      scanner := {
        mode := if straps.role = .display then .stopped else .waitClear
        down := 0x7FFFFF, counts := List.replicate 23 0, due := 0, dueTime := 0, dueUnsynced := false
        chord := 0, downTime := 0, downUnsynced := false }
      buttons := { relief := up, up := up, down := up, live := up, mark := up }
      journal := { strokes := [], nextSn := 1, readPoint := 1, archivePoint := 1, refused := 0, archiveLost := 0 }
      trans := {
        mode := if straps.role = .display then .stopped else .scanWait
        run := [], results := [], retake := [], settle := none, undo := [], handOver := none, publishing := false
        forced := .clear, discard := false, replayEnd := none, floorTime := 0, grant := none }
      cache := { sets := List.replicate 16 [line 0, line 1, line 2, line 3], parityCount := 0, path := .idle }
      store := s.store.writeAll torn
      ctl := {
        sectors := List.replicate 256 .unknown
        accounts := List.replicate 31 { appendPoint := 16, live := 0, dead := 0, passedOver := false }
        highestSeq := 0, reserve := none, directory := [], queue := [], nextId := 1, headWaiting := false, repair := []
        direct := none
        comp := {
          state := .idle, victim := 0, target := 0, targetAppend := 0, copies := [], cursor := 0, failed := none, sealStep := .seq
          erasing := 0, phase := .prezero 0 }
        keyTable := [], openSector := none, lastKey := .none, baseProtected := false, configRecord := none
        configAppend := 16
        fault := { first := none, corrected := 0, uncorrectable := 0, programFail := 0, eraseFail := 0 } }
      composer := {
        mode := if straps.role = .display ∨ straps.maintenance = true then .stopped else .shadow
        fmt := clear, shadow := [{ num := 0, text := [] }], epoch := 0 }
      record := {
        lines := [{ rln := 0, text := [], isOpen := true, tag := 0, marked := false, gap := false }], marks := [] }
      link := {
        mode := .start, latest := none
        roster := List.replicate 8 { listed := false, role := none, header := none, round := 0, silent := 0, corrected := 0 }
        role := .following, quiet := none, backoff := .stopped, wasTimekeeper := false, listenCount := 0, phase := .none
        heard := [], joiner := none, sinceBeacon := 0, rx := .idle, busy := false, sending := none }
      pen := {
        session := 0, left := none, epoch := 0, holder := none, startRsn := 1, startPos := { rln := 0, col := 0 }, cut := 0
        applied := 0, lastStroke := 0, state := if straps.role = .display then none else some .outside, nextRsn := 1
        closing := false, exhausted := false, passPending := none, noneSince := none, strokeQuiet := 0, openReq := false
        passTo := none, sentRsn := 0, outbound := [], log := [], reorder := [], markQueue := [], markId := 0 }
      screen := {
        rows := 16, view := .live, newText := false, pendingStart := none, markRefused := false, idle := none
        dirty := List.range 16, shown := List.replicate 16 none, writing := none }
      script := { prog := [], erase := [] }, pending := s.pending }

/-- The state after reset has the six invariants. -/
def Obligations.ResetStateIsLawful : Prop :=
  StoreGood State.reset ∧ JournalGood State.reset ∧ CacheGood State.reset ∧ QueueGood State.reset ∧
    ScreenGood State.reset ∧ CopiesGood State.reset

/-- A command leaves the waiting commands, and all but RESET leave the straps (R192). -/
def Obligations.CommandsLeaveQueueAndStraps : Prop :=
  ∀ (c : Instr) (s t : State), exec c s = .next t →
    t.pending = s.pending ∧ ((∀ straps torn, c ≠ .reset straps torn) → t.straps = s.straps)

/-- A queue of commands that can be sent never stops the block; RESET and TICK stop when they name a store word that does
not exist (R62; the stop is the model's, log 5, log 6). -/
def Obligations.OnlyMissingStoreWordsStop : Prop :=
  (∀ s : State, QueueGood s → ∃ t, step s = .next t ∧ QueueGood t) ∧
  ((∀ (straps : Straps) (torn : List (Nat × StoreWord)) (s : State), wordsInStore torn = false →
    exec (.reset straps torn) s = .fault .noSuchStoreWord) ∧
  ∀ (keys : BitVec 23) (buttons : BitVec 5) (events : TickEvents) (s : State), events.upsets.all upsetInStore = false →
    exec (.tick keys buttons events) s = .fault .noSuchStoreWord)

/-- Every step keeps the canonical form of the store. -/
def Obligations.StepKeepsStoreGood : Prop := ∀ s t : State, StoreGood s → step s = .next t → StoreGood t

/-- R8: every step keeps the law of the Stroke Journal. -/
def Obligations.StepKeepsJournalGood : Prop := ∀ s t : State, JournalGood s → step s = .next t → JournalGood t

/-- R47, R49: every step keeps four ways with the ages 0 to 3 in each of 16 sets. -/
def Obligations.StepKeepsCacheGood : Prop := ∀ s t : State, CacheGood s → step s = .next t → CacheGood t

/-! ## Frames and cells -/

/-- R206: the frame of a request whose operands fit is read back as that request. -/
def Obligations.RequestFrameReadsBack : Prop :=
  ∀ (tag : Byte) (r : Request) (c : Instr) (n : Nat), serviceOf c = some (tag, n, r) → c.wf = true → frameFits tag r →
    parseFrame (requestFrame tag r) = .good tag r

/-- R204: the cells of a header, of a beacon and of every item are read back as they were sent. -/
def Obligations.CellsReadBack : Prop :=
  ((∀ h : Header, h.sendable = true → headerIn (cellOf (encodeHeader h)) = some h) ∧
  ∀ b : Beacon, b.sendable = true → beaconIn (cellOf (encodeBeacon b)) (cellOf (encodeCont b)) = some b) ∧
  ((∀ (i : Item) (p : Pos) (t : Text), i.sendable = true → i.body = .append p t →
    ∃ v w, encodeItem i = [v, w] ∧ decodeAppend (cellValue (cellOf v)) (cellValue (cellOf w)) = some i) ∧
  (∀ (i : Item) (p : Pos), i.sendable = true → i.body = .brk p →
    ∃ v, encodeItem i = [v] ∧ decodeBreak (cellValue (cellOf v)) = some i) ∧
  (∀ (i : Item) (p : Pos), i.sendable = true → i.body = .cut p →
    ∃ v, encodeItem i = [v] ∧ decodeCut (cellValue (cellOf v)) = some i) ∧
  (∀ (i : Item) (n : Station) (p : Pos), i.sendable = true → i.body = .pass n p →
    ∃ v, encodeItem i = [v] ∧ decodePass (cellValue (cellOf v)) = some i) ∧
  (∀ g : GapItem, 1 ≤ g.first → g.first ≤ g.last → g.last < 2 ^ 24 →
    decodeGap (cellValue (cellOf (encodeGap g))) = some g) ∧
  ∀ m : MarkItem, m.first ≤ m.last → m.last < 2 ^ 24 → decodeMark (cellValue (cellOf (encodeMark m))) = some m)

/-! ## Strokes and the journal -/

/-- R2, R3: how the changes of one tick begin a stroke, add keys to it, or end the wait for all keys up. -/
def Obligations.KeysBeginAndJoinAStroke : Prop :=
  (∀ s : State, s.scanner.mode = .idle → s.scanner.due ≠ 0 → downAfter s ≠ 0 →
    exec .keyDebounced s = .next { s with scanner := { scannedAs .forming (downAfter s) s with downTime := s.scanner.dueTime, downUnsynced := s.scanner.dueUnsynced } }) ∧
  (∀ s : State, s.scanner.mode = .forming → s.scanner.due ≠ 0 → downAfter s ≠ 0 →
    exec .keyDebounced s = .next { s with scanner := scannedAs .forming (s.scanner.chord ||| downAfter s) s }) ∧
  (∀ s : State, s.scanner.mode = .waitClear → s.scanner.due ≠ 0 →
    exec .keyDebounced s = .next { s with scanner := scannedAs (if downAfter s = 0 then .idle else .waitClear) s.scanner.chord s }) ∧
  ∀ s : State, s.scanner.due = 0 → exec .keyDebounced s = .next s

/-- R3 to R9, R11, R12: the last key up ends the stroke. A journal with room keeps it under next SN; a full one whose oldest
stroke is translated overwrites that one, counting it lost when it was unarchived; past the last SN it is refused. -/
def Obligations.EndedStrokeIsKeptOrOverwrites : Prop :=
  (∀ s : State, strokeEnds s → s.journal.strokes.length < 2048 → s.journal.nextSn < 4294967296 →
    exec .keyDebounced s = .next { s with
      scanner := scannedAs .idle 0 s
      journal := { s.journal with strokes := s.journal.strokes ++ [endingStroke s], nextSn := s.journal.nextSn + 1, refused := 0 }
      pen := { s.pen with strokeQuiet := 0 } }) ∧
  ((∀ (s : State) (k : Stroke) (rest : List Stroke), strokeEnds s → s.journal.strokes.length = 2048 →
    s.journal.strokes = k :: rest → k.sn < s.journal.readPoint → s.journal.nextSn < 4294967296 →
    exec .keyDebounced s = .next { s with
      scanner := scannedAs .idle 0 s
      journal := { s.journal with
        strokes := rest ++ [endingStroke s], nextSn := s.journal.nextSn + 1, refused := 0
        archiveLost := if k.sn = s.journal.archivePoint then min (s.journal.archiveLost + 1) 255 else s.journal.archiveLost
        archivePoint := if k.sn = s.journal.archivePoint then k.sn + 1 else s.journal.archivePoint }
      pen := { s.pen with strokeQuiet := 0 } }) ∧
  ∀ s : State, strokeEnds s → s.journal.nextSn = 4294967296 →
    exec .keyDebounced s = .next { s with
      scanner := scannedAs .idle 0 s
      journal := { s.journal with refused := min (s.journal.refused + 1) 255 }
      att := s.att.raise .journalRefused
      pen := { s.pen with strokeQuiet := 0 } })

/-- R10: a full journal whose oldest stroke is untranslated refuses the stroke; once that stroke has been taken, strokes
are accepted again. -/
def Obligations.FullJournalRefuses : Prop :=
  ∀ (s : State) (k : Stroke) (rest : List Stroke), strokeEnds s → s.journal.strokes.length = 2048 →
    s.journal.strokes = k :: rest →
    (s.journal.readPoint ≤ k.sn →
      exec .keyDebounced s = .next { s with
        scanner := scannedAs .idle 0 s
        journal := { s.journal with refused := min (s.journal.refused + 1) 255 }
        att := s.att.raise .journalRefused
        pen := { s.pen with strokeQuiet := 0 } }) ∧
    (k.sn < s.journal.readPoint → s.journal.nextSn < 4294967296 →
      ∃ t, exec .keyDebounced s = .next t ∧ t.journal.strokes = rest ++ [endingStroke s] ∧
        t.journal.nextSn = s.journal.nextSn + 1)

/-- R1, R26, R132, R148, R153, R177, R184: one tick. Key changes left to take are taken first (log 11). Then Link time and
every running timer move by one ms, every key line and every button line is sampled, and nothing else but what the named
upsets change moves: the store words they name, the parity bits of the cache lines they name (log 6). R193: in STORE-SCAN, a
TICK that tells that the scan has read the configuration record has the lines use the debounce time of the record the store
then holds, or 4; that TICK tells it, and that the debounce-defaulted flag turns with the time, is the model's (log 87). -/
def Obligations.TickMovesTimeAndSamples : Prop :=
  (∀ (keys : BitVec 23) (buttons : BitVec 5) (events : TickEvents) (s : State), events.upsets.all upsetInStore = true →
    s.scanner.due = 0 →
    let upsets := events.upsets
    let found := judgeConfig (scanRecord s)
    let settings : Settings := if events.configRead = true ∧ s.start = .storeScan then
        { s.settings with debounce := found.debounce
                          defaulted := (s.settings.defaulted &&& ~~~2#6) ||| (found.defaulted &&& 2#6) }
      else s.settings
    let d := settings.debounce
    let button (i : Nat) (listens : Bool) (b : Button) : Button :=
      if buttons.getLsbD i ≠ b.down ∧ d ≤ b.count + 1 then
        { down := buttons.getLsbD i, count := 0, pressed := b.pressed || (buttons.getLsbD i && listens) }
      else { b with count := if buttons.getLsbD i ≠ b.down then min (b.count + 1) 15 else 0 }
    ∃ t, exec (.tick keys buttons events) s = .next t ∧
      t.clock = { linkTime := s.clock.linkTime + 1, synced := s.clock.synced } ∧
      t.pen = { s.pen with strokeQuiet := min (s.pen.strokeQuiet + 1) 10000 } ∧
      t.trans = { s.trans with settle :=
        if s.trans.mode = .ready ∧ s.trans.retake = [] then s.trans.settle.map (fun n => n - 1) else s.trans.settle } ∧
      t.link = { s.link with
        quiet := if s.link.role = .following then s.link.quiet.map (fun n => n - 1) else s.link.quiet
        backoff := match s.link.backoff with | .running n => .running (n - 4000) | b => b
        sinceBeacon := s.link.sinceBeacon + 1 } ∧
      t.screen = { s.screen with idle := match s.screen.view with | .review _ => s.screen.idle.map (fun n => n - 1) | .live => s.screen.idle } ∧
      (s.scanner.mode = .stopped → t.scanner = s.scanner) ∧
      (s.scanner.mode ≠ .stopped →
        t.scanner = { s.scanner with
          counts := t.scanner.counts, due := t.scanner.due
          dueTime := s.clock.linkTime + 1, dueUnsynced := ! s.clock.synced } ∧
        t.scanner.counts.length = s.scanner.counts.length ∧
        ∀ (i c : Nat), i < 23 → s.scanner.counts[i]? = some c →
          t.scanner.counts[i]? = some (if keys.getLsbD i ≠ s.scanner.down.getLsbD i then min (c + 1) 15 else 0) ∧
          t.scanner.due.getLsbD i = (decide (keys.getLsbD i ≠ s.scanner.down.getLsbD i) && decide (d ≤ c + 1))) ∧
      t.buttons = {
        relief := button 0 (decide (s.straps.role = .writer)) s.buttons.relief
        up := button 1 (decide (s.start ≠ .storeScan)) s.buttons.up
        down := button 2 (decide (s.start ≠ .storeScan)) s.buttons.down
        live := button 3 (decide (s.start ≠ .storeScan)) s.buttons.live
        mark := button 4 (decide (s.start ≠ .storeScan)) s.buttons.mark } ∧
      t.journal = s.journal ∧ t.composer = s.composer ∧ t.record = s.record ∧ t.ctl = s.ctl ∧ t.port = s.port ∧
      t.portOut = s.portOut ∧ t.att = s.att ∧ t.settings = settings ∧ t.start = s.start ∧ t.straps = s.straps ∧
      (∀ a, (∀ w, .storeWord a w ∉ upsets) → t.store.read a = s.store.read a) ∧
      t.cache.parityCount = s.cache.parityCount ∧ t.cache.path = s.cache.path ∧
      t.cache.sets.map (fun ls => ls.map (fun l => { l with parity := false })) =
        s.cache.sets.map (fun ls => ls.map (fun l => { l with parity := false })) ∧
      (∀ n way ls ms, (.cacheParity n way) ∉ upsets → t.cache.sets[n]? = some ls → s.cache.sets[n]? = some ms →
        ls[way]? = ms[way]?) ∧
      (upsets = [] → t.store = s.store ∧ t.cache = s.cache)) ∧
  (∀ (keys : BitVec 23) (buttons : BitVec 5) (events : TickEvents) (s : State), events.upsets.all upsetInStore = true →
    ∃ u t, exec .keyDebounced s = .next u ∧ u.scanner.due = 0 ∧ exec (.tick keys buttons events) s = .next t ∧
      exec (.tick keys buttons events) u = .next t) ∧
  ∀ s : State, s.ctl.sectors.length = 256 →
    (decodeSector s 255 ≠ .config → scanRecord s = none) ∧
    (decodeSector s 255 = .config → (walkRecords (setSector 255 .config s)).2 = none → scanRecord s = none) ∧
    ∀ a, decodeSector s 255 = .config → (walkRecords (setSector 255 .config s)).2 = some a →
      scanRecord s = match (readWords anyValueOk 255 3 (a + 1) (setSector 255 .config s)).2.values with
        | some l => configOfWords l
        | none => none

/-! ## Translation -/

/-- R19, R20, R21, R41, R50, R51: in READY the first stroke of the re-take list is taken and leaves it; with nothing to
re-take and no forced release the one at the journal's read point is taken, and the read point moves. A stroke taken joins
the run, and the run's key is looked up: held while a queued request bears on it, sent to the store on a miss, answered at
once on a hit. A hit that extends leaves the run waiting; one that does not, and any hit under forced release, resolves the
run at once, with no more done in the step unless forced release then finds nothing left. R55: before a set is searched, each
of its valid lines whose parity is wrong is made invalid, its age kept, and the parity counter rises by one for each, up to 3;
no answer comes from such a line. -/
def Obligations.TakenStrokeIsLookedUp : Prop :=
  (∀ (c : Cache) (k : Key) (ls : List CacheLine), c.sets[setOf k]? = some ls →
    let wrong (l : CacheLine) : Bool := l.valid && decide (l.parity ≠ parityOf l.key l.ans)
    c.checkSet k = { c with
      sets := c.sets.set (setOf k) (ls.map (fun l => if wrong l then { l with valid := false } else l))
      parityCount := min (c.parityCount + (ls.filter wrong).length) 3 } ∧
    ∀ a, (c.checkSet k).lookup k = some a →
      ∃ l ∈ ls, l.valid = true ∧ l.key = k ∧ l.ans = a ∧ l.parity = parityOf k a) ∧
  ∀ (s : State) (k : Stroke) (again : List Stroke) (j : Journal) (stop : Option Nat),
    (takesNext k s ∧ again = [] ∧ j = { s.journal with readPoint := s.journal.readPoint + 1 } ∧
        stop = if s.trans.replayEnd = some (s.journal.readPoint + 1) then none else s.trans.replayEnd) ∨
      (s.trans.mode = .ready ∧ s.trans.retake = k :: again ∧ j = s.journal ∧ stop = s.trans.replayEnd) →
    k.retract = false →
    let key := keyOfStrokes (s.trans.run ++ [k])
    let t : Translator := { s.trans with run := s.trans.run ++ [k], settle := none, replayEnd := stop, retake := again }
    let c := s.cache.checkSet key
    (bearsOn key s.ctl.queue = true →
      exec .takeStroke s = .next (refreshScreen { s with
        journal := j, trans := { t with mode := .looking }, cache := { s.cache with path := .held key } })) ∧
    (bearsOn key s.ctl.queue = false → c.lookup key = none →
      exec .takeStroke s = .next (refreshScreen { s with
        journal := j, trans := { t with mode := .looking }, cache := { c with path := .fetching key false } })) ∧
    ∀ a, bearsOn key s.ctl.queue = false → c.lookup key = some a →
      ∃ q, exec .takeStroke s = .next q ∧
        answerReached a { s with journal := j, trans := t, cache := { c.hit key with path := .idle } } q

/-- R29, R30, R35, R36, R118, R129: a retract with a run takes the newest stroke off it, with no lookup made. With no run it
takes the newest unit back, its strokes but the last to be taken again. In SHADOW the shadow buffer is cut to where the unit
started and the format state is restored. While publishing with 8 free places one CUT item goes out to there, at the last
published stroke time as it stands without the unit, and is applied to the record; without 8 free places the Translator
stalls with the cut. -/
def Obligations.RetractTakesBackStrokeOrUnit : Prop :=
  (∀ (s : State) (k : Stroke), takesNext k s → k.retract = true → s.trans.run ≠ [] →
    exec .takeStroke s = .next (refreshScreen { s with
      journal := { s.journal with readPoint := s.journal.readPoint + 1 }
      trans := { s.trans with
        run := s.trans.run.take (s.trans.run.length - 1)
        results := s.trans.results.take (s.trans.run.length - 1)
        settle := if s.trans.run.length = 1 ∨ s.settings.settle = 0 then none else some s.settings.settle
        replayEnd := if s.trans.replayEnd = some (s.journal.readPoint + 1) then none else s.trans.replayEnd } })) ∧
  ∀ (s : State) (k : Stroke) (us : List TransUnit) (u : TransUnit), takesNext k s → k.retract = true → s.trans.run = [] →
    s.trans.undo = us ++ [u] →
    let j : Journal := { s.journal with readPoint := s.journal.readPoint + 1 }
    let t : Translator := { s.trans with
      undo := us, settle := none
      replayEnd := if s.trans.replayEnd = some (s.journal.readPoint + 1) then none else s.trans.replayEnd }
    let last := match us.getLast? with
      | some x => x.time
      | none => s.trans.floorTime
    (s.trans.publishing = false → s.composer.mode = .shadow →
      exec .takeStroke s = .next (refreshScreen { s with
        journal := j, trans := { t with retake := u.strokes.dropLast }
        composer := { s.composer with shadow := shadowCut s.composer.shadow u.start, fmt := u.before } })) ∧
    (s.trans.publishing = true → s.composer.mode = .publish → 8 ≤ s.pen.freePlaces → s.pen.nextRsn < 16777215 →
      let i : Item := { rsn := s.pen.nextRsn, epoch := s.pen.epoch, time := last, body := .cut u.start }
      ∃ q, exec .takeStroke s = .next q ∧ q.journal = j ∧ q.trans = { t with retake := u.strokes.dropLast } ∧
        q.trans.lastPublished = last ∧ q.composer = { s.composer with fmt := u.before } ∧
        q.pen = { s.pen with
          nextRsn := s.pen.nextRsn + 1, applied := s.pen.nextRsn, lastStroke := last
          outbound := s.pen.outbound ++ [i], log := keepLast 256 (s.pen.log ++ [i]) } ∧
        q.record.lines = applyBody s.record.lines (.cut u.start) s.pen.epoch ∧ q.record.marks = s.record.marks ∧
        PenSide s q) ∧
    (s.trans.publishing = true → s.pen.freePlaces < 8 →
      exec .takeStroke s = .next (refreshScreen { s with
        journal := j, trans := { t with mode := .stalled, handOver := some (.cut u.start u.before u.strokes.dropLast) } }))

/-- R31: a retract with no run and no undo history does nothing but be taken (taking it stops the timer, R19, and may end
a replay, R39). -/
def Obligations.RetractOfNothing : Prop :=
  ∀ (s : State) (k : Stroke), takesNext k s → k.retract = true → s.trans.run = [] → s.trans.undo = [] →
    ∃ t, exec .takeStroke s = .next t ∧
      t.journal = { s.journal with readPoint := s.journal.readPoint + 1 } ∧
      t.trans = { s.trans with
        settle := none
        replayEnd := if s.trans.replayEnd = some (s.journal.readPoint + 1) then none else s.trans.replayEnd } ∧
      t.record = s.record ∧ t.composer = s.composer ∧ t.pen = s.pen ∧ t.cache = s.cache ∧ t.store = s.store ∧
      t.ctl = s.ctl ∧ t.link = s.link ∧ t.screen = { s.screen with dirty := t.screen.dirty } ∧ t.att = s.att ∧
      t.port = s.port ∧ t.scanner = s.scanner ∧ t.clock = s.clock

/-- R23, R24: the unit of a run is its longest found prefix, else the untranslate of its first stroke. R25: the rendering of a
chord gives the letters of its keys in key order, and a hyphen just before its first right-bank letter where it holds neither
a vowel nor the star; it has 1 to 24 characters, all printable. -/
def Obligations.LongestFoundPrefixIsTheUnit : Prop :=
  (∀ (run : List Stroke) (rs : List Answer) (n : Nat) (a : Answer), rs[n]? = some a → a.found = true →
    (∀ m b, n < m → rs[m]? = some b → b.found = false) →
    resolvedUnit run rs = newUnit (run.take (n + 1)) a.text a.attrs ∧ resolvedLength rs = n + 1) ∧
  (∀ (k : Stroke) (run : List Stroke) (rs : List Answer), (∀ a ∈ rs, a.found = false) →
    resolvedUnit (k :: run) rs = newUnit [k] (renderChord k.chord) 0 ∧ resolvedLength rs = 1) ∧
  ∀ c : Chord,
    let key (i : Nat) (letter : Ch) : Text := if c.getLsbD i then [letter] else []
    let left := key 0 0x53#8 ++ key 1 0x54#8 ++ key 2 0x4B#8 ++ key 3 0x50#8 ++ key 4 0x57#8 ++ key 5 0x48#8 ++ key 6 0x52#8
    let vowels := key 7 0x41#8 ++ key 8 0x4F#8 ++ key 9 0x45#8 ++ key 10 0x55#8
    let star := key 11 0x2A#8
    let right := key 12 0x46#8 ++ key 13 0x52#8 ++ key 14 0x50#8 ++ key 15 0x42#8 ++ key 16 0x4C#8 ++ key 17 0x47#8 ++
      key 18 0x54#8 ++ key 19 0x53#8 ++ key 20 0x44#8 ++ key 21 0x5A#8
    let hyphen : Text := if right ≠ [] ∧ vowels = [] ∧ star = [] then [0x2D#8] else []
    renderChord c = left ++ vowels ++ star ++ hyphen ++ right ++ key 22 0x23#8 ∧
    (c ≠ 0 → 1 ≤ (renderChord c).length ∧ (renderChord c).length ≤ 24 ∧ (renderChord c).all charOk = true)

/-- R27, R33 to R36, R113 to R119: the settle timer's expiry resolves the waiting run, and the unit is handed over. In SHADOW
it goes to the shadow buffer and the undo history. While publishing with 8 free places its items, those of its layout at the
record end, are queued in order under the next RSNs and the followed epoch at the unit's stroke time, and each is applied to
the record; the unit joins the undo history, of which the oldest of 32 drops out and sets the floor time, and the last
published stroke time is the unit's; a BREAK past the last RLN asks for the session to be closed. Without 8 free places the
Translator stalls with the unit. A stall ends with the hand-over once 8 places are free: of a unit as above, of a cut as its
one CUT item, its strokes to be taken again. -/
def Obligations.SettleExpiryAndStall : Prop :=
  (∀ s : State, s.trans.settle = some 0 → s.trans.mode = .ready → s.trans.retake = [] → s.trans.run ≠ [] →
    s.trans.forced = .clear → ∃ q, exec .settleExpiry s = .next q ∧ runResolved s q) ∧
  (∀ (s : State) (h : HandOver), s.trans.mode = .stalled → s.trans.handOver = some h → s.trans.publishing = true →
    let t : Translator := { s.trans with mode := .ready, handOver := none }
    (8 ≤ s.pen.freePlaces → s.trans.forced = .clear → s.composer.mode = .publish →
      ∃ q, exec .outboundSpaceFree s = .next q ∧
        match h with
        | .unit u => unitPlaced u t s q
        | .cut p f again => s.pen.nextRsn < 16777215 →
          let i : Item := { rsn := s.pen.nextRsn, epoch := s.pen.epoch, time := s.trans.lastPublished, body := .cut p }
          q.pen = { s.pen with
            nextRsn := s.pen.nextRsn + 1, applied := s.pen.nextRsn, lastStroke := s.trans.lastPublished
            outbound := s.pen.outbound ++ [i], log := keepLast 256 (s.pen.log ++ [i]) } ∧
          q.record.lines = applyBody s.record.lines (.cut p) s.pen.epoch ∧ q.record.marks = s.record.marks ∧
          q.composer = { s.composer with fmt := f } ∧ q.trans = { t with retake := again ++ s.trans.retake } ∧
          q.journal = s.journal ∧ PenSide s q) ∧
    (s.pen.freePlaces < 8 → exec .outboundSpaceFree s = .next (refreshScreen s)))

/-! ## Composition and the record -/

/-- R114, R115, R117: a word placed after text, with no attributes and the format state clear, is preceded by a space when
it fits on the line and by a break when it does not. -/
def Obligations.WordIsSpacedOrWrapped : Prop :=
  ∀ (width col : Nat) (w : Text), 1 ≤ w.length → w.all (fun c => decide (c ≠ spaceCh)) = true → 1 ≤ col → col ≤ width →
    width ≤ 64 →
    (col + 1 + w.length ≤ width → layoutUnit width FormatState.clear 0 w col = (spaceCh :: w).map some) ∧
    (width < col + 1 + w.length → w.length ≤ width → layoutUnit width FormatState.clear 0 w col = none :: w.map some)

/-- R119, R159, R160, R169, R173: an item the holder queues, an APPEND, a BREAK, a CUT or a PASS, takes next RSN and the
followed epoch, joins the outbound queue and the log, and is applied to its own record in the same step; a PASS is the pass
pending then. The item of RSN 16,777,215 sets closing, and no item is queued after it (log 27). A PASS with a chosen target
and a free place is queued so, with the record end and the cut time, and the holder is HANDING, no longer publishing; without
a place, or past the last RSN, it waits. R14, R37, R38, R130, R156, R164, R165: a beacon that names the writer holder of a
new epoch of its session is a grant. The epoch is adopted, next RSN is its start RSN, nothing of an earlier holding is left to
send and nothing counts as sent in it (log 24). A writer that had applied up to there is HOLDING: the read point is set by
search, the replay starts, the Composer publishes with the format state that the end of its record gives; one that was closing is released instead (log 26). A writer that lacks
text is CATCHING-UP. -/
def Obligations.HolderQueuesItemsAndPass : Prop :=
  ((∀ (time : LinkTime) (body : ItemBody) (s : State), s.pen.nextRsn ≤ 16777215 →
    let i : Item := { rsn := s.pen.nextRsn, epoch := s.pen.epoch, time := time, body := body }
    let t := queueItem time body s
    t.pen = { s.pen with
      outbound := s.pen.outbound ++ [i], nextRsn := s.pen.nextRsn + 1, applied := s.pen.nextRsn, lastStroke := time
      log := keepLast 256 (s.pen.log ++ [i])
      closing := s.pen.closing || decide (s.pen.nextRsn = 16777215)
      exhausted := s.pen.exhausted || decide (s.pen.nextRsn = 16777215)
      passPending := match body with
        | .pass n stop => some { target := n, rsn := s.pen.nextRsn, recordEnd := stop, cut := time }
        | _ => s.pen.passPending } ∧
      t.record = { s.record with lines := applyBody s.record.lines body s.pen.epoch } ∧
      PenSide s t ∧ t.journal = s.journal ∧ t.trans = s.trans ∧ t.composer = s.composer) ∧
  (∀ (time : LinkTime) (body : ItemBody) (s : State), 16777215 < s.pen.nextRsn → queueItem time body s = s) ∧
  ∀ (s : State) (n : Station) (time : LinkTime), s.pen.state = some .releasing → s.pen.closing = false →
    s.pen.passTo = some (n, time) →
    (s.pen.outbound.length < 64 → s.pen.nextRsn ≤ 16777215 → s.trans.handOver = none →
      let i : Item := { rsn := s.pen.nextRsn, epoch := s.pen.epoch, time := time, body := .pass n s.record.endPos }
      ∃ t, exec .passQueue s = .next t ∧
        t.pen = { s.pen with
          state := some .handing, passTo := none, nextRsn := s.pen.nextRsn + 1, applied := s.pen.nextRsn, lastStroke := time
          outbound := s.pen.outbound ++ [i], log := keepLast 256 (s.pen.log ++ [i])
          closing := decide (s.pen.nextRsn = 16777215)
          exhausted := s.pen.exhausted || decide (s.pen.nextRsn = 16777215)
          passPending := some { target := n, rsn := s.pen.nextRsn, recordEnd := s.record.endPos, cut := time } } ∧
        t.record = s.record ∧ t.trans.publishing = false ∧ t.trans.undo = [] ∧ t.trans.forced = .clear ∧
        t.composer.mode ≠ .publish ∧ t.journal = s.journal ∧ PenSide s t) ∧
    (64 ≤ s.pen.outbound.length ∨ 16777215 < s.pen.nextRsn → exec .passQueue s = .next (refreshScreen s))) ∧
  ∀ (c1 c2 : RxCell) (b : Beacon) (s : State) (q : PenState), takesBeacon c1 c2 b s → b.session ≠ 0 →
    b.session = s.pen.session → b.holder = some s.straps.station → s.pen.state = some q →
    b.epoch ≠ s.pen.epoch ∨ s.pen.holder ≠ some s.straps.station →
    (b.epoch ≠ s.pen.epoch → ∀ i ∈ s.pen.reorder, i.rsn < b.startRsn ∨ i.epoch ≠ b.epoch) → s.trans.mode = .ready →
    ∃ t, exec (.beaconReceived c1 c2) s = .next t ∧
      t.pen = { s.pen with
        state := some (if s.pen.applied < b.startRsn - 1 then .catchingUp else .holding), nextRsn := b.startRsn
        outbound := [], passTo := none, applied := b.startRsn - 1, reorder := []
        log := s.pen.log.filter (fun i => decide (i.rsn < b.startRsn)), passPending := none, lastStroke := b.cut
        epoch := b.epoch, holder := b.holder, startRsn := b.startRsn, startPos := b.startPos, cut := b.cut, sentRsn := 0
        noneSince := none } ∧
      t.record.lines = (if posLt b.startPos s.record.endPos = true then applyBody s.record.lines (.cut b.startPos) b.epoch
                        else s.record.lines) ∧
      t.trans.publishing = true ∧ t.trans.floorTime = b.cut ∧ t.trans.undo = [] ∧ t.trans.run = [] ∧ t.trans.retake = [] ∧
      (s.pen.applied < b.startRsn - 1 →
        t.trans.mode = .catchingUp ∧ t.trans.grant = some b.cut ∧ t.journal = s.journal ∧ t.composer.mode ≠ .publish) ∧
      (b.startRsn - 1 ≤ s.pen.applied →
        t.journal = { s.journal with readPoint :=
          match s.journal.strokes.find? (fun k => ! k.unsynced && decide (b.cut.toNat < k.downTime.toNat)) with
          | some k => k.sn
          | none => s.journal.nextSn } ∧
        t.trans.mode = .ready ∧
        t.trans.replayEnd = (if t.journal.readPoint < s.journal.nextSn then some s.journal.nextSn else none) ∧
        t.trans.forced = (if s.pen.closing && ! s.pen.exhausted then .reported else .clear) ∧
        t.composer = s.composer.publishing t.record.lines b.epoch)

/-- R123: a BREAK at the record end. -/
def Obligations.BreakOpensTheNextLine : Prop :=
  ∀ (init : List RecLine) (l : RecLine) (tag : Epoch),
    let ls := init ++ [l]
    let stop : Pos := { rln := l.rln, col := l.text.length }
    let opened : RecLine := { rln := l.rln + 1, text := [], isOpen := true, tag := tag, marked := false, gap := false }
    (l.rln < 16777215 →
      applyBody ls (.brk stop) tag = keepLast 512 (init ++ [{ l with isOpen := false }, opened]) ∧
      endOf (applyBody ls (.brk stop) tag) = { rln := l.rln + 1, col := 0 }) ∧
    (l.rln = 16777215 → applyBody ls (.brk stop) tag = ls)

/-- R121, R122, R124, R125, R126: an APPEND at the record end adds to the last line, never past column 64. One later than the
record end, and a BREAK there, first fills the record to its position: the last line padded with spaces, or closed, and each
line between opened empty, all flagged GAP, and the line of the position opened with its column in spaces. One earlier than
the record end is a CUT to its position and then applied. A CUT within the held lines removes what stands after its position
and opens that line again; one later than the record end changes nothing; one before the oldest held line leaves one OPEN line
of spaces flagged GAP. -/
def Obligations.AppendAndCutChangeTheEnd : Prop :=
  (∀ (init : List RecLine) (l : RecLine) (text : Text) (tag : Epoch),
    applyBody (init ++ [l]) (.append { rln := l.rln, col := l.text.length } text) tag =
      init ++ [{ l with text := (l.text ++ text).take 64, tag := tag, gap := l.gap || decide (64 < l.text.length + text.length) }]) ∧
  (∀ (before after : List RecLine) (l : RecLine) (col : Nat) (tag : Epoch), (∀ m ∈ before, m.rln < l.rln) →
    (∀ m ∈ after, l.rln < m.rln) → (after = [] → col ≤ l.text.length) →
    applyBody (before ++ l :: after) (.cut { rln := l.rln, col := col }) tag =
      before ++ [{ l with text := l.text.take col, isOpen := true, tag := tag }]) ∧
  (∀ (ls : List RecLine) (p : Pos) (tag : Epoch),
    (posLt (endOf ls) p = true → applyBody ls (.cut p) tag = ls) ∧
    (ls ≠ [] → (∀ m ∈ ls, p.rln < m.rln) → applyBody ls (.cut p) tag =
      [{ rln := p.rln, text := List.replicate p.col 0x20#8, isOpen := true, tag := tag, marked := false, gap := true }])) ∧
  (∀ (ls : List RecLine) (p : Pos) (tag : Epoch) (body : ItemBody), ls ≠ [] →
    (∃ text, body = .append p text) ∨ body = .brk p →
    (posLt (endOf ls) p = true →
      endOf (fillTo ls p tag) = p ∧ applyBody ls body tag = applyBody (fillTo ls p tag) body tag) ∧
    (posLt p (endOf ls) = true → applyBody ls body tag = applyBody (applyBody ls (.cut p) tag) body tag)) ∧
  ∀ (init : List RecLine) (l : RecLine) (p : Pos) (tag : Epoch),
    (p.rln = l.rln → l.text.length < p.col → fillTo (init ++ [l]) p tag =
      init ++ [{ l with text := l.text ++ List.replicate (p.col - l.text.length) 0x20#8, gap := true }]) ∧
    (l.rln < p.rln → fillTo (init ++ [l]) p tag =
      keepLast 512 (init ++ [{ l with isOpen := false, gap := true }] ++
        (List.range (p.rln - l.rln - 1)).map (fun i =>
          { rln := l.rln + 1 + i, text := [], isOpen := false, tag := tag, marked := false, gap := true }) ++
        [{ rln := p.rln, text := List.replicate p.col 0x20#8, isOpen := true, tag := tag, marked := false
           gap := decide (0 < p.col) }])) ∧
    (posLt { rln := l.rln, col := l.text.length } p = false → fillTo (init ++ [l]) p tag = init ++ [l])

/-! ## Keys and the Entry Cache -/

/-- R46: key order. -/
def Obligations.KeyOrder : Prop :=
  (∀ (p : Key) (a b : Nat) (k l : Key), a < b → keyLt (p ++ a :: k) (p ++ b :: l) = true ∧ keyLt (p ++ b :: l) (p ++ a :: k) = false) ∧
  (∀ (p : Key) (a : Nat) (l : Key), keyLt p (p ++ a :: l) = true ∧ keyLt (p ++ a :: l) p = false) ∧
  (∀ k : Key, keyLt k k = false) ∧
  (∀ k l : Key, keyLt k l = false → keyLt l k = false → k = l) ∧
  (∀ k l m : Key, keyLt k l = true → keyLt l m = true → keyLt k m = true) ∧
  (∀ k x y : Key, properPrefix k x = true → keyLt k y = true → properPrefix k y = false →
    keyLt k x = true ∧ keyLt x y = true) ∧
  ∀ (k : Key) (base : List Key), base.Pairwise (fun x y => keyLt x y = true) →
    base.any (properPrefix k) =
      (match base.find? (keyLt k) with | some y => properPrefix k y | none => false)

/-- R48: the set of a key, the same for filling, looking up and snooping. -/
def Obligations.SetOfKey : Prop :=
  (∀ k : Key, setOf k = k.sum % 16 ∧ setOf k = (k.map (fun c => c % 16)).sum % 16) ∧
  (∀ (c : Cache) (k : Key) (a : Answer) (n : Nat), n ≠ setOf k →
    (c.fill k a).sets[n]? = c.sets[n]? ∧ (c.hit k).sets[n]? = c.sets[n]? ∧ (c.drop k).sets[n]? = c.sets[n]?) ∧
  ∀ (c d : Cache) (k : Key), c.sets[setOf k]? = d.sets[setOf k]? → c.lookup k = d.lookup k

/-- R49: the ages of a set after a hit or a fill of way `w`, and after an invalidation. R50: a hit is the set's valid line with
the key, and makes it the youngest. R53: a fill takes the invalid line of lowest way number, else the line of age 3; the line
takes valid, the key, the answer, its parity bit and age 0, nothing else of the cache changes but the ages of its set, and the
answer is the key's from then on. -/
def Obligations.AgesOrderTheWays : Prop :=
  (∀ (ls : List CacheLine) (w : Nat), w < 4 → agesGood ls = true →
    ageAt (touch w (ageAt ls w) ls) w = 0 ∧
    (∀ v, v < 4 → v ≠ w → ageAt (touch w (ageAt ls w) ls) v = if ageAt ls v < ageAt ls w then ageAt ls v + 1 else ageAt ls v) ∧
    (∀ u v, u < 4 → v < 4 → u ≠ w → v ≠ w → (ageAt (touch w (ageAt ls w) ls) u < ageAt (touch w (ageAt ls w) ls) v ↔ ageAt ls u < ageAt ls v)) ∧
    agesGood (touch w (ageAt ls w) ls) = true) ∧
  (∀ (c : Cache) (k : Key), (c.drop k).sets.map (fun ls => ls.map CacheLine.age) = c.sets.map (fun ls => ls.map CacheLine.age)) ∧
  (∀ (c : Cache) (k : Key) (ls : List CacheLine) (w : Nat) (l : CacheLine), c.sets[setOf k]? = some ls → ls[w]? = some l →
    l.valid = true → l.key = k → (∀ v m, v < w → ls[v]? = some m → m.valid = false ∨ m.key ≠ k) →
    c.lookup k = some l.ans ∧ c.hit k = { c with sets := c.sets.set (setOf k) (touch w l.age ls) }) ∧
  ∀ (c : Cache) (k : Key) (a : Answer) (ls : List CacheLine), c.sets[setOf k]? = some ls → agesGood ls = true →
    (∃ w l, ls[w]? = some l ∧
      ((l.valid = false ∧ ∀ v m, v < w → ls[v]? = some m → m.valid = true) ∨ (l.age = 3 ∧ ∀ m ∈ ls, m.valid = true)) ∧
      c.fill k a = { c with sets := c.sets.set (setOf k) (ls.mapIdx (fun v m =>
        if v = w then { valid := true, key := k, ans := a, age := 0, parity := parityOf k a }
        else { m with age := if m.age < l.age then m.age + 1 else m.age })) }) ∧
    (c.lookup k = none → (c.fill k a).lookup k = some a)

/-- R58, R59, R49: a snoop leaves no valid line for the key or a proper prefix of it, changes no age, and where no line errs
leaves every other key's answer. R55: in each set that it examines, those of the key and of its proper prefixes, every valid
line whose parity is wrong is made invalid too, its age kept, and the parity counter rises by one for each, up to 3; in the
other sets no line changes. A fill in progress for the key or a proper prefix of it is marked stale; any other fill, and
a lookup that is held, go on as they were. -/
def Obligations.SnoopDropsKeyAndPrefixes : Prop :=
  ∀ (c : Cache) (k : Key),
    (∀ p, p = k ∨ (p ≠ [] ∧ properPrefix p k = true) → (c.snoop k).lookup p = none) ∧
    (c.snoop k).sets.map (fun ls => ls.map CacheLine.age) = c.sets.map (fun ls => ls.map CacheLine.age) ∧
    ((∀ ls ∈ c.sets, ∀ l ∈ ls, l.erring = false) → ∀ q, q ≠ k → (q = [] ∨ properPrefix q k = false) →
      (c.snoop k).lookup q = c.lookup q) ∧
    (let keys := k :: prefixesOf k
     let wrong (l : CacheLine) : Bool := l.valid && decide (l.parity ≠ parityOf l.key l.ans)
     let examined (n : Nat) : Bool := keys.any (fun p => decide (setOf p = n))
     (∀ p, p ∈ keys ↔ p = k ∨ (p ≠ [] ∧ properPrefix p k = true)) ∧
     (∀ (n : Nat) (ls : List CacheLine), c.sets[n]? = some ls → (c.snoop k).sets[n]? = some (ls.map (fun l =>
       if examined n && (wrong l || decide (l.key ∈ keys ∧ setOf l.key = n)) then { l with valid := false } else l))) ∧
     (c.snoop k).parityCount = min (c.parityCount +
       ((List.range 16).map (fun n => if examined n then ((c.sets.getD n []).filter wrong).length else 0)).sum) 3) ∧
    (∀ l stale, c.path = .fetching l stale →
      (l = k ∨ properPrefix l k = true → (c.snoop k).path = .fetching l true) ∧
      (l ≠ k → properPrefix l k = false → (c.snoop k).path = .fetching l stale)) ∧
    ((∀ l stale, c.path ≠ .fetching l stale) → (c.snoop k).path = c.path)

/-- R21, R37, R41, R44, R45, R52, R53, R54, R68: a waiting lookup is served by the store controller and a clean, fresh answer
cached; an answer that extends leaves the run waiting, one that does not, and any answer under forced release, resolves it at
once. Where the discard mark is set the result is thrown away and the mark cleared, and a grant that waited for it is acted
on: catching up, or the replay from its cut time, the Composer in PUBLISH. With no base sector listed the result of a key is its live session entry,
absent when the entry carries SUPPRESS or there is none. R44, R79, R80: with base sectors listed, a key is looked for in the
last listed sector whose first key is at or before it, by search of its slots; held, its entry is the result where the
session has none; the base part of extends comes from the next key, of the sector or of the next listed one. -/
def Obligations.LookupIsServedAndCached : Prop :=
  (∀ (s u : State) (k : Key) (stale : Bool) (r : Result), s.cache.path = .fetching k stale → s.start ≠ .storeScan →
    s.ctl.queue = [] → resultOf k s = (u, r) →
    let c : Cache := { (if r.damaged || stale then u.cache else u.cache.fill k r.ans) with path := .idle }
    StoreSide s u ∧ u.store = s.store ∧
    (r.damaged = false → stale = false → u.cache.lookup k = none → u.cache.sets.length = 16 →
      u.cache.sets.all agesGood = true → c.lookup k = some r.ans) ∧
    ∃ q, exec .serveLookup s = .next q ∧ answerReached r.ans { u with cache := c } q) ∧
  (∀ (s : State) (k : Key), s.ctl.keyTable = [] →
    (dirLoc s.ctl.directory k = none →
      resultOf k s = (s, { ans := { found := false, text := [], attrs := 0, ext := decide (dirCount s.ctl.directory k ≠ 0) }, damaged := false, corrected := false, part := .none })) ∧
    ∀ (l : Location) (u : State) (e : Key) (a : Attrs) (t : Text) (c : Bool), dirLoc s.ctl.directory k = some l →
      readEntryAt l.sector l.word s = (u, .good e a t c) →
      resultOf k s = (offerRepairIf c l u,
        { ans := if Attrs.suppress a then { found := false, text := [], attrs := 0, ext := decide (dirCount s.ctl.directory k ≠ 0) }
                 else { found := true, text := t, attrs := a, ext := decide (dirCount s.ctl.directory k ≠ 0) }
          damaged := false, corrected := c, part := .session })) ∧
  ∀ (s : State) (k : Key) (lower higher : List KeyRow) (r : KeyRow) (keys : List Key) (words : List Nat),
    s.ctl.keyTable = lower ++ r :: higher → keyLt k r.firstKey = false → (∀ x ∈ higher, keyLt k x.firstKey = true) →
    (∀ x ∈ lower, x.sector ≤ r.sector) → (∀ x ∈ higher, r.sector < x.sector) →
    keys.length = r.slots → words.length = r.slots → keys.Pairwise (fun x y => keyLt x y = true) →
    (∀ (i n : Nat) (e : Key) (w : Nat), keys[i]? = some e → words[i]? = some w →
      probeSlot r.sector i n s = (s, .key w e { damaged := false, corrected := false })) →
    let next (o : Option Key) : Bool :=
      match o with
      | some y => properPrefix k y
      | none => match higher with
                | x :: _ => properPrefix k x.firstKey
                | [] => false
    (∀ (i w : Nat), keys[i]? = some k → words[i]? = some w →
      baseSearch k s = (s, { entry := some { sector := r.sector, word := w }, ext := next keys[i + 1]?
                             met := { damaged := false, corrected := false } }) ∧
      ∀ (a : Attrs) (t : Text), dirLoc s.ctl.directory k = none → readEntryAt r.sector w s = (s, .good k a t false) →
        resultOf k s = (s,
          { ans := { found := true, text := t, attrs := a &&& 0x1F, ext := decide (dirCount s.ctl.directory k ≠ 0) || next keys[i + 1]? }
            damaged := false, corrected := false, part := .base })) ∧
    (k ∉ keys →
      baseSearch k s = (s, { entry := none, ext := next (keys.find? (keyLt k)), met := { damaged := false, corrected := false } }))

/-! ## The Entry Store -/

/-- R71: programming a word. No pulse brings a programmed bit back, no other word changes, success means that the word
reads as its target, and a failure is a PROGRAM-FAIL that raises STORE-FAULT. Cells that answer every pulse as asked
take the target at the first pulse. -/
def Obligations.ProgrammingAWord : Prop :=
  ∀ (target : StoreWord) (sector word : Nat) (s : State), StoreGood s → addrOf sector word < Config.storeWords →
    let r := programWord target sector word s
    (wordAt r.1 sector word).bits &&& ~~~ (wordAt s sector word).bits = 0 ∧
    (∀ a, a ≠ addrOf sector word → r.1.store.read a = s.store.read a) ∧
    (r.2 = true → wordAt r.1 sector word = target ∧ r.1.ctl.fault = s.ctl.fault ∧ r.1.att = s.att) ∧
    (r.2 = false → r.1.ctl.fault.programFail = min (s.ctl.fault.programFail + 1) 255 ∧ r.1.att = s.att.raise .storeFault) ∧
    (s.script.prog = [] → target.bits &&& (wordAt s sector word).bits = target.bits → r.2 = true)

/-- R65, R66, R205: an entry written on erased words by cells that answer every pulse as asked is read back whole, and no word
outside it has changed. -/
def Obligations.WrittenEntryReadsBack : Prop :=
  ∀ (sector word : Nat) (k : Key) (a : Attrs) (t : Text) (s : State), StoreGood s → sector < 256 →
    word + entrySize k t ≤ 4096 → keyOk k = true → textOk t = true → s.script.prog = [] →
    (∀ i, i < entrySize k t → wordAt s sector (word + i) = blankWord) →
    let r := writeEntryWords sector word k a t s
    r.2 = true ∧ (readEntryAt sector word r.1).2 = .good k a t false ∧ (readEntryAt sector word r.1).1 = r.1 ∧
      isLive r.1 sector word = true ∧
      ∀ x, (∀ i, i < entrySize k t → x ≠ addrOf sector (word + i)) → r.1.store.read x = s.store.read x

/-- R97 to R100, R102, R57: a DEFINE that fails its checks leaves the queue refused and nothing is written. One whose entry is
placed takes effect: the old entry reads RETIRED where its mark has taken, the key's location is the new entry, which reads
back where every cell answers as asked; no cached answer for the key or a prefix of it is left, its outcome is DONE. No store
word changes after the placing but the header of the old entry and of the old entry's copy, and every other block is as
before. Where RETIRED will not take on that copy compaction abandons, and a new entry that stands in the target, as one placed
after SEALED may, goes with it (log 93). One that finds no sector stays at the head and waits for space while compaction is
past SELECT or could start, and is refused with STORE-FULL otherwise; a retry without a sector is refused with STORE-FULL, a
second program failure with STORE-FAULT. The entry goes to the append point of the ACTIVE sector where it fits; when it does
not, or that write fails, FULL is programmed there, and a sector is activated; with no FREE sector but the reserve there is
none. R95, R96, R72, R73: activation takes the lowest-numbered FREE session sector other than the reserve, raises the highest
sequence number and programs it and then ACTIVE, and the entry goes to word 16; where either program fails the sector is BAD,
or out of use where BAD will not take, the number is not given back, and the next FREE sector is tried. A failed write leaves
the entry dead, FULL is programmed on its sector, and the write is tried once in a newly activated one. Programming a mark
changes its word alone, activating a sector its words 2 and 3, or those of the sector that goes BAD, writing an entry the
entry's own words. As a request leaves the queue a held lookup is tested again (R51). -/
def Obligations.DefineIsRefusedOrTakesEffect : Prop :=
  (∀ (script : StoreScript) (s : State) (id : Nat) (k : Key) (a : Attrs) (t : Text) (rest : List QueuedReq) (why : Reason),
    s.ctl.queue = { id := id, op := .define k a t } :: rest → s.start ≠ .storeScan → s.ctl.headWaiting = false →
    ((keyOk k = false ∨ k = [2048] ∨ textOk t = false) ∧ why = .badEntry ∨
      keyOk k = true ∧ k ≠ [2048] ∧ textOk t = true ∧ 8192 < s.ctl.directory.length + recordsNeeded s.ctl.directory k ∧ why = .directoryFull) →
    ∃ z, exec (.serveDefine script) s = .next z ∧ queueLeft { s with
      script := script, ctl := { s.ctl with queue := rest, headWaiting := false }, att := s.att.addOutcome { id := id, reason := some why } } z) ∧
  (∀ (script : StoreScript) (s p : State) (id : Nat) (k : Key) (a : Attrs) (t : Text) (rest : List QueuedReq) (l : Location),
    s.ctl.queue = { id := id, op := .define k a t } :: rest → s.start ≠ .storeScan → s.ctl.headWaiting = false →
    defineCheck k t s.ctl.directory = none →
    placeEntry k a t { s with script := script } = (p, .at_ l) →
    let copyStays : Prop := ∃ o w, dirLoc s.ctl.directory k = some o ∧ copyOf p.ctl.comp o = some w ∧
      (programMark p.ctl.comp.target (retiredAt w) (accountRetired o (programRetired o p).1)).2 = false
    ∃ q, StoreSide s q ∧
      (¬ copyStays ∨ l.sector ≠ p.ctl.comp.target → dirLoc q.ctl.directory k = some l) ∧
      (copyStays → q.ctl.comp = { p.ctl.comp with
          state := .prezero, erasing := p.ctl.comp.target, phase := .prezero 0, copies := [], failed := none } ∧
        q.ctl.sectors = p.ctl.sectors.set p.ctl.comp.target .copyTarget ∧
        ∀ x m, dirLoc q.ctl.directory x = some m → m.sector ≠ p.ctl.comp.target) ∧
      (∀ x, x = k ∨ (x ≠ [] ∧ properPrefix x k = true) → q.cache.lookup x = none) ∧
      (dirLoc s.ctl.directory k = none → q.store = p.store) ∧
      (∀ o r, dirLoc s.ctl.directory k = some o → programMark o.sector (retiredAt o.word) p = (r, true) → StoreGood s →
        addrOf o.sector o.word < 1048576 → readsMark q o.sector (retiredAt o.word) = true) ∧
      (∀ x, headersTouched (dirLoc s.ctl.directory k) p x = false → q.store.read x = p.store.read x) ∧
      (StoreGood s → script.prog = [] →
        (∀ i, i < entrySize k t → headersTouched (dirLoc s.ctl.directory k) p (addrOf l.sector (l.word + i)) = false) →
        (readEntryAt l.sector l.word q).2 = .good k a t false) ∧
      ∃ z, exec (.serveDefine script) s = .next z ∧ queueLeft { q with
        ctl := { q.ctl with queue := rest, headWaiting := false }, att := q.att.addOutcome { id := id, reason := none } } z) ∧
  (∀ (script : StoreScript) (s p : State) (id : Nat) (k : Key) (a : Attrs) (t : Text) (rest : List QueuedReq) (r : Placed),
    s.ctl.queue = { id := id, op := .define k a t } :: rest → s.start ≠ .storeScan → s.ctl.headWaiting = false →
    defineCheck k t s.ctl.directory = none →
    placeEntry k a t { s with script := script } = (p, r) → (∀ l, r ≠ .at_ l) →
    let refused (why : Reason) : Prop := ∃ z, exec (.serveDefine script) s = .next z ∧ queueLeft { p with
      ctl := { p.ctl with queue := rest, headWaiting := false }, att := p.att.addOutcome { id := id, reason := some why } } z
    StoreSide s p ∧ p.ctl.directory = s.ctl.directory ∧ p.ctl.queue = s.ctl.queue ∧ p.cache = s.cache ∧
    (r = .noSector → p.ctl.comp.state ≠ .idle ∨ triggerHolds p.ctl = true →
      exec (.serveDefine script) s = .next (afterStep { p with ctl := { p.ctl with headWaiting := true } })) ∧
    (r = .noSector → p.ctl.comp.state = .idle → triggerHolds p.ctl = false → refused .storeFull) ∧
    (r = .noRetry → refused .storeFull) ∧ (r = .failed → refused .storeFault)) ∧
  (∀ s : State,
    (nextFree s = none → activate s = (s, none)) ∧
    (∀ m w x, nextFree s = some m → sequenceProgrammed m s = (w, true) → programMark m markActive w = (x, true) →
      activate s = ({ x with ctl := { x.ctl with
        sectors := s.ctl.sectors.set m .active
        accounts := s.ctl.accounts.set (m - 224) { appendPoint := 16, live := 0, dead := 0, passedOver := false } } }, some m) ∧
      x.ctl.highestSeq = s.ctl.highestSeq + 1 ∧
      (∀ y, y ≠ addrOf m 3 → y ≠ addrOf m 2 → x.store.read y = s.store.read y) ∧
      (StoreGood s → (wordAt x m 3).bits = BitVec.ofNat 32 (s.ctl.highestSeq + 1) ∧ readsMark x m markActive = true)) ∧
    ∀ m w x, nextFree s = some m →
      (sequenceProgrammed m s = (x, false) ∨ (sequenceProgrammed m s = (w, true) ∧ programMark m markActive w = (x, false))) →
      let b := programMark m markBadSector x
      ∃ q, activate s = activate q ∧ q.ctl.highestSeq = s.ctl.highestSeq + 1 ∧
        q.ctl.sectors = s.ctl.sectors.set m (if b.2 then .bad else .outOfUse) ∧ q.ctl.accounts = s.ctl.accounts ∧
        q.ctl.directory = s.ctl.directory ∧ q.ctl.comp = s.ctl.comp ∧ StoreSide s q ∧
        (∀ n, s.ctl.reserve = some n → s.ctl.sectorState n = .free → q.ctl.reserve = some n) ∧
        (b.2 = true → q.store = b.1.store) ∧ ∀ y, y / 4096 ≠ m → q.store.read y = s.store.read y) ∧
  (∀ (s : State) (k : Key) (a : Attrs) (t : Text),
    let wrote (n : Nat) (v : State) : State × Bool := writeEntryWords n (v.ctl.account n).appendPoint k a t v
    let account (n : Nat) (v : State) (f : Account → Account) (q : State) : Prop :=
      q.ctl.accounts = v.ctl.accounts.set (n - 224) (f (v.ctl.account n))
    let placed (n : Nat) (v : State) : Prop := ∃ p,
      placeEntry k a t s = (p, .at_ { sector := n, word := (v.ctl.account n).appendPoint }) ∧ p.store = (wrote n v).1.store ∧
      p.ctl.sectors = v.ctl.sectors ∧ p.ctl.highestSeq = v.ctl.highestSeq ∧
      account n v (fun c => { c with appendPoint := c.appendPoint + entrySize k t, live := c.live + entrySize k t }) p
    let full (n : Nat) (v q : State) : Prop := q.store = (programMark n markFull v).1.store ∧
      q.ctl.sectors = v.ctl.sectors.set n .full ∧ q.ctl.highestSeq = v.ctl.highestSeq ∧ q.ctl.reserve = v.ctl.reserve
    let dead (n : Nat) (v q : State) : Prop := full n (wrote n v).1 q ∧
      account n v (fun c => { c with appendPoint := c.appendPoint + entrySize k t, dead := c.dead + entrySize k t }) q
    let first (n : Nat) (v : State) : Prop :=
      ((wrote n v).2 = true → placed n v) ∧
      ((wrote n v).2 = false → ∃ q, dead n v q ∧
        (∀ y, activate q = (y, none) → placeEntry k a t s = (y, .noRetry)) ∧
        ∀ y m, activate q = (y, some m) →
          ((wrote m y).2 = true → placed m y) ∧
          ((wrote m y).2 = false → ∃ p, placeEntry k a t s = (p, .failed) ∧ dead m y p))
    (s.ctl.activeSector = none →
      (∀ v, activate s = (v, none) → placeEntry k a t s = (v, .noSector)) ∧ ∀ v m, activate s = (v, some m) → first m v) ∧
    ∀ n, s.ctl.activeSector = some n →
      let w := (s.ctl.account n).appendPoint
      (w + entrySize k t ≤ 4096 → first n s) ∧
      (4096 < w + entrySize k t → ∃ q, full n s q ∧ q.ctl.accounts = s.ctl.accounts ∧
        (∀ v, activate q = (v, none) → placeEntry k a t s = (v, .noSector)) ∧ ∀ v m, activate q = (v, some m) → first m v)) ∧
  (∀ (s : State) (n w : Nat) (k : Key) (a : Attrs) (t : Text) (m : Mark),
    (∀ y, y ≠ addrOf n m.word → (programMark n m s).1.store.read y = s.store.read y) ∧
    ∀ y, (∀ i, i < entrySize k t → y ≠ addrOf n (w + i)) → (writeEntryWords n w k a t s).1.store.read y = s.store.read y) ∧
  ∀ (s : State) (k : Key) (a : Attrs) (t : Text), (∀ n ∈ s.ctl.sessionIn .free, s.ctl.reserve = some n) →
    (s.ctl.activeSector = none → placeEntry k a t s = (s, .noSector)) ∧
    ∀ n, s.ctl.activeSector = some n →
      let w := (s.ctl.account n).appendPoint
      let full (u : State) (r : Placed) : Prop := ∃ p, placeEntry k a t s = (p, r) ∧
        p.store = (programMark n markFull u).1.store ∧ p.ctl.sectors = s.ctl.sectors.set n .full
      (4096 < w + entrySize k t → full s .noSector) ∧
      (w + entrySize k t ≤ 4096 →
        (∀ u, writeEntryWords n w k a t s = (u, true) →
          ∃ p, placeEntry k a t s = (p, .at_ { sector := n, word := w }) ∧ p.store = u.store ∧ p.ctl.sectors = s.ctl.sectors) ∧
        ∀ u, writeEntryWords n w k a t s = (u, false) → full u .noRetry)

/-- R101, R93: a RETIRE of a key with a session entry programs RETIRED on it, and on its copy, and no other store word. The
key's location goes, the count of each of its proper prefixes falls by one, and a record left with neither is freed; the key
is snooped and DEFINE-DONE raised. Where RETIRED will not take on the copy compaction abandons, and the keys whose location
lies in the target lose it (log 93). A RETIRED that will not take refuses it with STORE-FAULT and leaves the directory. A key
without a session entry is refused with ABSENT, one that is no key with BAD-ENTRY, and nothing changes. As the request leaves
the queue a held lookup is tested again (R51). -/
def Obligations.RetireTakesTheLocationAway : Prop :=
  ∀ (script : StoreScript) (s : State) (id : Nat) (k : Key) (rest : List QueuedReq),
    s.ctl.queue = { id := id, op := .retire k } :: rest → s.start ≠ .storeScan → s.ctl.headWaiting = false →
    (∀ l p, keyOk k = true → dirLoc s.ctl.directory k = some l →
      programMark l.sector (retiredAt l.word) { s with script := script } = (p, true) →
      let copyStays : Prop := ∃ w, copyOf s.ctl.comp l = some w ∧
        (programMark s.ctl.comp.target (retiredAt w) (accountRetired l p)).2 = false
      ∃ q, StoreSide s q ∧ dirLoc q.ctl.directory k = none ∧ q.cache.lookup k = none ∧
        (StoreGood s → addrOf l.sector l.word < 1048576 → readsMark q l.sector (retiredAt l.word) = true) ∧
        (∀ x, headersTouched (some l) p x = false → q.store.read x = s.store.read x) ∧
        (¬ copyStays → ∀ r, r ∈ q.ctl.directory ↔ (r.loc ≠ none ∨ r.count ≠ 0) ∧ ∃ o ∈ s.ctl.directory,
          r = { key := o.key, loc := if o.key = k then none else o.loc
                count := if properPrefix o.key k then o.count - 1 else o.count }) ∧
        (copyStays → q.ctl.comp = { s.ctl.comp with
            state := .prezero, erasing := s.ctl.comp.target, phase := .prezero 0, copies := [], failed := none } ∧
          q.ctl.sectors = s.ctl.sectors.set s.ctl.comp.target .copyTarget ∧
          ((s.ctl.directory.map DirRecord.key).Nodup → ∀ x, dirLoc q.ctl.directory x = match dirLoc s.ctl.directory x with
            | some m => if x = k ∨ m.sector = s.ctl.comp.target then none else some m
            | none => none)) ∧
        ∃ z, exec (.serveRetire script) s = .next z ∧ queueLeft { q with
          ctl := { q.ctl with queue := rest, headWaiting := false }, att := q.att.addOutcome { id := id, reason := none } } z) ∧
    (∀ l p, keyOk k = true → dirLoc s.ctl.directory k = some l →
      programMark l.sector (retiredAt l.word) { s with script := script } = (p, false) →
      StoreSide s p ∧ p.ctl.directory = s.ctl.directory ∧
        ∃ z, exec (.serveRetire script) s = .next z ∧ queueLeft { p with
          ctl := { p.ctl with queue := rest, headWaiting := false }, att := p.att.addOutcome { id := id, reason := some .storeFault } } z) ∧
    (keyOk k = true → dirLoc s.ctl.directory k = none →
      ∃ z, exec (.serveRetire script) s = .next z ∧ queueLeft { s with
        script := script, ctl := { s.ctl with queue := rest, headWaiting := false }, att := s.att.addOutcome { id := id, reason := some .absent } } z) ∧
    (keyOk k = false →
      ∃ z, exec (.serveRetire script) s = .next z ∧ queueLeft { s with
        script := script, ctl := { s.ctl with queue := rest, headWaiting := false }, att := s.att.addOutcome { id := id, reason := some .badEntry } } z)

/-- R104: the oldest location leaves the repair list. One that holds its key's location is written anew, its key, text and
attributes as read: the new entry is the key's location and reads back as the old one was read, where every cell answers as
asked; no store word changes after the placing but the header of the old entry and of its copy. That the location which moves
is the one of the directory's key is the model's (log 47); so is what an abandonment takes with the target (log 93). One that no key holds any more is dropped, and nothing is
written; one whose entry can no longer be read is dropped and stays as it is. -/
def Obligations.RepairRewritesTheEntry : Prop :=
  ∀ (script : StoreScript) (s : State) (l : Location) (rest : List Location), s.ctl.repair = l :: rest →
    nextWork s = .repair →
    let s1 : State := { s with script := script, ctl := { s.ctl with repair := rest } }
    (dirKeyAt s.ctl.directory l = none → exec (.serveRepair script) s = .next (afterStep { s with ctl := { s.ctl with repair := rest } })) ∧
    (∀ (k : Key) (u : State) (r : EntryRead), dirKeyAt s.ctl.directory l = some k → readEntryAt l.sector l.word s1 = (u, r) →
      (∀ e a t c, r ≠ .good e a t c) →
      exec (.serveRepair script) s = .next (afterStep u) ∧ u.store = s.store ∧ u.ctl.directory = s.ctl.directory ∧
        u.ctl.repair = rest) ∧
    ∀ (k e : Key) (a : Attrs) (t : Text) (c : Bool) (u p : State) (m : Location), dirKeyAt s.ctl.directory l = some k →
      readEntryAt l.sector l.word s1 = (u, .good e a t c) → placeEntry e a t u = (p, .at_ m) →
      ∃ q, StoreSide s q ∧ q.ctl.repair = rest ∧
        ((supersede (dirLoc s.ctl.directory k) p).2 = false ∨ m.sector ≠ p.ctl.comp.target → dirLoc q.ctl.directory k = some m) ∧
        (∀ x, headersTouched (dirLoc s.ctl.directory k) p x = false → q.store.read x = p.store.read x) ∧
        (StoreGood s → script.prog = [] → keyOk e = true →
          (∀ i, i < entrySize e t → headersTouched (dirLoc s.ctl.directory k) p (addrOf m.sector (m.word + i)) = false) →
          (readEntryAt m.sector m.word q).2 = .good e a t false) ∧
        exec (.serveRepair script) s = .next (afterStep q)

/-- R105, R106, R70, R90, R110: the victim is the FULL sector with the most retired-or-dead words, the lowest-numbered on a
tie; without live words it is retired at once, else it is to be copied to the reserve once COPY-TARGET has verified on it,
and a reserve on which it does not goes BAD. The next held entry of the victim is copied to the target's append point, from
the values read, and joins the copy list; with no entry left, SEAL is next, in the same step (log 81). A copy that fails is tried once more, by the next COPY step (log 57),
at the append point after it; a second failure on the entry, or no room for a copy, abandons compaction. An entry that
cannot be read loses its key's location, and no store word but its header changes. -/
def Obligations.CompactionSelectsAndCopies : Prop :=
  (∀ (script : StoreScript) (s : State) (v r : Nat), nextWork s = .compaction → s.ctl.comp.state = .idle →
    triggerHolds s.ctl = true → v ∈ victims s.ctl →
    (∀ n ∈ victims s.ctl, (s.ctl.account n).dead < (s.ctl.account v).dead ∨ ((s.ctl.account n).dead = (s.ctl.account v).dead ∧ v ≤ n)) →
    s.ctl.reserve = some r →
    ((s.ctl.account v).live = 0 →
      exec (.compactSelect script) s = .next (afterStep { s with ctl := { s.ctl with comp := { s.ctl.comp with state := .retireVictim, victim := v, copies := [] } } })) ∧
    ∀ p ok, (s.ctl.account v).live ≠ 0 →
      programMark r markCopyTarget { s with script := script, ctl := { s.ctl with reserve := none } } = (p, ok) →
      ∃ q, StoreSide s q ∧ exec (.compactSelect script) s = .next (afterStep q) ∧
        q.ctl.reserve = (q.ctl.sessionIn .free).head? ∧
        if ok then
          q.store = p.store ∧ q.ctl.sectors = s.ctl.sectors.set r .copyTarget ∧
          q.ctl.comp = { s.ctl.comp with
            state := .copy, victim := v, target := r, targetAppend := 16, copies := [], cursor := 16, failed := none }
        else
          q.ctl.comp = { s.ctl.comp with state := .idle, copies := [] } ∧
          q.ctl.sectors = s.ctl.sectors.set r (if (programMark r markBadSector p).2 then .bad else .outOfUse)) ∧
  (∀ (script : StoreScript) (s : State), nextWork s = .compaction → s.ctl.comp.state = .copy →
    let c := s.ctl.comp
    let abandoned : Compaction := { c with
      state := .prezero, erasing := c.target, phase := .prezero 0, copies := [], failed := none }
    let wentOn (d : List DirRecord) (w : Nat) : Compaction := { c with
      cursor := w, failed := none
      state := if nextHeld d c.victim w = none then .seal else .copy
      sealStep := if nextHeld d c.victim w = none then .seq else c.sealStep }
    (nextHeld s.ctl.directory c.victim c.cursor = none →
      exec (.compactCopy script) s = .next (afterStep { s with ctl := { s.ctl with comp := { c with state := .seal, sealStep := .seq } } })) ∧
    ∀ (w : Nat) (k : Key), nextHeld s.ctl.directory c.victim c.cursor = some w →
      dirKeyAt s.ctl.directory { sector := c.victim, word := w } = some k →
      (∀ (e : Key) (a : Attrs) (t : Text) (b : Bool) (u : State),
        readEntryAt c.victim w { s with script := script } = (u, .good e a t b) →
        let room := c.targetAppend + entrySize e t
        (∀ p ok, room ≤ 4096 →
          writeEntryWords c.target c.targetAppend e a t (offerRepairIf b { sector := c.victim, word := w } u) = (p, ok) →
          ∃ q, StoreSide s q ∧ q.store = p.store ∧ q.ctl.directory = s.ctl.directory ∧
            q.ctl.comp = (if ok then { wentOn s.ctl.directory (w + 1) with
                                       copies := c.copies ++ [(w, c.targetAppend)], targetAppend := room }
                          else if c.failed = some w then { abandoned with targetAppend := room }
                          else { c with cursor := w, failed := some w, targetAppend := room }) ∧
            exec (.compactCopy script) s = .next (afterStep q)) ∧
        (4096 < room →
          ∃ q, StoreSide s q ∧ q.store = s.store ∧ q.ctl.directory = s.ctl.directory ∧ q.ctl.comp = abandoned ∧
            exec (.compactCopy script) s = .next (afterStep q))) ∧
      ∀ (u : State) (r : EntryRead), readEntryAt c.victim w { s with script := script } = (u, r) →
        (∀ e a t b, r ≠ .good e a t b) →
        ∃ q, StoreSide s q ∧ dirLoc q.ctl.directory k = none ∧ q.ctl.comp = wentOn q.ctl.directory (w + 1) ∧
          (∀ x, x ≠ addrOf c.victim w → q.store.read x = s.store.read x) ∧
          exec (.compactCopy script) s = .next (afterStep q))

/-- R108 to R110, R76, R90, R94: a seal, one step at a choice. The sequence word takes the raised highest sequence number;
then the state mark, ACTIVE when no sector is or when the target has more free words than it, else FULL; then SEALED, with
which the target stands in its state; then FULL on the sector that was ACTIVE where the target is ACTIVE; then the directory:
each key whose location in the victim is on the copy list moves to its copy, every other location and every count is as
before, no key is snooped, the target's live words rise by the copies and the victim's fall to 0, and RETIRE-VICTIM is next. A
word or mark that fails abandons compaction: the victim is passed over, the copy list empty, the target next to be erased.
RETIRE-VICTIM programs RELEASED on the victim and no other word, has the victim RELEASED whether or not the mark takes, and
starts its erase. The steps are the model's (log 57), and so is that the target is the
ACTIVE sector while the other one has FULL still to come (log 93). Every step keeps each key once in the directory and each
word of the victim once on the copy list. -/
def Obligations.SealAndRetireVictim : Prop :=
  (∀ (script : StoreScript) (s : State), nextWork s = .compaction → s.ctl.comp.state = .seal →
    let n := s.ctl.comp.target
    let v := s.ctl.comp.victim
    let seq := s.ctl.highestSeq + 1
    let active := match s.ctl.activeSector with
      | some m => decide (s.ctl.comp.targetAppend < (s.ctl.account m).appendPoint)
      | none => true
    let seqWord := programWord (fieldWord (BitVec.ofNat 32 seq)) n 3 { s with script := script, ctl := { s.ctl with highestSeq := seq } }
    let stateMark := programMark n (if active then markActive else markFull) { s with script := script }
    let sealedMark := programMark n markSealed { s with script := script }
    let at_ (st : SealStep) : Compaction := { s.ctl.comp with sealStep := st }
    let abandoned (p : State) : Prop := ∃ q, StoreSide s q ∧ q.store = p.store ∧ q.ctl.directory = s.ctl.directory ∧
      q.ctl.sectors = s.ctl.sectors ∧
      q.ctl.accounts = s.ctl.accounts.modify (v - 224) (fun a => { a with passedOver := true }) ∧
      q.ctl.comp = { s.ctl.comp with state := .prezero, erasing := n, phase := .prezero 0, copies := [], failed := none } ∧
      exec (.compactSeal script) s = .next (afterStep q)
    (s.ctl.comp.sealStep = .seq →
      (∀ p, seqWord = (p, true) →
        p.ctl.highestSeq = seq ∧ p.ctl.sectors = s.ctl.sectors ∧ StoreSide s p ∧
        exec (.compactSeal script) s = .next (afterStep { p with ctl := { p.ctl with comp := at_ .state } })) ∧
      ∀ p, seqWord = (p, false) → abandoned p) ∧
    (s.ctl.comp.sealStep = .state →
      (∀ p, stateMark = (p, true) →
        p.ctl.sectors = s.ctl.sectors ∧ StoreSide s p ∧
        exec (.compactSeal script) s = .next (afterStep { p with ctl := { p.ctl with comp := at_ (.sealed active) } })) ∧
      ∀ p, stateMark = (p, false) → abandoned p) ∧
    (∀ made, s.ctl.comp.sealStep = .sealed made →
      (∀ p, sealedMark = (p, true) →
        let stands := s.ctl.sectors.set n (if made then .active else .full)
        p.ctl.sectors = s.ctl.sectors ∧ StoreSide s p ∧
        (made = false ∨ s.ctl.activeSector = none →
          exec (.compactSeal script) s = .next (afterStep { p with ctl := { p.ctl with sectors := stands, comp := at_ .directory } })) ∧
        ∀ m, made = true → s.ctl.activeSector = some m →
          exec (.compactSeal script) s = .next (afterStep { p with ctl := { p.ctl with sectors := stands, comp := at_ (.full m) } })) ∧
      ∀ p, sealedMark = (p, false) → abandoned p) ∧
    (∀ m p ok, s.ctl.comp.sealStep = .full m → programMark m markFull { s with script := script } = (p, ok) →
      StoreSide s p ∧
      exec (.compactSeal script) s = .next (afterStep { p with ctl := { p.ctl with
        sectors := s.ctl.sectors.set m .full, comp := at_ .directory } })) ∧
    (s.ctl.comp.sealStep = .directory →
      ∃ q, StoreSide s q ∧ q.store = s.store ∧ q.cache = s.cache ∧
        q.ctl.comp = { s.ctl.comp with state := .retireVictim, copies := [] } ∧
        q.ctl.sectors = s.ctl.sectors ∧
        (∀ k, dirCount q.ctl.directory k = dirCount s.ctl.directory k) ∧
        (CopiesGood s →
          (∀ a b k, (a, b) ∈ s.ctl.comp.copies → dirKeyAt s.ctl.directory { sector := v, word := a } = some k →
            dirLoc q.ctl.directory k = some { sector := n, word := b }) ∧
          ∀ k, (∀ a b, (a, b) ∈ s.ctl.comp.copies → dirKeyAt s.ctl.directory { sector := v, word := a } ≠ some k) →
            dirLoc q.ctl.directory k = dirLoc s.ctl.directory k) ∧
        (n ≠ v → 224 ≤ n → 224 ≤ v → s.ctl.accounts.length = 31 →
          ∀ m, 224 ≤ m → m < 255 → q.ctl.account m =
            let a := s.ctl.account m
            if m = n then
              { a with live := a.live + (s.ctl.comp.copies.map (fun p => storedSize s { sector := n, word := p.2 })).sum }
            else if m = v then { a with live := 0, dead := a.dead + a.live } else a) ∧
        exec (.compactSeal script) s = .next (afterStep q))) ∧
  (∀ (script : StoreScript) (s : State), nextWork s = .compaction → s.ctl.comp.state = .retireVictim →
    ∃ q, StoreSide s q ∧ q.store = (programMark s.ctl.comp.victim markReleased { s with script := script }).1.store ∧
      q.ctl.sectors = s.ctl.sectors.set s.ctl.comp.victim .released ∧
      q.ctl.comp = { s.ctl.comp with state := .prezero, erasing := s.ctl.comp.victim, phase := .prezero 0 } ∧
      q.ctl.directory = s.ctl.directory ∧ exec (.compactRetireVictim script) s = .next (afterStep q)) ∧
  (∀ (c : Control) (l : List Nat), c.sessionIn .active = l →
    ((∀ m, c.comp.state = .seal → c.comp.sealStep ≠ .full m) → c.activeSector = l.head?) ∧
    ∀ m, c.comp.state = .seal → c.comp.sealStep = .full m → c.activeSector = (l.filter (fun n => decide (n ≠ m))).head?) ∧
  ∀ s t : State, CopiesGood s → step s = .next t → CopiesGood t

/-- R74, R75, R78, R82, R83, R109, R110: the word a pre-zero pass programs next is the first that does not read zero, the format
word first and then upward, header words 1 and 2 left out. The stages of an erase, of compaction's victim or abandoned target, of ERASE-BASE
and of UNPROTECT: a word to zero and the sector invalid; no word left, and the pulses begin (log 57); a pulse that erases
every word, or leaves one and may be given 16 times; the sector formatted, FREE, EMPTY or the config sector, its protect
marks gone. A word, the 16th pulse or a format that fails makes the sector BAD, or out of use where its mark will not take,
counted as ERASE-FAIL and raised. Compaction is idle then; a direct erase goes on with its next sector, and after its last
one ERASE-BASE answers DONE with the count of EMPTY sectors, UNPROTECT programs BASE-CLEARED and answers DONE, or STORE-FAULT
when the config sector was lost (or the mark fails, log 63). The record read at start is programmed on the formatted config
sector, tried twice (log 44, log 62). -/
def Obligations.EraseStagesOfCompaction : Prop :=
  (∀ (s : State) (n w : Nat),
    let zero (i : Nat) : Prop := (wordAt s n i).bits = 0
    (∀ i, nextToZero n w s = some i ↔
      w ≤ i ∧ i < 4096 ∧ i ≠ 1 ∧ i ≠ 2 ∧ ¬ zero i ∧ ∀ j, w ≤ j → j < i → j ≠ 1 → j ≠ 2 → zero j) ∧
    (nextToZero n w s = none ↔ ∀ j, w ≤ j → j < 4096 → j ≠ 1 → j ≠ 2 → zero j)) ∧
  ∀ (s : State) (n : Nat) (direct : Bool), StoreGood s → s.ctl.sectors.length = 256 → s.ctl.accounts.length = 31 →
    let stateOf (ph : ErasePhase) : CompState := match ph with
      | .prezero _ => .prezero
      | _ => .erase
    let erases (ph : ErasePhase) : Prop :=
      if direct then nextWork s = .direct ∧
        ((n < 224 ∧ ∃ l, s.ctl.direct = some (.eraseBase (n :: l) ph)) ∨
          ((n < 224 ∨ n = 255) ∧ ∃ l f, s.ctl.direct = some (.unprotect (n :: l) ph f)))
      else nextWork s = .compaction ∧ 224 ≤ n ∧ n < 255 ∧ s.ctl.comp.erasing = n ∧ s.ctl.comp.phase = ph ∧
        s.ctl.comp.state = stateOf ph
    let reaches (ph : ErasePhase) (q : State) : Prop := q.port = s.port ∧
      if direct then q.ctl.comp = s.ctl.comp ∧
        (∀ l p, s.ctl.direct = some (.eraseBase l p) → q.ctl.direct = some (.eraseBase l ph)) ∧
        ∀ l p f, s.ctl.direct = some (.unprotect l p f) → q.ctl.direct = some (.unprotect l ph f)
      else q.ctl.direct = s.ctl.direct ∧ q.ctl.comp = { s.ctl.comp with phase := ph, state := stateOf ph }
    let noBase (q : State) : Prop := q.ctl.keyTable = [] ∧ q.ctl.openSector = none ∧ q.ctl.lastKey = .none
    let ends (code : RespCode) (body : List Byte) (q : State) : Prop := noBase q ∧ q.ctl.direct = none ∧
      ∀ tag held, s.port = .working tag held → q.port = .ready { tag := tag, code := code, body := body }
    let goesOn (lost : Bool) (q : State) : Prop :=
      if direct then q.ctl.comp = s.ctl.comp ∧
        (∀ l p, s.ctl.direct = some (.eraseBase (n :: l) p) →
          (l ≠ [] → q.port = s.port ∧ q.ctl.direct = some (.eraseBase l (.prezero 0))) ∧
          (l = [] → ends .done [BitVec.ofNat 8 ((List.range 224).filter (fun i => decide (q.ctl.sectorState i = .empty))).length] q)) ∧
        ∀ l p f, s.ctl.direct = some (.unprotect (n :: l) p f) →
          let failed := f || (lost && decide (n = 255))
          (l ≠ [] → q.port = s.port ∧ q.ctl.direct = some (.unprotect l (.prezero 0) failed)) ∧
          (l = [] → failed = false → q.port = s.port ∧ q.ctl.direct = some (.unprotect [] .cleared false)) ∧
          (l = [] → failed = true → ends .storeFault [] q)
      else q.port = s.port ∧ q.ctl.direct = s.ctl.direct ∧ q.ctl.comp.state = .idle ∧ q.ctl.comp.copies = []
    let isLost (q : State) : Prop :=
      (q.ctl.sectorState n = .bad ∨ q.ctl.sectorState n = .outOfUse) ∧
      q.ctl.fault.eraseFail = min (s.ctl.fault.eraseFail + 1) 255 ∧
      (s.att.isMasked .storeFault = false → q.att.raised.getLsbD 2 = true) ∧
      (n = 255 → q.ctl.baseProtected = false) ∧ goesOn true q
    let others (q : State) : Prop := StoreSide { s with port := q.port } q ∧
      ∀ a, a / 4096 ≠ n → q.store.read a = s.store.read a
    (∀ (w i : Nat) (p : State) (ok : Bool) (script : StoreScript), erases (.prezero w) → nextToZero n w s = some i →
      programWord (fieldWord 0) n i { s with script := script } = (p, ok) →
      ∃ q, others q ∧ exec (.prezeroWord script) s = .next (afterStep q) ∧
        if ok then q.store = p.store ∧ (wordAt q n i).bits = 0 ∧ q.ctl.sectorState n = .invalid ∧ reaches (.prezero (i + 1)) q
        else isLost q) ∧
    (∀ w, erases (.prezero w) → nextToZero n w s = none →
      ∃ q, others q ∧ q.store = s.store ∧ reaches (.pulses 0) q ∧ exec (.prezeroWord StoreScript.none) s = .next (afterStep q)) ∧
    (∀ g, erases (.pulses g) →
      (∃ q, others q ∧ (∀ w, w < 4096 → wordAt q n w = blankWord) ∧ reaches .format q ∧
        exec (.erasePulse StoreScript.none) s = .next (afterStep q)) ∧
      ∀ (script : StoreScript) (left : List (BitVec 12 × StoreWord)) (w : BitVec 12) (v : StoreWord),
        script.erase.head? = some left → (w, v) ∈ left → v ≠ blankWord → (∀ x, (w, x) ∈ left → x = v) →
        ∃ q, others q ∧ exec (.erasePulse script) s = .next (afterStep q) ∧
          if g + 1 < 16 then wordAt q n w.toNat = v ∧ reaches (.pulses (g + 1)) q else isLost q) ∧
    (erases .format →
      ((∀ w, w < 4096 → wordAt s n w = blankWord) →
        ∃ q, others q ∧ wordAt q n 0 = fieldWord (formatWord n) ∧ readsMark q n markBadSector = false ∧
          exec (.formatSector StoreScript.none) s = .next (afterStep q) ∧
          if n < 224 then q.ctl.sectorState n = .empty ∧ readsMark q n markBase = true ∧ goesOn false q
          else if n < 255 then q.ctl.sectorState n = .free ∧ readsMark q n markSession = true ∧
            q.ctl.account n = { appendPoint := 16, live := 0, dead := 0, passedOver := false } ∧ goesOn false q
          else q.ctl.sectorState 255 = .config ∧ readsMark q 255 markConfig = true ∧
            readsMark q 255 markUnprotectPending = true ∧ q.ctl.baseProtected = false ∧ q.ctl.configAppend = 16 ∧
            if s.ctl.configRecord = none then goesOn false q else reaches (.record false) q) ∧
      ∀ p script, formatSector n { s with script := script } = (p, false) →
        ∃ q, others q ∧ isLost q ∧ exec (.formatSector script) s = .next (afterStep q)) ∧
    (∀ (again ok : Bool) (p : State) (f : ConfigFields) (script : StoreScript), n = 255 → erases (.record again) → direct = true →
      s.ctl.configRecord = some f → s.ctl.configAppend + 4 ≤ 4096 →
      writeRecord f s.ctl.configAppend { s with script := script } = (p, ok) →
      ∃ q, others q ∧ q.store = p.store ∧ q.ctl.configAppend = s.ctl.configAppend + 4 ∧
        exec (.formatSector script) s = .next (afterStep q) ∧
        if ok = true ∨ again = true then goesOn false q else reaches (.record true) q) ∧
    ∀ (p : State) (ok : Bool) (script : StoreScript), nextWork s = .direct → s.ctl.direct = some (.unprotect [] .cleared false) →
      programMark 255 markBaseCleared { s with
        script := script, ctl := { s.ctl with keyTable := [], openSector := none, lastKey := .none } } = (p, ok) →
      ∃ q, StoreSide { s with port := q.port } q ∧ q.store = p.store ∧ ends (if ok then .done else .storeFault) [] q ∧
        exec (.formatSector script) s = .next (afterStep q)

/-- R85, R61: READ-ENTRY is served whole in the service order: PROTECTED for a found base entry of a protected base, else
DONE with the result; no answer is cached. What an absent or damaged result sends is the model's (log 86). -/
def Obligations.ReadEntryIsServed : Prop :=
  ∀ (s u : State) (k : Key) (r : Result) (tag : Byte) (held : Option Request), s.ctl.direct = some (.readEntry k) →
    nextWork s = .direct → s.port = .working tag held → resultOf k s = (u, r) →
    exec .serveReadEntry s = .next { u with
      ctl := { u.ctl with direct := none }
      port := .ready (if r.part = .base ∧ r.ans.found = true ∧ s.ctl.baseProtected = true then { tag := tag, code := .protectedBase, body := [] }
                      else { tag := tag, code := .done, body := readEntryBody r }) } ∧
    u.cache = s.cache ∧ u.store = s.store ∧ StoreSide s u

/-- R77, R79, R81, R83, R195: LOAD-ENTRY is refused with BAD-ENTRY or ORDER before anything is written; an entry that fits the
open sector and whose words and slot verify is the last loaded key and the next slot. With no sector open, or where it does
not fit and CLOSED is programmed on the open one, it goes to the lowest EMPTY base sector above the last keyed one: its first
key and KEYED are programmed there, it joins the sector key table, is FILLING and open, and takes the entry as its first slot;
with no such sector the answer is STORE-FULL. PROTECT takes effect when its mark has
verified, or when either mark reads set already, without programming. WRITE-CONFIG appends one record and names the fields out of range. -/
def Obligations.MaintenanceRequestsAreServed : Prop :=
  (∀ (script : StoreScript) (s : State) (k : Key) (a : Attrs) (t : Text) (tag : Byte) (held : Option Request),
    s.ctl.direct = some (.loadEntry k a t) → nextWork s = .direct → s.port = .working tag held →
    (keyOk k = false ∨ textOk t = false →
      exec (.serveLoadEntry script) s = .next (afterStep { s with ctl := { s.ctl with direct := none }, port := .ready { tag := tag, code := .badEntry, body := [] } })) ∧
    (keyOk k = true → textOk t = true → (∃ l, s.ctl.lastKey = .key l ∧ keyLt l k = false) →
      exec (.serveLoadEntry script) s = .next (afterStep { s with ctl := { s.ctl with direct := none }, port := .ready { tag := tag, code := .order, body := [] } })) ∧
    ∀ (n fill : Nat) (u p : State), keyOk k = true → textOk t = true → orderOk s.ctl.lastKey k = true →
      s.ctl.openSector = some (n, fill) → fill + entrySize k t + slotsOf s.ctl n + 1 ≤ 4096 →
      writeEntryWords n fill k a t { s with script := script } = (u, true) →
      programWord (fieldWord (BitVec.ofNat 32 fill)) n (4095 - slotsOf s.ctl n) u = (p, true) →
      ∃ q, StoreSide { s with port := .ready { tag := tag, code := .done, body := [] } } q ∧ q.store = p.store ∧
        q.ctl.lastKey = .key k ∧ q.ctl.openSector = some (n, fill + entrySize k t) ∧
        q.ctl.keyTable = s.ctl.keyTable.map (fun r => if r.sector = n then { r with slots := slotsOf s.ctl n + 1 } else r) ∧
        q.ctl.direct = none ∧ exec (.serveLoadEntry script) s = .next (afterStep q)) ∧
  (∀ (script : StoreScript) (s z : State) (k : Key) (a : Attrs) (t : Text) (tag : Byte) (held : Option Request),
    s.ctl.direct = some (.loadEntry k a t) → nextWork s = .direct → s.port = .working tag held → keyOk k = true →
    textOk t = true → orderOk s.ctl.lastKey k = true →
    (s.ctl.openSector = none ∧ z = { s with script := script }) ∨
      (∃ n fill p ok, s.ctl.openSector = some (n, fill) ∧ 4096 < fill + entrySize k t + slotsOf s.ctl n + 1 ∧
        programMark n markClosed { s with script := script } = (p, ok) ∧
        z = { p with ctl := { p.ctl with sectors := s.ctl.sectors.set n .closed, openSector := none } }) →
    let keyed (i : Nat) : Prop := z.ctl.sectorState i = .filling ∨ z.ctl.sectorState i = .closed
    let takes (i : Nat) : Prop := i < 224 ∧ z.ctl.sectorState i = .empty ∧ ∀ j, j < 224 → keyed j → j < i
    StoreSide s z ∧
    ((∀ i, ¬ takes i) →
      exec (.serveLoadEntry script) s = .next (afterStep { z with
        ctl := { z.ctl with direct := none }, port := .ready { tag := tag, code := .storeFull, body := [] } })) ∧
    ∀ (m : Nat) (w v u p : State), takes m → (∀ i, takes i → m ≤ i) → (∀ r ∈ s.ctl.keyTable, r.sector ≠ m) →
      programWords m 3 (BitVec.ofNat 32 k.length :: k.map (BitVec.ofNat 32)) z = (w, true) →
      programMark m markKeyed w = (v, true) →
      writeEntryWords m 16 k a t { v with ctl := { v.ctl with
        sectors := z.ctl.sectors.set m .filling, openSector := some (m, 16)
        keyTable := s.ctl.keyTable ++ [{ sector := m, firstKey := k, slots := 0 }] } } = (u, true) →
      programWord (fieldWord 16) m 4095 u = (p, true) →
      ∃ q, StoreSide { s with port := .ready { tag := tag, code := .done, body := [] } } q ∧ q.store = p.store ∧
        q.ctl.sectors = z.ctl.sectors.set m .filling ∧ q.ctl.lastKey = .key k ∧
        q.ctl.openSector = some (m, 16 + entrySize k t) ∧
        q.ctl.keyTable = s.ctl.keyTable ++ [{ sector := m, firstKey := k, slots := 1 }] ∧
        q.ctl.direct = none ∧ exec (.serveLoadEntry script) s = .next (afterStep q)) ∧
  ((∀ (script : StoreScript) (s p : State) (tag : Byte) (held : Option Request), s.ctl.direct = some .protect →
    nextWork s = .direct → s.port = .working tag held → s.ctl.sectorState 255 = .config →
    readsMark s 255 markProtectA = false → readsMark s 255 markProtectB = false →
    programMark 255 markProtectA { s with script := script } = (p, true) →
    exec (.serveProtect script) s = .next (afterStep { p with
      ctl := { p.ctl with baseProtected := true, direct := none }, port := .ready { tag := tag, code := .done, body := [] } }) ∧
    StoreSide s p) ∧
  (∀ (script : StoreScript) (s : State) (tag : Byte) (held : Option Request), s.ctl.direct = some .protect →
    nextWork s = .direct → s.port = .working tag held → s.ctl.sectorState 255 = .config →
    readsMark s 255 markProtectA = true ∨ readsMark s 255 markProtectB = true →
    exec (.serveProtect script) s = .next (afterStep { s with
      ctl := { s.ctl with baseProtected := true, direct := none }, port := .ready { tag := tag, code := .done, body := [] } })) ∧
  ∀ (script : StoreScript) (s p : State) (f : ConfigFields) (tag : Byte) (held : Option Request),
    s.ctl.direct = some (.writeConfig f) → nextWork s = .direct → s.port = .working tag held →
    s.ctl.sectorState 255 = .config → s.ctl.configAppend + 4 ≤ 4096 →
    writeRecord f s.ctl.configAppend { s with script := script } = (p, true) →
    exec (.serveWriteConfig script) s = .next (afterStep { p with
      ctl := { p.ctl with configAppend := s.ctl.configAppend + 4, direct := none }
      port := .ready { tag := tag, code := .done, body := [(fieldsOutOfRange f).setWidth 8] } }) ∧
    StoreSide s p)

/-! ## The service port -/

/-- R196, R197, R194, R206: what becomes of any request's frame: discarded while the port is not free, BAD-FRAME when its
length passes 96, BAD-REQUEST for a count out of range, MODE for a maintenance request elsewhere, held during the start
scan. -/
def Obligations.FramesAreJudgedFirst : Prop :=
  ∀ (c : Instr) (tag : Byte) (clocks : Nat) (r : Request) (s : State), serviceOf c = some (tag, clocks, r) →
    (¬ portFree tag clocks r s → exec c s = .next (transacted tag clocks r (s.port.afterClocks (bytesOf tag clocks r)) s)) ∧
    (portFree tag clocks r s →
      (¬ frameFits tag r → exec c s = .next (answered tag clocks r .badFrame [] s)) ∧
      (frameFits tag r → r.countOk = false → exec c s = .next (answered tag clocks r .badRequest [] s)) ∧
      (frameFits tag r → r.countOk = true → r.maintenanceOnly = true → s.start ≠ .maintenance →
        exec c s = .next (answered tag clocks r .mode [] s)) ∧
      (frameFits tag r → r.countOk = true → r.maintenanceOnly = false → r.ownAnswer = false → s.start = .storeScan →
        exec c s = .next (transacted tag clocks r (.working tag (some r)) s)))

/-- R197, R199, R202: STATUS, READ-ATTENTION, MASK-ATTENTION and ACK-ATTENTION are answered at once in every start state;
the first two change nothing else. -/
def Obligations.PortAnswersItsOwnRequests : Prop :=
  ∀ (tag : Byte) (clocks : Nat) (s : State),
    (portFree tag clocks .status s →
      exec (.status tag clocks) s = .next (answered tag clocks .status .done (statusBody s) s)) ∧
    (portFree tag clocks .readAttention s →
      exec (.readAttention tag clocks) s = .next (answered tag clocks .readAttention .done (attentionBody s.att) s)) ∧
    (∀ m, portFree tag clocks (.maskAttention m) s →
      exec (.maskAttention tag clocks m) s = .next (answered tag clocks (.maskAttention m) .done []
        { s with att := { s.att with mask := m.setWidth 10 } })) ∧
    ∀ m n, portFree tag clocks (.ackAttention m n) s →
      exec (.ackAttention tag clocks m n) s = .next (answered tag clocks (.ackAttention m n) .done []
        { s with att := { s.att with
          raised := s.att.raised &&& ~~~ (m.setWidth 10), outcomes := s.att.outcomes.drop n.toNat
          lost := if n = 0 then s.att.lost else false } })

/-- R91: DEFINE and RETIRE join the define queue as its newest member under the next id and are answered QUEUED with it, or
BUSY when the queue holds four. -/
def Obligations.DefineAndRetireAreQueued : Prop :=
  ∀ (tag : Byte) (clocks : Nat) (s : State) (c : Instr) (r : Request) (op : DefOp),
    (∃ k a t, c = .define tag clocks k a t ∧ r = .define k a t ∧ op = .define k a t) ∨
      (∃ k, c = .retire tag clocks k ∧ r = .retire k ∧ op = .retire k) →
    portFree tag clocks r s → frameFits tag r → s.start ≠ .storeScan →
    (s.ctl.queue.length < 4 →
      exec c s = .next (answered tag clocks r .queued [BitVec.ofNat 8 s.ctl.nextId]
        { s with ctl := { s.ctl with
          queue := s.ctl.queue ++ [{ id := s.ctl.nextId, op := op }]
          nextId := if s.ctl.nextId < 255 then s.ctl.nextId + 1 else 1 } })) ∧
    (4 ≤ s.ctl.queue.length → exec c s = .next (answered tag clocks r .busy [] s))

/-- R78, R82, R85, R89, R194, R197: READ-ENTRY, LOAD-ENTRY, WRITE-CONFIG, PROTECT, ERASE-BASE and UNPROTECT become the direct
request of the store controller, the port WORKING. A key that cannot be one is answered BAD-ENTRY, at once (log 103), and a
protected base answers PROTECTED to LOAD-ENTRY and ERASE-BASE. -/
def Obligations.DirectRequestsWait : Prop :=
  (∀ (tag : Byte) (clocks : Nat) (s : State),
    (∀ k, portFree tag clocks (.readEntry k) s → frameFits tag (.readEntry k) → s.start ≠ .storeScan →
      (keyOk k = true → exec (.readEntry tag clocks k) s = .next (transacted tag clocks (.readEntry k) (.working tag none)
        { s with ctl := { s.ctl with direct := some (.readEntry k) } })) ∧
      (keyOk k = false → exec (.readEntry tag clocks k) s = .next (answered tag clocks (.readEntry k) .badEntry [] s))) ∧
    (∀ k a t, portFree tag clocks (.loadEntry k a t) s → frameFits tag (.loadEntry k a t) → s.start = .maintenance →
      (s.ctl.baseProtected = false →
        exec (.loadEntry tag clocks k a t) s = .next (transacted tag clocks (.loadEntry k a t) (.working tag none)
          { s with ctl := { s.ctl with direct := some (.loadEntry k a t) } })) ∧
      (s.ctl.baseProtected = true →
        exec (.loadEntry tag clocks k a t) s = .next (answered tag clocks (.loadEntry k a t) .protectedBase [] s))) ∧
    (∀ f, portFree tag clocks (.writeConfig f) s → s.start = .maintenance →
      exec (.writeConfig tag clocks f) s = .next (transacted tag clocks (.writeConfig f) (.working tag none)
        { s with ctl := { s.ctl with direct := some (.writeConfig f) } })) ∧
    (portFree tag clocks .protect s → s.start = .maintenance →
      exec (.protect tag clocks) s = .next (transacted tag clocks .protect (.working tag none)
        { s with ctl := { s.ctl with direct := some .protect } }))) ∧
  (∀ (tag : Byte) (clocks : Nat) (s : State), s.start = .maintenance →
    (portFree tag clocks .eraseBase s → s.ctl.baseProtected = true →
      exec (.eraseBase tag clocks) s = .next (answered tag clocks .eraseBase .protectedBase [] s)) ∧
    (∀ n l, portFree tag clocks .eraseBase s → s.ctl.baseProtected = false →
      (List.range 224).filter (fun i => decide (s.ctl.sectorState i ≠ .bad)) = n :: l →
      exec (.eraseBase tag clocks) s = .next (transacted tag clocks .eraseBase (.working tag none)
        { s with ctl := { s.ctl with direct := some (.eraseBase (n :: l) (.prezero 0)) } })) ∧
    (portFree tag clocks .unprotect s → s.ctl.sectorState 255 ≠ .bad →
      exec (.unprotect tag clocks) s = .next (transacted tag clocks .unprotect (.working tag none)
        { s with ctl := { s.ctl with direct := some (.unprotect
          (255 :: (List.range 224).filter (fun i => decide (s.ctl.sectorState i ≠ .bad))) (.prezero 0) false) } })))

/-- R127, R190, R84, R56, R15: READ-RECORD, READ-MARKS and READ-FAULT copy out and change nothing; CLEAR-FAULT empties the
fault record and the cache's parity count; READ-JOURNAL copies out up to n records from the archive point on, moves the
archive point past them and clears the archive-lost count it has reported. -/
def Obligations.ReadRequestsCopyOut : Prop :=
  (∀ (tag : Byte) (clocks : Nat) (s : State), s.start ≠ .storeScan →
    (∀ f n, portFree tag clocks (.readRecord f n) s → 1 ≤ n.toNat → n.toNat ≤ 8 →
      exec (.readRecord tag clocks f n) s = .next (answered tag clocks (.readRecord f n) .done
        (recordBody s.record f.toNat n.toNat) s)) ∧
    (portFree tag clocks .readMarks s →
      exec (.readMarks tag clocks) s = .next (answered tag clocks .readMarks .done (marksBody s.record.marks) s)) ∧
    (portFree tag clocks .readFault s →
      exec (.readFault tag clocks) s = .next (answered tag clocks .readFault .done (faultBody s.ctl.fault) s)) ∧
    (portFree tag clocks .clearFault s →
      exec (.clearFault tag clocks) s = .next (answered tag clocks .clearFault .done []
        { s with ctl := { s.ctl with fault := FaultRecord.clear }, cache := { s.cache with parityCount := 0 } }))) ∧
  (∀ (tag : Byte) (clocks : Nat) (n : Byte) (s : State), s.start ≠ .storeScan → portFree tag clocks (.readJournal n) s →
    1 ≤ n.toNat → n.toNat ≤ 16 →
    let copied := (s.journal.strokes.filter (fun k => decide (s.journal.archivePoint ≤ k.sn))).take n.toNat
    exec (.readJournal tag clocks n) s = .next (answered tag clocks (.readJournal n) .done
      ([BitVec.ofNat 8 s.journal.archiveLost, BitVec.ofNat 8 copied.length] ++ copied.flatMap strokeBytes)
      { s with journal := { s.journal with archivePoint := s.journal.archivePoint + copied.length, archiveLost := 0 } }))

/-- R154, R155, R156, R16, R43, R130, R131, R166, R191: OPEN-SESSION in OUTSIDE empties journal, Translator and record and asks for
a session. CLOSE-SESSION leaves the session in SHADOW and REQUESTING, and sets closing at a holder and releases its
Translator. Each is refused elsewhere, CLOSE-SESSION with PEN-PENDING in HANDING, in CATCHING-UP and while the pass pending
names this station. A beacon of a new session is adopted, the record cleared or begun as one GAP line, nothing counted as
sent (log 24) and the range not ended (log 26); the journal is emptied and a writer is in SHADOW, or it is named holder,
keeps its journal and replays it, HOLDING. A session left is not adopted. A beacon of session 0 ends the followed session,
the record kept; at a holder it is a pen loss, PEN-LOST raised, and the writer is OUTSIDE. -/
def Obligations.SessionRequests : Prop :=
  (∀ (tag : Byte) (clocks : Nat) (s : State), s.start ≠ .storeScan → portFree tag clocks .openSession s →
    (s.pen.state = some .outside →
      exec (.openSession tag clocks) s = .next (answered tag clocks .openSession .done [] (refreshScreen { s with
        journal := Journal.emptied, trans := s.trans.sessionReset, composer := s.composer.sessionReset
        record := Record.cleared, screen := s.screen.sessionReset
        pen := { s.pen with openReq := true, left := none, markQueue := [] } }))) ∧
    (s.pen.state = none → exec (.openSession tag clocks) s = .next (answered tag clocks .openSession .role [] s)) ∧
    ∀ p, s.pen.state = some p → p ≠ .outside →
      exec (.openSession tag clocks) s = .next (answered tag clocks .openSession .inSession [] s)) ∧
  (∀ (tag : Byte) (clocks : Nat) (s : State), s.start ≠ .storeScan → portFree tag clocks .closeSession s →
    (s.pen.state = some .shadow ∨ s.pen.state = some .requesting → passToSelf s = false →
      exec (.closeSession tag clocks) s = .next (answered tag clocks .closeSession .done [] (refreshScreen { s with
        pen := { s.pen with state := some .outside, left := some s.pen.session, session := 0 } }))) ∧
    (s.pen.state = some .holding ∨ s.pen.state = some .releasing → passToSelf s = false →
      let closes (f : Forced) : Prop :=
        exec (.closeSession tag clocks) s = .next (answered tag clocks .closeSession .done [] (refreshScreen { s with
          pen := { s.pen with closing := true, passTo := none }, trans := { s.trans with forced := f } }))
      (s.trans.forced ≠ .clear → closes s.trans.forced) ∧
      (s.trans.forced = .clear → s.trans.mode ≠ .ready ∨ s.trans.retake ≠ [] → closes .set) ∧
      (s.trans.forced = .clear → s.trans.mode = .ready → s.trans.retake = [] → s.trans.run = [] → closes .reported)) ∧
    (s.pen.state = some .handing ∨ s.pen.state = some .catchingUp →
      exec (.closeSession tag clocks) s = .next (answered tag clocks .closeSession .penPending [] s)) ∧
    (∀ q p, s.pen.state = some q → q ≠ .outside → s.pen.passPending = some p → p.target = s.straps.station →
      exec (.closeSession tag clocks) s = .next (answered tag clocks .closeSession .penPending [] s)) ∧
    (s.pen.state = some .outside →
      exec (.closeSession tag clocks) s = .next (answered tag clocks .closeSession .noSession [] s)) ∧
    (s.pen.state = none → exec (.closeSession tag clocks) s = .next (answered tag clocks .closeSession .role [] s))) ∧
  (∀ (c1 c2 : RxCell) (b : Beacon) (s : State), takesBeacon c1 c2 b s → b.session ≠ 0 → b.session ≠ s.pen.session →
    s.pen.left ≠ some b.session →
    let adopted : Pen := { s.pen with
      session := b.session, epoch := b.epoch, holder := b.holder, startRsn := b.startRsn, startPos := b.startPos
      cut := b.cut, applied := b.startRsn - 1, lastStroke := b.cut, closing := false, exhausted := false
      passPending := none, noneSince := if b.holder = none then some b.time else none, openReq := false, passTo := none
      sentRsn := 0, outbound := [], log := [], reorder := [], markQueue := [] }
    ∃ t, exec (.beaconReceived c1 c2) s = .next t ∧
      t.record = {
        lines := if b.startPos = { rln := 0, col := 0 }
          then [{ rln := 0, text := [], isOpen := true, tag := 0, marked := false, gap := false }]
          else [{ rln := b.startPos.rln, text := List.replicate b.startPos.col spaceCh, isOpen := true, tag := b.epoch
                  marked := false, gap := true }]
        marks := [] } ∧
      t.screen = { s.screen with
        view := .live, idle := none, newText := false, pendingStart := none, markRefused := false, dirty := t.screen.dirty } ∧
      (s.att.isMasked .sessionChange = false → t.att.raised.getLsbD 6 = true) ∧
      (b.holder ≠ some s.straps.station →
        t.pen = { adopted with state := s.pen.state.map (fun _ => .shadow) } ∧ t.journal = Journal.emptied ∧
        t.trans = s.trans.sessionReset ∧
        (s.composer.mode ≠ .stopped → t.composer = s.composer.sessionReset) ∧
        (s.composer.mode = .stopped → t.composer.mode = .stopped)) ∧
      (b.holder = some s.straps.station → s.pen.state ≠ none → s.trans.mode = .ready →
        t.pen = { adopted with state := some .holding, nextRsn := b.startRsn } ∧
        t.journal = { s.journal with readPoint :=
          match s.journal.strokes.find? (fun k => ! k.unsynced && decide (b.cut.toNat < k.downTime.toNat)) with
          | some k => k.sn
          | none => s.journal.nextSn } ∧
        t.trans.mode = .ready ∧ t.trans.publishing = true ∧ t.trans.floorTime = b.cut ∧ t.trans.run = [] ∧
        t.trans.retake = [] ∧ t.trans.undo = [] ∧
        t.trans.replayEnd = (if t.journal.readPoint < s.journal.nextSn then some s.journal.nextSn else none) ∧
        t.composer = s.composer.sessionReset.publishing t.record.lines b.epoch)) ∧
  (∀ (c1 c2 : RxCell) (b : Beacon) (s : State) (q : PenState), takesBeacon c1 c2 b s → b.session = 0 →
    s.pen.session ≠ 0 → s.pen.state = some q → holdsPen q = true → s.trans.handOver = none →
    ∃ t, exec (.beaconReceived c1 c2) s = .next t ∧
      t.pen = { s.pen with
        state := some .outside, session := 0, left := none, reorder := [], outbound := [], passPending := none
        passTo := none, markQueue := [], noneSince := none } ∧
      t.record = s.record ∧ t.journal = s.journal ∧
      (q = .handing → t.trans = s.trans ∧ t.composer = s.composer) ∧
      (q ≠ .handing →
        t.trans = { s.trans with
          publishing := false, undo := [], forced := .clear, replayEnd := none, grant := none
          mode := if s.trans.mode = .stalled ∨ s.trans.mode = .catchingUp then .ready else s.trans.mode } ∧
        t.composer = (if s.composer.mode = .publish then { s.composer with mode := .shadow, shadow := [{ num := 0, text := [] }] }
                      else s.composer)) ∧
      t.screen = { s.screen with pendingStart := none, markRefused := false, dirty := t.screen.dirty } ∧
      (s.att.isMasked .penLost = false → t.att.raised.getLsbD 4 = true) ∧
      (s.att.isMasked .sessionChange = false → t.att.raised.getLsbD 6 = true)) ∧
  ∀ (c1 c2 : RxCell) (b : Beacon) (s : State), takesBeacon c1 c2 b s →
    (∀ p, s.pen.state = some p → holdsPen p = false) →
    (b.session ≠ 0 → b.session ≠ s.pen.session → s.pen.left = some b.session →
      ∃ t, exec (.beaconReceived c1 c2) s = .next t ∧
        t.pen = { s.pen with noneSince := if b.holder = none then some (s.pen.noneSince.getD b.time) else none } ∧
        t.record = s.record ∧ t.journal = s.journal ∧ t.trans = s.trans ∧ t.composer = s.composer) ∧
    (b.session = 0 → s.pen.session = 0 →
      ∃ t, exec (.beaconReceived c1 c2) s = .next t ∧ t.pen = { s.pen with left := none, noneSince := none } ∧
        t.record = s.record ∧ t.journal = s.journal ∧ t.trans = s.trans ∧ t.composer = s.composer) ∧
    (b.session = 0 → s.pen.session ≠ 0 →
      ∃ t, exec (.beaconReceived c1 c2) s = .next t ∧
        t.pen = { s.pen with
          state := s.pen.state.map (fun _ => .outside), session := 0, left := none, reorder := [], outbound := []
          passPending := none, passTo := none, markQueue := [], noneSince := none } ∧
        t.record = s.record ∧ t.journal = s.journal ∧ t.trans = s.trans ∧ t.composer = s.composer ∧
        t.screen = { s.screen with pendingStart := none, markRefused := false, dirty := t.screen.dirty } ∧
        (s.att.isMasked .sessionChange = false → t.att.raised.getLsbD 6 = true))

/-- R196, R197, R206: a poll clocks out EMPTY, BUSY or the held response, which is delivered when every byte of it has been
clocked; bytes that are no whole frame are answered BAD-FRAME, and a whole frame no request agrees with BAD-REQUEST. That
nothing is clocked out past the response, and that a poll of one byte is a poll, are the model's (log 101, log 102). -/
def Obligations.PollsAndBadFrames : Prop :=
  (∀ (n : Nat) (s : State), s.port = .idle →
    exec (.poll n) s = .next { s with portOut := (responseFrame { tag := 0, code := .empty, body := [] }).take n }) ∧
  (∀ (n : Nat) (s : State) (tag : Byte) (held : Option Request), s.port = .working tag held →
    exec (.poll n) s = .next { s with portOut := (responseFrame { tag := tag, code := .busy, body := [] }).take n }) ∧
  (∀ (n : Nat) (s : State) (r : Response), s.port = .ready r →
    exec (.poll n) s = .next { s with
      portOut := (responseFrame r).take n, port := if (responseFrame r).length ≤ n then .idle else .ready r }) ∧
  ∀ (bytes : List Byte) (tag : Byte) (s : State), s.port.afterClocks bytes.length = .idle →
    (parseFrame bytes = .badFrame tag →
      exec (.frameRejected bytes) s = .next { s with
        portOut := (outgoing s.port).take bytes.length, port := .ready { tag := tag, code := .badFrame, body := [] } }) ∧
    (parseFrame bytes = .badRequest tag →
      exec (.frameRejected bytes) s = .next { s with
        portOut := (outgoing s.port).take bytes.length, port := .ready { tag := tag, code := .badRequest, body := [] } })

/-- R200, R203: an unmasked cause enters the pending set and asserts the line, a masked one is not recorded, and the line
is asserted exactly while the set is not empty. -/
def Obligations.AttentionLineFollowsTheSet : Prop :=
  (∀ a : Attention, a.line = decide (a.pendingSet ≠ 0)) ∧
  (∀ (a : Attention) (c : Cause), c ≠ .defineDone → c ≠ .defineRefused →
    (a.isMasked c = true → a.raise c = a) ∧
    (a.isMasked c = false → (a.raise c).pendingSet = a.pendingSet ||| (1#10 <<< c.bit) ∧ (a.raise c).line = true)) ∧
  (∀ (a : Attention) (o : DefOutcome), a.isMasked (if o.reason.isNone then .defineDone else .defineRefused) = false →
    o ∈ (a.addOutcome o).outcomes ∧ (a.addOutcome o).line = true) ∧
  State.reset.att.line = false

/-! ## Start-up -/

/-- R63, R64, R66, R79, R83, R86 to R88, R94, R95, R136, R18, R193, R195, R197: the start scan and its end. The configuration
read is in force, CONFIG-FAULT raised where a field was defaulted, the start state is RUNNING or MAINTENANCE, a request held
is passed on, and what the scan does not rebuild is as before. After it no sector is invalid, an unsealed target or RELEASED,
at most one is ACTIVE, the reserve is the lowest FREE one, and the sector key table lists keyed sectors, first keys ascending.
A header is decoded by its marks. Protect state and record are read from a good config sector, the newest place with LIVE (log
68). The walk ends at an erased header, which is the append point, or at an uncorrectable one, the rest dead (a header on
which WRITING reads set never reads erased; nor, by inference, one on which LIVE or RETIRED does, log 95); it counts a dead or
retired entry, retires the one before a live one, and enters that in the directory; a lost text leaves its key without a
location. In maintenance the last listed sector is open if FILLING, the last key read from its last slot. -/
def Obligations.ScanEndsInRunningOrMaintenance : Prop :=
  (∀ (script : StoreScript) (s : State), s.start = .storeScan →
    let u := startScan { s with script := script }
    StoreSide s u ∧
    (∃ t, exec (.scanComplete script) s = .next (afterStep (passHeld t)) ∧
      t.start = (if s.straps.maintenance then .maintenance else .running) ∧
      t.settings = judgeConfig u.ctl.configRecord ∧
      t.screen = { s.screen with
        dirty := List.range t.settings.rows, rows := t.settings.rows, shown := List.replicate t.settings.rows none } ∧
      t.link = { s.link with
        mode := if s.straps.maintenance then .maintenance else .listen
        quiet := if s.straps.maintenance then none else some 20 } ∧
      t.trans = { s.trans with mode :=
        if s.trans.mode = .scanWait then (if s.straps.maintenance then .stopped else .ready) else s.trans.mode } ∧
      t.ctl = u.ctl ∧ t.store = u.store ∧ t.cache = u.cache ∧ t.port = s.port ∧ t.journal = s.journal ∧ t.record = s.record ∧
      t.pen = s.pen ∧ t.composer = s.composer ∧ t.clock = s.clock ∧ t.scanner = s.scanner ∧ t.straps = s.straps ∧
      (s.att.isMasked .linkState = false → t.att.raised.getLsbD 5 = true) ∧
      (s.att.isMasked .configFault = false → u.ctl.configRecord = none ∨ t.settings.defaulted ≠ 0 →
        t.att.raised.getLsbD 9 = true) ∧
      ((∀ tag r, s.port ≠ .working tag (some r)) → passHeld t = t)) ∧
    (s.ctl.sectors.length = 256 →
      (∀ n, n < 224 → u.ctl.sectorState n ∈ [.empty, .filling, .closed, .bad, .outOfUse]) ∧
      (∀ n, 224 ≤ n → n < 255 → u.ctl.sectorState n ∈ [.free, .active, .full, .bad, .outOfUse]) ∧
      u.ctl.sectorState 255 ∈ [.config, .bad, .outOfUse] ∧
      (∀ n m, 224 ≤ n → n < 255 → 224 ≤ m → m < 255 → u.ctl.sectorState n = .active → u.ctl.sectorState m = .active → n = m) ∧
      u.ctl.reserve = (u.ctl.sessionIn .free).head? ∧
      u.ctl.keyTable.Pairwise (fun a b => a.sector < b.sector ∧ keyLt a.firstKey b.firstKey = true) ∧
      ∀ r ∈ u.ctl.keyTable, r.sector < 224 ∧ u.ctl.sectorState r.sector ∈ [.filling, .closed])) ∧
  (∀ (s : State) (n : Nat),
    let set (m : Mark) : Bool := readsMark s n m
    let sealed := set markCopyTarget && set markSealed
    (set markBadSector = true → decodeSector s n = .bad) ∧
    (set markBadSector = false → formatGood s n = false ∨ roleGood s n = false → decodeSector s n = .invalid) ∧
    (set markBadSector = false → formatGood s n = true → roleGood s n = true →
      (n < 224 → decodeSector s n =
        if set markKeyed then (if set markClosed then .closed else .filling)
        else (if set markClosed then .invalid else .empty)) ∧
      (224 ≤ n → n < 255 → decodeSector s n =
        if set markReleased then (if set markFull then .released else .invalid)
        else if set markCopyTarget && ! set markSealed then .copyTarget
        else if set markSealed && ! set markCopyTarget then .invalid
        else if set markFull then .full
        else if set markActive then .active
        else if sealed then .invalid else .free) ∧
      (n = 255 → decodeSector s n = .config))) ∧
  (∀ s : State, s.ctl.sectorState 255 = .config →
    let c := (readConfig s).ctl
    let read (w : Nat) : Bool := decide (classOf (wordAt s 255 w) = .clean) || decide (classOf (wordAt s 255 w) = .corrected)
    c.baseProtected = (readsMark s 255 markProtectA || readsMark s 255 markProtectB) ∧
    ((∀ i, i < 1020 → readsMark s 255 (liveAt (16 + 4 * i)) = false) → c.configRecord = none) ∧
    (∀ i, i < 1020 → (∀ j, i ≤ j → j < 1020 → readsMark s 255 (liveAt (16 + 4 * j)) = decide (j = i)) →
      let w := 16 + 4 * i
      c.configRecord = if read (w + 1) && read (w + 2) && read (w + 3) then
          configOfWords [(wordAt s 255 (w + 1)).bits, (wordAt s 255 (w + 2)).bits, (wordAt s 255 (w + 3)).bits]
        else none) ∧
    ∀ i, i ≤ 1020 → (∀ j, i ≤ j → j < 1020 →
        readsMark s 255 (liveAt (16 + 4 * j)) = false ∧ readsMark s 255 (writingAt (16 + 4 * j)) = false) →
      (i = 0 ∨ readsMark s 255 (liveAt (16 + 4 * (i - 1))) = true ∨ readsMark s 255 (writingAt (16 + 4 * (i - 1))) = true) →
      c.configAppend = 16 + 4 * i) ∧
  (∀ (h : StoreWord) (w : Nat),
    (isBlankHeader h = true ↔ h.check = .erased ∧ h.bits ||| 0xFF800000#32 = 0xFFFFFFFF#32 ∧
      markSet h.bits 31 = false ∧ markSet h.bits 28 = false ∧ markSet h.bits 25 = false) ∧
    (h.check = .erased → expectedClass (headerFits w) h = .uncorrectable)) ∧
  (∀ (n fuel w : Nat) (s : State), 224 ≤ n → n < 255 → w < 4096 → s.ctl.accounts.length = 31 → s.ctl.sectors.length = 256 →
    let h := wordAt s n w
    let size := (entryFields h.bits).size
    let live := readsMark s n (liveAt w) && ! readsMark s n (retiredAt w)
    (isBlankHeader h = true → ∃ q, walkSector n (fuel + 1) w s = q ∧ StoreSide s q ∧ q.store = s.store ∧
      q.ctl.directory = s.ctl.directory ∧ q.ctl.account n = { s.ctl.account n with appendPoint := w }) ∧
    (isBlankHeader h = false → expectedClass (headerFits w) h = .uncorrectable →
      ∃ q, walkSector n (fuel + 1) w s = q ∧ StoreSide s q ∧ q.ctl.directory = s.ctl.directory ∧
        q.ctl.fault.uncorrectable = min (s.ctl.fault.uncorrectable + 1) 255 ∧
        q.ctl.account n = { s.ctl.account n with
          appendPoint := 4096, dead := (s.ctl.account n).dead + (4096 - w) } ∧
        q.ctl.sectors = (if s.ctl.sectorState n = .active then s.ctl.sectors.set n .full else s.ctl.sectors)) ∧
    (isBlankHeader h = false → expectedClass (headerFits w) h ≠ .uncorrectable →
      (live = false → ∃ q, walkSector n (fuel + 1) w s = walkSector n fuel (w + size) q ∧ StoreSide s q ∧
        q.store = s.store ∧ q.ctl.directory = s.ctl.directory ∧
        q.ctl.account n = { s.ctl.account n with dead := (s.ctl.account n).dead + size }) ∧
      (∀ u k a t c, live = true → readLive { sector := n, word := w } s = (u, .good k a t c) →
        (dirLoc s.ctl.directory k ≠ none ∨ s.ctl.directory.length + recordsNeeded s.ctl.directory k ≤ 8192) →
        ∃ q, walkSector n (fuel + 1) w s = walkSector n fuel (w + size) q ∧ StoreSide s q ∧
          q.ctl.repair = u.ctl.repair ∧ dirLoc q.ctl.directory k = some { sector := n, word := w } ∧
          (∀ x, x ≠ k → dirLoc q.ctl.directory x = dirLoc s.ctl.directory x) ∧
          (dirLoc s.ctl.directory k = none → q.store = s.store ∧
            q.ctl.account n = { s.ctl.account n with live := (s.ctl.account n).live + size }) ∧
          ∀ o, dirLoc s.ctl.directory k = some o → q.store = (programMark o.sector (retiredAt o.word) u).1.store) ∧
      ∀ u k c, live = true → readLive { sector := n, word := w } s = (u, .badText k c) →
        ∃ q, walkSector n (fuel + 1) w s = walkSector n fuel (w + size) q ∧ StoreSide s q ∧
          dirLoc q.ctl.directory k = none ∧
          ((s.ctl.directory.map DirRecord.key).Nodup → ∀ x, x ≠ k → dirLoc q.ctl.directory x = dirLoc s.ctl.directory x))) ∧
  (∀ (s : State) (r : KeyRow), s.ctl.keyTable.getLast? = some r →
    let c := (openForLoading s).ctl
    (s.ctl.sectorState r.sector ≠ .filling → c.openSector = none) ∧
    (s.ctl.sectorState r.sector = .filling →
      c.openSector = some (r.sector, (fillPoint r.sector (4096 - r.slots) 2048 16 s).2)) ∧
    (r.slots = 0 → c.lastKey = .justBefore r.firstKey) ∧
    (∀ u w k m, r.slots ≠ 0 → probeSlot r.sector (r.slots - 1) 1 s = (u, .key w k m) →
      c.lastKey = if m.damaged then .untrusted else .key k) ∧
    ∀ u m, r.slots ≠ 0 → probeSlot r.sector (r.slots - 1) 1 s = (u, .broken m) → c.lastKey = .untrusted) ∧
  ∀ (n bound fuel w : Nat) (s : State),
    (bound ≤ w ∨ isBlankHeader (wordAt s n w) = true → fillPoint n bound (fuel + 1) w s = (s, w)) ∧
    (w < bound → isBlankHeader (wordAt s n w) = false →
      (expectedClass (headerFits w) (wordAt s n w) = .uncorrectable → (fillPoint n bound (fuel + 1) w s).2 = 4096) ∧
      (expectedClass (headerFits w) (wordAt s n w) ≠ .uncorrectable →
        ∃ q, StoreSide s q ∧ q.store = s.store ∧ fillPoint n bound (fuel + 1) w s =
          fillPoint n bound fuel (w + (entryFields (wordAt s n w).bits).size) q))

/-! ## The carrier side of the Link -/

/-- R132, R136, R137, R139, R143, R148, R160, R163 to R165: a beacon taken sets Link time, becomes the latest beacon, begins
its round, and lists the stations of its plan. PEN-CHANGE is raised where it names another holder than the latest beacon
before it did, NONE included (a missing one counts as NONE, log 23), LINK-STATE where the station joins or leaves with it. At
a station that does not hold the pen and is not named holder, a beacon of the followed session and epoch changes the pen side
by the void pass and none-since alone; one that names a new epoch, of another number or under another holder, has it adopted,
the items of other epochs removed from the reorder list, and a record that passed the epoch's start position is cut to it.
That nothing counts as sent in an epoch just adopted is the model's (log 24). -/
def Obligations.BeaconIsTaken : Prop :=
  (∀ (c1 c2 : RxCell) (b : Beacon) (s : State), takesBeacon c1 c2 b s → s.link.roster.length = 8 →
    ∃ t, exec (.beaconReceived c1 c2) s = .next t ∧ t.clock = { linkTime := b.time, synced := true } ∧
      t.link.latest = some b ∧ t.link.role = .following ∧ t.link.quiet = some 20 ∧ t.link.backoff = .stopped ∧
      t.link.phase = .beacon ∧ t.link.heard = [] ∧ t.link.joiner = none ∧ t.link.sending = none ∧ t.link.rx = .beacon ∧
      t.link.busy = true ∧
      t.link.mode = (if inPlan b.plan s.straps.station then .joined else .listen) ∧
      t.att.raised.getLsbD 3 = (s.att.raised.getLsbD 3 ||
        (! s.att.isMasked .penChange && decide (s.link.latest.bind Beacon.holder ≠ b.holder))) ∧
      t.att.raised.getLsbD 5 = (s.att.raised.getLsbD 5 ||
        (! s.att.isMasked .linkState && decide (s.link.mode ≠ t.link.mode))) ∧
      (∀ n : Station, ∃ e, t.link.roster[n.val]? = some e ∧ e.listed = inPlan b.plan n ∧
        (inPlan b.plan n = false → e.role = none)) ∧
      t.store = s.store ∧ t.ctl = s.ctl ∧ t.cache = s.cache ∧ t.port = s.port ∧ t.scanner = s.scanner ∧
      t.buttons = s.buttons ∧ t.settings = s.settings ∧ t.start = s.start) ∧
  ∀ (c1 c2 : RxCell) (b : Beacon) (s : State), takesBeacon c1 c2 b s → b.session ≠ 0 → b.session = s.pen.session →
    b.holder ≠ some s.straps.station → (∀ p, s.pen.state = some p → holdsPen p = false) →
    let since := if b.holder = none then some (s.pen.noneSince.getD b.time) else none
    (b.holder = none ∨ (b.epoch = s.pen.epoch ∧ b.holder = s.pen.holder) →
      ∃ t, exec (.beaconReceived c1 c2) s = .next t ∧
        t.pen = { s.pen with
          noneSince := since
          passPending := match s.pen.passPending with
            | some p => if b.epoch = s.pen.epoch ∧ inPlan b.plan p.target = false then none else some p
            | none => none } ∧
        t.record = s.record ∧ t.journal = s.journal ∧ t.trans = s.trans ∧ t.composer = s.composer) ∧
    (b.holder ≠ none → b.epoch ≠ s.pen.epoch ∨ b.holder ≠ s.pen.holder →
      (b.epoch ≠ s.pen.epoch → ∀ i ∈ s.pen.reorder, i.rsn < b.startRsn ∨ i.epoch ≠ b.epoch) →
      ∃ t, exec (.beaconReceived c1 c2) s = .next t ∧
        t.pen = { s.pen with
          applied := b.startRsn - 1, reorder := [], log := s.pen.log.filter (fun i => decide (i.rsn < b.startRsn))
          passPending := none, lastStroke := b.cut, epoch := b.epoch, holder := b.holder, startRsn := b.startRsn
          startPos := b.startPos, cut := b.cut, sentRsn := 0, noneSince := none } ∧
        t.record.lines = (if posLt b.startPos s.record.endPos = true then applyBody s.record.lines (.cut b.startPos) b.epoch
                          else s.record.lines) ∧
        t.record.marks = s.record.marks ∧ t.journal = s.journal ∧ t.trans = s.trans ∧ t.composer = s.composer)

/-- R134, R136, R138, R141, R151, R204: a beacon that cannot be taken, one that names this station, which goes to DUPLICATE
and raises LINK-STATE, and one of a higher number met by a timekeeper. A cell discarded, as a beacon or a header in the middle
of a transmission is, is heard and counts against the window it stands in; so do the cells of an item that cannot be taken or
pass the budget, and the item does nothing. The corrected words of discarded cells still count for their sender: the window's
owner, or the timekeeper that a beacon's first cell names, as it does where some second cell would complete the beacon; for no
other is a sender known (log 19). -/
def Obligations.BeaconOrCellNotTaken : Prop :=
  ((∀ (c1 c2 : RxCell) (s : State), receives s = true → s.link.rx = .idle → beaconIn c1 c2 = none →
    let lost (r : List RosterEntry) : Prop := exec (.beaconReceived c1 c2) s =
      .next (refreshScreen { s with link := { s.link with busy := true, rx := .unknown, roster := r } })
    (∀ c b, beaconIn c1 c = some b → lost (rosterCounted b.timekeeper [c1, c2] s)) ∧
    ((∀ c, beaconIn c1 c = none) → lost s.link.roster)) ∧
  (∀ (c1 c2 : RxCell) (b : Beacon) (s : State), receives s = true → s.link.rx = .idle → beaconIn c1 c2 = some b →
    b.timekeeper = s.straps.station →
    ∃ t, exec (.beaconReceived c1 c2) s = .next t ∧ t.link.mode = .duplicate ∧ t.link.role = .following ∧
      t.link.quiet = none ∧ t.link.backoff = .stopped ∧ t.link.sending = none ∧ t.clock = s.clock ∧
      (s.att.isMasked .linkState = false → t.att.raised.getLsbD 5 = true)) ∧
  ∀ (c1 c2 : RxCell) (b : Beacon) (s : State), receives s = true → s.link.rx = .idle → beaconIn c1 c2 = some b →
    s.link.role = .timekeeper → s.straps.station.val < b.timekeeper.val →
    exec (.beaconReceived c1 c2) s = .next (refreshScreen { s with link :=
      { s.link with busy := true, rx := .beacon, roster := rosterCounted b.timekeeper [c1, c2] s } })) ∧
  (∀ (c : Instr) (cells : List RxCell) (good : Bool) (s : State), itemCells c = some (cells, good) → receives s = true →
    (∀ h n, s.link.rx = .window h n →
      good = false ∨ cells.all cellUsable = false ∨ budgetOf h s < n + cells.length →
      exec c s = .next (refreshScreen { s with link :=
        { s.link with busy := true, rx := .window h (n + cells.length), roster := rosterCounted h.station cells s } })) ∧
    ((∀ h n, s.link.rx ≠ .window h n) →
      exec c s = .next (refreshScreen { s with link := { s.link with busy := true, rx := .unknown } }))) ∧
  (∀ s : State, receives s = true →
    (∀ h n, s.link.rx = .window h n →
      exec .cellDiscarded s = .next { s with link := { s.link with busy := true, rx := .window h (n + 1) } } ∧
      (∀ c, exec (.headerReceived c) s =
        .next (refreshScreen { s with link :=
          { s.link with busy := true, rx := .window h (n + 1), roster := rosterCounted h.station [c] s } })) ∧
      ∀ c1 c2, exec (.beaconReceived c1 c2) s =
        .next (refreshScreen { s with link := { s.link with busy := true, rx := .window h (n + 2) } })) ∧
    ((∀ h n, s.link.rx ≠ .window h n) →
      exec .cellDiscarded s = .next { s with link := { s.link with busy := true, rx := .unknown } }) ∧
    ((∀ h n, s.link.rx ≠ .window h n) → s.link.rx ≠ .idle →
      (∀ c, exec (.headerReceived c) s =
        .next (refreshScreen { s with link := { s.link with busy := true, rx := .unknown } })) ∧
      ∀ c1 c2, exec (.beaconReceived c1 c2) s =
        .next (refreshScreen { s with link := { s.link with busy := true, rx := .unknown } })))

/-- R134, R139, R142, R145, R146, R158: a header taken becomes the sender's latest header with the round of the latest beacon
(log 92), sets its silent count to 0 and counts its corrected words. While a round goes on, a header of a listed station moves
the window count to its window, the later windows following in plan order; before a beacon is taken and after a round it moves
none (log 21). One of a station not listed leaves the count, and in the join slot of its own number is recorded as the joiner.
A listed requester's PEN-REQ takes a holder from HOLDING to RELEASING. R136, R138: a header of the station's own number taken
in LISTEN sends it to DUPLICATE, where it drives nothing and keeps its journal, record and store, and LINK-STATE is raised; in
JOINED it is not taken, which is the model's (log 18). -/
def Obligations.HeaderIsTaken : Prop :=
  (∀ (c : RxCell) (h : Header) (s : State), receives s = true → s.link.rx = .idle → headerIn c = some h →
    h.station = s.straps.station →
    (s.link.mode = .joined →
      exec (.headerReceived c) s = .next (refreshScreen { s with link := { s.link with busy := true, rx := .unknown } })) ∧
    (s.link.mode = .listen →
      ∃ t, exec (.headerReceived c) s = .next t ∧
        t.link = { s.link with
          mode := .duplicate, role := .following, quiet := none, backoff := .stopped, wasTimekeeper := false
          phase := .none, rx := .idle, busy := false, sending := none } ∧
        t.att.raised.getLsbD 5 = (s.att.raised.getLsbD 5 || ! s.att.isMasked .linkState) ∧
        t.journal = s.journal ∧ t.store = s.store ∧ t.ctl = s.ctl ∧ t.clock = s.clock ∧ t.cache = s.cache ∧
        t.port = s.port ∧ t.record = s.record ∧
        (∀ p, s.pen.state = some p → holdsPen p = true → t.pen.state = some .shadow ∧ t.pen.outbound = []) ∧
        ((∀ p, s.pen.state = some p → holdsPen p = false) → t.pen = s.pen ∧ t.trans = s.trans ∧ t.composer = s.composer))) ∧
  ∀ (c : RxCell) (h : Header) (s : State), receives s = true → s.link.rx = .idle → headerIn c = some h →
    h.station ≠ s.straps.station →
    s.link.roster.length = 8 →
    ∃ t, exec (.headerReceived c) s = .next t ∧
      (∀ e, s.link.roster[h.station.val]? = some e → t.link.roster[h.station.val]? = some
        { e with header := some h, silent := 0, corrected := min (e.corrected + corrections [c]) 255
                 round := match s.link.latest with
                   | some b => b.round
                   | none => e.round }) ∧
      (∀ i : Nat, i ≠ h.station.val → t.link.roster[i]? = s.link.roster[i]?) ∧
      (∀ b before after, s.link.latest = some b → b.plan.map Prod.fst = before ++ h.station :: after → h.station ∉ before →
        t.link.joiner = s.link.joiner ∧
        t.link.phase = (if s.link.phase = .none ∨ s.link.phase = .ended then s.link.phase
                        else .window (h.station :: after))) ∧
      ((∀ b, s.link.latest = some b → inPlan b.plan h.station = false) → t.link.phase = s.link.phase) ∧
      (∀ b, s.link.latest = some b → inPlan b.plan h.station = false →
        t.link.joiner = (if s.link.phase = .joinSlot ∧ h.station.val = b.round.toNat % 8 then some (h.station, h.role)
                         else s.link.joiner)) ∧
      (s.link.latest = none → t.link.joiner = s.link.joiner) ∧
      t.link.rx = .window h 0 ∧ t.link.heard = h.station :: s.link.heard ∧ t.link.latest = s.link.latest ∧
      t.link.mode = s.link.mode ∧ t.journal = s.journal ∧ t.store = s.store ∧ t.ctl = s.ctl ∧
      t.port = s.port ∧ t.clock = s.clock ∧ (s.pen.state ≠ some .holding → t.record = s.record) ∧
      (s.pen.state = some .holding → h.request = .penReq → h.role = .writer → h.session = s.pen.session →
        inPlan (planOf s) h.station = true → s.pen.strokeQuiet < s.settings.handoff * 1000 →
        t.pen = { s.pen with state := some .releasing } ∧ t.trans = s.trans ∧ t.record = s.record)

/-- R134, R160, R171, R172, R185: an item within its window's budget counts its cells, and their corrected words for the
window's owner. It is accepted by a station that follows a session and is no writer in OUTSIDE, when its sender is the holder
of the latest beacon, its epoch that beacon's and the header carries the followed session; any other is discarded, and nothing
else changes. Of the accepted ones the next in RSN order is applied to the record and logged, and after it, in order, the
items of the reorder list that follow it without a gap; what is left of the list stays; the Screen Controller acts on each
applied item in turn (what one item does to the view is said below, of `applyToRecord`). One already applied is discarded. A
later one waits in the reorder list, in RSN order; one whose RSN is in the list, or that finds the list full, is discarded. -/
def Obligations.StreamItemIsApplied : Prop :=
  ∀ (c : Instr) (cells : List RxCell) (i : Item) (h : Header) (n : Nat) (s : State),
    ((∃ a b, c = .appendReceived a b ∧ cells = [a, b] ∧ decodeAppend (cellValue a) (cellValue b) = some i) ∨
      (∃ a, c = .breakReceived a ∧ cells = [a] ∧ decodeBreak (cellValue a) = some i) ∨
      (∃ a, c = .cutReceived a ∧ cells = [a] ∧ decodeCut (cellValue a) = some i) ∨
      (∃ a, c = .passReceived a ∧ cells = [a] ∧ decodePass (cellValue a) = some i)) →
    receives s = true → s.link.rx = .window h n → cells.all cellUsable = true → n + cells.length ≤ budgetOf h s →
    (¬ itemAccepted h i.epoch s → exec c s = .next (refreshScreen { s with link := { s.link with
      busy := true, rx := .window h (n + cells.length), roster := rosterCounted h.station cells s } })) ∧
    (itemAccepted h i.epoch s →
    ∃ t, exec c s = .next t ∧
      t.link = { s.link with
        busy := true, rx := .window h (n + cells.length), roster := rosterCounted h.station cells s } ∧
      t.journal = s.journal ∧ t.trans = s.trans ∧ t.composer = s.composer ∧ t.store = s.store ∧ t.ctl = s.ctl ∧ t.cache = s.cache ∧ t.port = s.port ∧
      t.clock = s.clock ∧ t.record.marks = s.record.marks ∧
      (∀ run rest, i.rsn = s.pen.applied + 1 → s.pen.reorder = run ++ rest →
        (∀ (m : Nat) (j : Item), run[m]? = some j → j.rsn = i.rsn + 1 + m) →
        (∀ j, rest.head? = some j → j.rsn ≠ i.rsn + 1 + run.length) →
        t.record.lines = (i :: run).foldl (fun ls j => applyBody ls j.body j.epoch) s.record.lines ∧
        (∃ d, t.screen = { ((i :: run).foldl (fun x j =>
            let ls := applyBody x.1 j.body j.epoch
            (ls, x.2.afterRecord (oldestRln ls) (lastLine ls).rln (opensLine x.1 j.body))) (s.record.lines, s.screen)).2 with
          dirty := d }) ∧
        t.pen = { s.pen with
          applied := i.rsn + run.length, reorder := rest, lastStroke := ((i :: run).getLastD i).time
          log := keepLast 256 (s.pen.log ++ i :: run)
          passPending := (i :: run).foldl (fun p j => match j.body with
            | .pass target stop => some { target := target, rsn := j.rsn, recordEnd := stop, cut := j.time }
            | _ => p) s.pen.passPending }) ∧
      (i.rsn ≤ s.pen.applied → t.record = s.record ∧ t.pen = s.pen) ∧
      (s.pen.applied + 1 < i.rsn → t.record = s.record ∧
        (16 ≤ s.pen.reorder.length → t.pen = s.pen) ∧
        (s.pen.reorder.length < 16 →
          (∀ below above, s.pen.reorder = below ++ above → (∀ j ∈ below, j.rsn < i.rsn) → (∀ j ∈ above, i.rsn < j.rsn) →
            t.pen = { s.pen with reorder := below ++ i :: above }) ∧
          ∀ below j above, s.pen.reorder = below ++ j :: above → (∀ x ∈ below, x.rsn < i.rsn) → j.rsn = i.rsn →
            t.pen = s.pen)))

/-- R171, R172, R175, R189: an accepted GAP that takes in the next RSN counts applied-through up to its last RSN, drops the
items of the reorder list up to there, and applies those that follow it without a gap; where none follows, the record and the
last stroke time are kept. Another GAP changes nothing. A GAP is accepted as an item is. An accepted MARK flags the held lines
it names and joins the marks list, and a writer raises MARK-ARRIVED. A MARK is accepted by a station that follows a session
and is no writer in OUTSIDE, when the latest beacon lists its sender and the header carries the followed session. One that is
not accepted is discarded: its cell counts against the window, and nothing else changes. -/
def Obligations.GapAndMarkAreTaken : Prop :=
  (∀ (a : RxCell) (g : GapItem) (h : Header) (n : Nat) (s : State), receives s = true → s.link.rx = .window h n →
    cellUsable a = true → n + 1 ≤ budgetOf h s → decodeGap (cellValue a) = some g →
    (¬ itemAccepted h g.epoch s → exec (.gapReceived a) s = .next (refreshScreen { s with link := { s.link with
      busy := true, rx := .window h (n + 1), roster := rosterCounted h.station [a] s } })) ∧
    (itemAccepted h g.epoch s →
    ∃ t, exec (.gapReceived a) s = .next t ∧
      (∀ low run rest, g.first ≤ s.pen.applied + 1 → s.pen.applied + 1 ≤ g.last → s.pen.reorder = low ++ run ++ rest →
        (∀ j ∈ low, j.rsn ≤ g.last) → (∀ (m : Nat) (j : Item), run[m]? = some j → j.rsn = g.last + 1 + m) →
        (∀ j ∈ rest, g.last < j.rsn) → (∀ j, rest.head? = some j → j.rsn ≠ g.last + 1 + run.length) →
        t.record.lines = run.foldl (fun ls j => applyBody ls j.body j.epoch) s.record.lines ∧
        t.record.marks = s.record.marks ∧
        t.pen = { s.pen with
          applied := g.last + run.length, reorder := rest
          lastStroke := match run.getLast? with
            | some j => j.time
            | none => s.pen.lastStroke
          log := if run = [] then s.pen.log else keepLast 256 (s.pen.log ++ run)
          passPending := run.foldl (fun p j => match j.body with
            | .pass target stop => some { target := target, rsn := j.rsn, recordEnd := stop, cut := j.time }
            | _ => p) s.pen.passPending }) ∧
      (g.last ≤ s.pen.applied ∨ s.pen.applied + 1 < g.first → t.pen = s.pen ∧ t.record = s.record) ∧
      t.journal = s.journal ∧ t.trans = s.trans ∧ t.store = s.store ∧ t.ctl = s.ctl)) ∧
  (∀ (a : RxCell) (m : MarkItem) (h : Header) (n : Nat) (s : State), receives s = true → s.link.rx = .window h n →
    cellUsable a = true → n + 1 ≤ budgetOf h s → decodeMark (cellValue a) = some m →
    (¬ markAccepted h s → exec (.markReceived a) s = .next (refreshScreen { s with link := { s.link with
      busy := true, rx := .window h (n + 1), roster := rosterCounted h.station [a] s } })) ∧
    (markAccepted h s →
    ∃ t, exec (.markReceived a) s = .next t ∧
      t.record.lines = s.record.lines.map (fun l => if m.first ≤ l.rln ∧ l.rln ≤ m.last then { l with marked := true } else l) ∧
      t.record.marks = keepLast 16 (s.record.marks ++ [{ origin := m.origin, id := m.id, first := m.first, last := m.last, time := s.clock.linkTime, flagged := (s.record.lines.filter (fun l => decide (m.first ≤ l.rln) && decide (l.rln ≤ m.last))).length }]) ∧
      t.att = (if s.straps.role = .writer then s.att.raise .markArrived else s.att) ∧
      t.pen = s.pen ∧ t.trans = s.trans ∧ t.journal = s.journal ∧ t.store = s.store ∧ t.ctl = s.ctl))

/-- R133 to R135, R138, R150: a collision in the join slot sends the station to DUPLICATE; in its window it ends the sending,
and nothing leaves its queue; on its beacon it enters BACKOFF and waits for the pair to be idle. After a collision in the
window or on the beacon the pair counts as busy, and what it carries until the absent gap belongs to no known transmission:
that is the model's (log 16). A header or a beacon heard then is discarded. -/
def Obligations.CollisionEndsTheSending : Prop :=
  ∀ (onHeader : Bool) (s : State),
    (∀ d, s.link.sending = some d → d.join = true →
      ∃ t, exec (.collision onHeader) s = .next t ∧ t.link.mode = .duplicate ∧ t.link.sending = none ∧
        t.link.role = .following ∧ t.link.quiet = none ∧ t.link.backoff = .stopped) ∧
    (∀ d, s.link.sending = some d → d.join = false →
      ∃ t, exec (.collision onHeader) s = .next t ∧ t.link.sending = none ∧ t.link.mode = s.link.mode ∧ t.pen = s.pen ∧
        t.record = s.record ∧ t.trans = s.trans ∧ t.link.busy = true ∧ t.link.rx = .unknown ∧
        (hears s = true →
          (∀ c, exec (.headerReceived c) t = .next (refreshScreen t)) ∧
          ∀ c1 c2, exec (.beaconReceived c1 c2) t = .next (refreshScreen t))) ∧
    (s.link.sending = none → (beaconDue s || backoffDue s) = true →
      exec (.collision onHeader) s = .next (refreshScreen { s with link := { s.link with
        wasTimekeeper := s.link.wasTimekeeper || decide (s.link.role = .timekeeper), role := .backoff, quiet := none
        backoff := .awaitIdle, busy := true, rx := .unknown } }))

/-- R135, R170, R174, R189: a unit of the own window counted sent: an outbound item leaves its queue, a MARK is applied to
the own record. -/
def Obligations.SentUnitLeavesItsQueue : Prop :=
  (∀ (s : State) (d : Sending) (i : Item) (rest : List Item), s.link.sending = some d → d.current = some (.item i) →
    s.pen.outbound = i :: rest →
    ∃ t, exec .itemSent s = .next t ∧ t.pen = { s.pen with outbound := rest, sentRsn := i.rsn } ∧ t.record = s.record ∧
      t.trans = s.trans ∧ t.journal = s.journal ∧ (∃ d', t.link.sending = some d' ∧ d'.header = d.header)) ∧
  (∀ (s : State) (d : Sending) (m : MarkItem) (rest : List MarkItem), s.link.sending = some d → d.current = some (.mark m) →
    s.pen.markQueue = m :: rest →
    ∃ t, exec .itemSent s = .next t ∧ t.pen = { s.pen with markQueue := rest } ∧
      t.record = s.record.applyMark m s.clock.linkTime ∧ t.trans = s.trans ∧ t.journal = s.journal) ∧
  ∀ (s : State) (d : Sending) (i : Item), s.link.sending = some d → d.current = some (.resend i) →
    ∃ t, exec .itemSent s = .next t ∧ t.pen = s.pen ∧ t.record = s.record ∧ t.trans = s.trans

/-- R133, R139, R140, R145, R146, R147, R168, R170, R174, R37, R38, R130: the absent gap moves the round on: the next window, the
join slot after the last window, the end of the round after the join slot. A JOINED station begins its window with its
header; the holder's resends are chosen then, from the lowest need shown: the logged items from it on, each whole, within 8
cells and up to the newest one counted sent, or a GAP up to the next logged RSN and the items from there. Any other station
has no resends. A CATCHING-UP writer catches up first: what it lacks counts as applied, its record is filled to the epoch's
start position, and it is HOLDING, replays and publishes; the header it sends shows it. A LISTEN station that has taken two
beacons sends its join header in the join slot of its own number, and every other station leaves the slot empty. At the end
of the round a listed station that was heard has the silent count 0, and one that was not has one more, up to 4. -/
def Obligations.AbsentGapMovesTheRoundOn : Prop :=
  ∀ s : State, hears s = true → inFlight s = false →
    let follow (left : List Station) : Prop :=
      (s.link.phase = .beacon ∧ left = (planOf s).map Prod.fst) ∨ ∃ n, s.link.phase = .window (n :: left)
    let holder : Prop := ∃ b, s.link.latest = some b ∧ b.holder = some s.straps.station
    let asked (k : Nat) : Prop :=
      ∃ e ∈ planOf s, e.1 ≠ s.straps.station ∧ ∃ h, headerOf s e.1 = some h ∧ h.session = s.pen.session ∧
        h.epoch = s.pen.epoch ∧ h.need = k ∧ s.pen.startRsn ≤ k ∧ k ≤ s.pen.sentRsn
    let run (first room : Nat) (items : List Item) : Prop :=
      items.map Item.rsn = List.range' first items.length ∧
      (∀ i ∈ items, logAt s.pen i.rsn = some i ∧ i.rsn ≤ s.pen.sentRsn) ∧ (items.map Item.cells).sum ≤ room ∧
      (first + items.length ≤ s.pen.sentRsn → ∀ i, logAt s.pen (first + items.length) = some i →
        room < (items.map Item.cells).sum + i.cells)
    (∀ m l, follow (m :: l) → m ≠ s.straps.station →
      ∃ t, exec .absentGapExpiry s = .next t ∧ t.link.phase = .window (m :: l) ∧ t.link.busy = false ∧ t.link.rx = .idle ∧
        t.link.sending = none ∧ t.pen = s.pen ∧ t.record = s.record) ∧
    (∀ l, follow (s.straps.station :: l) → s.link.mode = .listen →
      ∃ t, exec .absentGapExpiry s = .next t ∧ t.link.phase = .window (s.straps.station :: l) ∧ t.link.sending = none) ∧
    (∀ l, follow (s.straps.station :: l) → s.link.mode = .joined → s.pen.state ≠ some .catchingUp →
      ∃ t d, exec .absentGapExpiry s = .next t ∧ t.link.phase = .window (s.straps.station :: l) ∧
        t.link.sending = some d ∧ d.join = false ∧ d.header.station = s.straps.station ∧ d.header.applied = s.pen.applied ∧
        d.header.session = s.pen.session ∧ t.pen = s.pen ∧ t.record = s.record ∧
        (¬ holder → d.resends = [] ∧ ∀ u, d.current = some u → ∃ m, u = .mark m) ∧
        (holder → (∀ k, ¬ asked k) →
          d.resends = [] ∧ ∀ u, d.current = some u → (∃ m, u = .mark m) ∨ ∃ i, u = .item i) ∧
        (∀ n, holder → asked n → (∀ k, asked k → n ≤ k) →
          (∀ i, logAt s.pen n = some i →
            ∃ items, items ≠ [] ∧ run n 8 items ∧ d.current.toList ++ d.resends = items.map TxUnit.resend) ∧
          (∀ m, logAt s.pen n = none → n < m → (∃ i ∈ s.pen.log, i.rsn = m) → (∀ i ∈ s.pen.log, n < i.rsn → m ≤ i.rsn) →
            ∃ items, run m 7 items ∧
              d.current = some (.gap { first := n, last := m - 1, epoch := s.pen.epoch }) ∧
              d.resends = items.map TxUnit.resend))) ∧
    (∀ l cut, follow (s.straps.station :: l) → s.link.mode = .joined →
      s.pen.state = some .catchingUp → s.pen.closing = false → s.trans.mode = .catchingUp → s.trans.grant = some cut →
      ∃ t d, exec .absentGapExpiry s = .next t ∧ t.link.sending = some d ∧ d.join = false ∧
        d.header.applied = max s.pen.applied (s.pen.startRsn - 1) ∧ d.header.recordEnd = t.record.endPos ∧
        t.pen = { s.pen with state := some .holding, applied := max s.pen.applied (s.pen.startRsn - 1) } ∧
        t.record.lines = fillTo s.record.lines s.pen.startPos s.pen.epoch ∧ t.record.marks = s.record.marks ∧
        (s.record.lines ≠ [] → posLt s.record.endPos s.pen.startPos = true → t.record.endPos = s.pen.startPos) ∧
        t.journal = { s.journal with readPoint :=
          match s.journal.strokes.find? (fun k => ! k.unsynced && decide (cut.toNat < k.downTime.toNat)) with
          | some k => k.sn
          | none => s.journal.nextSn } ∧
        t.trans.mode = .ready ∧ t.trans.grant = none ∧
        t.trans.replayEnd = (if t.journal.readPoint < s.journal.nextSn then some s.journal.nextSn else none) ∧
        t.composer = s.composer.publishing t.record.lines s.pen.epoch) ∧
    (follow [] →
      ∃ t, exec .absentGapExpiry s = .next t ∧ t.link.phase = .joinSlot ∧ t.link.busy = false ∧ t.pen = s.pen ∧
        let joins : Prop := s.link.mode = .listen ∧ s.link.listenCount = 2 ∧
          ∃ b, s.link.latest = some b ∧ b.round.toNat % 8 = s.straps.station.val
        (joins → ∃ d, t.link.sending = some d ∧ d.join = true ∧ d.current = none ∧ d.resends = [] ∧
          d.header.station = s.straps.station ∧ d.header.role = s.straps.role ∧ d.header.joined = false) ∧
        (¬ joins → t.link.sending = none)) ∧
    (s.link.phase = .joinSlot →
      ∃ t, exec .absentGapExpiry s = .next t ∧ t.link.phase = .ended ∧ t.link.busy = false ∧ t.link.sending = none ∧
        t.pen = s.pen ∧
        (∀ (n : Station) (e : RosterEntry), n ≠ s.straps.station → s.link.roster[n.val]? = some e →
          t.link.roster[n.val]? = some
            (if inPlan (planOf s) n = false then e
             else if n ∈ s.link.heard then { e with silent := 0 } else { e with silent := min (e.silent + 1) 4 })) ∧
        ∀ e, s.link.roster[s.straps.station.val]? = some e →
          ∃ e', t.link.roster[s.straps.station.val]? = some e' ∧ e'.silent = e.silent)

/-- R144, R148, R149, R155, R161, R162, R163: a beacon sent when it is due, or when the backoff has expired on an idle pair:
the station is TIMEKEEPER, its beacon the latest one, one round on, with itself as timekeeper and in the plan, at its own
Link time. Composed after the beacon it sent or took before as TIMEKEEPER, it lists the stations heard of late and the
joiner, opens a session for the first listed writer
that asks, closes the session its holder asks to close, grants a pass that its target shows applied, turns to NONE when the
holder leaves the plan, and under NONE grants the pen to the first writer that asks, or after a second to the writer with
the latest last stroke time; otherwise session and pen fields stay. A pass whose target leaves the plan is no longer
pending. A first beacon keeps the fields of the latest one. That a header must show the followed session and epoch, the
plain comparison of times and start RSN 16,777,216 are the model's (log 22, log 66, log 67). The quiet timer's expiry starts
the backoff, 4,000 bit times and 2,000 more for each unit of the station number. While the pair carries a transmission, the
station's own window included, neither beacon is sent. -/
def Obligations.TimekeeperElectionAndBeacon : Prop :=
  (∀ (c : Instr) (s : State), (c = .beaconDue ∧ beaconDue s = true) ∨ (c = .backoffExpiry ∧ backoffDue s = true) →
    ∃ t b, exec c s = .next t ∧ t.link.latest = some b ∧ t.link.role = .timekeeper ∧ t.link.sinceBeacon = 0 ∧
      t.link.phase = .beacon ∧ t.link.quiet = none ∧ t.link.backoff = .stopped ∧ b.timekeeper = s.straps.station ∧
      b.time = s.clock.linkTime ∧ inPlan b.plan s.straps.station = true ∧
      b.round = (match s.link.latest with | some p => p.round + 1 | none => 0) ∧
      t.clock = { linkTime := s.clock.linkTime, synced := true } ∧ t.link.mode = .joined ∧ t.store = s.store ∧
      t.ctl = s.ctl ∧ t.port = s.port) ∧
  (∀ (c : Instr) (s : State) (p : Beacon), s.link.latest = some p →
    (c = .beaconDue ∧ beaconDue s = true) ∨ (c = .backoffExpiry ∧ backoffDue s = true ∧ s.link.wasTimekeeper = true) →
    ∃ t b, exec c s = .next t ∧ t.link.latest = some b ∧
      let opens (n : Station) : Prop := inPlan p.plan n = true ∧ ∃ h, headerOf s n = some h ∧ h.request = .openReq
      let shows (h : Header) : Prop := s.pen.session ≠ 0 ∧ h.session = s.pen.session ∧ h.epoch = s.pen.epoch
      let cand (e : Station × Role) (h : Header) : Prop :=
        e.2 = .writer ∧ headerOf s e.1 = some h ∧ h.joined = true ∧ shows h
      let grants (n : Station) (rsn : Nat) (pos : Pos) (cut : LinkTime) : Prop :=
        b.session = p.session ∧ b.holder = some n ∧ b.epoch = (if p.epoch = 65535#16 then 1#16 else p.epoch + 1#16) ∧
          b.startRsn = rsn ∧ b.startPos = pos ∧ b.cut = cut
      let stays (holder : Option Station) : Prop :=
        b.session = p.session ∧ b.holder = holder ∧ b.epoch = p.epoch ∧ b.startRsn = p.startRsn ∧
          b.startPos = p.startPos ∧ b.cut = p.cut
      (∀ n : Station, n ≠ s.straps.station → inPlan b.plan n =
        if inPlan p.plan n = true then decide ((s.link.roster.getD n.val RosterEntry.reset).silent < 4)
        else match s.link.joiner with
          | some (m, _) => decide (m = n)
          | none => false) ∧
      (p.session = 0 →
        (∀ n before after, b.plan = before ++ (n, .writer) :: after → opens n →
          (∀ e ∈ before, e.2 = .writer → ¬ opens e.1) →
          b.session = (if p.round = 0 then 1 else p.round) ∧ b.holder = some n ∧ b.epoch = 1 ∧ b.startRsn = 1 ∧
            b.startPos = { rln := 0, col := 0 } ∧ b.cut = 0) ∧
        ((∀ e ∈ b.plan, e.2 = .writer → ¬ opens e.1) → b.session = 0 ∧ b.holder = none)) ∧
      (∀ n, p.session ≠ 0 → p.holder = some n →
        let closes : Prop := inPlan b.plan n = true ∧ ∃ h, headerOf s n = some h ∧ h.request = .closeReq
        let granted (q : PassPending) : Prop :=
          inPlan b.plan q.target = true ∧ ∃ h, headerOf s q.target = some h ∧ shows h ∧ q.rsn ≤ h.applied
        (closes → b.session = 0 ∧ b.holder = none) ∧
        (∀ q, ¬ closes → s.pen.passPending = some q → granted q → grants q.target (q.rsn + 1) q.recordEnd q.cut) ∧
        (¬ closes → (∀ q, s.pen.passPending = some q → ¬ granted q) →
          stays (if inPlan b.plan n = true then some n else none)) ∧
        (∀ q, ¬ closes → s.pen.passPending = some q → inPlan b.plan q.target = false → t.pen.passPending = none)) ∧
      (p.session ≠ 0 → p.holder = none →
        (∀ n h before after, b.plan = before ++ (n, .writer) :: after → cand (n, .writer) h → h.request = .penReq →
          (∀ e ∈ before, ∀ g, cand e g → g.request ≠ .penReq) →
          grants n (h.applied + 1) h.recordEnd h.lastStroke) ∧
        ((∀ e ∈ b.plan, ∀ g, cand e g → g.request ≠ .penReq) →
          (∀ n h before after, b.plan = before ++ (n, .writer) :: after → cand (n, .writer) h →
            (∃ u, s.pen.noneSince = some u ∧ u.toNat + 1000 ≤ s.clock.linkTime.toNat) →
            (∀ e ∈ before, ∀ g, cand e g → g.lastStroke.toNat < h.lastStroke.toNat) →
            (∀ e ∈ after, ∀ g, cand e g → g.lastStroke.toNat ≤ h.lastStroke.toNat) →
            grants n (h.applied + 1) h.recordEnd h.lastStroke) ∧
          ((∀ u, s.pen.noneSince = some u → s.clock.linkTime.toNat < u.toNat + 1000) ∨ (∀ e ∈ b.plan, ∀ g, ¬ cand e g) →
            stays none)))) ∧
  (∀ s : State, backoffDue s = true → s.link.wasTimekeeper = false →
    ∃ t b, exec .backoffExpiry s = .next t ∧ t.link.latest = some b ∧
      (∀ p, s.link.latest = some p →
        b.session = p.session ∧ b.epoch = p.epoch ∧ b.startRsn = p.startRsn ∧ b.startPos = p.startPos ∧ b.cut = p.cut ∧
        b.holder = (match p.holder with | some n => if inPlan b.plan n = true then some n else none | none => none)) ∧
      (s.link.latest = none →
        b.session = 0 ∧ b.holder = none ∧ b.epoch = 0 ∧ b.startRsn = 1 ∧ b.startPos = { rln := 0, col := 0 } ∧ b.cut = 0)) ∧
  (∀ s : State, hears s = true → s.link.role = .following → s.link.quiet = some 0 →
    exec .quietTimerExpiry s = .next { s with link := { s.link with
      role := .backoff, quiet := none, wasTimekeeper := false, backoff := .running (4000 + 2000 * s.straps.station.val) } }) ∧
  (∀ s : State, s.link.busy = true ∨ s.link.sending ≠ none →
    exec .beaconDue s = .next s ∧ exec .backoffExpiry s = .next s)

/-! ## The pen -/

/-- R157, R158, R159, R41: what a RELIEF press does in each state. At the handoff quiet time the holder releases its
Translator; with nothing left to release it chooses the first listed writer that asks for the pen (itself left out, log 65).
R40, R130, R166: a beacon of the followed session that no longer names a holding writer takes the pen from it: SHADOW, nothing
left to send, its Translator no longer publishing, and PEN-LOST raised unless the pass it has queued is what the beacon
grants. R167: a HANDING writer still named holder by a beacon whose plan omits its target has the pen again as by a grant at
the pass's cut time. -/
def Obligations.ReliefAndHandoffQuiet : Prop :=
  (∀ s : State, s.buttons.relief.pressed = true →
    let b : Buttons := { s.buttons with relief := { s.buttons.relief with pressed := false } }
    (s.pen.state = some .shadow →
      exec .reliefPress s = .next (refreshScreen { s with buttons := b, pen := { s.pen with state := some .requesting } })) ∧
    (s.pen.state = some .requesting → (∀ p, s.pen.passPending = some p → p.target ≠ s.straps.station) →
      exec .reliefPress s = .next (refreshScreen { s with buttons := b, pen := { s.pen with state := some .shadow } })) ∧
    (s.pen.state = some .requesting → (∃ p, s.pen.passPending = some p ∧ p.target = s.straps.station) →
      exec .reliefPress s = .next (refreshScreen { s with buttons := b })) ∧
    (s.pen.state = some .releasing → s.pen.closing = false → s.trans.forced = .clear → s.trans.mode = .looking →
      exec .reliefPress s = .next (refreshScreen { s with buttons := b, trans := { s.trans with forced := .set } })) ∧
    (s.pen.state = some .outside ∨ s.pen.state = some .holding ∨ s.pen.state = some .handing ∨ s.pen.state = some .catchingUp →
      exec .reliefPress s = .next (refreshScreen { s with buttons := b }))) ∧
  (∀ s : State, s.pen.state = some .releasing → s.pen.closing = false → s.trans.forced = .clear →
    s.settings.handoff * 1000 ≤ s.pen.strokeQuiet →
    (s.trans.mode = .looking →
      exec .handoffQuietReached s = .next (refreshScreen { s with trans := { s.trans with forced := .set } })) ∧
    (s.trans.mode = .ready → s.trans.run = [] → s.trans.retake = [] →
      (∀ n, passTarget s = some n →
        exec .handoffQuietReached s = .next (refreshScreen { s with
          trans := { s.trans with forced := .reported }
          pen := { s.pen with passTo := some (n, s.trans.lastPublished) } })) ∧
      (passTarget s = none →
        exec .handoffQuietReached s = .next (refreshScreen { s with
          pen := { s.pen with state := some .holding, passTo := none } })))) ∧
  (∀ (c1 c2 : RxCell) (b : Beacon) (s : State) (q : PenState), takesBeacon c1 c2 b s → b.session ≠ 0 →
    b.session = s.pen.session → b.holder ≠ some s.straps.station → s.pen.state = some q → holdsPen q = true →
    s.trans.handOver = none →
    let passed : Prop := q = .handing ∧ ∃ p, s.pen.passPending = some p ∧ b.holder = some p.target ∧ b.startRsn = p.rsn + 1
    ∃ t, exec (.beaconReceived c1 c2) s = .next t ∧ t.pen.state = some .shadow ∧ t.pen.outbound = [] ∧
      t.pen.passTo = none ∧ t.journal = s.journal ∧ t.record.marks = s.record.marks ∧
      (q = .handing → t.trans = s.trans ∧ t.composer = s.composer) ∧
      (q ≠ .handing →
        t.trans = { s.trans with
          publishing := false, undo := [], forced := .clear, replayEnd := none, grant := none
          mode := if s.trans.mode = .stalled ∨ s.trans.mode = .catchingUp then .ready else s.trans.mode } ∧
        t.composer = (if s.composer.mode = .publish then { s.composer with mode := .shadow, shadow := [{ num := 0, text := [] }] }
                      else s.composer)) ∧
      (¬ passed → s.att.isMasked .penLost = false → t.att.raised.getLsbD 4 = true) ∧
      (passed → t.att.raised.getLsbD 4 = s.att.raised.getLsbD 4) ∧
      (b.holder = none →
        t.pen = { s.pen with
          state := some .shadow, outbound := [], passTo := none, noneSince := some (s.pen.noneSince.getD b.time)
          passPending := match s.pen.passPending with
            | some p => if b.epoch = s.pen.epoch ∧ inPlan b.plan p.target = false then none else some p
            | none => none } ∧
        t.record = s.record)) ∧
  ∀ (c1 c2 : RxCell) (b : Beacon) (s : State) (p : PassPending), takesBeacon c1 c2 b s → b.session ≠ 0 →
    b.session = s.pen.session → b.epoch = s.pen.epoch → b.holder = some s.straps.station → s.pen.holder = b.holder →
    s.pen.state = some .handing → s.pen.passPending = some p → inPlan b.plan p.target = false → s.trans.mode = .ready →
    ∃ t, exec (.beaconReceived c1 c2) s = .next t ∧
      t.pen = { s.pen with state := some .holding, passPending := none, noneSince := none } ∧ t.record = s.record ∧
      t.journal = { s.journal with readPoint :=
        match s.journal.strokes.find? (fun k => ! k.unsynced && decide (p.cut.toNat < k.downTime.toNat)) with
        | some k => k.sn
        | none => s.journal.nextSn } ∧
      t.trans.mode = .ready ∧ t.trans.publishing = true ∧ t.trans.forced = .clear ∧ t.trans.floorTime = p.cut ∧
      t.trans.run = [] ∧ t.trans.undo = [] ∧ t.trans.retake = [] ∧
      t.trans.replayEnd = (if t.journal.readPoint < s.journal.nextSn then some s.journal.nextSn else none) ∧
      t.composer = s.composer.publishing s.record.lines s.pen.epoch

/-! ## The screen -/

/-- R183, R184: UP and DOWN move the view and start the review idle timer, LIVE and the timer's expiry end REVIEW. -/
def Obligations.ButtonsMoveTheView : Prop :=
  ∀ s : State,
    (s.buttons.up.pressed = true →
      exec .upPress s = .next (refreshScreen { s with
        buttons := { s.buttons with up := { s.buttons.up with pressed := false } }
        screen := { s.screen with
          view := (match s.screen.view with
            | .live => .review (max (s.record.lastRln - lineRows s) s.record.oldest)
            | .review top => .review (if s.record.oldest < top then top - 1 else top))
          idle := some (s.settings.reviewIdle * 1000), markRefused := false } })) ∧
    (s.buttons.down.pressed = true →
      (∀ top, s.screen.view = .review top →
        exec .downPress s = .next (refreshScreen { s with
          buttons := { s.buttons with down := { s.buttons.down with pressed := false } }
          screen := { s.screen with
            view := .review (if top < greatestTop s then top + 1 else top)
            idle := some (s.settings.reviewIdle * 1000), markRefused := false } })) ∧
      (s.screen.view = .live →
        exec .downPress s = .next (refreshScreen { s with
          buttons := { s.buttons with down := { s.buttons.down with pressed := false } }
          screen := { s.screen with markRefused := false } }))) ∧
    (s.buttons.live.pressed = true →
      exec .livePress s = .next (refreshScreen { s with
        buttons := { s.buttons with live := { s.buttons.live with pressed := false } }
        screen := { s.screen with view := .live, idle := none, newText := false, pendingStart := none, markRefused := false } })) ∧
    ∀ top, s.screen.view = .review top → s.screen.idle = some 0 →
      exec .reviewIdleExpiry s = .next (refreshScreen { s with screen := { s.screen with view := .live, idle := none, newText := false } })

/-- R187, R188: MARK starts a mark, ends one by queuing a MARK item under the next mark id, or is refused. -/
def Obligations.MarkStartsEndsOrIsRefused : Prop :=
  ∀ s : State, s.buttons.mark.pressed = true →
    let b : Buttons := { s.buttons with mark := { s.buttons.mark with pressed := false } }
    let line := match s.screen.view with | .live => s.record.lastRln | .review top => top
    let idle := match s.screen.view with | .live => s.screen.idle | .review _ => some (s.settings.reviewIdle * 1000)
    (s.pen.session = 0 →
      exec .markPress s = .next (refreshScreen { s with buttons := b, screen := { s.screen with markRefused := true } })) ∧
    (s.pen.session ≠ 0 → s.screen.pendingStart = none →
      exec .markPress s = .next (refreshScreen { s with buttons := b, screen := { s.screen with pendingStart := some line, markRefused := false, idle := idle } })) ∧
    (∀ p, s.pen.session ≠ 0 → s.screen.pendingStart = some p → s.pen.markQueue.length = 4 →
      exec .markPress s = .next (refreshScreen { s with buttons := b, screen := { s.screen with markRefused := true } })) ∧
    ∀ p, s.pen.session ≠ 0 → s.screen.pendingStart = some p → s.pen.markQueue.length < 4 →
      exec .markPress s = .next (refreshScreen { s with
        buttons := b
        screen := { s.screen with pendingStart := none, markRefused := false, idle := idle }
        pen := { s.pen with
          markQueue := s.pen.markQueue ++ [{ origin := s.straps.station, id := s.pen.markId, first := min p line, last := max p line }]
          markId := s.pen.markId + 1 } })

/-- R178 to R182, R185, R186, R207: a write takes the first row of the dirty-row set with its content as it stands; when it ends
that content is the row's shown content. Every step keeps the set in ascending order, so that the first row is the lowest,
and every step keeps this: from the end of the start scan on, a row that is not in the set shows its content or is being
written with it. When the rows are looked at, each one whose content differs from that joins the set and nothing else
changes. They are looked at after each item of the record: a row that one item changes and the next changes back stays in
the set. An item of the record leaves the view in LIVE as it is. In REVIEW the top RLN stays where its line is held, moves to
the last line where it lay after it, as after a CUT, and to the oldest held line where it lay before it, as after a ring
removal; NEW TEXT is set by a BREAK, by a fill that opens lines and by a CUT before the oldest held line (log 31), and by
nothing else. The content of a row is 80 characters: p:l, text and flags of the record line it shows; the last shadow line in the
bottom row of a writer in SHADOW; spaces where no line is held; the eight fields of the status row in their columns. -/
def Obligations.ScreenRowsAreWritten : Prop :=
  (∀ (s : State) (i : Nat) (l : List Nat), s.start ≠ .storeScan → s.screen.dirty = i :: l → s.screen.writing = none →
    exec .screenWriteStart s = .next { s with screen := { s.screen with dirty := l, writing := some (i, rowContent s i) } } ∧
    (ScreenGood s → i < s.screen.rows ∧ ∀ j ∈ l, i < j)) ∧
  (∀ (s : State) (i : Nat) (t : Text), s.screen.writing = some (i, t) →
    exec .screenWriteDone s = .next { s with screen := { s.screen with shown := s.screen.shown.set i (some t), writing := none } }) ∧
  (∀ s t : State, ScreenGood s → step s = .next t → ScreenGood t) ∧
  (∀ s t : State, ScreenGood s → RowsShown s → step s = .next t → RowsShown t) ∧
  (∀ (s : State) (i : Nat), s.start ≠ .storeScan →
    refreshScreen s = { s with screen := { s.screen with dirty := (refreshScreen s).screen.dirty } } ∧
    (i ∈ (refreshScreen s).screen.dirty ↔ i ∈ s.screen.dirty ∨
      (i < s.screen.rows ∧
        (match s.screen.writing with
         | some (n, t) => if n = i then some t else s.screen.shown.getD i none
         | none => s.screen.shown.getD i none) ≠ some (rowContent s i)))) ∧
  (∀ (s : State) (b c : ItemBody) (e f : Epoch) (i : Nat), s.start ≠ .storeScan → i < s.screen.rows →
    (match s.screen.writing with
     | some (n, t) => if n = i then some t else s.screen.shown.getD i none
     | none => s.screen.shown.getD i none) ≠ some (rowContent (applyToRecord b e s) i) →
    i ∈ (applyToRecord b e s).screen.dirty ∧ i ∈ (applyToRecord c f (applyToRecord b e s)).screen.dirty) ∧
  (∀ (s : State) (b : ItemBody) (e : Epoch),
    let t := applyToRecord b e s
    PenSide s t ∧ t.record = { s.record with lines := applyBody s.record.lines b e } ∧
    (s.screen.view = .live → t.screen = { s.screen with dirty := t.screen.dirty }) ∧
    ∀ top, s.screen.view = .review top →
      ∃ top' opens, t.screen = { s.screen with
          view := .review top', newText := s.screen.newText || opens, dirty := t.screen.dirty } ∧
        (t.record.oldest ≤ top → top ≤ t.record.lastRln → top' = top) ∧
        (t.record.oldest ≤ t.record.lastRln → t.record.lastRln < top → top' = t.record.lastRln) ∧
        (top < t.record.oldest → top' = t.record.oldest) ∧
        opens = match b with
          | .append p _ => decide (s.record.lastRln < p.rln ∨ p.rln < s.record.oldest)
          | .brk p => decide (p.rln < 16777215 ∨ s.record.lastRln < p.rln ∨ p.rln < s.record.oldest)
          | .cut p => decide (p.rln < s.record.oldest)
          | .pass _ _ => false) ∧
  (∀ (s : State) (i : Nat), 1 ≤ i → i < s.screen.rows →
    let bottom : Prop := s.straps.role = .writer ∧ s.composer.mode = .shadow
    let rows := if s.straps.role = .writer ∧ s.composer.mode = .shadow then s.screen.rows - 2 else s.screen.rows - 1
    let pageLine (n : Nat) : Text := decimal (n / 25 + 1) ++ [0x3A#8] ++ decimal (n % 25 + 1)
    let held (n : Nat) : Option RecLine := s.record.lines.find? (fun l => decide (l.rln = n))
    let shows (n : Nat) : Prop := match s.screen.view with
      | .live => n + rows = s.record.lastRln + i
      | .review top => n + 1 = top + i
    (∀ (l : ShadowLine) (ls : List ShadowLine), bottom → i + 1 = s.screen.rows → s.composer.shadow = ls ++ [l] →
      rowContent s i = spaces 10 ++ padRight 64 l.text ++ [0x53#8, 0x48#8, 0x41#8, 0x44#8, 0x4F#8, 0x57#8]) ∧
    (∀ n l, i ≤ rows → shows n → held n = some l →
      rowContent s i = spaces (9 - (pageLine n).length) ++ pageLine n ++ [0x20#8] ++ padRight 64 l.text ++
        [0x20#8, if l.marked then 0x4D#8 else 0x20#8, 0x20#8, if l.gap then 0x47#8 else 0x20#8, 0x20#8, 0x20#8]) ∧
    (i ≤ rows → (∀ n, shows n → held n = none) → rowContent s i = spaces 80)) ∧
  ∀ s : State,
    let rows := if s.straps.role = .writer ∧ s.composer.mode = .shadow then s.screen.rows - 2 else s.screen.rows - 1
    let pageLine (n : Nat) : Text := decimal (n / 25 + 1) ++ [0x3A#8] ++ decimal (n % 25 + 1)
    rowContent s 0 =
      padRight 7 (if s.pen.session = 0 then [0x4E#8, 0x4F#8, 0x4E#8, 0x45#8] else decimal s.pen.session.toNat) ++
      padRight 10 (pageLine s.record.endPos.rln) ++
      padRight 10 (match s.link.latest.bind (fun b => if b.session = 0 then none else b.holder) with
        | some n => [0x57#8, 0x52#8, 0x49#8, 0x54#8, 0x45#8, 0x52#8, 0x20#8] ++ decimal n.val
        | none => [0x4E#8, 0x4F#8, 0x20#8, 0x57#8, 0x52#8, 0x49#8, 0x54#8, 0x45#8, 0x52#8]) ++
      padRight 7 (if s.screen.view = .live then [] else [0x52#8, 0x45#8, 0x56#8, 0x49#8, 0x45#8, 0x57#8]) ++
      padRight 9 (if s.screen.newText then [0x4E#8, 0x45#8, 0x57#8, 0x20#8, 0x54#8, 0x45#8, 0x58#8, 0x54#8] else []) ++
      padRight 20 (match s.screen.pendingStart with
        | some n => [0x4D#8, 0x41#8, 0x52#8, 0x4B#8, 0x20#8, 0x46#8, 0x52#8, 0x4F#8, 0x4D#8, 0x20#8] ++ pageLine n
        | none => []) ++
      padRight 13 (if s.screen.markRefused
        then [0x4D#8, 0x41#8, 0x52#8, 0x4B#8, 0x20#8, 0x52#8, 0x45#8, 0x46#8, 0x55#8, 0x53#8, 0x45#8, 0x44#8] else []) ++
      padRight 4 (if (List.range rows).any (fun i => match lineOfRow s (i + 1) with | some l => l.gap | none => false)
        then [0x47#8, 0x41#8, 0x50#8] else [])
end

