-- ==== Sys2Proof/Laws/Cache.lean ====
section
/-! SUPPORT. The Entry Cache keeps the ages of every set (R47, R49) through hits, fills, snoops and parity errors; what an
examination, a hit, a fill and a snoop do to the lines (R50, R53, R55, R58). -/

namespace Sys2Proof.Machine

/-- A change of a set that keeps its number of ways and their ages. -/
def KeepsAges (f : List CacheLine → List CacheLine) : Prop := ∀ ls, (f ls).map CacheLine.age = ls.map CacheLine.age

theorem agesGood_iff (ls : List CacheLine) : agesGood ls = true ↔
    (ls.map CacheLine.age).length = 4 ∧ ∀ a ∈ [0, 1, 2, 3], a ∈ ls.map CacheLine.age := by
  simp [agesGood, List.any_eq_true]

theorem agesGood_of_ages {a b : List CacheLine} (h : a.map CacheLine.age = b.map CacheLine.age) (hb : agesGood b = true) :
    agesGood a = true := by
  rw [agesGood_iff] at hb ⊢; rw [h]; exact hb

theorem keepsAges_map (f : CacheLine → CacheLine) (h : ∀ l, (f l).age = l.age) : KeepsAges (fun ls => ls.map f) := by
  intro ls
  simp only [List.map_map]
  apply List.map_congr_left
  intro l _; exact h l

theorem dropErring_ages : KeepsAges dropErring :=
  keepsAges_map _ (by intro l; split <;> rfl)

/-- The way that is hit or filled becomes the youngest; the four ages stay 0 to 3 (R49). -/
theorem touch_agesGood (w : Nat) (ls : List CacheLine) (hw : w < 4) (h : agesGood ls = true) :
    agesGood (touch w (ageAt ls w) ls) = true := by
  match ls, h with
  | [a, b, c, d], h =>
    simp [agesGood] at h
    obtain ⟨h0, h1, h2, h3⟩ := h
    have hw' : w = 0 ∨ w = 1 ∨ w = 2 ∨ w = 3 := by omega
    rcases hw' with rfl | rfl | rfl | rfl <;>
      (simp [agesGood, touch, ageAt]
       rcases h0 with h0 | h0 | h0 | h0 <;> rcases h1 with h1 | h1 | h1 | h1 <;>
        rcases h2 with h2 | h2 | h2 | h2 <;> rcases h3 with h3 | h3 | h3 | h3 <;>
        first
        | (exfalso; omega)
        | simp [h0, h1, h2, h3])
  | [], h => simp [agesGood] at h
  | [_], h => simp [agesGood] at h
  | [_, _], h => simp [agesGood] at h
  | [_, _, _], h => simp [agesGood] at h
  | _ :: _ :: _ :: _ :: _ :: _, h => simp [agesGood] at h

theorem findIdx?_lt {α : Type} (p : α → Bool) (l : List α) (i : Nat) (h : l.findIdx? p = some i) : i < l.length := by
  rw [List.findIdx?_eq_some_iff_getElem] at h
  exact h.1

theorem agesGood_length {ls : List CacheLine} (h : agesGood ls = true) : ls.length = 4 := by
  simp only [agesGood, Bool.and_eq_true, decide_eq_true_eq] at h; exact h.1

theorem wayOf_lt {k : Key} {ls : List CacheLine} {w : Nat} (h : wayOf k ls = some w) : w < ls.length :=
  findIdx?_lt _ _ _ h

theorem wayToFill_lt {ls : List CacheLine} (h : agesGood ls = true) : wayToFill ls < 4 := by
  have hl := agesGood_length h
  unfold wayToFill
  split
  · next w hw => have := findIdx?_lt _ _ _ hw; omega
  · cases hf : ls.findIdx? (fun l => decide (l.age = 3)) with
    | none => simp
    | some w => have := findIdx?_lt _ _ _ hf; simp; omega

theorem modify_ages (w : Nat) (f : CacheLine → CacheLine) (h : ∀ l, (f l).age = l.age) :
    ∀ (ls : List CacheLine), (ls.modify w f).map CacheLine.age = ls.map CacheLine.age := by
  intro ls
  apply List.ext_getElem
  · simp
  · intro i h1 h2
    simp only [List.getElem_map, List.getElem_modify]
    split
    · exact h _
    · rfl

theorem fillSet_agesGood (k : Key) (a : Answer) (ls : List CacheLine) (h : agesGood ls = true) :
    agesGood (fillSet k a ls) = true := by
  unfold fillSet
  simp only
  have hm := modify_ages (wayToFill ls) (fun l => { l with valid := true, key := k, ans := a, parity := parityOf k a })
    (fun _ => rfl) ls
  have hg := agesGood_of_ages hm h
  have ha : ageAt (ls.modify (wayToFill ls)
      (fun l => { l with valid := true, key := k, ans := a, parity := parityOf k a })) (wayToFill ls) =
      ageAt ls (wayToFill ls) := by
    have hl : wayToFill ls < ls.length := by rw [agesGood_length h]; exact wayToFill_lt h
    unfold ageAt
    simp [List.getD_eq_getElem?_getD, hl]
  rw [← ha]
  exact touch_agesGood _ _ (wayToFill_lt h) hg

/-! ## The whole cache -/

/-- The law of the cache. -/
def Cache.good (c : Cache) : Prop := c.sets.length = 16 ∧ c.sets.all agesGood = true

theorem cacheGood_iff (s : State) : CacheGood s ↔ s.cache.good := Iff.rfl

theorem Cache.good_modify {c : Cache} {n : Nat} {f : List CacheLine → List CacheLine} {p : Nat} {q : LookupPath}
    (h : c.good) (hf : ∀ ls ∈ c.sets, agesGood ls = true → c.sets[n]? = some ls → agesGood (f ls) = true) :
    Cache.good { sets := c.sets.modify n f, parityCount := p, path := q } := by
  refine ⟨by simp only [List.length_modify]; exact h.1, ?_⟩
  rw [List.all_eq_true]
  intro ls hls
  rw [List.mem_iff_getElem] at hls
  obtain ⟨i, hi, rfl⟩ := hls
  rw [List.getElem_modify]
  have hi' : i < c.sets.length := by simpa using hi
  have hall : agesGood c.sets[i] = true := (List.all_eq_true.mp h.2) _ (List.getElem_mem hi')
  split
  · next e => exact hf _ (List.getElem_mem hi') hall (by subst e; exact List.getElem?_eq_getElem hi')
  · exact hall

theorem Cache.good_path {c : Cache} (h : c.good) (q : LookupPath) : Cache.good { c with path := q } := h

theorem Cache.checkSet_good (c : Cache) (k : Key) (h : c.good) : (c.checkSet k).good :=
  Cache.good_modify h (fun ls _ hg _ => agesGood_of_ages (dropErring_ages ls) hg)

theorem Cache.hit_good (c : Cache) (k : Key) (h : c.good) : (c.hit k).good := by
  unfold Cache.hit
  split
  · next w hw =>
    refine Cache.good_modify h (fun ls _ hg he => ?_)
    have e : c.setAt k = ls := by simp [Cache.setAt, List.getD_eq_getElem?_getD, he]
    rw [e] at hw ⊢
    exact touch_agesGood _ _ (by have := wayOf_lt hw; rw [agesGood_length hg] at this; exact this) hg
  · exact h

theorem Cache.fill_good (c : Cache) (k : Key) (a : Answer) (h : c.good) : (c.fill k a).good :=
  Cache.good_modify h (fun ls _ hg _ => fillSet_agesGood k a ls hg)

theorem Cache.drop_good (c : Cache) (k : Key) (h : c.good) : (c.drop k).good :=
  Cache.good_modify (Cache.checkSet_good c k h)
    (fun ls _ hg _ => agesGood_of_ages (keepsAges_map _ (by intro l; split <;> rfl) ls) hg)

theorem Cache.dropAll_good : ∀ (l : List Key) (c : Cache), c.good → (l.foldl Cache.drop c).good
  | [], _, h => h
  | k :: l, c, h => Cache.dropAll_good l _ (Cache.drop_good c k h)

theorem Cache.snoop_good (c : Cache) (k : Key) (h : c.good) : (c.snoop k).good :=
  Cache.good_path (Cache.dropAll_good _ c h) _

theorem Cache.reset_good : Cache.reset.good := by
  constructor
  · decide
  · decide

/-! ## What each operation does to a set (R50, R53, R55) -/

theorem modify_eq_set {α : Type} (f : α → α) : ∀ (l : List α) (n : Nat) (x : α), l[n]? = some x →
    l.modify n f = l.set n (f x)
  | [], n, x, h => by simp at h
  | a :: l, 0, x, h => by simp at h; simp [h]
  | a :: l, n + 1, x, h => by simp at h; simp [modify_eq_set f l n x h]

theorem Cache.setAt_eq {c : Cache} {k : Key} {ls : List CacheLine} (h : c.sets[setOf k]? = some ls) : c.setAt k = ls := by
  simp [Cache.setAt, List.getD_eq_getElem?_getD, h]

/-- Reading a set makes its erring lines invalid, their ages kept, and counts them (R55). -/
theorem Cache.checkSet_eq {c : Cache} {k : Key} {ls : List CacheLine} (h : c.sets[setOf k]? = some ls) :
    c.checkSet k = { c with
      sets := c.sets.set (setOf k) (dropErring ls), parityCount := min (c.parityCount + erringCount ls) 3 } := by
  unfold Cache.checkSet
  rw [Cache.setAt_eq h, modify_eq_set _ _ _ _ h]

theorem findIdx?_first {α : Type} (p : α → Bool) : ∀ (l : List α) (w : Nat) (x : α), l[w]? = some x → p x = true →
    (∀ v y, v < w → l[v]? = some y → p y = false) → l.findIdx? p = some w
  | [], w, x, h, _, _ => by simp at h
  | a :: l, 0, x, h, hx, _ => by simp at h; subst h; simp [List.findIdx?_cons, hx]
  | a :: l, w + 1, x, h, hx, hv => by
    simp at h
    have ha : p a = false := hv 0 a (by omega) rfl
    have := findIdx?_first p l w x h hx (fun v y hvw hy => hv (v + 1) y (by omega) (by simpa using hy))
    simp [List.findIdx?_cons, ha, this]

theorem getElem?_of_findIdx? {α : Type} {p : α → Bool} {l : List α} {w : Nat} (h : l.findIdx? p = some w) :
    ∃ x, l[w]? = some x ∧ p x = true ∧ ∀ v y, v < w → l[v]? = some y → p y = false := by
  rw [List.findIdx?_eq_some_iff_getElem] at h
  obtain ⟨hw, hp, hn⟩ := h
  refine ⟨l[w], List.getElem?_eq_getElem hw, hp, fun v y hv hy => ?_⟩
  have := hn v hv
  rw [List.getElem?_eq_getElem (by omega)] at hy
  simp only [Option.some.injEq] at hy
  subst hy; simpa using this

/-- An answer comes from a valid line with the key. -/
theorem Cache.lookup_line {c : Cache} {k : Key} {ls : List CacheLine} {a : Answer} (h : c.sets[setOf k]? = some ls)
    (hl : c.lookup k = some a) : ∃ l ∈ ls, l.valid = true ∧ l.key = k ∧ l.ans = a := by
  unfold Cache.lookup at hl
  rw [Cache.setAt_eq h] at hl
  cases hw : wayOf k ls with
  | none => simp [hw] at hl
  | some w =>
    obtain ⟨x, hx, hp, _⟩ := getElem?_of_findIdx? hw
    simp [hw, List.getD_eq_getElem?_getD, hx] at hl
    simp at hp
    exact ⟨x, List.mem_of_getElem? hx, hp.1, hp.2, hl⟩

/-- Once a set has been read, an answer comes from a valid line of it whose parity is right (R55). -/
theorem Cache.checkSet_lookup {c : Cache} {k : Key} {ls : List CacheLine} {a : Answer} (h : c.sets[setOf k]? = some ls)
    (hl : (c.checkSet k).lookup k = some a) :
    ∃ l ∈ ls, l.valid = true ∧ l.key = k ∧ l.ans = a ∧ l.parity = parityOf k a := by
  have hs : (c.checkSet k).sets[setOf k]? = some (dropErring ls) := by
    rw [Cache.checkSet_eq h]; simp [(List.getElem?_eq_some_iff.1 h).1]
  obtain ⟨l, hm, hv, hk, ha⟩ := Cache.lookup_line hs hl
  simp only [dropErring, List.mem_map] at hm
  obtain ⟨o, ho, rfl⟩ := hm
  by_cases he : o.erring = true
  · simp [he, CacheLine.invalidate] at hv
  · simp only [he] at hv hk ha
    simp at hv hk ha he
    refine ⟨o, ho, hv, hk, ha, ?_⟩
    simp [CacheLine.erring, hv, CacheLine.parityGood] at he
    rw [he, hk, ha]

/-- A hit: the set's first valid line with the key gives the answer and becomes the youngest (R50, R49). -/
theorem Cache.hit_eq {c : Cache} {k : Key} {ls : List CacheLine} {w : Nat} {l : CacheLine} (h : c.sets[setOf k]? = some ls)
    (hw : ls[w]? = some l) (hv : l.valid = true) (hk : l.key = k)
    (hn : ∀ v m, v < w → ls[v]? = some m → m.valid = false ∨ m.key ≠ k) :
    c.lookup k = some l.ans ∧ c.hit k = { c with sets := c.sets.set (setOf k) (touch w l.age ls) } := by
  have hf : wayOf k ls = some w := findIdx?_first _ _ _ l hw (by simp [hv, hk]) (fun v y hvw hy => by
    rcases hn v y hvw hy with h | h <;> simp [h])
  have hg : ageAt ls w = l.age := by simp [ageAt, List.getD_eq_getElem?_getD, hw]
  unfold Cache.lookup Cache.hit
  rw [Cache.setAt_eq h, hf]
  refine ⟨by simp [List.getD_eq_getElem?_getD, hw], ?_⟩
  simp only [hg, modify_eq_set _ _ _ _ h]

/-- The line that a fill takes: the invalid one of lowest way number, else the one of age 3 (R53). -/
theorem wayToFill_takes {ls : List CacheLine} (h : agesGood ls = true) : ∃ l, ls[wayToFill ls]? = some l ∧
    ((l.valid = false ∧ ∀ v m, v < wayToFill ls → ls[v]? = some m → m.valid = true) ∨
      (l.age = 3 ∧ ∀ m ∈ ls, m.valid = true)) := by
  unfold wayToFill
  cases hf : ls.findIdx? (fun l => ! l.valid) with
  | some w =>
    obtain ⟨x, hx, hp, hn⟩ := getElem?_of_findIdx? hf
    exact ⟨x, hx, Or.inl ⟨by simpa using hp, fun v m hv hm => by simpa using hn v m hv hm⟩⟩
  | none =>
    have hall : ∀ m ∈ ls, m.valid = true := by
      intro m hm
      rw [List.findIdx?_eq_none_iff] at hf
      simpa using hf m hm
    have h3 : ∃ l ∈ ls, l.age = 3 := by
      simp only [agesGood, Bool.and_eq_true, List.all_eq_true, List.any_eq_true, decide_eq_true_eq] at h
      exact h.2 3 (by simp)
    cases ha : ls.findIdx? (fun l => decide (l.age = 3)) with
    | none =>
      rw [List.findIdx?_eq_none_iff] at ha
      obtain ⟨l, hl, h3⟩ := h3
      simpa [h3] using ha l hl
    | some w =>
      obtain ⟨x, hx, hp, _⟩ := getElem?_of_findIdx? ha
      exact ⟨x, by simpa using hx, Or.inr ⟨by simpa using hp, hall⟩⟩

/-- The lines of a set after a fill (R53, R49). -/
theorem fillSet_eq {k : Key} {a : Answer} {ls : List CacheLine} {l : CacheLine} (h : ls[wayToFill ls]? = some l) :
    fillSet k a ls = ls.mapIdx (fun v m =>
      if v = wayToFill ls then { valid := true, key := k, ans := a, age := 0, parity := parityOf k a }
      else { m with age := if m.age < l.age then m.age + 1 else m.age }) := by
  have hg : ageAt ls (wayToFill ls) = l.age := by simp [ageAt, List.getD_eq_getElem?_getD, h]
  unfold fillSet touch
  simp only [hg]
  apply List.ext_getElem
  · simp
  · intro i h1 h2
    simp only [List.getElem_mapIdx, List.getElem_modify]
    by_cases hi : i = wayToFill ls
    · simp [hi]
    · simp only [hi, Ne.symm hi, if_false]
      split <;> rfl

/-- After a fill the answer is the key's (R53). -/
theorem Cache.fill_lookup {c : Cache} {k : Key} {a : Answer} {ls : List CacheLine} (h : c.sets[setOf k]? = some ls)
    (hg : agesGood ls = true) (hn : c.lookup k = none) : (c.fill k a).lookup k = some a := by
  obtain ⟨l, hl, _⟩ := wayToFill_takes hg
  have hs : (c.fill k a).sets[setOf k]? = some (fillSet k a ls) := by
    unfold Cache.fill
    simp [modify_eq_set _ _ _ _ h, (List.getElem?_eq_some_iff.1 h).1]
  have hno : ∀ m ∈ ls, m.valid = false ∨ m.key ≠ k := by
    intro m hm
    unfold Cache.lookup at hn
    rw [Cache.setAt_eq h] at hn
    simp only [Option.map_eq_none_iff, wayOf, List.findIdx?_eq_none_iff] at hn
    have := hn m hm
    simp at this
    by_cases hv : m.valid = true
    · exact Or.inr (this hv)
    · exact Or.inl (by simpa using hv)
  rw [fillSet_eq hl] at hs
  have hw : wayToFill ls < ls.length := (List.getElem?_eq_some_iff.1 hl).1
  refine (Cache.hit_eq (w := wayToFill ls) (l := { valid := true, key := k, ans := a, age := 0, parity := parityOf k a })
    hs ?_ rfl rfl ?_).1
  · simp [List.getElem?_mapIdx, hl]
  · intro v m hv hm
    rw [List.getElem?_mapIdx] at hm
    cases ho : ls[v]? with
    | none => simp [ho] at hm
    | some o =>
      simp only [ho, Option.map_some, Option.some.injEq, Nat.ne_of_lt hv, if_false] at hm
      subst hm
      exact hno o (List.mem_of_getElem? ho)

/-! ## The snoop (R55, R58) -/

theorem mem_prefixesOf (k p : Key) : p ∈ prefixesOf k ↔ p ≠ [] ∧ properPrefix p k = true := by
  have hpp : ∀ (q l : Key), properPrefix q l = true ↔ ∃ n, n < l.length ∧ q = l.take n := by
    intro q
    induction q with
    | nil =>
      intro l
      cases l with
      | nil => simp [properPrefix]
      | cons a l => simp [properPrefix]
    | cons a q ih =>
      intro l
      cases l with
      | nil => simp [properPrefix]
      | cons b l =>
        simp only [properPrefix, Bool.and_eq_true, decide_eq_true_eq, ih]
        constructor
        · rintro ⟨rfl, n, hn, rfl⟩; exact ⟨n + 1, by simpa using hn, by simp⟩
        · rintro ⟨n, hn, he⟩
          cases n with
          | zero => simp at he
          | succ n =>
            simp at he hn
            exact ⟨he.1, n, hn, he.2⟩
  rw [hpp]
  unfold prefixesOf
  simp only [List.mem_map, List.mem_range]
  constructor
  · rintro ⟨i, hi, rfl⟩
    refine ⟨?_, i + 1, by omega, rfl⟩
    cases k with
    | nil => simp at hi
    | cons a k => simp
  · rintro ⟨hne, n, hn, rfl⟩
    cases n with
    | zero => simp at hne
    | succ n => exact ⟨n, by omega, rfl⟩

/-- What the drops of some keys make of a line in set `n`. -/
def droppedLine (ks : List Key) (n : Nat) (l : CacheLine) : CacheLine :=
  if ks.any (fun p => decide (setOf p = n)) && (l.erring || decide (l.key ∈ ks ∧ setOf l.key = n)) then l.invalidate else l

theorem CacheLine.invalidate_of_invalid {l : CacheLine} (h : l.valid = false) : l.invalidate = l := by
  cases l; simp only at h; subst h; rfl

theorem drop_line (p : Key) (l : CacheLine) :
    (if (if l.erring then l.invalidate else l).valid && decide ((if l.erring then l.invalidate else l).key = p)
      then (if l.erring then l.invalidate else l).invalidate else (if l.erring then l.invalidate else l)) =
    if l.erring || decide (l.key = p) then l.invalidate else l := by
  by_cases he : l.erring = true
  · simp [he, CacheLine.invalidate]
  · simp only [he]
    by_cases hv : l.valid = true
    · simp [hv]
    · have := CacheLine.invalidate_of_invalid (by simpa using hv)
      simp [this]

/-- The sets after one key has been dropped. -/
theorem Cache.drop_sets (c : Cache) (p : Key) (n : Nat) : (c.drop p).sets[n]? = c.sets[n]?.map (fun ls => ls.map (fun l =>
    if setOf p = n then (if l.erring || decide (l.key = p) then l.invalidate else l) else l)) := by
  unfold Cache.drop Cache.checkSet dropErring
  simp only [List.getElem?_modify]
  by_cases h : setOf p = n
  · simp only [h, if_true]
    cases c.sets[n]? with
    | none => rfl
    | some ls =>
      simp only [Option.map_eq_map, Option.map_some, List.map_map, Option.some.injEq]
      exact List.map_congr_left (fun l _ => drop_line p l)
  · simp only [h, if_false]
    cases c.sets[n]? <;> simp

theorem droppedLine_cons (p : Key) (ks : List Key) (n : Nat) (l : CacheLine) : droppedLine (p :: ks) n l =
    droppedLine ks n (if setOf p = n then (if l.erring || decide (l.key = p) then l.invalidate else l) else l) := by
  have hi : ∀ l : CacheLine, droppedLine ks n l.invalidate = l.invalidate := by
    intro l; unfold droppedLine; split <;> rfl
  by_cases hp : setOf p = n
  · simp only [hp, if_true]
    by_cases he : l.erring = true
    · simp only [he, Bool.true_or, if_true, hi]
      simp [droppedLine, hp, he]
    · by_cases hk : l.key = p
      · simp only [hk, decide_true, Bool.or_true, if_true, hi]
        simp [droppedLine, hp, hk]
      · simp only [he, hk, decide_false, Bool.or_self, Bool.false_eq_true, if_false]
        unfold droppedLine
        simp only [List.any_cons, hp, decide_true, Bool.true_or, Bool.true_and, he, Bool.false_or, List.mem_cons, hk, false_or]
        by_cases hm : l.key ∈ ks ∧ setOf l.key = n
        · have : ks.any (fun p => decide (setOf p = n)) = true := by
            rw [List.any_eq_true]; exact ⟨l.key, hm.1, by simp [hm.2]⟩
          simp [hm, this]
        · simp [hm]
  · simp only [hp, if_false]
    unfold droppedLine
    have : (l.key = p ∨ l.key ∈ ks) ∧ setOf l.key = n ↔ l.key ∈ ks ∧ setOf l.key = n := by
      constructor
      · rintro ⟨rfl | h, e⟩
        · exact absurd e hp
        · exact ⟨h, e⟩
      · rintro ⟨h, e⟩; exact ⟨Or.inr h, e⟩
    simp only [List.any_cons, hp, decide_false, Bool.false_or, List.mem_cons, this]

/-- The sets after some keys have been dropped: every erring line of the examined sets, and every valid line of one of the
keys in its set, is invalid. -/
theorem Cache.dropAll_sets : ∀ (ks : List Key) (c : Cache) (n : Nat),
    (ks.foldl Cache.drop c).sets[n]? = c.sets[n]?.map (fun ls => ls.map (droppedLine ks n))
  | [], c, n => by
    have hd : droppedLine [] n = id := by funext l; rfl
    simp [hd]
  | p :: ks, c, n => by
    rw [List.foldl_cons, Cache.dropAll_sets ks (c.drop p) n, Cache.drop_sets]
    cases c.sets[n]? with
    | none => rfl
    | some ls =>
      simp only [Option.map_some, List.map_map, Option.some.injEq]
      exact List.map_congr_left (fun l _ => (droppedLine_cons p ks n l).symm)

theorem sum_split (g h : Nat → Nat) (m : Nat) (hg : g m = 0) (he : ∀ n, n ≠ m → h n = g n) : ∀ N : Nat, m < N →
    ((List.range N).map h).sum = h m + ((List.range N).map g).sum := by
  intro N hN
  induction N with
  | zero => omega
  | succ N ih =>
    simp only [List.range_succ, List.map_append, List.sum_append, List.map_cons, List.map_nil, List.sum_cons, List.sum_nil]
    by_cases hm : m = N
    · subst hm
      have : (List.range m).map h = (List.range m).map g :=
        List.map_congr_left (fun n hn => he n (by have := List.mem_range.1 hn; omega))
      rw [this, hg]; omega
    · rw [ih (by omega), he N (Ne.symm hm)]; omega

theorem erring_after_drop (p : Key) (l : CacheLine) :
    (if l.erring || decide (l.key = p) then l.invalidate else l).erring = false := by
  split
  · rfl
  · rename_i h; simp at h; exact h.1

/-- The parity counter after some keys have been dropped (R55). -/
theorem Cache.dropAll_parity : ∀ (ks : List Key) (c : Cache), min (ks.foldl Cache.drop c).parityCount 3 =
    min (c.parityCount + ((List.range 16).map (fun n =>
      if ks.any (fun p => decide (setOf p = n)) then erringCount (c.sets.getD n []) else 0)).sum) 3
  | [], c => by
    have : ((List.range 16).map (fun _ => 0)).sum = 0 := by decide
    exact congrArg (fun x => min (c.parityCount + x) 3) this.symm
  | p :: ks, c => by
    rw [List.foldl_cons, Cache.dropAll_parity ks (c.drop p)]
    have hp : (c.drop p).parityCount = min (c.parityCount + erringCount (c.sets.getD (setOf p) [])) 3 := rfl
    have hs : ∀ n, erringCount ((c.drop p).sets.getD n []) = if setOf p = n then 0 else erringCount (c.sets.getD n []) := by
      intro n
      rw [List.getD_eq_getElem?_getD, Cache.drop_sets, List.getD_eq_getElem?_getD]
      cases c.sets[n]? with
      | none => simp [erringCount]
      | some ls =>
        by_cases h : setOf p = n
        · simp only [h, if_true, Option.map_some, Option.getD_some, erringCount, List.length_eq_zero_iff,
            List.filter_eq_nil_iff, List.mem_map]
          rintro x ⟨l, _, rfl⟩
          exact Bool.eq_false_iff.1 (erring_after_drop p l)
        · simp [h]
    rw [hp]
    have := sum_split
      (fun n => if ks.any (fun p => decide (setOf p = n)) then erringCount ((c.drop p).sets.getD n []) else 0)
      (fun n => if (p :: ks).any (fun p => decide (setOf p = n)) then erringCount (c.sets.getD n []) else 0) (setOf p)
      (by simp only [hs, if_true, ite_self]) (by
        intro n hn
        simp only [List.any_cons, hs, Ne.symm hn, decide_false, Bool.false_or, if_false]) 16
      (by unfold setOf; omega)
    rw [this]
    simp only [List.any_cons, decide_true, Bool.true_or, if_true]
    omega

/-- The sets after a snoop (R55, R58). -/
theorem Cache.snoop_sets (c : Cache) (k : Key) (n : Nat) :
    (c.snoop k).sets[n]? = c.sets[n]?.map (fun ls => ls.map (droppedLine (k :: prefixesOf k) n)) :=
  Cache.dropAll_sets (k :: prefixesOf k) c n

theorem Cache.dropAll_parity_le : ∀ (ks : List Key) (c : Cache), c.parityCount ≤ 3 → (ks.foldl Cache.drop c).parityCount ≤ 3
  | [], _, h => h
  | p :: ks, c, _ => Cache.dropAll_parity_le ks (c.drop p) (Nat.min_le_right _ _)

/-- The parity counter after a snoop (R55). -/
theorem Cache.snoop_parity (c : Cache) (k : Key) : (c.snoop k).parityCount = min (c.parityCount +
    ((List.range 16).map (fun n =>
      if (k :: prefixesOf k).any (fun p => decide (setOf p = n)) then erringCount (c.sets.getD n []) else 0)).sum) 3 := by
  rw [← Cache.dropAll_parity]
  have := Cache.dropAll_parity_le (prefixesOf k) (c.drop k) (Nat.min_le_right _ _)
  exact (Nat.min_eq_left this).symm

end Sys2Proof.Machine
end

