-- ==== Sys2Proof/Laws/Journal.lean ====
section
/-! SUPPORT. The Stroke Journal keeps its law (R8) through every operation on it. -/

namespace Sys2Proof.Machine

/-- The law of R8 as a conjunction. -/
theorem Journal.lawful_iff (j : Journal) : j.lawful = true ↔
    j.strokes.length ≤ Config.journalSize ∧ j.strokes.length < j.nextSn ∧ j.nextSn ≤ Config.snEnd ∧
    snsFrom j.firstSn j.strokes = true ∧ j.firstSn ≤ j.readPoint ∧ j.readPoint ≤ j.nextSn ∧
    j.firstSn ≤ j.archivePoint ∧ j.archivePoint ≤ j.nextSn := by
  simp only [Journal.lawful, Bool.and_eq_true, decide_eq_true_eq]
  constructor
  · rintro ⟨⟨⟨⟨⟨⟨⟨a, b⟩, c⟩, d⟩, e⟩, f⟩, g⟩, h⟩; exact ⟨a, b, c, d, e, f, g, h⟩
  · rintro ⟨a, b, c, d, e, f, g, h⟩; exact ⟨⟨⟨⟨⟨⟨⟨a, b⟩, c⟩, d⟩, e⟩, f⟩, g⟩, h⟩

theorem snsFrom_append (k : Stroke) : ∀ (l : List Stroke) (n : Nat),
    snsFrom n l = true → k.sn = n + l.length → snsFrom n (l ++ [k]) = true
  | [], n, _, h => by simp [snsFrom] at h ⊢; exact h
  | a :: l, n, hl, h => by
    simp only [snsFrom, Bool.and_eq_true, List.cons_append] at hl ⊢
    rw [List.length_cons] at h
    exact ⟨hl.1, snsFrom_append k l (n + 1) hl.2 (by omega)⟩

/-- A held stroke's SN lies among the held ones. -/
theorem snsFrom_mem : ∀ (l : List Stroke) (n : Nat) (k : Stroke), snsFrom n l = true → k ∈ l →
    n ≤ k.sn ∧ k.sn < n + l.length
  | [], _, _, _, h => by cases h
  | a :: l, n, k, hl, h => by
    simp only [snsFrom, Bool.and_eq_true, decide_eq_true_eq] at hl
    cases h with
    | head => simp; omega
    | tail _ h =>
      have := snsFrom_mem l (n + 1) k hl.2 h
      simp; omega

theorem Journal.emptied_lawful : Journal.emptied.lawful = true := by decide

theorem Journal.refuse_lawful (j : Journal) (h : j.lawful = true) : j.refuse.lawful = true := h

theorem Journal.accept_lawful (j : Journal) (k : Stroke) (h : j.lawful = true) (h1 : j.strokes.length < Config.journalSize)
    (h2 : j.nextSn < Config.snEnd) : (j.accept k).lawful = true := by
  rw [Journal.lawful_iff] at h ⊢
  obtain ⟨a, b, c, d, e, f, g, i⟩ := h
  have hf : (j.accept k).firstSn = j.firstSn := by
    simp only [Journal.firstSn, Journal.accept, List.length_append, List.length_cons, List.length_nil]; omega
  rw [hf]
  refine ⟨?_, ?_, ?_, ?_, ?_, ?_, ?_, ?_⟩ <;> simp only [Journal.accept, List.length_append, List.length_cons, List.length_nil]
  · omega
  · omega
  · omega
  · exact snsFrom_append _ _ _ d (by simp only [Journal.firstSn]; omega)
  · exact e
  · omega
  · exact g
  · omega

/-- A stroke may be refused for want of room only when the journal is full or the SN range has ended. -/
theorem Journal.makeRoom_lawful (j : Journal) (h : j.lawful = true) (hr : j.mustRefuse = false) :
    j.makeRoom.lawful = true ∧ j.makeRoom.strokes.length < Config.journalSize ∧ j.makeRoom.nextSn < Config.snEnd := by
  have h0 := h
  rw [Journal.lawful_iff] at h
  obtain ⟨a, b, c, d, e, f, g, i⟩ := h
  simp only [Journal.mustRefuse, Bool.or_eq_false_iff, decide_eq_false_iff_not] at hr
  obtain ⟨hr1, hr2⟩ := hr
  unfold Journal.makeRoom
  split
  · exact ⟨h0, by assumption, by omega⟩
  · next hfull =>
    have hlen : Config.journalSize ≤ j.strokes.length := by omega
    cases hs : j.strokes with
    | nil => rw [hs] at hlen; simp [Config.journalSize] at hlen
    | cons k rest =>
      rw [hs] at hr2 d hlen a b
      simp only [hlen, decide_true, Bool.true_and, decide_eq_false_iff_not] at hr2
      simp only [snsFrom, Bool.and_eq_true, decide_eq_true_eq] at d
      simp only [Journal.firstSn, hs, List.length_cons] at d e g hlen a b
      simp only
      split
      · next hk =>
        simp only [Journal.lawful_iff, Journal.firstSn]
        have e1 : j.nextSn - rest.length = j.nextSn - (rest.length + 1) + 1 := by omega
        refine ⟨⟨by omega, by omega, by omega, ?_, by omega, by omega, by omega, by omega⟩, by omega, by omega⟩
        rw [e1]; exact d.2
      · next hk =>
        simp only [Journal.lawful_iff, Journal.firstSn]
        have e1 : j.nextSn - rest.length = j.nextSn - (rest.length + 1) + 1 := by omega
        refine ⟨⟨by omega, by omega, by omega, ?_, by omega, by omega, by omega, by omega⟩, by omega, by omega⟩
        rw [e1]; exact d.2

theorem Journal.offer_lawful (j : Journal) (k : Stroke) (h : j.lawful = true) : (j.offer k).lawful = true := by
  unfold Journal.offer
  cases hr : j.mustRefuse with
  | true => simp; exact h
  | false =>
    have := Journal.makeRoom_lawful j h hr
    simp; exact Journal.accept_lawful _ _ this.1 this.2.1 this.2.2

theorem Journal.search_lawful (j : Journal) (cut : LinkTime) (h : j.lawful = true) : (j.search cut).lawful = true := by
  rw [Journal.lawful_iff] at h ⊢
  obtain ⟨a, b, c, d, e, f, g, i⟩ := h
  refine ⟨a, b, c, d, ?_, ?_, g, i⟩ <;> simp only [Journal.search] <;> split
  · next k hk =>
    have := snsFrom_mem _ _ k d (List.mem_of_find?_eq_some hk)
    exact this.1
  · show j.firstSn ≤ j.nextSn; omega
  · next k hk =>
    have := snsFrom_mem _ _ k d (List.mem_of_find?_eq_some hk)
    simp only [Journal.firstSn] at this
    show k.sn ≤ j.nextSn
    omega
  · exact Nat.le_refl _

/-- A stroke stands at the read point, so the read point may advance (R13). -/
theorem Journal.advance_lawful (j : Journal) (k : Stroke) (hk : j.atReadPoint = some k) (h : j.lawful = true) :
    j.advance.lawful = true := by
  rw [Journal.lawful_iff] at h ⊢
  obtain ⟨a, b, c, d, e, f, g, i⟩ := h
  have h1 := snsFrom_mem _ _ k d (List.mem_of_find?_eq_some hk)
  have h2 : k.sn = j.readPoint := by simpa using List.find?_some hk
  simp only [Journal.firstSn] at h1
  refine ⟨a, b, c, d, ?_, ?_, g, i⟩ <;> simp only [Journal.advance]
  · show j.firstSn ≤ _; omega
  · omega

theorem snsFrom_count (p : Nat) : ∀ (l : List Stroke) (n : Nat), snsFrom n l = true → n ≤ p →
    (l.filter (fun k => decide (p ≤ k.sn))).length ≤ n + l.length - p ∨ n + l.length < p
  | [], n, _, h => by simp
  | a :: l, n, hl, h => by
    simp only [snsFrom, Bool.and_eq_true, decide_eq_true_eq] at hl
    rw [List.filter_cons]
    by_cases hp : p ≤ a.sn
    · have hpn : p = n := by omega
      have := List.length_filter_le (fun k : Stroke => decide (p ≤ k.sn)) l
      simp only [hp, decide_true, if_true, List.length_cons]
      omega
    · have := snsFrom_count p l (n + 1) hl.2 (by omega)
      simp only [hp, decide_false, Bool.false_eq_true, if_false, List.length_cons]
      omega

theorem Journal.archive_lawful (j : Journal) (n : Nat) (h : j.lawful = true) : (j.archive n).lawful = true := by
  rw [Journal.lawful_iff] at h ⊢
  obtain ⟨a, b, c, d, e, f, g, i⟩ := h
  have h1 := snsFrom_count j.archivePoint j.strokes j.firstSn d g
  have h2 : (j.toArchive n).length ≤ (j.strokes.filter (fun k => decide (j.archivePoint ≤ k.sn))).length := by
    simp only [Journal.toArchive]; rw [List.length_take]; exact Nat.min_le_right _ _
  simp only [Journal.firstSn] at h1 g
  refine ⟨a, b, c, d, e, f, ?_, ?_⟩ <;> simp only [Journal.archive]
  · show j.firstSn ≤ _; simp only [Journal.firstSn]; omega
  · omega

end Sys2Proof.Machine
end

