-- ==== Sys2Proof/Laws/Memory.lean ====
section
/-! SUPPORT. The store's memory: the canonical form is kept by every operation, and what a read gives after a write. -/

namespace Sys2Proof.Machine

theorem Memory.wfFrom_mono {lo lo' : Nat} (h : lo' ≤ lo) : ∀ m, Memory.wfFrom lo m = true → Memory.wfFrom lo' m = true
  | [], _ => rfl
  | (a, w) :: m, hm => by
    simp only [Memory.wfFrom, Bool.and_eq_true, decide_eq_true_eq] at hm ⊢
    exact ⟨⟨⟨by omega, hm.1.1.2⟩, hm.1.2⟩, hm.2⟩

theorem Memory.wfFrom_insert {a : Nat} {w : StoreWord} (ha : a < Config.storeWords) :
    ∀ (m : Memory) (lo : Nat), lo ≤ a → Memory.wfFrom lo m = true → Memory.wfFrom lo (Memory.insert m a w) = true
  | [], lo, hlo, _ => by
    by_cases hw : w = blankWord <;> simp [Memory.insert, Memory.wfFrom, hw, hlo, ha]
  | (b, v) :: m, lo, hlo, hm => by
    simp only [Memory.wfFrom, Bool.and_eq_true, decide_eq_true_eq] at hm
    obtain ⟨⟨⟨h1, h2⟩, h3⟩, h4⟩ := hm
    unfold Memory.insert
    by_cases h : a < b
    · by_cases hw : w = blankWord
      · simp [h, hw, Memory.wfFrom, h1, h2, h4] ; simpa using h3
      · have h5 : a + 1 ≤ b := h
        simp [h, hw, Memory.wfFrom, hlo, ha, h2, h4, h5]; simpa using h3
    · by_cases hab : a = b
      · subst hab
        by_cases hw : w = blankWord
        · simp [hw]; exact Memory.wfFrom_mono (by omega) m h4
        · simp [hw, Memory.wfFrom, hlo, ha, h4]
      · simp only [h, hab, if_false]
        have := Memory.wfFrom_insert (w := w) ha m (b + 1) (by omega) h4
        simp [Memory.wfFrom, h1, h2, this]; simpa using h3

theorem Memory.wf_write (m : Memory) (a : Nat) (w : StoreWord) (h : m.wf = true) : (m.write a w).wf = true := by
  unfold Memory.write
  split
  · exact Memory.wfFrom_insert (by assumption) m 0 (Nat.zero_le _) h
  · exact h

theorem Memory.wf_writeAll : ∀ (l : List (Nat × StoreWord)) (m : Memory), m.wf = true → (m.writeAll l).wf = true
  | [], _, h => h
  | (a, w) :: l, m, h => Memory.wf_writeAll l _ (Memory.wf_write m a w h)

theorem Memory.wfFrom_filter (p : Nat × StoreWord → Bool) :
    ∀ (m : Memory) (lo : Nat), Memory.wfFrom lo m = true → Memory.wfFrom lo (m.filter p) = true
  | [], _, _ => rfl
  | (a, w) :: m, lo, hm => by
    simp only [Memory.wfFrom, Bool.and_eq_true, decide_eq_true_eq] at hm
    obtain ⟨⟨⟨h1, h2⟩, h3⟩, h4⟩ := hm
    have ih := Memory.wfFrom_filter p m (a + 1) h4
    rw [List.filter_cons]
    split
    · simp [Memory.wfFrom, h1, h2, ih]; simpa using h3
    · exact Memory.wfFrom_mono (by omega) _ ih

theorem Memory.wf_clearSector (m : Memory) (n : Nat) (h : m.wf = true) : (m.clearSector n).wf = true :=
  Memory.wfFrom_filter _ m 0 h

/-! ## Reading after writing -/

theorem Memory.read_of_lt {a : Nat} : ∀ (m : Memory) (lo : Nat), a < lo → Memory.wfFrom lo m = true → m.read a = blankWord
  | [], _, _, _ => rfl
  | (b, v) :: m, lo, ha, hm => by
    simp only [Memory.wfFrom, Bool.and_eq_true, decide_eq_true_eq] at hm
    have : b ≠ a := by omega
    simp only [Memory.read, this, if_false]
    exact Memory.read_of_lt m (b + 1) (by omega) hm.2

theorem Memory.read_insert (a : Nat) (w : StoreWord) :
    ∀ (m : Memory) (lo : Nat), Memory.wfFrom lo m = true → ∀ x, (m.insert a w).read x = if x = a then w else m.read x
  | [], _, _, x => by
    by_cases hw : w = blankWord <;> by_cases hx : x = a <;>
      simp [Memory.insert, Memory.read, hw, hx, eq_comm]
    · intro h; exact absurd h.symm hx
  | (b, v) :: m, lo, hm, x => by
    simp only [Memory.wfFrom, Bool.and_eq_true, decide_eq_true_eq] at hm
    obtain ⟨⟨⟨h1, h2⟩, h3⟩, h4⟩ := hm
    unfold Memory.insert
    by_cases h : a < b
    · by_cases hw : w = blankWord
      · by_cases hx : x = a
        · have hb : b ≠ a := by omega
          simp [h, hw, hx, Memory.read, hb]
          exact Memory.read_of_lt m (b + 1) (by omega) h4
        · simp [h, hw, hx]
      · by_cases hx : x = a
        · simp [h, hw, hx, Memory.read]
        · have hxa : a ≠ x := fun e => hx e.symm
          simp [h, hw, hx, hxa, Memory.read]
    · by_cases hab : a = b
      · subst hab
        by_cases hw : w = blankWord
        · by_cases hx : x = a
          · subst hx; simp [hw]; exact Memory.read_of_lt m (x + 1) (by omega) h4
          · have hxa : a ≠ x := fun e => hx e.symm
            simp [hw, hx, hxa, Memory.read]
        · by_cases hx : x = a
          · simp [hw, hx, Memory.read]
          · have hxa : a ≠ x := fun e => hx e.symm
            simp [hw, hx, hxa, Memory.read]
      · simp only [h, hab, if_false]
        by_cases hb : b = x
        · subst hb; simp [Memory.read, Ne.symm hab]
        · simp only [Memory.read, hb, if_false]
          exact Memory.read_insert a w m (b + 1) h4 x

/-- A word read after a write: the one written where it was written, every other word as before (R62). -/
theorem Memory.read_write (m : Memory) (a : Nat) (w : StoreWord) (h : m.wf = true) (ha : a < Config.storeWords) (x : Nat) :
    (m.write a w).read x = if x = a then w else m.read x := by
  simp only [Memory.write, ha, if_true]
  exact Memory.read_insert a w m 0 h x

theorem Memory.read_filter (p : Nat → Bool) :
    ∀ (m : Memory) (lo : Nat), Memory.wfFrom lo m = true → ∀ x,
      Memory.read (m.filter (fun c => p c.1)) x = if p x then m.read x else blankWord
  | [], _, _, x => by simp [Memory.read]
  | (b, v) :: m, lo, hm, x => by
    simp only [Memory.wfFrom, Bool.and_eq_true, decide_eq_true_eq] at hm
    have ih := Memory.read_filter p m (b + 1) hm.2 x
    rw [List.filter_cons]
    by_cases hb : b = x
    · subst hb
      by_cases hp : p b = true
      · simp [hp, Memory.read]
      · simp [hp] at ih; simp [hp, ih]
    · by_cases hp : p b = true
      · simp only [hp, if_true, Memory.read, hb, if_false]; exact ih
      · simp [hp, ih, Memory.read, hb]

/-- After a sector is cleared its words read erased, every other word as before (R75). -/
theorem Memory.read_clearSector (m : Memory) (n : Nat) (h : m.wf = true) (x : Nat) :
    (m.clearSector n).read x = if x / Config.sectorWords = n then blankWord else m.read x := by
  have := Memory.read_filter (fun a => ! decide (a / Config.sectorWords = n)) m 0 h x
  simp only [Memory.clearSector]
  rw [this]
  by_cases hx : x / Config.sectorWords = n <;> simp [hx]

end Sys2Proof.Machine
end

