-- ==== Sys2Proof/Laws/State.lean ====
section
/-! SUPPORT. What every named update leaves of each field of State. -/

namespace Sys2Proof.Machine

/-! ## raise -/

@[simp] theorem raise_straps (c : Cause) (s : State) : (raise c s).straps = s.straps := rfl
@[simp] theorem raise_start (c : Cause) (s : State) : (raise c s).start = s.start := rfl
@[simp] theorem raise_settings (c : Cause) (s : State) : (raise c s).settings = s.settings := rfl
@[simp] theorem raise_port (c : Cause) (s : State) : (raise c s).port = s.port := rfl
@[simp] theorem raise_portOut (c : Cause) (s : State) : (raise c s).portOut = s.portOut := rfl
@[simp] theorem raise_att (c : Cause) (s : State) : (raise c s).att = s.att.raise c := rfl
@[simp] theorem raise_clock (c : Cause) (s : State) : (raise c s).clock = s.clock := rfl
@[simp] theorem raise_scanner (c : Cause) (s : State) : (raise c s).scanner = s.scanner := rfl
@[simp] theorem raise_buttons (c : Cause) (s : State) : (raise c s).buttons = s.buttons := rfl
@[simp] theorem raise_journal (c : Cause) (s : State) : (raise c s).journal = s.journal := rfl
@[simp] theorem raise_trans (c : Cause) (s : State) : (raise c s).trans = s.trans := rfl
@[simp] theorem raise_cache (c : Cause) (s : State) : (raise c s).cache = s.cache := rfl
@[simp] theorem raise_store (c : Cause) (s : State) : (raise c s).store = s.store := rfl
@[simp] theorem raise_ctl (c : Cause) (s : State) : (raise c s).ctl = s.ctl := rfl
@[simp] theorem raise_composer (c : Cause) (s : State) : (raise c s).composer = s.composer := rfl
@[simp] theorem raise_record (c : Cause) (s : State) : (raise c s).record = s.record := rfl
@[simp] theorem raise_link (c : Cause) (s : State) : (raise c s).link = s.link := rfl
@[simp] theorem raise_pen (c : Cause) (s : State) : (raise c s).pen = s.pen := rfl
@[simp] theorem raise_screen (c : Cause) (s : State) : (raise c s).screen = s.screen := rfl
@[simp] theorem raise_script (c : Cause) (s : State) : (raise c s).script = s.script := rfl
@[simp] theorem raise_pending (c : Cause) (s : State) : (raise c s).pending = s.pending := rfl

/-! ## raiseIf -/

@[simp] theorem raiseIf_straps (b : Bool) (c : Cause) (s : State) :
    (raiseIf b c s).straps =
      s.straps := by cases b <;> rfl
@[simp] theorem raiseIf_start (b : Bool) (c : Cause) (s : State) :
    (raiseIf b c s).start =
      s.start := by cases b <;> rfl
@[simp] theorem raiseIf_settings (b : Bool) (c : Cause) (s : State) :
    (raiseIf b c s).settings =
      s.settings := by cases b <;> rfl
@[simp] theorem raiseIf_port (b : Bool) (c : Cause) (s : State) : (raiseIf b c s).port = s.port := by cases b <;> rfl
@[simp] theorem raiseIf_portOut (b : Bool) (c : Cause) (s : State) :
    (raiseIf b c s).portOut =
      s.portOut := by cases b <;> rfl
@[simp] theorem raiseIf_att (b : Bool) (c : Cause) (s : State) :
    (raiseIf b c s).att =
      if b then s.att.raise c else s.att := by cases b <;> rfl
@[simp] theorem raiseIf_clock (b : Bool) (c : Cause) (s : State) :
    (raiseIf b c s).clock =
      s.clock := by cases b <;> rfl
@[simp] theorem raiseIf_scanner (b : Bool) (c : Cause) (s : State) :
    (raiseIf b c s).scanner =
      s.scanner := by cases b <;> rfl
@[simp] theorem raiseIf_buttons (b : Bool) (c : Cause) (s : State) :
    (raiseIf b c s).buttons =
      s.buttons := by cases b <;> rfl
@[simp] theorem raiseIf_journal (b : Bool) (c : Cause) (s : State) :
    (raiseIf b c s).journal =
      s.journal := by cases b <;> rfl
@[simp] theorem raiseIf_trans (b : Bool) (c : Cause) (s : State) :
    (raiseIf b c s).trans =
      s.trans := by cases b <;> rfl
@[simp] theorem raiseIf_cache (b : Bool) (c : Cause) (s : State) :
    (raiseIf b c s).cache =
      s.cache := by cases b <;> rfl
@[simp] theorem raiseIf_store (b : Bool) (c : Cause) (s : State) :
    (raiseIf b c s).store =
      s.store := by cases b <;> rfl
@[simp] theorem raiseIf_ctl (b : Bool) (c : Cause) (s : State) : (raiseIf b c s).ctl = s.ctl := by cases b <;> rfl
@[simp] theorem raiseIf_composer (b : Bool) (c : Cause) (s : State) :
    (raiseIf b c s).composer =
      s.composer := by cases b <;> rfl
@[simp] theorem raiseIf_record (b : Bool) (c : Cause) (s : State) :
    (raiseIf b c s).record =
      s.record := by cases b <;> rfl
@[simp] theorem raiseIf_link (b : Bool) (c : Cause) (s : State) : (raiseIf b c s).link = s.link := by cases b <;> rfl
@[simp] theorem raiseIf_pen (b : Bool) (c : Cause) (s : State) : (raiseIf b c s).pen = s.pen := by cases b <;> rfl
@[simp] theorem raiseIf_screen (b : Bool) (c : Cause) (s : State) :
    (raiseIf b c s).screen =
      s.screen := by cases b <;> rfl
@[simp] theorem raiseIf_script (b : Bool) (c : Cause) (s : State) :
    (raiseIf b c s).script =
      s.script := by cases b <;> rfl
@[simp] theorem raiseIf_pending (b : Bool) (c : Cause) (s : State) :
    (raiseIf b c s).pending =
      s.pending := by cases b <;> rfl

/-! ## noteFault -/

@[simp] theorem noteFault_straps (k : FaultKind) (n w : Nat) (s : State) :
    (noteFault k n w s).straps =
      s.straps := by cases k <;> rfl
@[simp] theorem noteFault_start (k : FaultKind) (n w : Nat) (s : State) :
    (noteFault k n w s).start =
      s.start := by cases k <;> rfl
@[simp] theorem noteFault_settings (k : FaultKind) (n w : Nat) (s : State) :
    (noteFault k n w s).settings =
      s.settings := by cases k <;> rfl
@[simp] theorem noteFault_port (k : FaultKind) (n w : Nat) (s : State) :
    (noteFault k n w s).port =
      s.port := by cases k <;> rfl
@[simp] theorem noteFault_portOut (k : FaultKind) (n w : Nat) (s : State) :
    (noteFault k n w s).portOut =
      s.portOut := by cases k <;> rfl
@[simp] theorem noteFault_clock (k : FaultKind) (n w : Nat) (s : State) :
    (noteFault k n w s).clock =
      s.clock := by cases k <;> rfl
@[simp] theorem noteFault_scanner (k : FaultKind) (n w : Nat) (s : State) :
    (noteFault k n w s).scanner =
      s.scanner := by cases k <;> rfl
@[simp] theorem noteFault_buttons (k : FaultKind) (n w : Nat) (s : State) :
    (noteFault k n w s).buttons =
      s.buttons := by cases k <;> rfl
@[simp] theorem noteFault_journal (k : FaultKind) (n w : Nat) (s : State) :
    (noteFault k n w s).journal =
      s.journal := by cases k <;> rfl
@[simp] theorem noteFault_trans (k : FaultKind) (n w : Nat) (s : State) :
    (noteFault k n w s).trans =
      s.trans := by cases k <;> rfl
@[simp] theorem noteFault_cache (k : FaultKind) (n w : Nat) (s : State) :
    (noteFault k n w s).cache =
      s.cache := by cases k <;> rfl
@[simp] theorem noteFault_store (k : FaultKind) (n w : Nat) (s : State) :
    (noteFault k n w s).store =
      s.store := by cases k <;> rfl
@[simp] theorem noteFault_ctl (k : FaultKind) (n w : Nat) (s : State) :
    (noteFault k n w s).ctl =
      { s.ctl with fault := s.ctl.fault.add { sector := n, word := w, kind := k, time := s.clock.linkTime } } := by cases k <;> rfl
@[simp] theorem noteFault_composer (k : FaultKind) (n w : Nat) (s : State) :
    (noteFault k n w s).composer =
      s.composer := by cases k <;> rfl
@[simp] theorem noteFault_record (k : FaultKind) (n w : Nat) (s : State) :
    (noteFault k n w s).record =
      s.record := by cases k <;> rfl
@[simp] theorem noteFault_link (k : FaultKind) (n w : Nat) (s : State) :
    (noteFault k n w s).link =
      s.link := by cases k <;> rfl
@[simp] theorem noteFault_pen (k : FaultKind) (n w : Nat) (s : State) :
    (noteFault k n w s).pen =
      s.pen := by cases k <;> rfl
@[simp] theorem noteFault_screen (k : FaultKind) (n w : Nat) (s : State) :
    (noteFault k n w s).screen =
      s.screen := by cases k <;> rfl
@[simp] theorem noteFault_script (k : FaultKind) (n w : Nat) (s : State) :
    (noteFault k n w s).script =
      s.script := by cases k <;> rfl
@[simp] theorem noteFault_pending (k : FaultKind) (n w : Nat) (s : State) :
    (noteFault k n w s).pending =
      s.pending := by cases k <;> rfl

/-! ## setSector -/

@[simp] theorem setSector_straps (n : Nat) (x : SecState) (s : State) : (setSector n x s).straps = s.straps := rfl
@[simp] theorem setSector_start (n : Nat) (x : SecState) (s : State) : (setSector n x s).start = s.start := rfl
@[simp] theorem setSector_settings (n : Nat) (x : SecState) (s : State) :
    (setSector n x s).settings =
      s.settings := rfl
@[simp] theorem setSector_port (n : Nat) (x : SecState) (s : State) : (setSector n x s).port = s.port := rfl
@[simp] theorem setSector_portOut (n : Nat) (x : SecState) (s : State) : (setSector n x s).portOut = s.portOut := rfl
@[simp] theorem setSector_att (n : Nat) (x : SecState) (s : State) : (setSector n x s).att = s.att := rfl
@[simp] theorem setSector_clock (n : Nat) (x : SecState) (s : State) : (setSector n x s).clock = s.clock := rfl
@[simp] theorem setSector_scanner (n : Nat) (x : SecState) (s : State) : (setSector n x s).scanner = s.scanner := rfl
@[simp] theorem setSector_buttons (n : Nat) (x : SecState) (s : State) : (setSector n x s).buttons = s.buttons := rfl
@[simp] theorem setSector_journal (n : Nat) (x : SecState) (s : State) : (setSector n x s).journal = s.journal := rfl
@[simp] theorem setSector_trans (n : Nat) (x : SecState) (s : State) : (setSector n x s).trans = s.trans := rfl
@[simp] theorem setSector_cache (n : Nat) (x : SecState) (s : State) : (setSector n x s).cache = s.cache := rfl
@[simp] theorem setSector_store (n : Nat) (x : SecState) (s : State) : (setSector n x s).store = s.store := rfl
@[simp] theorem setSector_ctl (n : Nat) (x : SecState) (s : State) :
    (setSector n x s).ctl =
      { s.ctl with sectors := s.ctl.sectors.set n x } := rfl
@[simp] theorem setSector_composer (n : Nat) (x : SecState) (s : State) :
    (setSector n x s).composer =
      s.composer := rfl
@[simp] theorem setSector_record (n : Nat) (x : SecState) (s : State) : (setSector n x s).record = s.record := rfl
@[simp] theorem setSector_link (n : Nat) (x : SecState) (s : State) : (setSector n x s).link = s.link := rfl
@[simp] theorem setSector_pen (n : Nat) (x : SecState) (s : State) : (setSector n x s).pen = s.pen := rfl
@[simp] theorem setSector_screen (n : Nat) (x : SecState) (s : State) : (setSector n x s).screen = s.screen := rfl
@[simp] theorem setSector_script (n : Nat) (x : SecState) (s : State) : (setSector n x s).script = s.script := rfl
@[simp] theorem setSector_pending (n : Nat) (x : SecState) (s : State) : (setSector n x s).pending = s.pending := rfl

/-! ## modAccount -/

@[simp] theorem modAccount_straps (n : Nat) (f : Account → Account) (s : State) :
    (modAccount n f s).straps =
      s.straps := by simp only [modAccount]
@[simp] theorem modAccount_start (n : Nat) (f : Account → Account) (s : State) :
    (modAccount n f s).start =
      s.start := by simp only [modAccount]
@[simp] theorem modAccount_settings (n : Nat) (f : Account → Account) (s : State) :
    (modAccount n f s).settings =
      s.settings := by simp only [modAccount]
@[simp] theorem modAccount_port (n : Nat) (f : Account → Account) (s : State) :
    (modAccount n f s).port =
      s.port := by simp only [modAccount]
@[simp] theorem modAccount_portOut (n : Nat) (f : Account → Account) (s : State) :
    (modAccount n f s).portOut =
      s.portOut := by simp only [modAccount]
@[simp] theorem modAccount_att (n : Nat) (f : Account → Account) (s : State) :
    (modAccount n f s).att =
      s.att := by simp only [modAccount]
@[simp] theorem modAccount_clock (n : Nat) (f : Account → Account) (s : State) :
    (modAccount n f s).clock =
      s.clock := by simp only [modAccount]
@[simp] theorem modAccount_scanner (n : Nat) (f : Account → Account) (s : State) :
    (modAccount n f s).scanner =
      s.scanner := by simp only [modAccount]
@[simp] theorem modAccount_buttons (n : Nat) (f : Account → Account) (s : State) :
    (modAccount n f s).buttons =
      s.buttons := by simp only [modAccount]
@[simp] theorem modAccount_journal (n : Nat) (f : Account → Account) (s : State) :
    (modAccount n f s).journal =
      s.journal := by simp only [modAccount]
@[simp] theorem modAccount_trans (n : Nat) (f : Account → Account) (s : State) :
    (modAccount n f s).trans =
      s.trans := by simp only [modAccount]
@[simp] theorem modAccount_cache (n : Nat) (f : Account → Account) (s : State) :
    (modAccount n f s).cache =
      s.cache := by simp only [modAccount]
@[simp] theorem modAccount_store (n : Nat) (f : Account → Account) (s : State) :
    (modAccount n f s).store =
      s.store := by simp only [modAccount]
@[simp] theorem modAccount_ctl (n : Nat) (f : Account → Account) (s : State) :
    (modAccount n f s).ctl =
      { s.ctl with accounts := s.ctl.accounts.modify (n - Config.firstSession) f } := by simp only [modAccount]
@[simp] theorem modAccount_composer (n : Nat) (f : Account → Account) (s : State) :
    (modAccount n f s).composer =
      s.composer := by simp only [modAccount]
@[simp] theorem modAccount_record (n : Nat) (f : Account → Account) (s : State) :
    (modAccount n f s).record =
      s.record := by simp only [modAccount]
@[simp] theorem modAccount_link (n : Nat) (f : Account → Account) (s : State) :
    (modAccount n f s).link =
      s.link := by simp only [modAccount]
@[simp] theorem modAccount_pen (n : Nat) (f : Account → Account) (s : State) :
    (modAccount n f s).pen =
      s.pen := by simp only [modAccount]
@[simp] theorem modAccount_screen (n : Nat) (f : Account → Account) (s : State) :
    (modAccount n f s).screen =
      s.screen := by simp only [modAccount]
@[simp] theorem modAccount_script (n : Nat) (f : Account → Account) (s : State) :
    (modAccount n f s).script =
      s.script := by simp only [modAccount]
@[simp] theorem modAccount_pending (n : Nat) (f : Account → Account) (s : State) :
    (modAccount n f s).pending =
      s.pending := by simp only [modAccount]

/-! ## setDirectory -/

@[simp] theorem setDirectory_straps (d : List DirRecord) (s : State) : (setDirectory d s).straps = s.straps := rfl
@[simp] theorem setDirectory_start (d : List DirRecord) (s : State) : (setDirectory d s).start = s.start := rfl
@[simp] theorem setDirectory_settings (d : List DirRecord) (s : State) :
    (setDirectory d s).settings =
      s.settings := rfl
@[simp] theorem setDirectory_port (d : List DirRecord) (s : State) : (setDirectory d s).port = s.port := rfl
@[simp] theorem setDirectory_portOut (d : List DirRecord) (s : State) : (setDirectory d s).portOut = s.portOut := rfl
@[simp] theorem setDirectory_att (d : List DirRecord) (s : State) : (setDirectory d s).att = s.att := rfl
@[simp] theorem setDirectory_clock (d : List DirRecord) (s : State) : (setDirectory d s).clock = s.clock := rfl
@[simp] theorem setDirectory_scanner (d : List DirRecord) (s : State) : (setDirectory d s).scanner = s.scanner := rfl
@[simp] theorem setDirectory_buttons (d : List DirRecord) (s : State) : (setDirectory d s).buttons = s.buttons := rfl
@[simp] theorem setDirectory_journal (d : List DirRecord) (s : State) : (setDirectory d s).journal = s.journal := rfl
@[simp] theorem setDirectory_trans (d : List DirRecord) (s : State) : (setDirectory d s).trans = s.trans := rfl
@[simp] theorem setDirectory_cache (d : List DirRecord) (s : State) : (setDirectory d s).cache = s.cache := rfl
@[simp] theorem setDirectory_store (d : List DirRecord) (s : State) : (setDirectory d s).store = s.store := rfl
@[simp] theorem setDirectory_ctl (d : List DirRecord) (s : State) :
    (setDirectory d s).ctl =
      { s.ctl with directory := d } := rfl
@[simp] theorem setDirectory_composer (d : List DirRecord) (s : State) :
    (setDirectory d s).composer =
      s.composer := rfl
@[simp] theorem setDirectory_record (d : List DirRecord) (s : State) : (setDirectory d s).record = s.record := rfl
@[simp] theorem setDirectory_link (d : List DirRecord) (s : State) : (setDirectory d s).link = s.link := rfl
@[simp] theorem setDirectory_pen (d : List DirRecord) (s : State) : (setDirectory d s).pen = s.pen := rfl
@[simp] theorem setDirectory_screen (d : List DirRecord) (s : State) : (setDirectory d s).screen = s.screen := rfl
@[simp] theorem setDirectory_script (d : List DirRecord) (s : State) : (setDirectory d s).script = s.script := rfl
@[simp] theorem setDirectory_pending (d : List DirRecord) (s : State) : (setDirectory d s).pending = s.pending := rfl

/-! ## modComp -/

@[simp] theorem modComp_straps (f : Compaction → Compaction) (s : State) : (modComp f s).straps = s.straps := rfl
@[simp] theorem modComp_start (f : Compaction → Compaction) (s : State) : (modComp f s).start = s.start := rfl
@[simp] theorem modComp_settings (f : Compaction → Compaction) (s : State) :
    (modComp f s).settings =
      s.settings := rfl
@[simp] theorem modComp_port (f : Compaction → Compaction) (s : State) : (modComp f s).port = s.port := rfl
@[simp] theorem modComp_portOut (f : Compaction → Compaction) (s : State) : (modComp f s).portOut = s.portOut := rfl
@[simp] theorem modComp_att (f : Compaction → Compaction) (s : State) : (modComp f s).att = s.att := rfl
@[simp] theorem modComp_clock (f : Compaction → Compaction) (s : State) : (modComp f s).clock = s.clock := rfl
@[simp] theorem modComp_scanner (f : Compaction → Compaction) (s : State) : (modComp f s).scanner = s.scanner := rfl
@[simp] theorem modComp_buttons (f : Compaction → Compaction) (s : State) : (modComp f s).buttons = s.buttons := rfl
@[simp] theorem modComp_journal (f : Compaction → Compaction) (s : State) : (modComp f s).journal = s.journal := rfl
@[simp] theorem modComp_trans (f : Compaction → Compaction) (s : State) : (modComp f s).trans = s.trans := rfl
@[simp] theorem modComp_cache (f : Compaction → Compaction) (s : State) : (modComp f s).cache = s.cache := rfl
@[simp] theorem modComp_store (f : Compaction → Compaction) (s : State) : (modComp f s).store = s.store := rfl
@[simp] theorem modComp_ctl (f : Compaction → Compaction) (s : State) :
    (modComp f s).ctl =
      { s.ctl with comp := f s.ctl.comp } := rfl
@[simp] theorem modComp_composer (f : Compaction → Compaction) (s : State) :
    (modComp f s).composer =
      s.composer := rfl
@[simp] theorem modComp_record (f : Compaction → Compaction) (s : State) : (modComp f s).record = s.record := rfl
@[simp] theorem modComp_link (f : Compaction → Compaction) (s : State) : (modComp f s).link = s.link := rfl
@[simp] theorem modComp_pen (f : Compaction → Compaction) (s : State) : (modComp f s).pen = s.pen := rfl
@[simp] theorem modComp_screen (f : Compaction → Compaction) (s : State) : (modComp f s).screen = s.screen := rfl
@[simp] theorem modComp_script (f : Compaction → Compaction) (s : State) : (modComp f s).script = s.script := rfl
@[simp] theorem modComp_pending (f : Compaction → Compaction) (s : State) : (modComp f s).pending = s.pending := rfl

/-! ## snoop -/

@[simp] theorem snoop_straps (k : Key) (s : State) : (snoop k s).straps = s.straps := rfl
@[simp] theorem snoop_start (k : Key) (s : State) : (snoop k s).start = s.start := rfl
@[simp] theorem snoop_settings (k : Key) (s : State) : (snoop k s).settings = s.settings := rfl
@[simp] theorem snoop_port (k : Key) (s : State) : (snoop k s).port = s.port := rfl
@[simp] theorem snoop_portOut (k : Key) (s : State) : (snoop k s).portOut = s.portOut := rfl
@[simp] theorem snoop_att (k : Key) (s : State) : (snoop k s).att = s.att := rfl
@[simp] theorem snoop_clock (k : Key) (s : State) : (snoop k s).clock = s.clock := rfl
@[simp] theorem snoop_scanner (k : Key) (s : State) : (snoop k s).scanner = s.scanner := rfl
@[simp] theorem snoop_buttons (k : Key) (s : State) : (snoop k s).buttons = s.buttons := rfl
@[simp] theorem snoop_journal (k : Key) (s : State) : (snoop k s).journal = s.journal := rfl
@[simp] theorem snoop_trans (k : Key) (s : State) : (snoop k s).trans = s.trans := rfl
@[simp] theorem snoop_cache (k : Key) (s : State) : (snoop k s).cache = s.cache.snoop k := rfl
@[simp] theorem snoop_store (k : Key) (s : State) : (snoop k s).store = s.store := rfl
@[simp] theorem snoop_ctl (k : Key) (s : State) : (snoop k s).ctl = s.ctl := rfl
@[simp] theorem snoop_composer (k : Key) (s : State) : (snoop k s).composer = s.composer := rfl
@[simp] theorem snoop_record (k : Key) (s : State) : (snoop k s).record = s.record := rfl
@[simp] theorem snoop_link (k : Key) (s : State) : (snoop k s).link = s.link := rfl
@[simp] theorem snoop_pen (k : Key) (s : State) : (snoop k s).pen = s.pen := rfl
@[simp] theorem snoop_screen (k : Key) (s : State) : (snoop k s).screen = s.screen := rfl
@[simp] theorem snoop_script (k : Key) (s : State) : (snoop k s).script = s.script := rfl
@[simp] theorem snoop_pending (k : Key) (s : State) : (snoop k s).pending = s.pending := rfl

/-! ## setDirect -/

@[simp] theorem setDirect_straps (d : Direct) (s : State) : (setDirect d s).straps = s.straps := rfl
@[simp] theorem setDirect_start (d : Direct) (s : State) : (setDirect d s).start = s.start := rfl
@[simp] theorem setDirect_settings (d : Direct) (s : State) : (setDirect d s).settings = s.settings := rfl
@[simp] theorem setDirect_port (d : Direct) (s : State) : (setDirect d s).port = s.port := rfl
@[simp] theorem setDirect_portOut (d : Direct) (s : State) : (setDirect d s).portOut = s.portOut := rfl
@[simp] theorem setDirect_att (d : Direct) (s : State) : (setDirect d s).att = s.att := rfl
@[simp] theorem setDirect_clock (d : Direct) (s : State) : (setDirect d s).clock = s.clock := rfl
@[simp] theorem setDirect_scanner (d : Direct) (s : State) : (setDirect d s).scanner = s.scanner := rfl
@[simp] theorem setDirect_buttons (d : Direct) (s : State) : (setDirect d s).buttons = s.buttons := rfl
@[simp] theorem setDirect_journal (d : Direct) (s : State) : (setDirect d s).journal = s.journal := rfl
@[simp] theorem setDirect_trans (d : Direct) (s : State) : (setDirect d s).trans = s.trans := rfl
@[simp] theorem setDirect_cache (d : Direct) (s : State) : (setDirect d s).cache = s.cache := rfl
@[simp] theorem setDirect_store (d : Direct) (s : State) : (setDirect d s).store = s.store := rfl
@[simp] theorem setDirect_ctl (d : Direct) (s : State) : (setDirect d s).ctl = { s.ctl with direct := some d } := rfl
@[simp] theorem setDirect_composer (d : Direct) (s : State) : (setDirect d s).composer = s.composer := rfl
@[simp] theorem setDirect_record (d : Direct) (s : State) : (setDirect d s).record = s.record := rfl
@[simp] theorem setDirect_link (d : Direct) (s : State) : (setDirect d s).link = s.link := rfl
@[simp] theorem setDirect_pen (d : Direct) (s : State) : (setDirect d s).pen = s.pen := rfl
@[simp] theorem setDirect_screen (d : Direct) (s : State) : (setDirect d s).screen = s.screen := rfl
@[simp] theorem setDirect_script (d : Direct) (s : State) : (setDirect d s).script = s.script := rfl
@[simp] theorem setDirect_pending (d : Direct) (s : State) : (setDirect d s).pending = s.pending := rfl

/-! ## answer -/

@[simp] theorem answer_straps (c : RespCode) (l : List Byte) (s : State) :
    (answer c l s).straps =
      s.straps := by unfold answer; split <;> rfl
@[simp] theorem answer_start (c : RespCode) (l : List Byte) (s : State) :
    (answer c l s).start =
      s.start := by unfold answer; split <;> rfl
@[simp] theorem answer_settings (c : RespCode) (l : List Byte) (s : State) :
    (answer c l s).settings =
      s.settings := by unfold answer; split <;> rfl
@[simp] theorem answer_portOut (c : RespCode) (l : List Byte) (s : State) :
    (answer c l s).portOut =
      s.portOut := by unfold answer; split <;> rfl
@[simp] theorem answer_att (c : RespCode) (l : List Byte) (s : State) :
    (answer c l s).att =
      s.att := by unfold answer; split <;> rfl
@[simp] theorem answer_clock (c : RespCode) (l : List Byte) (s : State) :
    (answer c l s).clock =
      s.clock := by unfold answer; split <;> rfl
@[simp] theorem answer_scanner (c : RespCode) (l : List Byte) (s : State) :
    (answer c l s).scanner =
      s.scanner := by unfold answer; split <;> rfl
@[simp] theorem answer_buttons (c : RespCode) (l : List Byte) (s : State) :
    (answer c l s).buttons =
      s.buttons := by unfold answer; split <;> rfl
@[simp] theorem answer_journal (c : RespCode) (l : List Byte) (s : State) :
    (answer c l s).journal =
      s.journal := by unfold answer; split <;> rfl
@[simp] theorem answer_trans (c : RespCode) (l : List Byte) (s : State) :
    (answer c l s).trans =
      s.trans := by unfold answer; split <;> rfl
@[simp] theorem answer_cache (c : RespCode) (l : List Byte) (s : State) :
    (answer c l s).cache =
      s.cache := by unfold answer; split <;> rfl
@[simp] theorem answer_store (c : RespCode) (l : List Byte) (s : State) :
    (answer c l s).store =
      s.store := by unfold answer; split <;> rfl
@[simp] theorem answer_ctl (c : RespCode) (l : List Byte) (s : State) :
    (answer c l s).ctl =
      s.ctl := by unfold answer; split <;> rfl
@[simp] theorem answer_composer (c : RespCode) (l : List Byte) (s : State) :
    (answer c l s).composer =
      s.composer := by unfold answer; split <;> rfl
@[simp] theorem answer_record (c : RespCode) (l : List Byte) (s : State) :
    (answer c l s).record =
      s.record := by unfold answer; split <;> rfl
@[simp] theorem answer_link (c : RespCode) (l : List Byte) (s : State) :
    (answer c l s).link =
      s.link := by unfold answer; split <;> rfl
@[simp] theorem answer_pen (c : RespCode) (l : List Byte) (s : State) :
    (answer c l s).pen =
      s.pen := by unfold answer; split <;> rfl
@[simp] theorem answer_screen (c : RespCode) (l : List Byte) (s : State) :
    (answer c l s).screen =
      s.screen := by unfold answer; split <;> rfl
@[simp] theorem answer_script (c : RespCode) (l : List Byte) (s : State) :
    (answer c l s).script =
      s.script := by unfold answer; split <;> rfl
@[simp] theorem answer_pending (c : RespCode) (l : List Byte) (s : State) :
    (answer c l s).pending =
      s.pending := by unfold answer; split <;> rfl

/-! ## respond -/

@[simp] theorem respond_straps (t : Byte) (c : RespCode) (s : State) : (respond t c s).straps = s.straps := rfl
@[simp] theorem respond_start (t : Byte) (c : RespCode) (s : State) : (respond t c s).start = s.start := rfl
@[simp] theorem respond_settings (t : Byte) (c : RespCode) (s : State) : (respond t c s).settings = s.settings := rfl
@[simp] theorem respond_port (t : Byte) (c : RespCode) (s : State) :
    (respond t c s).port =
      .ready { tag := t, code := c, body := [] } := rfl
@[simp] theorem respond_portOut (t : Byte) (c : RespCode) (s : State) : (respond t c s).portOut = s.portOut := rfl
@[simp] theorem respond_att (t : Byte) (c : RespCode) (s : State) : (respond t c s).att = s.att := rfl
@[simp] theorem respond_clock (t : Byte) (c : RespCode) (s : State) : (respond t c s).clock = s.clock := rfl
@[simp] theorem respond_scanner (t : Byte) (c : RespCode) (s : State) : (respond t c s).scanner = s.scanner := rfl
@[simp] theorem respond_buttons (t : Byte) (c : RespCode) (s : State) : (respond t c s).buttons = s.buttons := rfl
@[simp] theorem respond_journal (t : Byte) (c : RespCode) (s : State) : (respond t c s).journal = s.journal := rfl
@[simp] theorem respond_trans (t : Byte) (c : RespCode) (s : State) : (respond t c s).trans = s.trans := rfl
@[simp] theorem respond_cache (t : Byte) (c : RespCode) (s : State) : (respond t c s).cache = s.cache := rfl
@[simp] theorem respond_store (t : Byte) (c : RespCode) (s : State) : (respond t c s).store = s.store := rfl
@[simp] theorem respond_ctl (t : Byte) (c : RespCode) (s : State) : (respond t c s).ctl = s.ctl := rfl
@[simp] theorem respond_composer (t : Byte) (c : RespCode) (s : State) : (respond t c s).composer = s.composer := rfl
@[simp] theorem respond_record (t : Byte) (c : RespCode) (s : State) : (respond t c s).record = s.record := rfl
@[simp] theorem respond_link (t : Byte) (c : RespCode) (s : State) : (respond t c s).link = s.link := rfl
@[simp] theorem respond_pen (t : Byte) (c : RespCode) (s : State) : (respond t c s).pen = s.pen := rfl
@[simp] theorem respond_screen (t : Byte) (c : RespCode) (s : State) : (respond t c s).screen = s.screen := rfl
@[simp] theorem respond_script (t : Byte) (c : RespCode) (s : State) : (respond t c s).script = s.script := rfl
@[simp] theorem respond_pending (t : Byte) (c : RespCode) (s : State) : (respond t c s).pending = s.pending := rfl

/-! ## refreshScreen -/

/-- R181: refreshing the rows changes the dirty-row set alone. -/
theorem refreshScreen_eq (s : State) : ∃ d, refreshScreen s = { s with screen := { s.screen with dirty := d } } := by
  unfold refreshScreen
  split
  · exact ⟨s.screen.dirty, rfl⟩
  · exact ⟨_, rfl⟩

@[simp] theorem refreshScreen_straps (s : State) :
    (refreshScreen s).straps =
      s.straps := by obtain ⟨d, h⟩ := refreshScreen_eq s; rw [h]
@[simp] theorem refreshScreen_start (s : State) :
    (refreshScreen s).start =
      s.start := by obtain ⟨d, h⟩ := refreshScreen_eq s; rw [h]
@[simp] theorem refreshScreen_settings (s : State) :
    (refreshScreen s).settings =
      s.settings := by obtain ⟨d, h⟩ := refreshScreen_eq s; rw [h]
@[simp] theorem refreshScreen_port (s : State) :
    (refreshScreen s).port =
      s.port := by obtain ⟨d, h⟩ := refreshScreen_eq s; rw [h]
@[simp] theorem refreshScreen_portOut (s : State) :
    (refreshScreen s).portOut =
      s.portOut := by obtain ⟨d, h⟩ := refreshScreen_eq s; rw [h]
@[simp] theorem refreshScreen_att (s : State) :
    (refreshScreen s).att =
      s.att := by obtain ⟨d, h⟩ := refreshScreen_eq s; rw [h]
@[simp] theorem refreshScreen_clock (s : State) :
    (refreshScreen s).clock =
      s.clock := by obtain ⟨d, h⟩ := refreshScreen_eq s; rw [h]
@[simp] theorem refreshScreen_scanner (s : State) :
    (refreshScreen s).scanner =
      s.scanner := by obtain ⟨d, h⟩ := refreshScreen_eq s; rw [h]
@[simp] theorem refreshScreen_buttons (s : State) :
    (refreshScreen s).buttons =
      s.buttons := by obtain ⟨d, h⟩ := refreshScreen_eq s; rw [h]
@[simp] theorem refreshScreen_journal (s : State) :
    (refreshScreen s).journal =
      s.journal := by obtain ⟨d, h⟩ := refreshScreen_eq s; rw [h]
@[simp] theorem refreshScreen_trans (s : State) :
    (refreshScreen s).trans =
      s.trans := by obtain ⟨d, h⟩ := refreshScreen_eq s; rw [h]
@[simp] theorem refreshScreen_cache (s : State) :
    (refreshScreen s).cache =
      s.cache := by obtain ⟨d, h⟩ := refreshScreen_eq s; rw [h]
@[simp] theorem refreshScreen_store (s : State) :
    (refreshScreen s).store =
      s.store := by obtain ⟨d, h⟩ := refreshScreen_eq s; rw [h]
@[simp] theorem refreshScreen_ctl (s : State) :
    (refreshScreen s).ctl =
      s.ctl := by obtain ⟨d, h⟩ := refreshScreen_eq s; rw [h]
@[simp] theorem refreshScreen_composer (s : State) :
    (refreshScreen s).composer =
      s.composer := by obtain ⟨d, h⟩ := refreshScreen_eq s; rw [h]
@[simp] theorem refreshScreen_record (s : State) :
    (refreshScreen s).record =
      s.record := by obtain ⟨d, h⟩ := refreshScreen_eq s; rw [h]
@[simp] theorem refreshScreen_link (s : State) :
    (refreshScreen s).link =
      s.link := by obtain ⟨d, h⟩ := refreshScreen_eq s; rw [h]
@[simp] theorem refreshScreen_pen (s : State) :
    (refreshScreen s).pen =
      s.pen := by obtain ⟨d, h⟩ := refreshScreen_eq s; rw [h]
@[simp] theorem refreshScreen_script (s : State) :
    (refreshScreen s).script =
      s.script := by obtain ⟨d, h⟩ := refreshScreen_eq s; rw [h]
@[simp] theorem refreshScreen_pending (s : State) :
    (refreshScreen s).pending =
      s.pending := by obtain ⟨d, h⟩ := refreshScreen_eq s; rw [h]

/-- What a refresh leaves of the screen: all but the dirty-row set. -/
@[simp] theorem refreshScreen_rows (s : State) : (refreshScreen s).screen.rows = s.screen.rows := by
  obtain ⟨d, h⟩ := refreshScreen_eq s; rw [h]
@[simp] theorem refreshScreen_view (s : State) : (refreshScreen s).screen.view = s.screen.view := by
  obtain ⟨d, h⟩ := refreshScreen_eq s; rw [h]
@[simp] theorem refreshScreen_newText (s : State) : (refreshScreen s).screen.newText = s.screen.newText := by
  obtain ⟨d, h⟩ := refreshScreen_eq s; rw [h]
@[simp] theorem refreshScreen_pendingStart (s : State) :
    (refreshScreen s).screen.pendingStart = s.screen.pendingStart := by
  obtain ⟨d, h⟩ := refreshScreen_eq s; rw [h]
@[simp] theorem refreshScreen_markRefused (s : State) : (refreshScreen s).screen.markRefused = s.screen.markRefused := by
  obtain ⟨d, h⟩ := refreshScreen_eq s; rw [h]
@[simp] theorem refreshScreen_idle (s : State) : (refreshScreen s).screen.idle = s.screen.idle := by
  obtain ⟨d, h⟩ := refreshScreen_eq s; rw [h]
@[simp] theorem refreshScreen_shown (s : State) : (refreshScreen s).screen.shown = s.screen.shown := by
  obtain ⟨d, h⟩ := refreshScreen_eq s; rw [h]
@[simp] theorem refreshScreen_writing (s : State) : (refreshScreen s).screen.writing = s.screen.writing := by
  obtain ⟨d, h⟩ := refreshScreen_eq s; rw [h]

/-! ## setLines -/

@[simp] theorem setLines_straps (l : List RecLine) (b : Bool) (s : State) :
    (setLines l b s).straps =
      s.straps := refreshScreen_straps _
@[simp] theorem setLines_start (l : List RecLine) (b : Bool) (s : State) :
    (setLines l b s).start =
      s.start := refreshScreen_start _
@[simp] theorem setLines_settings (l : List RecLine) (b : Bool) (s : State) :
    (setLines l b s).settings =
      s.settings := refreshScreen_settings _
@[simp] theorem setLines_port (l : List RecLine) (b : Bool) (s : State) :
    (setLines l b s).port =
      s.port := refreshScreen_port _
@[simp] theorem setLines_portOut (l : List RecLine) (b : Bool) (s : State) :
    (setLines l b s).portOut =
      s.portOut := refreshScreen_portOut _
@[simp] theorem setLines_att (l : List RecLine) (b : Bool) (s : State) :
    (setLines l b s).att =
      s.att := refreshScreen_att _
@[simp] theorem setLines_clock (l : List RecLine) (b : Bool) (s : State) :
    (setLines l b s).clock =
      s.clock := refreshScreen_clock _
@[simp] theorem setLines_scanner (l : List RecLine) (b : Bool) (s : State) :
    (setLines l b s).scanner =
      s.scanner := refreshScreen_scanner _
@[simp] theorem setLines_buttons (l : List RecLine) (b : Bool) (s : State) :
    (setLines l b s).buttons =
      s.buttons := refreshScreen_buttons _
@[simp] theorem setLines_journal (l : List RecLine) (b : Bool) (s : State) :
    (setLines l b s).journal =
      s.journal := refreshScreen_journal _
@[simp] theorem setLines_trans (l : List RecLine) (b : Bool) (s : State) :
    (setLines l b s).trans =
      s.trans := refreshScreen_trans _
@[simp] theorem setLines_cache (l : List RecLine) (b : Bool) (s : State) :
    (setLines l b s).cache =
      s.cache := refreshScreen_cache _
@[simp] theorem setLines_store (l : List RecLine) (b : Bool) (s : State) :
    (setLines l b s).store =
      s.store := refreshScreen_store _
@[simp] theorem setLines_ctl (l : List RecLine) (b : Bool) (s : State) :
    (setLines l b s).ctl =
      s.ctl := refreshScreen_ctl _
@[simp] theorem setLines_composer (l : List RecLine) (b : Bool) (s : State) :
    (setLines l b s).composer =
      s.composer := refreshScreen_composer _
@[simp] theorem setLines_record (l : List RecLine) (b : Bool) (s : State) :
    (setLines l b s).record =
      { s.record with lines := l } := refreshScreen_record _
@[simp] theorem setLines_link (l : List RecLine) (b : Bool) (s : State) :
    (setLines l b s).link =
      s.link := refreshScreen_link _
@[simp] theorem setLines_pen (l : List RecLine) (b : Bool) (s : State) :
    (setLines l b s).pen =
      s.pen := refreshScreen_pen _
@[simp] theorem setLines_script (l : List RecLine) (b : Bool) (s : State) :
    (setLines l b s).script =
      s.script := refreshScreen_script _
@[simp] theorem setLines_pending (l : List RecLine) (b : Bool) (s : State) :
    (setLines l b s).pending =
      s.pending := refreshScreen_pending _

/-! ## setShadow -/

@[simp] theorem setShadow_straps (l : List ShadowLine) (s : State) :
    (setShadow l s).straps =
      s.straps := refreshScreen_straps _
@[simp] theorem setShadow_start (l : List ShadowLine) (s : State) :
    (setShadow l s).start =
      s.start := refreshScreen_start _
@[simp] theorem setShadow_settings (l : List ShadowLine) (s : State) :
    (setShadow l s).settings =
      s.settings := refreshScreen_settings _
@[simp] theorem setShadow_port (l : List ShadowLine) (s : State) :
    (setShadow l s).port =
      s.port := refreshScreen_port _
@[simp] theorem setShadow_portOut (l : List ShadowLine) (s : State) :
    (setShadow l s).portOut =
      s.portOut := refreshScreen_portOut _
@[simp] theorem setShadow_att (l : List ShadowLine) (s : State) :
    (setShadow l s).att =
      s.att := refreshScreen_att _
@[simp] theorem setShadow_clock (l : List ShadowLine) (s : State) :
    (setShadow l s).clock =
      s.clock := refreshScreen_clock _
@[simp] theorem setShadow_scanner (l : List ShadowLine) (s : State) :
    (setShadow l s).scanner =
      s.scanner := refreshScreen_scanner _
@[simp] theorem setShadow_buttons (l : List ShadowLine) (s : State) :
    (setShadow l s).buttons =
      s.buttons := refreshScreen_buttons _
@[simp] theorem setShadow_journal (l : List ShadowLine) (s : State) :
    (setShadow l s).journal =
      s.journal := refreshScreen_journal _
@[simp] theorem setShadow_trans (l : List ShadowLine) (s : State) :
    (setShadow l s).trans =
      s.trans := refreshScreen_trans _
@[simp] theorem setShadow_cache (l : List ShadowLine) (s : State) :
    (setShadow l s).cache =
      s.cache := refreshScreen_cache _
@[simp] theorem setShadow_store (l : List ShadowLine) (s : State) :
    (setShadow l s).store =
      s.store := refreshScreen_store _
@[simp] theorem setShadow_ctl (l : List ShadowLine) (s : State) :
    (setShadow l s).ctl =
      s.ctl := refreshScreen_ctl _
@[simp] theorem setShadow_composer (l : List ShadowLine) (s : State) :
    (setShadow l s).composer =
      { s.composer with shadow := l } := refreshScreen_composer _
@[simp] theorem setShadow_record (l : List ShadowLine) (s : State) :
    (setShadow l s).record =
      s.record := refreshScreen_record _
@[simp] theorem setShadow_link (l : List ShadowLine) (s : State) :
    (setShadow l s).link =
      s.link := refreshScreen_link _
@[simp] theorem setShadow_pen (l : List ShadowLine) (s : State) :
    (setShadow l s).pen =
      s.pen := refreshScreen_pen _
@[simp] theorem setShadow_script (l : List ShadowLine) (s : State) :
    (setShadow l s).script =
      s.script := refreshScreen_script _
@[simp] theorem setShadow_pending (l : List ShadowLine) (s : State) :
    (setShadow l s).pending =
      s.pending := refreshScreen_pending _

/-! ## clockOut -/

@[simp] theorem clockOut_straps (n : Nat) (s : State) : (clockOut n s).straps = s.straps := rfl
@[simp] theorem clockOut_start (n : Nat) (s : State) : (clockOut n s).start = s.start := rfl
@[simp] theorem clockOut_settings (n : Nat) (s : State) : (clockOut n s).settings = s.settings := rfl
@[simp] theorem clockOut_port (n : Nat) (s : State) : (clockOut n s).port = s.port.afterClocks n := rfl
@[simp] theorem clockOut_portOut (n : Nat) (s : State) : (clockOut n s).portOut = (outgoing s.port).take n := rfl
@[simp] theorem clockOut_att (n : Nat) (s : State) : (clockOut n s).att = s.att := rfl
@[simp] theorem clockOut_clock (n : Nat) (s : State) : (clockOut n s).clock = s.clock := rfl
@[simp] theorem clockOut_scanner (n : Nat) (s : State) : (clockOut n s).scanner = s.scanner := rfl
@[simp] theorem clockOut_buttons (n : Nat) (s : State) : (clockOut n s).buttons = s.buttons := rfl
@[simp] theorem clockOut_journal (n : Nat) (s : State) : (clockOut n s).journal = s.journal := rfl
@[simp] theorem clockOut_trans (n : Nat) (s : State) : (clockOut n s).trans = s.trans := rfl
@[simp] theorem clockOut_cache (n : Nat) (s : State) : (clockOut n s).cache = s.cache := rfl
@[simp] theorem clockOut_store (n : Nat) (s : State) : (clockOut n s).store = s.store := rfl
@[simp] theorem clockOut_ctl (n : Nat) (s : State) : (clockOut n s).ctl = s.ctl := rfl
@[simp] theorem clockOut_composer (n : Nat) (s : State) : (clockOut n s).composer = s.composer := rfl
@[simp] theorem clockOut_record (n : Nat) (s : State) : (clockOut n s).record = s.record := rfl
@[simp] theorem clockOut_link (n : Nat) (s : State) : (clockOut n s).link = s.link := rfl
@[simp] theorem clockOut_pen (n : Nat) (s : State) : (clockOut n s).pen = s.pen := rfl
@[simp] theorem clockOut_screen (n : Nat) (s : State) : (clockOut n s).screen = s.screen := rfl
@[simp] theorem clockOut_script (n : Nat) (s : State) : (clockOut n s).script = s.script := rfl
@[simp] theorem clockOut_pending (n : Nat) (s : State) : (clockOut n s).pending = s.pending := rfl

/-! ## Accounts -/

/-- An account changed is the one of its sector alone. -/
theorem modAccount_account (n m : Nat) (f : Account → Account) (s : State) (hn : Config.firstSession ≤ n)
    (hn' : n - Config.firstSession < s.ctl.accounts.length) (hm : Config.firstSession ≤ m) :
    (modAccount n f s).ctl.account m = if m = n then f (s.ctl.account n) else s.ctl.account m := by
  have e : m = n ↔ m - Config.firstSession = n - Config.firstSession := by
    generalize Config.firstSession = c at *; omega
  simp only [e]
  unfold Control.account
  rw [modAccount_ctl]; dsimp only
  generalize n - Config.firstSession = i at *
  generalize m - Config.firstSession = j at *
  simp only [List.getD_eq_getElem?_getD, List.getElem?_modify]
  by_cases h : j = i
  · subst h
    rw [if_pos rfl, List.getElem?_eq_getElem hn']; simp
  · rw [if_neg h]; simp [Ne.symm h]

end Sys2Proof.Machine
end

