-- ==== Sys2Proof/Laws/Rows.lean ====
section
/-! SUPPORT. The dirty-row set stays in ascending order (R181): a row that joins, the first row taken, all rows. -/

namespace Sys2Proof.Machine

theorem rowsAscend_iff (l : List Nat) : rowsAscend l = true ↔ l.Pairwise (fun a b => a < b) := by
  induction l with
  | nil => simp [rowsAscend]
  | cons a l ih =>
    cases l with
    | nil => simp [rowsAscend]
    | cons b l =>
      simp only [rowsAscend, Bool.and_eq_true, decide_eq_true_eq, ih]
      constructor
      · intro ⟨hab, h⟩
        refine List.Pairwise.cons (fun c hc => ?_) h
        rcases List.mem_cons.1 hc with rfl | hc
        · exact hab
        · exact Nat.lt_trans hab ((List.pairwise_cons.1 h).1 c hc)
      · intro h
        exact ⟨(List.pairwise_cons.1 h).1 b (List.mem_cons_self ..), (List.pairwise_cons.1 h).2⟩

theorem mem_insertAsc (n x : Nat) (l : List Nat) : x ∈ insertAsc n l ↔ x = n ∨ x ∈ l := by
  induction l with
  | nil => simp [insertAsc]
  | cons m l ih =>
    unfold insertAsc
    split
    · simp
    · split
      · rename_i h; subst h; simp
      · simp only [List.mem_cons, ih]; exact or_left_comm

theorem insertAsc_ascends (n : Nat) (l : List Nat) (h : rowsAscend l = true) : rowsAscend (insertAsc n l) = true := by
  rw [rowsAscend_iff] at h ⊢
  induction l with
  | nil => simp [insertAsc]
  | cons m l ih =>
    have hm := List.pairwise_cons.1 h
    unfold insertAsc
    split
    · rename_i hlt
      refine List.Pairwise.cons (fun c hc => ?_) h
      rcases List.mem_cons.1 hc with rfl | hc
      · exact hlt
      · exact Nat.lt_trans hlt (hm.1 c hc)
    · split
      · exact h
      · refine List.Pairwise.cons (fun c hc => ?_) (ih hm.2)
        rcases (mem_insertAsc n c l).1 hc with rfl | hc
        · omega
        · exact hm.1 c hc

theorem insertAsc_mem (n : Nat) (l : List Nat) (h : n ∈ l) (hl : rowsAscend l = true) : insertAsc n l = l := by
  induction l with
  | nil => cases h
  | cons m l ih =>
    rw [rowsAscend_iff] at hl
    have hm := List.pairwise_cons.1 hl
    unfold insertAsc
    rcases List.mem_cons.1 h with rfl | hn
    · simp
    · have := hm.1 n hn
      rw [if_neg (by omega), if_neg (by omega), ih hn ((rowsAscend_iff l).2 hm.2)]

theorem insertRows_ascends : ∀ (rows l : List Nat), rowsAscend l = true →
    rowsAscend (rows.foldl (fun d i => insertAsc i d) l) = true
  | [], _, h => h
  | _ :: rows, _, h => insertRows_ascends rows _ (insertAsc_ascends _ _ h)

theorem range_ascends (n : Nat) : rowsAscend (List.range n) = true := by
  rw [rowsAscend_iff]; exact List.pairwise_lt_range

theorem tail_ascends (i : Nat) (l : List Nat) (h : rowsAscend (i :: l) = true) : rowsAscend l = true := by
  rw [rowsAscend_iff] at h ⊢; exact (List.pairwise_cons.1 h).2

/-- The first row is the lowest. -/
theorem head_lowest (i : Nat) (l : List Nat) (h : rowsAscend (i :: l) = true) : ∀ j ∈ l, i < j := by
  rw [rowsAscend_iff] at h; exact (List.pairwise_cons.1 h).1

theorem mem_insertRows (x : Nat) : ∀ (rows l : List Nat),
    x ∈ rows.foldl (fun d i => insertAsc i d) l ↔ x ∈ rows ∨ x ∈ l
  | [], l => by simp
  | n :: rows, l => by
    rw [List.foldl_cons, mem_insertRows x rows, mem_insertAsc, List.mem_cons]
    exact ⟨fun h => h.elim (Or.inl ∘ Or.inr) (fun h => h.elim (Or.inl ∘ Or.inl) Or.inr),
      fun h => h.elim (fun h => h.elim (Or.inr ∘ Or.inl) Or.inl) (Or.inr ∘ Or.inr)⟩

/-- What the law of the rows looks at. -/
def Screen.rowParts (sc : Screen) : Nat × List Nat × Nat := (sc.rows, sc.dirty, sc.shown.length)

theorem Screen.rowsGood_iff (sc : Screen) : sc.rowsGood = true ↔
    rowsAscend sc.dirty = true ∧ (∀ i ∈ sc.dirty, i < sc.rows) ∧ sc.shown.length = sc.rows := by
  simp [Screen.rowsGood, and_assoc]

theorem Screen.rowsGood_congr {a b : Screen} (h : a.rowParts = b.rowParts) (hb : b.rowsGood = true) :
    a.rowsGood = true := by
  simp only [Screen.rowParts, Prod.mk.injEq] at h
  obtain ⟨hr, hd, hs⟩ := h
  rw [Screen.rowsGood_iff, hd, hr, hs, ← Screen.rowsGood_iff]
  exact hb

/-- The rows from the end of the start scan on. -/
theorem Screen.withRows_rowsGood (sc : Screen) (n : Nat) : (sc.withRows n).rowsGood = true := by
  rw [Screen.rowsGood_iff]
  exact ⟨range_ascends n, fun i hi => List.mem_range.1 hi, by simp [Screen.withRows]⟩

/-- The first row taken out of the set. -/
theorem Screen.rowsGood_tail {sc : Screen} {i : Nat} {l : List Nat} (w : Option (Nat × Text)) (hd : sc.dirty = i :: l)
    (h : sc.rowsGood = true) : { sc with dirty := l, writing := w }.rowsGood = true := by
  rw [Screen.rowsGood_iff] at h ⊢
  rw [hd] at h
  exact ⟨tail_ascends i l h.1, fun j hj => h.2.1 j (List.mem_cons_of_mem i hj), h.2.2⟩

theorem refreshScreen_screenGood (s : State) (h : ScreenGood s) : ScreenGood (refreshScreen s) := by
  unfold refreshScreen
  split
  · exact h
  · rw [ScreenGood, Screen.rowsGood_iff] at h ⊢
    refine ⟨insertRows_ascends _ _ h.1, fun i hi => ?_, h.2.2⟩
    rcases (mem_insertRows i _ _).1 hi with hi | hi
    · exact List.mem_range.1 (List.mem_filter.1 hi).1
    · exact h.2.1 i hi

/-- What joins the dirty-row set: the rows of the screen whose content differs from the last one taken. -/
theorem mem_refreshScreen_dirty (s : State) (h : s.start ≠ .storeScan) (i : Nat) :
    i ∈ (refreshScreen s).screen.dirty ↔
      i ∈ s.screen.dirty ∨ (i < s.screen.rows ∧ s.screen.lastContent i ≠ some (rowContent s i)) := by
  unfold refreshScreen
  rw [if_neg h, mem_insertRows, or_comm]
  simp [changedRows]

end Sys2Proof.Machine
end

