-- ==== Sys2Proof/Laws/Keeps.lean ====
section
/-! SUPPORT. What no operation of a block touches or breaks: the waiting commands, the straps, the canonical form of the
store, the law of the journal, the law of the cache, the law of
the rows. Scanner, Record, Composer, Translator and pen side. -/

namespace Sys2Proof.Machine

/-- From `s` to `t` the queue and the straps stay and the four laws are kept. -/
structure Keeps (s t : State) : Prop where
  pending : t.pending = s.pending
  straps : t.straps = s.straps
  store : StoreGood s → StoreGood t
  journal : JournalGood s → JournalGood t
  cache : CacheGood s → CacheGood t
  screen : ScreenGood s → ScreenGood t
  copies : CopiesGood s → CopiesGood t

/-- What the law of the copies looks at. -/
def State.copyParts (s : State) : List DirRecord × Compaction := (s.ctl.directory, s.ctl.comp)

theorem CopiesGood.congr {s t : State} (h : t.copyParts = s.copyParts) (g : CopiesGood s) : CopiesGood t := by
  simp only [State.copyParts, Prod.mk.injEq] at h
  unfold CopiesGood
  rw [h.1, h.2]; exact g

theorem Keeps.refl (s : State) : Keeps s s := ⟨rfl, rfl, id, id, id, id, id⟩

theorem Keeps.trans {s t u : State} (a : Keeps s t) (b : Keeps t u) : Keeps s u :=
  ⟨b.pending.trans a.pending, b.straps.trans a.straps, b.store ∘ a.store, b.journal ∘ a.journal, b.cache ∘ a.cache,
    b.screen ∘ a.screen, b.copies ∘ a.copies⟩

theorem Keeps.after {s t u : State} (b : Keeps t u) (a : Keeps s t) : Keeps s u := a.trans b

/-- The parts are the same. -/
theorem Keeps.same {s t : State}
    (h : t.pending = s.pending ∧ t.straps = s.straps ∧ t.store = s.store ∧ t.journal = s.journal ∧ t.cache = s.cache ∧
      t.screen.rowParts = s.screen.rowParts ∧ t.copyParts = s.copyParts) :
    Keeps s t := by
  obtain ⟨a, b, c, d, e, f, g⟩ := h
  exact ⟨a, b, by unfold StoreGood; rw [c]; exact id, by unfold JournalGood; rw [d]; exact id,
    by unfold CacheGood; rw [e]; exact id, Screen.rowsGood_congr f, CopiesGood.congr g⟩

/-- After what keeps, a change of other fields only. -/
theorem Keeps.next {s t u : State} (a : Keeps s t)
    (h : u.pending = t.pending ∧ u.straps = t.straps ∧ u.store = t.store ∧ u.journal = t.journal ∧ u.cache = t.cache ∧
      u.screen.rowParts = t.screen.rowParts ∧ u.copyParts = t.copyParts) :
    Keeps s u := a.trans (Keeps.same h)

theorem Keeps.ite {c : Prop} [Decidable c] {s a b : State} (ha : Keeps s a) (hb : Keeps s b) :
    Keeps s (if c then a else b) := by split <;> assumption

theorem Keeps.foldl {α : Type} (f : State → α → State) (h : ∀ s a, Keeps s (f s a)) :
    ∀ (l : List α) (s : State), Keeps s (l.foldl f s)
  | [], s => Keeps.refl s
  | a :: l, s => (h s a).trans (Keeps.foldl f h l _)

/-- The journal put in another lawful state. -/
theorem Keeps.ofJournal {s t : State}
    (h : t.pending = s.pending ∧ t.straps = s.straps ∧ t.store = s.store ∧ t.cache = s.cache ∧
      t.screen.rowParts = s.screen.rowParts ∧ t.copyParts = s.copyParts)
    (hj : s.journal.lawful = true → t.journal.lawful = true) : Keeps s t := by
  obtain ⟨a, b, c, e, f, g⟩ := h
  exact ⟨a, b, by unfold StoreGood; rw [c]; exact id, hj, by unfold CacheGood; rw [e]; exact id,
    Screen.rowsGood_congr f, CopiesGood.congr g⟩

/-- The cache put in another lawful state. -/
theorem Keeps.ofCache {s t : State}
    (h : t.pending = s.pending ∧ t.straps = s.straps ∧ t.store = s.store ∧ t.journal = s.journal ∧
      t.screen.rowParts = s.screen.rowParts ∧ t.copyParts = s.copyParts)
    (hc : s.cache.good → t.cache.good) : Keeps s t := by
  obtain ⟨a, b, c, d, f, g⟩ := h
  exact ⟨a, b, by unfold StoreGood; rw [c]; exact id, by unfold JournalGood; rw [d]; exact id, hc,
    Screen.rowsGood_congr f, CopiesGood.congr g⟩

/-- The store put in another good state. -/
theorem Keeps.ofStore {s t : State}
    (h : t.pending = s.pending ∧ t.straps = s.straps ∧ t.journal = s.journal ∧ t.cache = s.cache ∧
      t.screen.rowParts = s.screen.rowParts ∧ t.copyParts = s.copyParts)
    (hm : s.store.wf = true → t.store.wf = true) : Keeps s t := by
  obtain ⟨a, b, d, e, f, g⟩ := h
  exact ⟨a, b, hm, by unfold JournalGood; rw [d]; exact id, by unfold CacheGood; rw [e]; exact id,
    Screen.rowsGood_congr f, CopiesGood.congr g⟩

/-- The dirty-row set put in another lawful state. -/
theorem Keeps.ofScreen {s t : State}
    (h : t.pending = s.pending ∧ t.straps = s.straps ∧ t.store = s.store ∧ t.journal = s.journal ∧ t.cache = s.cache ∧
      t.copyParts = s.copyParts)
    (hs : ScreenGood s → ScreenGood t) : Keeps s t := by
  obtain ⟨a, b, c, d, e, g⟩ := h
  exact ⟨a, b, by unfold StoreGood; rw [c]; exact id, by unfold JournalGood; rw [d]; exact id,
    by unfold CacheGood; rw [e]; exact id, hs, CopiesGood.congr g⟩

/-- The directory and compaction put in another lawful state. -/
theorem Keeps.ofCopies {s t : State}
    (h : t.pending = s.pending ∧ t.straps = s.straps ∧ t.store = s.store ∧ t.journal = s.journal ∧ t.cache = s.cache ∧
      t.screen.rowParts = s.screen.rowParts)
    (hc : CopiesGood s → CopiesGood t) : Keeps s t := by
  obtain ⟨a, b, c, d, e, f⟩ := h
  exact ⟨a, b, by unfold StoreGood; rw [c]; exact id, by unfold JournalGood; rw [d]; exact id,
    by unfold CacheGood; rw [e]; exact id, Screen.rowsGood_congr f, hc⟩

theorem raise_keeps (c : Cause) (s : State) : Keeps s (raise c s) := Keeps.same ⟨rfl, rfl, rfl, rfl, rfl, rfl, rfl⟩

theorem raiseIf_keeps (b : Bool) (c : Cause) (s : State) : Keeps s (raiseIf b c s) := by
  cases b
  · exact Keeps.refl s
  · exact raise_keeps c s

theorem refreshScreen_keeps (s : State) : Keeps s (refreshScreen s) := by
  refine Keeps.ofScreen ?_ (refreshScreen_screenGood s)
  obtain ⟨d, h⟩ := refreshScreen_eq s
  rw [h]; exact ⟨rfl, rfl, rfl, rfl, rfl, rfl⟩

theorem noteFault_keeps (k : FaultKind) (n w : Nat) (s : State) : Keeps s (noteFault k n w s) :=
  Keeps.after (raiseIf_keeps _ _ _) (Keeps.same ⟨rfl, rfl, rfl, rfl, rfl, rfl, rfl⟩)

/-! ## Key Scanner -/

theorem handStroke_keeps (k : Stroke) (s : State) : Keeps s (handStroke k s) :=
  Keeps.after (raiseIf_keeps _ _ _) (Keeps.ofJournal ⟨rfl, rfl, rfl, rfl, rfl, rfl⟩ (Journal.offer_lawful s.journal k))

theorem takeDueKeys_keeps (s : State) : Keeps s (takeDueKeys s) := by
  unfold takeDueKeys
  refine Keeps.ite (Keeps.refl s) ?_
  dsimp only
  split
  · exact Keeps.same ⟨rfl, rfl, rfl, rfl, rfl, rfl, rfl⟩
  · exact Keeps.after (handStroke_keeps _ _) (Keeps.same ⟨rfl, rfl, rfl, rfl, rfl, rfl, rfl⟩)

/-! ## Record Store and Composer -/

@[simp] theorem Screen.afterRecord_rowParts (sc : Screen) (oldest last : Nat) (o : Bool) :
    (sc.afterRecord oldest last o).rowParts = sc.rowParts := by
  unfold Screen.afterRecord
  split <;> rfl

theorem setLines_keeps (ls : List RecLine) (o : Bool) (s : State) : Keeps s (setLines ls o s) :=
  Keeps.after (refreshScreen_keeps _) (Keeps.same ⟨rfl, rfl, rfl, rfl, rfl, Screen.afterRecord_rowParts _ _ _ _, rfl⟩)

theorem setShadow_keeps (ls : List ShadowLine) (s : State) : Keeps s (setShadow ls s) :=
  Keeps.after (refreshScreen_keeps _) (Keeps.same ⟨rfl, rfl, rfl, rfl, rfl, rfl, rfl⟩)

theorem applyToRecord_keeps (b : ItemBody) (e : Epoch) (s : State) : Keeps s (applyToRecord b e s) := setLines_keeps _ _ s

theorem fillRecord_keeps (p : Pos) (e : Epoch) (s : State) : Keeps s (fillRecord p e s) := setLines_keeps _ _ s

theorem applyMark_keeps (m : MarkItem) (s : State) : Keeps s (applyMark m s) :=
  Keeps.after (raiseIf_keeps _ _ _) (Keeps.after (refreshScreen_keeps _) (Keeps.same ⟨rfl, rfl, rfl, rfl, rfl, rfl, rfl⟩))

theorem queueItem_keeps (t : LinkTime) (b : ItemBody) (s : State) : Keeps s (queueItem t b s) := by
  unfold queueItem
  exact Keeps.ite (Keeps.refl s) (Keeps.after (applyToRecord_keeps _ _ _) (Keeps.same ⟨rfl, rfl, rfl, rfl, rfl, rfl, rfl⟩))

theorem queueItems_keeps (t : LinkTime) : ∀ (l : List ItemBody) (s : State), Keeps s (queueItems t l s)
  | [], s => Keeps.refl s
  | b :: l, s => (queueItem_keeps t b s).trans (queueItems_keeps t l _)

theorem askClose_keeps (b : Bool) (s : State) : Keeps s (askClose b s) := by
  cases b <;> exact Keeps.same ⟨rfl, rfl, rfl, rfl, rfl, rfl, rfl⟩

theorem placeUnit_keeps (u : TransUnit) (s : State) : Keeps s (placeUnit u s) := by
  unfold placeUnit
  dsimp only
  refine Keeps.next (t := if s.composer.mode = .publish then _ else _) ?_ ⟨rfl, rfl, rfl, rfl, rfl, rfl, rfl⟩
  exact Keeps.ite ((queueItems_keeps _ _ s).trans (askClose_keeps _ _))
    (Keeps.foldl _ (fun t _ => setShadow_keeps _ t) _ s)

theorem placeCut_keeps (p : Pos) (f : FormatState) (t : LinkTime) (s : State) : Keeps s (placeCut p f t s) := by
  unfold placeCut
  dsimp only
  refine Keeps.next (t := if s.composer.mode = .publish then _ else _) ?_ ⟨rfl, rfl, rfl, rfl, rfl, rfl, rfl⟩
  exact Keeps.ite (queueItem_keeps _ _ s) (setShadow_keeps _ s)

/-! ## Translator -/

theorem releaseCancel_keeps (s : State) : Keeps s (releaseCancel s) := Keeps.same ⟨rfl, rfl, rfl, rfl, rfl, rfl, rfl⟩

theorem releaseDone_keeps (t : LinkTime) (s : State) : Keeps s (releaseDone t s) := by
  unfold releaseDone
  refine Keeps.ite (Keeps.refl s) ?_
  split
  · exact Keeps.same ⟨rfl, rfl, rfl, rfl, rfl, rfl, rfl⟩
  · exact Keeps.after (releaseCancel_keeps _) (Keeps.same ⟨rfl, rfl, rfl, rfl, rfl, rfl, rfl⟩)

theorem handOverNow_keeps (h : HandOver) (s : State) : Keeps s (handOverNow h s) := by
  cases h with
  | unit u => exact (placeUnit_keeps u s).next ⟨rfl, rfl, rfl, rfl, rfl, rfl, rfl⟩
  | cut p f again => exact (placeCut_keeps p f _ s).next ⟨rfl, rfl, rfl, rfl, rfl, rfl, rfl⟩

theorem handOver_keeps (h : HandOver) (s : State) : Keeps s (handOver h s) := by
  unfold handOver
  exact Keeps.ite (Keeps.same ⟨rfl, rfl, rfl, rfl, rfl, rfl, rfl⟩) (handOverNow_keeps h s)

theorem resolveRun_keeps (s : State) : Keeps s (resolveRun s) := by
  unfold resolveRun
  exact Keeps.ite (Keeps.refl s) (Keeps.after (handOver_keeps _ _) (Keeps.same ⟨rfl, rfl, rfl, rfl, rfl, rfl, rfl⟩))

theorem reportRelease_keeps (s : State) : Keeps s (reportRelease s) := by
  unfold reportRelease
  exact Keeps.ite (Keeps.after (releaseDone_keeps _ _) (Keeps.same ⟨rfl, rfl, rfl, rfl, rfl, rfl, rfl⟩)) (Keeps.refl s)

theorem releaseCheck_keeps (s : State) : Keeps s (releaseCheck s) := by
  unfold releaseCheck
  exact Keeps.ite ((resolveRun_keeps s).trans (reportRelease_keeps _)) (Keeps.refl s)

theorem startReplay_keeps (c : LinkTime) (s : State) : Keeps s (startReplay c s) :=
  Keeps.after (refreshScreen_keeps _) (Keeps.ofJournal ⟨rfl, rfl, rfl, rfl, rfl, rfl⟩ (Journal.search_lawful s.journal c))

theorem actOnGrant_keeps (c : LinkTime) (s : State) : Keeps s (actOnGrant c s) := by
  unfold actOnGrant
  exact Keeps.ite (Keeps.same ⟨rfl, rfl, rfl, rfl, rfl, rfl, rfl⟩) (startReplay_keeps c s)

theorem lookupDone_keeps (a : Answer) (s : State) : Keeps s (lookupDone a s) := by
  unfold lookupDone
  split
  · dsimp only
    refine Keeps.trans ?_ (releaseCheck_keeps _)
    split
    · exact Keeps.after (actOnGrant_keeps _ _) (Keeps.same ⟨rfl, rfl, rfl, rfl, rfl, rfl, rfl⟩)
    · exact Keeps.same ⟨rfl, rfl, rfl, rfl, rfl, rfl, rfl⟩
  · dsimp only
    refine Keeps.trans ?_ (releaseCheck_keeps _)
    exact Keeps.ite (Keeps.same ⟨rfl, rfl, rfl, rfl, rfl, rfl, rfl⟩)
      (Keeps.after (resolveRun_keeps _) (Keeps.same ⟨rfl, rfl, rfl, rfl, rfl, rfl, rfl⟩))

theorem examine_keeps (k : Key) (s : State) : Keeps s (examine k s) := by
  unfold examine
  dsimp only
  split
  · refine Keeps.after (lookupDone_keeps _ _) (Keeps.ofCache ⟨rfl, rfl, rfl, rfl, rfl, rfl⟩ (fun h => ?_))
    exact Cache.good_path (Cache.hit_good _ k (Cache.checkSet_good _ k h)) _
  · exact Keeps.ofCache ⟨rfl, rfl, rfl, rfl, rfl, rfl⟩ (fun h => Cache.good_path (Cache.checkSet_good _ k h) _)

theorem issueLookup_keeps (s : State) : Keeps s (issueLookup s) := by
  unfold issueLookup
  dsimp only
  exact Keeps.ite (Keeps.ofCache ⟨rfl, rfl, rfl, rfl, rfl, rfl⟩ (fun h => Cache.good_path h _))
    (Keeps.after (examine_keeps _ _) (Keeps.same ⟨rfl, rfl, rfl, rfl, rfl, rfl, rfl⟩))

theorem retestHeld_keeps (s : State) : Keeps s (retestHeld s) := by
  unfold retestHeld
  split
  · exact Keeps.ite (Keeps.refl s) (examine_keeps _ s)
  · exact Keeps.refl s

theorem retractUnit_keeps (s : State) : Keeps s (retractUnit s) := by
  unfold retractUnit
  split
  · exact Keeps.after (handOver_keeps _ _) (Keeps.same ⟨rfl, rfl, rfl, rfl, rfl, rfl, rfl⟩)
  · exact Keeps.refl s

theorem useStroke_keeps (k : Stroke) (s : State) : Keeps s (useStroke k s) := by
  unfold useStroke
  dsimp only
  refine Keeps.ite (Keeps.ite ?_ ?_) ?_
  · exact Keeps.after (retractUnit_keeps _) (Keeps.same ⟨rfl, rfl, rfl, rfl, rfl, rfl, rfl⟩)
  · exact Keeps.same ⟨rfl, rfl, rfl, rfl, rfl, rfl, rfl⟩
  · exact Keeps.after (issueLookup_keeps _) (Keeps.same ⟨rfl, rfl, rfl, rfl, rfl, rfl, rfl⟩)

theorem takeStroke_keeps (s : State) : Keeps s (takeStroke s) := by
  unfold takeStroke
  refine Keeps.ite (Keeps.refl s) ?_
  split
  · exact Keeps.after (releaseCheck_keeps _) (Keeps.after (useStroke_keeps _ _) (Keeps.same ⟨rfl, rfl, rfl, rfl, rfl, rfl, rfl⟩))
  · refine Keeps.ite (Keeps.refl s) ?_
    split
    · next k hk =>
      exact Keeps.after (useStroke_keeps _ _) (Keeps.ofJournal ⟨rfl, rfl, rfl, rfl, rfl, rfl⟩ (Journal.advance_lawful s.journal k hk))
    · exact Keeps.refl s

theorem settleExpiry_keeps (s : State) : Keeps s (settleExpiry s) := by
  unfold settleExpiry
  exact Keeps.ite ((resolveRun_keeps s).trans (releaseCheck_keeps _)) (Keeps.refl s)

theorem spaceFree_keeps (s : State) : Keeps s (spaceFree s) := by
  unfold spaceFree
  split
  · exact Keeps.ite (Keeps.after (releaseCheck_keeps _)
      (Keeps.after (handOverNow_keeps _ _) (Keeps.same ⟨rfl, rfl, rfl, rfl, rfl, rfl, rfl⟩))) (Keeps.refl s)
  · exact Keeps.refl s

theorem penGrant_keeps (c : LinkTime) (s : State) : Keeps s (penGrant c s) := by
  unfold penGrant
  dsimp only
  exact Keeps.ite (Keeps.refl s) (Keeps.ite (Keeps.same ⟨rfl, rfl, rfl, rfl, rfl, rfl, rfl⟩)
    (Keeps.after (actOnGrant_keeps _ _) (Keeps.same ⟨rfl, rfl, rfl, rfl, rfl, rfl, rfl⟩)))

theorem catchUpComplete_keeps (s : State) : Keeps s (catchUpComplete s) := by
  unfold catchUpComplete
  split
  · exact Keeps.ite (startReplay_keeps _ s) (Keeps.refl s)
  · exact Keeps.refl s

theorem transLoss_keeps (s : State) : Keeps s (transLoss s) := by
  unfold transLoss
  dsimp only
  have h : Keeps s (refreshScreen { s with trans := s.trans.afterLoss, composer := s.composer.leavePublish }) :=
    Keeps.after (refreshScreen_keeps _) (Keeps.same ⟨rfl, rfl, rfl, rfl, rfl, rfl, rfl⟩)
  split
  · exact h.trans (handOverNow_keeps _ _)
  · exact h.next ⟨rfl, rfl, rfl, rfl, rfl, rfl, rfl⟩
  · exact h

theorem releaseForPass_keeps (s : State) : Keeps s (releaseForPass s) := by
  unfold releaseForPass
  exact Keeps.ite (Keeps.after (releaseCheck_keeps _) (Keeps.same ⟨rfl, rfl, rfl, rfl, rfl, rfl, rfl⟩)) (Keeps.refl s)

theorem sessionReset_keeps (s : State) : Keeps s (sessionReset s) :=
  Keeps.after (refreshScreen_keeps _) (Keeps.same ⟨rfl, rfl, rfl, rfl, rfl, rfl, rfl⟩)

/-! ## Pen side -/

theorem beginPass_keeps (s : State) : Keeps s (beginPass s) := by
  unfold beginPass
  exact Keeps.ite (releaseForPass_keeps s) (Keeps.refl s)

theorem enterReleasing_keeps (s : State) : Keeps s (enterReleasing s) := by
  unfold enterReleasing
  dsimp only
  exact Keeps.ite (Keeps.after (beginPass_keeps _) (Keeps.same ⟨rfl, rfl, rfl, rfl, rfl, rfl, rfl⟩))
    (Keeps.same ⟨rfl, rfl, rfl, rfl, rfl, rfl, rfl⟩)

theorem releasingReturn_keeps (s : State) : Keeps s (releasingReturn s) := by
  unfold releasingReturn
  exact Keeps.ite (Keeps.after (releaseCancel_keeps _) (Keeps.same ⟨rfl, rfl, rfl, rfl, rfl, rfl, rfl⟩)) (Keeps.refl s)

theorem headerToPen_keeps (h : Header) (s : State) : Keeps s (headerToPen h s) := by
  unfold headerToPen
  exact Keeps.ite (enterReleasing_keeps s) (releasingReturn_keeps s)

theorem relief_keeps (s : State) : Keeps s (relief s) := by
  unfold relief
  split
  · exact Keeps.same ⟨rfl, rfl, rfl, rfl, rfl, rfl, rfl⟩
  · split
    · exact Keeps.ite (Keeps.refl s) (Keeps.same ⟨rfl, rfl, rfl, rfl, rfl, rfl, rfl⟩)
    · exact Keeps.same ⟨rfl, rfl, rfl, rfl, rfl, rfl, rfl⟩
  · exact beginPass_keeps s
  · exact Keeps.refl s

theorem handoffQuiet_keeps (s : State) : Keeps s (handoffQuiet s) := by
  unfold handoffQuiet
  exact Keeps.ite (beginPass_keeps s) (Keeps.refl s)

theorem queuePass_keeps (s : State) : Keeps s (queuePass s) := by
  unfold queuePass
  split
  · exact Keeps.ite (Keeps.after (transLoss_keeps _) ((queueItem_keeps _ _ s).next ⟨rfl, rfl, rfl, rfl, rfl, rfl, rfl⟩))
      (Keeps.refl s)
  · exact Keeps.refl s

theorem openSession_keeps (s : State) : Keeps s (openSession s) := by
  unfold openSession
  exact Keeps.next (t := sessionReset { s with journal := Journal.emptied }) (Keeps.after (sessionReset_keeps _)
    (Keeps.ofJournal ⟨rfl, rfl, rfl, rfl, rfl, rfl⟩ (fun _ => Journal.emptied_lawful))) ⟨rfl, rfl, rfl, rfl, rfl, rfl, rfl⟩

theorem leaveSession_keeps (s : State) : Keeps s (leaveSession s) := Keeps.same ⟨rfl, rfl, rfl, rfl, rfl, rfl, rfl⟩

theorem closeAsHolder_keeps (s : State) : Keeps s (closeAsHolder s) :=
  Keeps.after (releaseForPass_keeps _) (Keeps.same ⟨rfl, rfl, rfl, rfl, rfl, rfl, rfl⟩)

theorem penLoss_keeps (q o : Bool) (s : State) : Keeps s (penLoss q o s) := by
  unfold penLoss
  split
  · exact Keeps.refl s
  · refine Keeps.ite (Keeps.trans ?_ (raiseIf_keeps _ _ _)) (Keeps.refl s)
    exact Keeps.ite (Keeps.same ⟨rfl, rfl, rfl, rfl, rfl, rfl, rfl⟩)
      (Keeps.after (transLoss_keeps _) (Keeps.same ⟨rfl, rfl, rfl, rfl, rfl, rfl, rfl⟩))

theorem applyItem_keeps (i : Item) (s : State) : Keeps s (applyItem i s) :=
  Keeps.after (applyToRecord_keeps _ _ _) (Keeps.same ⟨rfl, rfl, rfl, rfl, rfl, rfl, rfl⟩)

theorem drainReorder_keeps : ∀ (l : List Item) (s : State), Keeps s (drainReorder l s)
  | [], s => Keeps.same ⟨rfl, rfl, rfl, rfl, rfl, rfl, rfl⟩
  | i :: l, s => by
    unfold drainReorder
    exact Keeps.ite ((applyItem_keeps i s).trans (drainReorder_keeps l _)) (Keeps.same ⟨rfl, rfl, rfl, rfl, rfl, rfl, rfl⟩)

theorem adoptEpoch_keeps (b : Beacon) (s : State) : Keeps s (adoptEpoch b s) := by
  unfold adoptEpoch
  dsimp only
  refine Keeps.after (drainReorder_keeps _ _) (Keeps.next (t := if posLt b.startPos s.record.endPos = true then _ else s) ?_
    ⟨rfl, rfl, rfl, rfl, rfl, rfl, rfl⟩)
  exact Keeps.ite (applyToRecord_keeps _ _ s) (Keeps.refl s)

theorem closingRelease_keeps (s : State) : Keeps s (closingRelease s) := by
  unfold closingRelease
  exact Keeps.ite (releaseForPass_keeps s) (Keeps.refl s)

theorem takeGrant_keeps (b : Beacon) (n : Nat) (s : State) : Keeps s (takeGrant b n s) :=
  Keeps.after (closingRelease_keeps _) (Keeps.after (penGrant_keeps _ _)
    (Keeps.after (refreshScreen_keeps _) (Keeps.same ⟨rfl, rfl, rfl, rfl, rfl, rfl, rfl⟩)))

theorem newEpochTaken_keeps (b : Beacon) (s : State) : Keeps s (newEpochTaken b s) := by
  unfold newEpochTaken
  dsimp only
  exact Keeps.ite (Keeps.after (takeGrant_keeps _ _ _)
    (Keeps.after (adoptEpoch_keeps b _) (Keeps.same ⟨rfl, rfl, rfl, rfl, rfl, rfl, rfl⟩))) (adoptEpoch_keeps b s)

theorem voidPass_keeps (b : Beacon) (s : State) : Keeps s (voidPass b s) := by
  unfold voidPass
  split
  · refine Keeps.ite (Keeps.ite ?_ ?_) (Keeps.refl s)
    · exact Keeps.after (penGrant_keeps _ _) (Keeps.same ⟨rfl, rfl, rfl, rfl, rfl, rfl, rfl⟩)
    · exact Keeps.same ⟨rfl, rfl, rfl, rfl, rfl, rfl, rfl⟩
  · exact Keeps.refl s

theorem adoptSession_keeps (b : Beacon) (s : State) : Keeps s (adoptSession b s) := by
  unfold adoptSession
  dsimp only
  refine Keeps.trans (Keeps.trans ?_ (refreshScreen_keeps _)) (raise_keeps _ _)
  refine Keeps.next (t := sessionReset
    (if b.holder = some s.straps.station then s else { s with journal := Journal.emptied })) ?_
    ⟨rfl, rfl, rfl, rfl, rfl, rfl, rfl⟩
  exact Keeps.after (sessionReset_keeps _)
    (Keeps.ite (Keeps.refl s) (Keeps.ofJournal ⟨rfl, rfl, rfl, rfl, rfl, rfl⟩ (fun _ => Journal.emptied_lawful)))

theorem sessionTaken_keeps (b : Beacon) (s : State) : Keeps s (sessionTaken b s) := by
  unfold sessionTaken
  dsimp only
  exact Keeps.ite ((adoptSession_keeps b s).trans (takeGrant_keeps _ _ _)) (adoptSession_keeps b s)

theorem sessionZero_keeps (s : State) : Keeps s (sessionZero s) := by
  unfold sessionZero
  dsimp only
  exact Keeps.ite (Keeps.same ⟨rfl, rfl, rfl, rfl, rfl, rfl, rfl⟩)
    (Keeps.after (raise_keeps _ _) (Keeps.same ⟨rfl, rfl, rfl, rfl, rfl, rfl, rfl⟩))

theorem followedBeacon_keeps (b : Beacon) (s : State) : Keeps s (followedBeacon b s) := by
  unfold followedBeacon
  exact Keeps.ite (newEpochTaken_keeps b s) ((voidPass_keeps b s).trans (releasingReturn_keeps _))

theorem sessionOfBeacon_keeps (b : Beacon) (s : State) : Keeps s (sessionOfBeacon b s) := by
  unfold sessionOfBeacon
  exact Keeps.ite (sessionZero_keeps s)
    (Keeps.ite (followedBeacon_keeps b s) (Keeps.ite (Keeps.refl s) (sessionTaken_keeps b s)))

theorem beaconToPen_keeps (o : Option Beacon) (b : Beacon) (s : State) : Keeps s (beaconToPen o b s) := by
  unfold beaconToPen
  dsimp only
  refine Keeps.next (Keeps.trans ?_ (sessionOfBeacon_keeps b _)) ⟨rfl, rfl, rfl, rfl, rfl, rfl, rfl⟩
  exact Keeps.ite ((raiseIf_keeps _ _ s).trans (penLoss_keeps _ _ _)) (raiseIf_keeps _ _ s)

theorem itemIn_keeps (i : Item) (s : State) : Keeps s (itemIn i s) := by
  unfold itemIn
  dsimp only
  exact Keeps.ite ((applyItem_keeps i s).trans (drainReorder_keeps _ _))
    (Keeps.ite (Keeps.refl s) (Keeps.same ⟨rfl, rfl, rfl, rfl, rfl, rfl, rfl⟩))

theorem gapIn_keeps (g : GapItem) (s : State) : Keeps s (gapIn g s) := by
  unfold gapIn
  exact Keeps.ite (Keeps.after (drainReorder_keeps _ _) (Keeps.same ⟨rfl, rfl, rfl, rfl, rfl, rfl, rfl⟩)) (Keeps.refl s)

theorem catchUp_keeps (s : State) : Keeps s (catchUp s) := by
  unfold catchUp
  dsimp only
  exact Keeps.ite
    (Keeps.after (closingRelease_keeps _) (Keeps.after (catchUpComplete_keeps _)
      (Keeps.next (t := fillRecord s.pen.startPos s.pen.epoch (countApplied (max s.pen.applied (s.pen.startRsn - 1)) s))
        (Keeps.after (fillRecord_keeps _ _ _) (Keeps.same ⟨rfl, rfl, rfl, rfl, rfl, rfl, rfl⟩)) ⟨rfl, rfl, rfl, rfl, rfl, rfl, rfl⟩)))
    (Keeps.refl s)

end Sys2Proof.Machine
end

