-- ==== Sys2Proof/Laws/PenSide.lean ====
section
/-! SUPPORT. The operations of the pen and of the record stream leave the store, the controller, the cache, the carrier side of the Link, the port and the lines as they were. -/

namespace Sys2Proof.Machine

/-- The parts that `PenSide` says stay. -/
def State.besidePen (s : State) :
    Straps × StartState × Settings × PortState × List Byte × Clock × Scanner × Buttons × Cache × Memory × Control × Link × StoreScript × List Instr :=
  (s.straps, s.start, s.settings, s.port, s.portOut, s.clock, s.scanner, s.buttons, s.cache, s.store, s.ctl, s.link, s.script, s.pending)

theorem PenSide.same {s t : State} (h : t.besidePen = s.besidePen) : PenSide s t := by
  simp only [State.besidePen, Prod.mk.injEq] at h
  obtain ⟨h0, h1, h2, h3, h4, h5, h6, h7, h8, h9, h10, h11, h12, h13⟩ := h
  constructor <;> assumption

theorem PenSide.eqs {s t : State} (h : PenSide s t) : t.besidePen = s.besidePen := by
  obtain ⟨h0, h1, h2, h3, h4, h5, h6, h7, h8, h9, h10, h11, h12, h13⟩ := h
  simp only [State.besidePen, h0, h1, h2, h3, h4, h5, h6, h7, h8, h9, h10, h11, h12, h13]

theorem PenSide.refl (s : State) : PenSide s s := PenSide.same rfl

theorem PenSide.trans {s t u : State} (a : PenSide s t) (b : PenSide t u) : PenSide s u := PenSide.same (b.eqs.trans a.eqs)

theorem PenSide.after {s t u : State} (b : PenSide t u) (a : PenSide s t) : PenSide s u := a.trans b

theorem PenSide.next {s t u : State} (a : PenSide s t) (h : u.besidePen = t.besidePen) : PenSide s u := a.trans (PenSide.same h)

theorem PenSide.ite {c : Prop} [Decidable c] {s a b : State} (ha : PenSide s a) (hb : PenSide s b) : PenSide s (if c then a else b) := by
  split <;> assumption

theorem PenSide.foldl {α : Type} (f : State → α → State) (h : ∀ s a, PenSide s (f s a)) : ∀ (l : List α) (s : State), PenSide s (l.foldl f s)
  | [], s => PenSide.refl s
  | a :: l, s => (h s a).trans (PenSide.foldl f h l _)

theorem raise_penSide (c : Cause) (s : State) : PenSide s (raise c s) := PenSide.same rfl

theorem raiseIf_penSide (b : Bool) (c : Cause) (s : State) : PenSide s (raiseIf b c s) := by
  cases b
  · exact PenSide.refl s
  · exact raise_penSide c s

theorem refreshScreen_penSide (s : State) : PenSide s (refreshScreen s) := by
  obtain ⟨d, h⟩ := refreshScreen_eq s
  rw [h]; exact PenSide.same rfl

theorem setLines_penSide (ls : List RecLine) (o : Bool) (s : State) : PenSide s (setLines ls o s) :=
  PenSide.after (refreshScreen_penSide _) (PenSide.same rfl)

theorem setShadow_penSide (ls : List ShadowLine) (s : State) : PenSide s (setShadow ls s) :=
  PenSide.after (refreshScreen_penSide _) (PenSide.same rfl)

theorem applyToRecord_penSide (b : ItemBody) (e : Epoch) (s : State) : PenSide s (applyToRecord b e s) := setLines_penSide _ _ s

theorem fillRecord_penSide (p : Pos) (e : Epoch) (s : State) : PenSide s (fillRecord p e s) := setLines_penSide _ _ s

theorem applyMark_penSide (m : MarkItem) (s : State) : PenSide s (applyMark m s) :=
  PenSide.after (raiseIf_penSide _ _ _) (PenSide.after (refreshScreen_penSide _) (PenSide.same rfl))

theorem queueItem_penSide (t : LinkTime) (b : ItemBody) (s : State) : PenSide s (queueItem t b s) := by
  unfold queueItem
  exact PenSide.ite (PenSide.refl s) (PenSide.after (applyToRecord_penSide _ _ _) (PenSide.same rfl))

theorem queueItems_penSide (t : LinkTime) : ∀ (l : List ItemBody) (s : State), PenSide s (queueItems t l s)
  | [], s => PenSide.refl s
  | b :: l, s => (queueItem_penSide t b s).trans (queueItems_penSide t l _)

theorem askClose_penSide (b : Bool) (s : State) : PenSide s (askClose b s) := by
  cases b <;> exact PenSide.same rfl

theorem placeUnit_penSide (u : TransUnit) (s : State) : PenSide s (placeUnit u s) := by
  unfold placeUnit
  dsimp only
  refine PenSide.next (t := if s.composer.mode = .publish then _ else _) ?_ rfl
  exact PenSide.ite ((queueItems_penSide _ _ s).trans (askClose_penSide _ _))
    (PenSide.foldl _ (fun t _ => setShadow_penSide _ t) _ s)

theorem placeCut_penSide (p : Pos) (f : FormatState) (t : LinkTime) (s : State) : PenSide s (placeCut p f t s) := by
  unfold placeCut
  dsimp only
  refine PenSide.next (t := if s.composer.mode = .publish then _ else _) ?_ rfl
  exact PenSide.ite (queueItem_penSide _ _ s) (setShadow_penSide _ s)

theorem releaseCancel_penSide (s : State) : PenSide s (releaseCancel s) := PenSide.same rfl

theorem releaseDone_penSide (t : LinkTime) (s : State) : PenSide s (releaseDone t s) := by
  unfold releaseDone
  refine PenSide.ite (PenSide.refl s) ?_
  split
  · exact PenSide.same rfl
  · exact PenSide.after (releaseCancel_penSide _) (PenSide.same rfl)

theorem handOverNow_penSide (h : HandOver) (s : State) : PenSide s (handOverNow h s) := by
  cases h with
  | unit u => exact (placeUnit_penSide u s).next rfl
  | cut p f again => exact (placeCut_penSide p f _ s).next rfl

theorem handOver_penSide (h : HandOver) (s : State) : PenSide s (handOver h s) := by
  unfold handOver
  exact PenSide.ite (PenSide.same rfl) (handOverNow_penSide h s)

theorem resolveRun_penSide (s : State) : PenSide s (resolveRun s) := by
  unfold resolveRun
  exact PenSide.ite (PenSide.refl s) (PenSide.after (handOver_penSide _ _) (PenSide.same rfl))

theorem reportRelease_penSide (s : State) : PenSide s (reportRelease s) := by
  unfold reportRelease
  exact PenSide.ite (PenSide.after (releaseDone_penSide _ _) (PenSide.same rfl)) (PenSide.refl s)

theorem releaseCheck_penSide (s : State) : PenSide s (releaseCheck s) := by
  unfold releaseCheck
  exact PenSide.ite ((resolveRun_penSide s).trans (reportRelease_penSide _)) (PenSide.refl s)

theorem startReplay_penSide (c : LinkTime) (s : State) : PenSide s (startReplay c s) :=
  PenSide.after (refreshScreen_penSide _) (PenSide.same rfl)

theorem actOnGrant_penSide (c : LinkTime) (s : State) : PenSide s (actOnGrant c s) := by
  unfold actOnGrant
  exact PenSide.ite (PenSide.same rfl) (startReplay_penSide c s)

theorem retractUnit_penSide (s : State) : PenSide s (retractUnit s) := by
  unfold retractUnit
  split
  · exact PenSide.after (handOver_penSide _ _) (PenSide.same rfl)
  · exact PenSide.refl s

theorem settleExpiry_penSide (s : State) : PenSide s (settleExpiry s) := by
  unfold settleExpiry
  exact PenSide.ite ((resolveRun_penSide s).trans (releaseCheck_penSide _)) (PenSide.refl s)

theorem spaceFree_penSide (s : State) : PenSide s (spaceFree s) := by
  unfold spaceFree
  split
  · exact PenSide.ite (PenSide.after (releaseCheck_penSide _)
      (PenSide.after (handOverNow_penSide _ _) (PenSide.same rfl))) (PenSide.refl s)
  · exact PenSide.refl s

theorem penGrant_penSide (c : LinkTime) (s : State) : PenSide s (penGrant c s) := by
  unfold penGrant
  dsimp only
  exact PenSide.ite (PenSide.refl s) (PenSide.ite (PenSide.same rfl)
    (PenSide.after (actOnGrant_penSide _ _) (PenSide.same rfl)))

theorem catchUpComplete_penSide (s : State) : PenSide s (catchUpComplete s) := by
  unfold catchUpComplete
  split
  · exact PenSide.ite (startReplay_penSide _ s) (PenSide.refl s)
  · exact PenSide.refl s

theorem transLoss_penSide (s : State) : PenSide s (transLoss s) := by
  unfold transLoss
  dsimp only
  have h : PenSide s (refreshScreen { s with trans := s.trans.afterLoss, composer := s.composer.leavePublish }) :=
    PenSide.after (refreshScreen_penSide _) (PenSide.same rfl)
  split
  · exact h.trans (handOverNow_penSide _ _)
  · exact h.next rfl
  · exact h

theorem releaseForPass_penSide (s : State) : PenSide s (releaseForPass s) := by
  unfold releaseForPass
  exact PenSide.ite (PenSide.after (releaseCheck_penSide _) (PenSide.same rfl)) (PenSide.refl s)

theorem sessionReset_penSide (s : State) : PenSide s (sessionReset s) :=
  PenSide.after (refreshScreen_penSide _) (PenSide.same rfl)

theorem beginPass_penSide (s : State) : PenSide s (beginPass s) := by
  unfold beginPass
  exact PenSide.ite (releaseForPass_penSide s) (PenSide.refl s)

theorem enterReleasing_penSide (s : State) : PenSide s (enterReleasing s) := by
  unfold enterReleasing
  dsimp only
  exact PenSide.ite (PenSide.after (beginPass_penSide _) (PenSide.same rfl))
    (PenSide.same rfl)

theorem releasingReturn_penSide (s : State) : PenSide s (releasingReturn s) := by
  unfold releasingReturn
  exact PenSide.ite (PenSide.after (releaseCancel_penSide _) (PenSide.same rfl)) (PenSide.refl s)

theorem headerToPen_penSide (h : Header) (s : State) : PenSide s (headerToPen h s) := by
  unfold headerToPen
  exact PenSide.ite (enterReleasing_penSide s) (releasingReturn_penSide s)

theorem relief_penSide (s : State) : PenSide s (relief s) := by
  unfold relief
  split
  · exact PenSide.same rfl
  · split
    · exact PenSide.ite (PenSide.refl s) (PenSide.same rfl)
    · exact PenSide.same rfl
  · exact beginPass_penSide s
  · exact PenSide.refl s

theorem handoffQuiet_penSide (s : State) : PenSide s (handoffQuiet s) := by
  unfold handoffQuiet
  exact PenSide.ite (beginPass_penSide s) (PenSide.refl s)

theorem queuePass_penSide (s : State) : PenSide s (queuePass s) := by
  unfold queuePass
  split
  · exact PenSide.ite (PenSide.after (transLoss_penSide _) ((queueItem_penSide _ _ s).next rfl))
      (PenSide.refl s)
  · exact PenSide.refl s

theorem openSession_penSide (s : State) : PenSide s (openSession s) := by
  unfold openSession
  exact PenSide.next (t := sessionReset { s with journal := Journal.emptied }) (PenSide.after (sessionReset_penSide _)
    (PenSide.same rfl)) rfl

theorem leaveSession_penSide (s : State) : PenSide s (leaveSession s) := PenSide.same rfl

theorem closeAsHolder_penSide (s : State) : PenSide s (closeAsHolder s) :=
  PenSide.after (releaseForPass_penSide _) (PenSide.same rfl)

theorem penLoss_penSide (q o : Bool) (s : State) : PenSide s (penLoss q o s) := by
  unfold penLoss
  split
  · exact PenSide.refl s
  · refine PenSide.ite (PenSide.trans ?_ (raiseIf_penSide _ _ _)) (PenSide.refl s)
    exact PenSide.ite (PenSide.same rfl)
      (PenSide.after (transLoss_penSide _) (PenSide.same rfl))

theorem applyItem_penSide (i : Item) (s : State) : PenSide s (applyItem i s) :=
  PenSide.after (applyToRecord_penSide _ _ _) (PenSide.same rfl)

theorem drainReorder_penSide : ∀ (l : List Item) (s : State), PenSide s (drainReorder l s)
  | [], s => PenSide.same rfl
  | i :: l, s => by
    unfold drainReorder
    exact PenSide.ite ((applyItem_penSide i s).trans (drainReorder_penSide l _)) (PenSide.same rfl)

theorem adoptEpoch_penSide (b : Beacon) (s : State) : PenSide s (adoptEpoch b s) := by
  unfold adoptEpoch
  dsimp only
  refine PenSide.after (drainReorder_penSide _ _) (PenSide.next (t := if posLt b.startPos s.record.endPos = true then _ else s) ?_
    rfl)
  exact PenSide.ite (applyToRecord_penSide _ _ s) (PenSide.refl s)

theorem closingRelease_penSide (s : State) : PenSide s (closingRelease s) := by
  unfold closingRelease
  exact PenSide.ite (releaseForPass_penSide s) (PenSide.refl s)

theorem takeGrant_penSide (b : Beacon) (n : Nat) (s : State) : PenSide s (takeGrant b n s) :=
  PenSide.after (closingRelease_penSide _) (PenSide.after (penGrant_penSide _ _)
    (PenSide.after (refreshScreen_penSide _) (PenSide.same rfl)))

theorem newEpochTaken_penSide (b : Beacon) (s : State) : PenSide s (newEpochTaken b s) := by
  unfold newEpochTaken
  dsimp only
  exact PenSide.ite (PenSide.after (takeGrant_penSide _ _ _)
    (PenSide.after (adoptEpoch_penSide b _) (PenSide.same rfl))) (adoptEpoch_penSide b s)

theorem voidPass_penSide (b : Beacon) (s : State) : PenSide s (voidPass b s) := by
  unfold voidPass
  split
  · refine PenSide.ite (PenSide.ite ?_ ?_) (PenSide.refl s)
    · exact PenSide.after (penGrant_penSide _ _) (PenSide.same rfl)
    · exact PenSide.same rfl
  · exact PenSide.refl s

theorem adoptSession_penSide (b : Beacon) (s : State) : PenSide s (adoptSession b s) := by
  unfold adoptSession
  dsimp only
  refine PenSide.trans (PenSide.trans ?_ (refreshScreen_penSide _)) (raise_penSide _ _)
  refine PenSide.next (t := sessionReset
    (if b.holder = some s.straps.station then s else { s with journal := Journal.emptied })) ?_
    rfl
  exact PenSide.after (sessionReset_penSide _)
    (PenSide.ite (PenSide.refl s) (PenSide.same rfl))

theorem sessionTaken_penSide (b : Beacon) (s : State) : PenSide s (sessionTaken b s) := by
  unfold sessionTaken
  dsimp only
  exact PenSide.ite ((adoptSession_penSide b s).trans (takeGrant_penSide _ _ _)) (adoptSession_penSide b s)

theorem sessionZero_penSide (s : State) : PenSide s (sessionZero s) := by
  unfold sessionZero
  dsimp only
  exact PenSide.ite (PenSide.same rfl)
    (PenSide.after (raise_penSide _ _) (PenSide.same rfl))

theorem followedBeacon_penSide (b : Beacon) (s : State) : PenSide s (followedBeacon b s) := by
  unfold followedBeacon
  exact PenSide.ite (newEpochTaken_penSide b s) ((voidPass_penSide b s).trans (releasingReturn_penSide _))

theorem sessionOfBeacon_penSide (b : Beacon) (s : State) : PenSide s (sessionOfBeacon b s) := by
  unfold sessionOfBeacon
  exact PenSide.ite (sessionZero_penSide s)
    (PenSide.ite (followedBeacon_penSide b s) (PenSide.ite (PenSide.refl s) (sessionTaken_penSide b s)))

theorem beaconToPen_penSide (o : Option Beacon) (b : Beacon) (s : State) : PenSide s (beaconToPen o b s) := by
  unfold beaconToPen
  dsimp only
  refine PenSide.next (PenSide.trans ?_ (sessionOfBeacon_penSide b _)) rfl
  exact PenSide.ite ((raiseIf_penSide _ _ s).trans (penLoss_penSide _ _ _)) (raiseIf_penSide _ _ s)

theorem itemIn_penSide (i : Item) (s : State) : PenSide s (itemIn i s) := by
  unfold itemIn
  dsimp only
  exact PenSide.ite ((applyItem_penSide i s).trans (drainReorder_penSide _ _))
    (PenSide.ite (PenSide.refl s) (PenSide.same rfl))

theorem gapIn_penSide (g : GapItem) (s : State) : PenSide s (gapIn g s) := by
  unfold gapIn
  exact PenSide.ite (PenSide.after (drainReorder_penSide _ _) (PenSide.same rfl)) (PenSide.refl s)

theorem catchUp_penSide (s : State) : PenSide s (catchUp s) := by
  unfold catchUp
  dsimp only
  exact PenSide.ite
    (PenSide.after (closingRelease_penSide _) (PenSide.after (catchUpComplete_penSide _)
      (PenSide.next (t := fillRecord s.pen.startPos s.pen.epoch (countApplied (max s.pen.applied (s.pen.startRsn - 1)) s))
        (PenSide.after (fillRecord_penSide _ _ _) (PenSide.same rfl)) rfl)))
    (PenSide.refl s)

end Sys2Proof.Machine
end

