-- ==== Sys2Proof/Laws/Queue.lean ====
section
/-! SUPPORT. What queueing items does (R119, R169), one item and the items of a unit in order, and what applying the items
of the stream and of the reorder list does (R172): which parts of the state change, and how. -/

namespace Sys2Proof.Machine

/-- The item that a holder makes of a body at its next RSN (R169). -/
def Pen.itemOf (p : Pen) (time : LinkTime) (b : ItemBody) : Item :=
  { rsn := p.nextRsn, epoch := p.epoch, time := time, body := b }

/-- A body that is no PASS. -/
def ItemBody.noPass : ItemBody → Bool
  | .pass _ _ => false
  | _ => true

/-- The items of some bodies from an RSN on. -/
def itemsFrom (n : Nat) (epoch : Epoch) (time : LinkTime) : List ItemBody → List Item
  | [] => []
  | b :: l => { rsn := n, epoch := epoch, time := time, body := b } :: itemsFrom (n + 1) epoch time l

theorem mapIdx_items (n : Nat) (e : Epoch) (t : LinkTime) : ∀ l : List ItemBody,
    l.mapIdx (fun i b => ({ rsn := n + i, epoch := e, time := t, body := b } : Item)) = itemsFrom n e t l
  | [] => rfl
  | b :: l => by
    simp only [List.mapIdx_cons, itemsFrom, Nat.add_zero, ← mapIdx_items (n + 1) e t l, Nat.add_assoc, Nat.add_comm 1]

theorem keepLast_keepLast {α : Type} (n : Nat) (l m : List α) : keepLast n (keepLast n l ++ m) = keepLast n (l ++ m) := by
  unfold keepLast
  simp only [List.length_append, List.length_drop, List.drop_append, List.drop_drop]
  congr 1 <;> congr 1 <;> omega

/-- A unit gives APPENDs and BREAKs alone (R117). -/
theorem appendsOf_noPass : ∀ (n : Nat) (p : Pos) (t : Text), (appendsOf n p t).all ItemBody.noPass = true
  | 0, _, _ => rfl
  | n + 1, p, t => by
    unfold appendsOf
    split
    · rfl
    · simp [ItemBody.noPass, appendsOf_noPass n]

theorem itemsOf_noPass : ∀ (l : List (Option Ch)) (p : Pos) (acc : Text), (itemsOf p acc l).all ItemBody.noPass = true
  | [], p, acc => appendsOf_noPass _ p acc
  | some c :: l, p, acc => itemsOf_noPass l p _
  | none :: l, p, acc => by
    unfold itemsOf
    rw [List.all_append, appendsOf_noPass]
    split
    · rfl
    · simp [ItemBody.noPass, itemsOf_noPass l]

theorem unitItems_noPass (w : Nat) (f : FormatState) (u : TransUnit) (p : Pos) :
    (unitItems w f u p).all ItemBody.noPass = true := itemsOf_noPass _ p []

/-- One item queued: next RSN and the followed epoch are its own, and it is applied in the same step. -/
theorem queueItem_pen (t : LinkTime) (b : ItemBody) (s : State) (h : s.pen.nextRsn ≤ 16777215) :
    (queueItem t b s).pen = s.pen.queued (s.pen.itemOf t b) := by
  unfold queueItem
  rw [if_neg (by simpa [Config.rsnMax] using h)]
  simp [applyToRecord, Pen.itemOf]

theorem queueItem_record (t : LinkTime) (b : ItemBody) (s : State) (h : s.pen.nextRsn ≤ 16777215) :
    (queueItem t b s).record = { s.record with lines := applyBody s.record.lines b s.pen.epoch } := by
  unfold queueItem
  rw [if_neg (by simpa [Config.rsnMax] using h)]
  simp [applyToRecord]

theorem queueItem_beside (t : LinkTime) (b : ItemBody) (s : State) :
    (queueItem t b s).journal = s.journal ∧ (queueItem t b s).trans = s.trans ∧ (queueItem t b s).composer = s.composer ∧
      (queueItem t b s).att = s.att ∧ (queueItem t b s).start = s.start ∧ (queueItem t b s).settings = s.settings := by
  unfold queueItem
  split
  · exact ⟨rfl, rfl, rfl, rfl, rfl, rfl⟩
  · simp [applyToRecord]

theorem queueItems_beside (t : LinkTime) : ∀ (l : List ItemBody) (s : State),
    (queueItems t l s).journal = s.journal ∧ (queueItems t l s).trans = s.trans ∧ (queueItems t l s).composer = s.composer ∧
      (queueItems t l s).att = s.att ∧ (queueItems t l s).start = s.start ∧ (queueItems t l s).settings = s.settings
  | [], _ => ⟨rfl, rfl, rfl, rfl, rfl, rfl⟩
  | b :: l, s => by
    have a := queueItem_beside t b s
    have r := queueItems_beside t l (queueItem t b s)
    simp only [queueItems]
    refine ⟨r.1.trans a.1, r.2.1.trans a.2.1, r.2.2.1.trans a.2.2.1, r.2.2.2.1.trans a.2.2.2.1,
      r.2.2.2.2.1.trans a.2.2.2.2.1, r.2.2.2.2.2.trans a.2.2.2.2.2⟩

/-- The items of a unit, while the RSN range lasts: next RSNs in order, each applied to the record as it is queued. -/
theorem queueItems_pen (t : LinkTime) : ∀ (l : List ItemBody) (s : State), s.pen.nextRsn + l.length ≤ 16777215 →
    l.all ItemBody.noPass = true →
    (queueItems t l s).pen = { s.pen with
      nextRsn := s.pen.nextRsn + l.length
      outbound := s.pen.outbound ++ itemsFrom s.pen.nextRsn s.pen.epoch t l
      applied := if l = [] then s.pen.applied else s.pen.nextRsn + l.length - 1
      lastStroke := if l = [] then s.pen.lastStroke else t
      log := if l = [] then s.pen.log else keepLast 256 (s.pen.log ++ itemsFrom s.pen.nextRsn s.pen.epoch t l) } ∧
    (queueItems t l s).record = { s.record with lines := l.foldl (fun ls b => applyBody ls b s.pen.epoch) s.record.lines }
  | [], s, _, _ => by simp [queueItems, itemsFrom]
  | b :: l, s, h, hp => by
    simp only [List.length_cons] at h
    simp only [List.all_cons, Bool.and_eq_true] at hp
    have hq := queueItem_pen t b s (by omega)
    have hr := queueItem_record t b s (by omega)
    have hn : s.pen.nextRsn ≠ 16777215 := by omega
    have hq2 : (queueItem t b s).pen = { s.pen with
        nextRsn := s.pen.nextRsn + 1, applied := s.pen.nextRsn, lastStroke := t
        outbound := s.pen.outbound ++ [s.pen.itemOf t b], log := keepLast 256 (s.pen.log ++ [s.pen.itemOf t b]) } := by
      rw [hq]
      have hb := hp.1
      cases b <;> simp_all [Pen.queued, Pen.itemOf, Config.rsnMax, Config.logSize, ItemBody.noPass]
    obtain ⟨a, c⟩ := queueItems_pen t l (queueItem t b s) (by rw [hq2]; simp only; omega) hp.2
    simp only [queueItems]
    refine ⟨?_, ?_⟩
    · rw [a, hq2]
      simp only [reduceCtorEq, if_false, List.length_cons, itemsFrom, Pen.itemOf, keepLast_keepLast, List.append_assoc,
        List.cons_append, List.nil_append]
      cases l with
      | nil => simp [itemsFrom]
      | cons b' l => simp only [reduceCtorEq, if_false, List.length_cons]; congr 1 <;> omega
    · rw [c, hr, hq2]; rfl

/-! ## Items of the stream (R172) -/

/-- One item of the stream applied. -/
theorem applyItem_pen (i : Item) (s : State) : (applyItem i s).pen = s.pen.tookItem i := by
  simp [applyItem, applyToRecord]

theorem applyItem_record (i : Item) (s : State) :
    (applyItem i s).record = { s.record with lines := applyBody s.record.lines i.body i.epoch } := by
  simp [applyItem, applyToRecord]

theorem applyItem_beside (i : Item) (s : State) :
    (applyItem i s).journal = s.journal ∧ (applyItem i s).trans = s.trans ∧ (applyItem i s).composer = s.composer ∧
      (applyItem i s).att = s.att ∧ (applyItem i s).link = s.link := by
  simp [applyItem, applyToRecord]

theorem drainReorder_beside : ∀ (l : List Item) (s : State),
    (drainReorder l s).journal = s.journal ∧ (drainReorder l s).trans = s.trans ∧ (drainReorder l s).composer = s.composer ∧
      (drainReorder l s).att = s.att ∧ (drainReorder l s).link = s.link
  | [], _ => ⟨rfl, rfl, rfl, rfl, rfl⟩
  | i :: l, s => by
    unfold drainReorder
    split
    · have a := applyItem_beside i s
      have r := drainReorder_beside l (applyItem i s)
      exact ⟨r.1.trans a.1, r.2.1.trans a.2.1, r.2.2.1.trans a.2.2.1, r.2.2.2.1.trans a.2.2.2.1, r.2.2.2.2.trans a.2.2.2.2⟩
    · exact ⟨rfl, rfl, rfl, rfl, rfl⟩

/-- The pass pending after some items. -/
def passAfter (p : Option PassPending) (l : List Item) : Option PassPending :=
  l.foldl (fun p j => match j.body with
    | .pass target stop => some { target := target, rsn := j.rsn, recordEnd := stop, cut := j.time }
    | _ => p) p

/-- What the reorder list gives (R172): its items are applied in order while each is the next RSN, the others stay. -/
theorem drainReorder_applies : ∀ (run rest : List Item) (s : State),
    (∀ (m : Nat) (j : Item), run[m]? = some j → j.rsn = s.pen.applied + 1 + m) →
    (∀ j, rest.head? = some j → j.rsn ≠ s.pen.applied + 1 + run.length) →
    (drainReorder (run ++ rest) s).record =
      { s.record with lines := run.foldl (fun ls j => applyBody ls j.body j.epoch) s.record.lines } ∧
    (drainReorder (run ++ rest) s).pen = { s.pen with
      applied := s.pen.applied + run.length, reorder := rest
      lastStroke := (match run.getLast? with | some j => j.time | none => s.pen.lastStroke)
      log := if run = [] then s.pen.log else keepLast 256 (s.pen.log ++ run)
      passPending := passAfter s.pen.passPending run }
  | [], [], s, _, _ => by simp [drainReorder, passAfter]
  | [], j :: rest, s, _, h => by
    have := h j rfl
    simp only [List.nil_append, drainReorder]
    rw [if_neg (by simpa using this)]
    simp [passAfter]
  | i :: run, rest, s, h1, h2 => by
    have hi : i.rsn = s.pen.applied + 1 := by simpa using h1 0 i rfl
    have hp := applyItem_pen i s
    have hr := applyItem_record i s
    have ha : (applyItem i s).pen.applied = s.pen.applied + 1 := by rw [hp]; exact hi
    obtain ⟨a, b⟩ := drainReorder_applies run rest (applyItem i s)
      (fun m j hj => by rw [ha]; have := h1 (m + 1) j (by simpa using hj); omega)
      (fun j hj => by rw [ha]; have := h2 j hj; simp only [List.length_cons] at this; omega)
    simp only [List.cons_append, drainReorder]
    rw [if_pos hi]
    refine ⟨by rw [a, hr]; rfl, ?_⟩
    rw [b, hp]
    cases run with
    | nil => simp [Pen.tookItem, passAfter, hi, Config.logSize] <;> split <;> simp_all
    | cons j run =>
      simp only [Pen.tookItem, passAfter, Config.logSize, keepLast_keepLast, reduceCtorEq, if_false, List.length_cons,
        List.getLast?_cons_cons, List.foldl_cons, List.append_assoc, List.cons_append, List.nil_append, hi]
      congr 1
      · omega

end Sys2Proof.Machine
end

