-- ==== Sys2Proof/Laws/Attention.lean ====
section
/-! SUPPORT. Which causes the events of the pen and of a beacon raise (R156, R165, R166, R136): the operations of the
Translator and the Composer raise none, a beacon handed to the pen side PEN-CHANGE, PEN-LOST and SESSION-CHANGE alone, and a
change of Link state LINK-STATE. -/

namespace Sys2Proof.Machine

/-! ## Operations that raise nothing -/

@[simp] theorem queueItem_att (t : LinkTime) (b : ItemBody) (s : State) : (queueItem t b s).att = s.att :=
  (queueItem_beside t b s).2.2.2.1

@[simp] theorem queueItems_att (t : LinkTime) (l : List ItemBody) (s : State) : (queueItems t l s).att = s.att :=
  (queueItems_beside t l s).2.2.2.1

@[simp] theorem askClose_att (b : Bool) (s : State) : (askClose b s).att = s.att := by cases b <;> rfl

theorem foldl_att {α : Type} (f : State → α → State) (h : ∀ s a, (f s a).att = s.att) : ∀ (l : List α) (s : State),
    (l.foldl f s).att = s.att
  | [], _ => rfl
  | a :: l, s => (foldl_att f h l (f s a)).trans (h s a)

@[simp] theorem placeUnit_att (u : TransUnit) (s : State) : (placeUnit u s).att = s.att := by
  unfold placeUnit
  dsimp only
  split
  · simp
  · exact foldl_att _ (fun s b => setShadow_att _ s) _ s

@[simp] theorem placeCut_att (p : Pos) (f : FormatState) (t : LinkTime) (s : State) : (placeCut p f t s).att = s.att := by
  unfold placeCut
  dsimp only
  split <;> simp

@[simp] theorem handOverNow_att (h : HandOver) (s : State) : (handOverNow h s).att = s.att := by
  cases h <;> simp [handOverNow]

@[simp] theorem handOver_att (h : HandOver) (s : State) : (handOver h s).att = s.att := by
  unfold handOver; split <;> simp

@[simp] theorem resolveRun_att (s : State) : (resolveRun s).att = s.att := by
  unfold resolveRun; split <;> simp

@[simp] theorem releaseDone_att (t : LinkTime) (s : State) : (releaseDone t s).att = s.att := by
  unfold releaseDone releaseCancel; split
  · rfl
  · split <;> rfl

@[simp] theorem reportRelease_att (s : State) : (reportRelease s).att = s.att := by
  unfold reportRelease; split <;> simp

@[simp] theorem releaseCheck_att (s : State) : (releaseCheck s).att = s.att := by
  unfold releaseCheck; split <;> simp

@[simp] theorem startReplay_att (c : LinkTime) (s : State) : (startReplay c s).att = s.att := refreshScreen_att _

@[simp] theorem actOnGrant_att (c : LinkTime) (s : State) : (actOnGrant c s).att = s.att := by
  unfold actOnGrant; split <;> simp

@[simp] theorem penGrant_att (c : LinkTime) (s : State) : (penGrant c s).att = s.att := by
  unfold penGrant
  dsimp only
  split
  · rfl
  · split <;> simp

@[simp] theorem transLoss_att (s : State) : (transLoss s).att = s.att := by
  unfold transLoss
  dsimp only
  split <;> simp

@[simp] theorem releaseForPass_att (s : State) : (releaseForPass s).att = s.att := by
  unfold releaseForPass; split <;> simp

@[simp] theorem releasingReturn_att (s : State) : (releasingReturn s).att = s.att := by
  unfold releasingReturn releaseCancel; split <;> rfl

@[simp] theorem sessionReset_att (s : State) : (sessionReset s).att = s.att := refreshScreen_att _

@[simp] theorem drainReorder_att (l : List Item) (s : State) : (drainReorder l s).att = s.att := (drainReorder_beside l s).2.2.2.1

@[simp] theorem applyToRecord_att (b : ItemBody) (e : Epoch) (s : State) : (applyToRecord b e s).att = s.att := setLines_att _ _ s

@[simp] theorem adoptEpoch_att (b : Beacon) (s : State) : (adoptEpoch b s).att = s.att := by
  unfold adoptEpoch
  dsimp only
  rw [drainReorder_att]
  split <;> simp

@[simp] theorem closingRelease_att (s : State) : (closingRelease s).att = s.att := by
  unfold closingRelease; split <;> simp

@[simp] theorem takeGrant_att (b : Beacon) (n : Nat) (s : State) : (takeGrant b n s).att = s.att := by
  simp [takeGrant]

@[simp] theorem newEpochTaken_att (b : Beacon) (s : State) : (newEpochTaken b s).att = s.att := by
  unfold newEpochTaken; split <;> simp

@[simp] theorem voidPass_att (b : Beacon) (s : State) : (voidPass b s).att = s.att := by
  unfold voidPass
  split
  · split
    · split <;> simp
    · rfl
  · rfl

@[simp] theorem followedBeacon_att (b : Beacon) (s : State) : (followedBeacon b s).att = s.att := by
  unfold followedBeacon; split <;> simp

@[simp] theorem trackNone_att (b : Beacon) (s : State) : (trackNone b s).att = s.att := rfl

/-! ## What raising does to one bit -/

/-- A cause raised: its own bit is set unless it is masked, every other bit stays (R200). -/
theorem Attention.raise_bit (a : Attention) (c : Cause) (i : Nat) (h : i < 10) :
    (a.raise c).raised.getLsbD i = (a.raised.getLsbD i || (! a.isMasked c && decide (c.bit = i))) := by
  unfold Attention.raise
  by_cases hm : a.isMasked c = true
  · simp [hm]
  · simp only [hm]
    have : (1#10 <<< c.bit).getLsbD i = decide (c.bit = i) := by
      have hc : c.bit < 10 := by cases c <;> decide
      generalize c.bit = n at hc ⊢
      have hall : ∀ n, n < 10 → ∀ i, i < 10 → (1#10 <<< n).getLsbD i = decide (n = i) := by decide
      exact hall n hc i h
    simp [this]

@[simp] theorem Attention.raise_mask (a : Attention) (c : Cause) : (a.raise c).mask = a.mask := by
  unfold Attention.raise; split <;> rfl

@[simp] theorem Attention.raise_isMasked (a : Attention) (c d : Cause) : (a.raise c).isMasked d = a.isMasked d := by
  simp [Attention.isMasked]

theorem raiseIf_bit (b : Bool) (c : Cause) (s : State) (i : Nat) (h : i < 10) : (raiseIf b c s).att.raised.getLsbD i =
    (s.att.raised.getLsbD i || (! s.att.isMasked c && (b && decide (c.bit = i)))) := by
  cases b
  · rw [raiseIf, if_neg (by decide)]; simp
  · rw [raiseIf, if_pos rfl, raise_att, Attention.raise_bit _ _ i h, Bool.true_and]

/-- Raised at most: the bits of some causes; the mask stays. -/
structure RaisesOnly (cs : List Cause) (s t : State) : Prop where
  mask : t.att.mask = s.att.mask
  bits : ∀ i, i < 10 → (∀ c ∈ cs, c.bit ≠ i) → t.att.raised.getLsbD i = s.att.raised.getLsbD i

theorem RaisesOnly.same {cs : List Cause} {s t : State} (h : t.att = s.att) : RaisesOnly cs s t :=
  ⟨by rw [h], fun _ _ _ => by rw [h]⟩

theorem RaisesOnly.trans {cs : List Cause} {s t u : State} (a : RaisesOnly cs s t) (b : RaisesOnly cs t u) : RaisesOnly cs s u :=
  ⟨b.mask.trans a.mask, fun i h hc => (b.bits i h hc).trans (a.bits i h hc)⟩

theorem RaisesOnly.next {cs : List Cause} {s t u : State} (a : RaisesOnly cs s t) (h : u.att = t.att) : RaisesOnly cs s u :=
  a.trans (RaisesOnly.same h)

theorem raise_raisesOnly {cs : List Cause} {c : Cause} (h : c ∈ cs) (s : State) : RaisesOnly cs s (raise c s) :=
  ⟨by simp, fun i hi hc => by rw [raise_att, Attention.raise_bit _ _ _ hi]; simp [hc c h]⟩

theorem RaisesOnly.raise {cs : List Cause} {c : Cause} {s u : State} (h : c ∈ cs) (hu : u.att = s.att) :
    RaisesOnly cs s (Machine.raise c u) := (RaisesOnly.same hu).trans (raise_raisesOnly h u)

theorem raiseIf_raisesOnly {cs : List Cause} {c : Cause} (h : c ∈ cs) (b : Bool) (s : State) : RaisesOnly cs s (raiseIf b c s) := by
  cases b
  · exact RaisesOnly.same rfl
  · exact raise_raisesOnly h s

/-- A pen loss raises PEN-LOST at most (R166). -/
theorem penLoss_raisesOnly (q o : Bool) (s : State) : RaisesOnly [.penLost] s (penLoss q o s) := by
  unfold penLoss
  split
  · exact RaisesOnly.same rfl
  · split
    · dsimp only
      refine RaisesOnly.trans ?_ (raiseIf_raisesOnly (by simp) _ _)
      split
      · exact RaisesOnly.same rfl
      · exact RaisesOnly.same (transLoss_att _)
    · exact RaisesOnly.same rfl

theorem RaisesOnly.widen {cs ds : List Cause} {s t : State} (a : RaisesOnly cs s t) (h : ∀ c ∈ cs, c ∈ ds) : RaisesOnly ds s t :=
  ⟨a.mask, fun i hi hc => a.bits i hi (fun c hm => hc c (h c hm))⟩

theorem adoptSession_raisesOnly (b : Beacon) (s : State) : RaisesOnly [.sessionChange] s (adoptSession b s) := by
  unfold adoptSession
  dsimp only
  refine RaisesOnly.trans (RaisesOnly.same ?_) (raise_raisesOnly (List.mem_cons_self ..) _)
  rw [refreshScreen_att, sessionReset_att]
  split <;> rfl

theorem sessionZero_raisesOnly (s : State) : RaisesOnly [.sessionChange] s (sessionZero s) := by
  unfold sessionZero
  dsimp only
  split
  · exact RaisesOnly.same rfl
  · exact RaisesOnly.raise (by simp) rfl

/-- The session and epoch of a beacon raise SESSION-CHANGE at most (R155, R156). -/
theorem sessionOfBeacon_raisesOnly (b : Beacon) (s : State) : RaisesOnly [.sessionChange] s (sessionOfBeacon b s) := by
  unfold sessionOfBeacon
  split
  · exact sessionZero_raisesOnly s
  · split
    · exact RaisesOnly.same (followedBeacon_att b s)
    · split
      · exact RaisesOnly.same rfl
      · unfold sessionTaken
        dsimp only
        split
        · exact (adoptSession_raisesOnly b s).next (takeGrant_att b _ _)
        · exact adoptSession_raisesOnly b s

/-- A beacon handed to the pen side raises PEN-CHANGE where the holder changed (R165), and PEN-LOST and SESSION-CHANGE at
most besides. -/
theorem beaconToPen_raises (o : Option Beacon) (b : Beacon) (s : State) :
    RaisesOnly [.penLost, .sessionChange] (raiseIf (holderChanged o b) .penChange s) (beaconToPen o b s) := by
  unfold beaconToPen
  dsimp only
  refine RaisesOnly.next (RaisesOnly.trans ?_ ((sessionOfBeacon_raisesOnly b _).widen (by simp))) (trackNone_att b _)
  split
  · exact (penLoss_raisesOnly _ _ _).widen (by simp)
  · exact RaisesOnly.same rfl

theorem beaconToPen_penChange (o : Option Beacon) (b : Beacon) (s : State) : (beaconToPen o b s).att.raised.getLsbD 3 =
    (s.att.raised.getLsbD 3 || (! s.att.isMasked .penChange && holderChanged o b)) := by
  rw [(beaconToPen_raises o b s).bits 3 (by decide) (by decide)]
  rw [raiseIf_bit _ _ _ 3 (by decide)]
  simp [Cause.bit]

theorem beaconToPen_linkState (o : Option Beacon) (b : Beacon) (s : State) :
    (beaconToPen o b s).att.raised.getLsbD 5 = s.att.raised.getLsbD 5 := by
  rw [(beaconToPen_raises o b s).bits 5 (by decide) (by decide)]
  rw [raiseIf_bit _ _ _ 5 (by decide)]
  simp [Cause.bit]

/-! ## The Link state (R136 to R138) -/

theorem setMode_mask (m : LinkMode) (s : State) : (setMode m s).att.mask = s.att.mask := by
  unfold setMode raiseIf; split <;> simp

@[simp] theorem setMode_linkMode (m : LinkMode) (s : State) : (setMode m s).link.mode = m := by
  unfold setMode raiseIf; split <;> rfl

/-- A change of the Link state raises LINK-STATE, and no other bit (R136). -/
theorem setMode_bit (m : LinkMode) (s : State) (i : Nat) (h : i < 10) : (setMode m s).att.raised.getLsbD i =
    (s.att.raised.getLsbD i || (! s.att.isMasked .linkState && (decide (s.link.mode ≠ m) && decide (5 = i)))) := by
  unfold setMode
  rw [raiseIf_bit _ _ _ i h]
  rfl

theorem followPlan_mask (l : Bool) (s : State) : (followPlan l s).att.mask = s.att.mask := by
  unfold followPlan
  split
  · exact setMode_mask _ _
  · split
    · exact setMode_mask _ _
    · rfl

/-- The plan of a beacon brings the station into the Link or takes it out (R137), which raises LINK-STATE (R136). -/
theorem followPlan_bit (l : Bool) (s : State) (h : hears s = true) (i : Nat) (hi : i < 10) :
    (followPlan l s).link.mode = (if l then .joined else .listen) ∧
    (followPlan l s).att.raised.getLsbD i = (s.att.raised.getLsbD i ||
      (! s.att.isMasked .linkState && (decide (s.link.mode ≠ (if l then .joined else .listen)) && decide (5 = i)))) := by
  unfold followPlan
  cases l
  · by_cases hj : s.link.mode = .joined
    · rw [if_neg (by decide), if_pos hj, setMode_bit _ _ i hi]
      exact ⟨setMode_linkMode _ _, rfl⟩
    · have hl : s.link.mode = .listen := by simpa [hears, hj] using h
      simp [hl]
  · rw [if_pos rfl, setMode_bit _ _ i hi]
    exact ⟨setMode_linkMode _ _, rfl⟩

/-- What a beacon taken raises: PEN-CHANGE and LINK-STATE (R136, R165). -/
theorem takeBeacon_raises (own : Bool) (b : Beacon) (s : State) (h : hears s = true) :
    (takeBeacon own b s).att.raised.getLsbD 3 =
      (s.att.raised.getLsbD 3 || (! s.att.isMasked .penChange && holderChanged s.link.latest b)) ∧
    (takeBeacon own b s).att.raised.getLsbD 5 = (s.att.raised.getLsbD 5 || (! s.att.isMasked .linkState &&
      decide (s.link.mode ≠ (if inPlan b.plan s.straps.station then .joined else .listen)))) := by
  unfold takeBeacon
  dsimp only
  rw [beaconToPen_penChange, beaconToPen_linkState]
  constructor
  · rw [(followPlan_bit _ _ (by simpa [hears, Link.applyPlan, Link.beginRound, Link.countSilent] using h) 3 (by decide)).2]
    simp [Attention.isMasked, followPlan_mask]
  · rw [(followPlan_bit _ _ (by simpa [hears, Link.applyPlan, Link.beginRound, Link.countSilent] using h) 5 (by decide)).2]
    simp [Attention.isMasked, Link.applyPlan, Link.beginRound, Link.countSilent]

/-- A station that enters DUPLICATE (R138): the carrier side stops and LINK-STATE is raised. -/
theorem enterDuplicate_raises (s : State) (h : s.link.mode ≠ .duplicate) :
    (enterDuplicate s).att.raised.getLsbD 5 = (s.att.raised.getLsbD 5 || ! s.att.isMasked .linkState) := by
  unfold enterDuplicate
  rw [(penLoss_raisesOnly _ _ _).bits 5 (by decide) (by decide), setMode_bit _ _ 5 (by decide)]
  simp [h]

end Sys2Proof.Machine
end

