-- ==== Sys2Proof/Laws/Bits.lean ====
section
/-! SUPPORT. Fields packed into bits: the bits of a number made of bits, and unpacking what was packed. -/

namespace Sys2Proof.Machine

theorem natOfBits_testBit (l : List Bool) (i : Nat) : (natOfBits l).testBit i = l.getD i false := by
  induction l generalizing i with
  | nil => simp [natOfBits]
  | cons b l ih =>
    have h : natOfBits (b :: l) = 2 * natOfBits l + b.toNat := by cases b <;> simp [natOfBits, Nat.add_comm]
    rw [h]
    cases i with
    | zero => cases b <;> simp [Nat.testBit]
    | succ i =>
      rw [Nat.testBit_succ]
      have : (2 * natOfBits l + b.toNat) / 2 = natOfBits l := by cases b <;> simp <;> omega
      rw [this, ih]; simp

theorem natOfBits_lt : ∀ l : List Bool, natOfBits l < 2 ^ l.length
  | [] => by simp [natOfBits]
  | b :: l => by
    have := natOfBits_lt l
    cases b <;> simp [natOfBits, Nat.pow_succ] <;> omega

/-- Each value fits its field, and there are as many values as fields. -/
def fieldsFit : List Nat → List Nat → Bool
  | [], [] => true
  | w :: ws, v :: vs => decide (v < 2 ^ w) && fieldsFit ws vs
  | _, _ => false

theorem pack_lt : ∀ ws vs, pack ws vs < 2 ^ widthOf ws
  | [], _ => by simp [pack, widthOf]
  | w :: ws, [] => by simp [pack, Nat.two_pow_pos]
  | w :: ws, v :: vs => by
    have h1 := pack_lt ws vs
    have h2 : v % 2 ^ w < 2 ^ w := Nat.mod_lt _ (Nat.two_pow_pos w)
    simp only [pack, widthOf, Nat.pow_add]
    calc v % 2 ^ w * 2 ^ widthOf ws + pack ws vs < v % 2 ^ w * 2 ^ widthOf ws + 2 ^ widthOf ws := by omega
      _ = (v % 2 ^ w + 1) * 2 ^ widthOf ws := by rw [Nat.add_mul, Nat.one_mul]
      _ ≤ 2 ^ w * 2 ^ widthOf ws := Nat.mul_le_mul_right _ h2

/-- Unpacking looks at the low bits only. -/
theorem unpack_add : ∀ ws n k, unpack ws (k * 2 ^ widthOf ws + n) = unpack ws n
  | [], _, _ => rfl
  | w :: ws, n, k => by
    have e : k * 2 ^ widthOf (w :: ws) + n = (k * 2 ^ w) * 2 ^ widthOf ws + n := by
      simp only [widthOf, Nat.pow_add, Nat.mul_assoc]
    simp only [unpack]
    rw [e, unpack_add ws n (k * 2 ^ w)]
    congr 1
    rw [Nat.mul_comm (k * 2 ^ w), Nat.mul_add_div (Nat.two_pow_pos _), Nat.mul_add_mod']

theorem unpack_pack : ∀ ws vs, fieldsFit ws vs = true → unpack ws (pack ws vs) = vs
  | [], [], _ => rfl
  | [], _ :: _, h => by simp [fieldsFit] at h
  | _ :: _, [], h => by simp [fieldsFit] at h
  | w :: ws, v :: vs, h => by
    simp only [fieldsFit, Bool.and_eq_true, decide_eq_true_eq] at h
    have hv : v % 2 ^ w = v := Nat.mod_eq_of_lt h.1
    simp only [pack, unpack, hv]
    rw [unpack_add, unpack_pack ws vs h.2]
    congr 1
    rw [Nat.mul_comm, Nat.mul_add_div (Nat.two_pow_pos _), Nat.div_eq_of_lt (pack_lt ws vs), Nat.add_zero, hv]

end Sys2Proof.Machine
end

