-- ==== Sys2Proof/Laws/Cells.lean ====
section
/-! SUPPORT. The corrected words of received cells (R134): what counting them changes, and whom a beacon's first cell
names. -/

namespace Sys2Proof.Machine

/-- The words counted for a sender change the roster and nothing else. -/
theorem countWords_eq (n : Option Station) (cs : List RxCell) (s : State) :
    ∃ roster, countWords n cs s = { s with link := { s.link with roster := roster } } := by
  cases n with
  | none => exact ⟨s.link.roster, rfl⟩
  | some m =>
    unfold countWords Link.countCorrected
    by_cases h : m = s.straps.station <;> simp only [h, if_true, if_false]
    · exact ⟨s.link.roster, rfl⟩
    · exact ⟨_, rfl⟩

/-- The roster entries after the words of cells have been counted: the sender's corrected count rises, unless the sender is
the station itself. -/
theorem countWords_entry (n : Station) (cs : List RxCell) (s : State) (i : Nat) :
    (countWords (some n) cs s).link.roster[i]? =
      if i = n.val ∧ n ≠ s.straps.station then
        s.link.roster[i]?.map (fun e => { e with corrected := min (e.corrected + corrections cs) 255 })
      else s.link.roster[i]? := by
  unfold countWords Link.countCorrected
  by_cases h : n = s.straps.station
  · simp [h]
  · by_cases hi : i = n.val
    · simp [h, hi, Link.setEntry]
    · have : ¬ n.val = i := fun e => hi e.symm
      simp [h, hi, this, Link.setEntry]

/-- A beacon that is taken was sent by the timekeeper its first cell names. -/
theorem beaconNames_of_decode {v c : Nat} {b : Beacon} (h : decodeBeacon v c = some b) :
    beaconNames v = some b.timekeeper := by
  unfold decodeBeacon at h
  unfold beaconNames
  split at h
  · next k tk ho pr wr ro se ti cu x k2 ep rsn rln col y hv hc =>
    rw [hv]
    simp only
    split at h
    · next hk =>
      rw [if_pos ⟨hk.1, hk.2.2.2⟩]
      split at h
      · next hh _ he _ =>
        rw [he]
        simp only at h ⊢
        split at h
        · next hin =>
          rw [if_pos hin]
          injection h with h
          rw [← h]
        · exact absurd h (by simp)
      · exact absurd h (by simp)
    · exact absurd h (by simp)
  · exact absurd h (by simp)

/-- The cells of a beacon that is taken have its timekeeper as their sender. -/
theorem beaconSender_of_taken {c1 c2 : RxCell} {b : Beacon} (h : beaconIn c1 c2 = some b) :
    beaconSender c1 = some b.timekeeper := by
  unfold beaconIn at h
  unfold beaconSender
  split at h
  · next hu =>
    rw [if_pos (Bool.and_eq_true_iff.mp hu).1]
    exact beaconNames_of_decode h
  · exact absurd h (by simp)

end Sys2Proof.Machine
end

