-- ==== Sys2Proof/Laws/Chords.lean ====
section
/-! SUPPORT. A chord as its letters (R25): which letters, where the hyphen stands, how long a rendering is. -/

namespace Sys2Proof.Machine

/-- One key more. -/
theorem lettersFrom_succ (c : Chord) (lo n : Nat) : lettersFrom c lo (n + 1) =
    lettersFrom c lo n ++ if c.getLsbD (lo + n) then [BitVec.ofNat 8 (keyLetters.getD (lo + n) 0)] else [] := by
  unfold lettersFrom
  rw [List.range_succ, List.filter_append, List.map_append]
  congr 1
  by_cases h : c.getLsbD (lo + n) = true
  · simp [h]
  · simp [h]

theorem lettersFrom_zero (c : Chord) (lo : Nat) : lettersFrom c lo 0 = [] := rfl

/-- Left letters, vowels and asterisk, hyphen, right letters, number key, each in key order (R25). -/
theorem renderChord_eq (c : Chord) :
    let key (i : Nat) (letter : Ch) : Text := if c.getLsbD i then [letter] else []
    let left := key 0 0x53#8 ++ key 1 0x54#8 ++ key 2 0x4B#8 ++ key 3 0x50#8 ++ key 4 0x57#8 ++ key 5 0x48#8 ++ key 6 0x52#8
    let vowels := key 7 0x41#8 ++ key 8 0x4F#8 ++ key 9 0x45#8 ++ key 10 0x55#8
    let star := key 11 0x2A#8
    let right := key 12 0x46#8 ++ key 13 0x52#8 ++ key 14 0x50#8 ++ key 15 0x42#8 ++ key 16 0x4C#8 ++ key 17 0x47#8 ++
      key 18 0x54#8 ++ key 19 0x53#8 ++ key 20 0x44#8 ++ key 21 0x5A#8
    let hyphen : Text := if right ≠ [] ∧ vowels = [] ∧ star = [] then [0x2D#8] else []
    renderChord c = left ++ vowels ++ star ++ hyphen ++ right ++ key 22 0x23#8 := by
  intro key left vowels star right hyphen
  have h1 : lettersFrom c 0 12 = left ++ vowels ++ star := by
    simp only [lettersFrom_succ, lettersFrom_zero, keyLetters]
    simp [left, vowels, star, key]
  have h2 : lettersFrom c 12 10 = right := by
    simp only [lettersFrom_succ, lettersFrom_zero, keyLetters]
    simp [right, key]
  have h3 : lettersFrom c 7 5 = vowels ++ star := by
    simp only [lettersFrom_succ, lettersFrom_zero, keyLetters]
    simp [vowels, star, key]
  have h4 : lettersFrom c 22 1 = key 22 0x23#8 := by
    simp only [lettersFrom_succ, lettersFrom_zero, keyLetters]
    simp [key]
  unfold renderChord
  simp only [h1, h2, h3, h4]
  congr 2
  congr 1
  simp only [hyphen]
  by_cases a : right = []
  · simp [a]
  · by_cases b : vowels ++ star = []
    · have := List.append_eq_nil_iff.1 b; simp [a, this.1, this.2]
    · have : ¬ (vowels = [] ∧ star = []) := fun h => b (by simp [h.1, h.2])
      simp [a, this]

theorem lettersFrom_length_le (c : Chord) (lo n : Nat) : (lettersFrom c lo n).length ≤ n := by
  unfold lettersFrom
  rw [List.length_map]
  exact Nat.le_trans (List.length_filter_le _ _) (by simp)

theorem lettersFrom_charOk (c : Chord) (lo n : Nat) (h : lo + n ≤ 23) : (lettersFrom c lo n).all charOk = true := by
  have hk : ∀ i, i < 23 → charOk (BitVec.ofNat 8 (keyLetters.getD i 0)) = true := by decide
  rw [List.all_eq_true]
  intro x hx
  simp only [lettersFrom, List.mem_map, List.mem_filter, List.mem_range] at hx
  obtain ⟨i, ⟨hi, _⟩, rfl⟩ := hx
  exact hk (lo + i) (by omega)

theorem mem_lettersFrom {c : Chord} {i lo n : Nat} (h : c.getLsbD i = true) (hl : lo ≤ i) (hi : i < lo + n) : lettersFrom c lo n ≠ [] := by
  intro e
  have : i - lo ∈ (List.range n).filter (fun i => c.getLsbD (lo + i)) := by
    rw [List.mem_filter]; exact ⟨List.mem_range.2 (by omega), by rw [show lo + (i - lo) = i by omega]; exact h⟩
  unfold lettersFrom at e
  rw [List.map_eq_nil_iff] at e
  rw [e] at this; simp at this

/-- A rendering has 1 to 24 characters, all printable (R25). -/
theorem renderChord_bounds (c : Chord) (h : c ≠ 0) :
    1 ≤ (renderChord c).length ∧ (renderChord c).length ≤ 24 ∧ (renderChord c).all charOk = true := by
  have l1 := lettersFrom_length_le c 0 12
  have l2 := lettersFrom_length_le c 12 10
  have l3 := lettersFrom_length_le c 22 1
  refine ⟨?_, ?_, ?_⟩
  · have : ∃ i, i < 23 ∧ c.getLsbD i = true := by
      apply Classical.byContradiction
      intro hn
      apply h
      apply BitVec.eq_of_getLsbD_eq
      intro i hi
      have : ¬ c.getLsbD i = true := fun e => hn ⟨i, hi, e⟩
      simpa using this
    obtain ⟨i, hi, hb⟩ := this
    unfold renderChord
    simp only [List.length_append]
    rcases Nat.lt_or_ge i 12 with hlt | hge
    · have := List.length_pos_iff.2 (mem_lettersFrom (lo := 0) (n := 12) hb (by omega) (by omega)); omega
    · rcases Nat.lt_or_ge i 22 with hlt | hge2
      · have := List.length_pos_iff.2 (mem_lettersFrom (lo := 12) (n := 10) hb (by omega) (by omega)); omega
      · have := List.length_pos_iff.2 (mem_lettersFrom (lo := 22) (n := 1) hb (by omega) (by omega)); omega
  · unfold renderChord
    simp only [List.length_append]
    split <;> simp <;> omega
  · unfold renderChord
    simp only [List.all_append, Bool.and_eq_true]
    refine ⟨⟨⟨lettersFrom_charOk c 0 12 (by omega), ?_⟩, lettersFrom_charOk c 12 10 (by omega)⟩,
      lettersFrom_charOk c 22 1 (by omega)⟩
    split <;> decide

end Sys2Proof.Machine
end

