-- ==== Sys2Proof/Laws/Copies.lean ====
section
/-! SUPPORT. The law of the copies: every change of the directory keeps each key once (R92, R93), and the changes of
compaction keep each word of the victim once on the copy list (R105 to R108); what the directory step does (R108), and
which keys an abandoned target takes with it (R110). -/

namespace Sys2Proof.Machine

/-! ## The directory names each key once -/

/-- Each key stands once. -/
abbrev keysOnce (d : List DirRecord) : Prop := (d.map DirRecord.key).Nodup

theorem dirHas_iff (d : List DirRecord) (k : Key) : dirHas d k = true ↔ k ∈ d.map DirRecord.key := by
  simp [dirHas, dirFind]

theorem map_keys (d : List DirRecord) (f : DirRecord → DirRecord) (hf : ∀ r, (f r).key = r.key) :
    (d.map f).map DirRecord.key = d.map DirRecord.key := by
  induction d with
  | nil => rfl
  | cons r d ih => simp [hf, ih]

theorem dirUpdate_keysOnce (d : List DirRecord) (k : Key) (f : DirRecord → DirRecord) (hf : ∀ r, (f r).key = r.key)
    (h : keysOnce d) : keysOnce (dirUpdate d k f) := by
  unfold dirUpdate keysOnce
  split
  · rw [map_keys _ _ (fun r => by split <;> simp [hf])]; exact h
  · rename_i hk
    rw [dirHas_iff] at hk
    simp only [List.map_append, List.map_cons, List.map_nil, hf]
    refine List.nodup_append.2 ⟨h, by simp, ?_⟩
    intro a ha b hb e
    simp only [List.mem_singleton] at hb
    exact hk (by rw [← hb, ← e]; exact ha)

theorem dirUpdates_keysOnce (f : DirRecord → DirRecord) (hf : ∀ r, (f r).key = r.key) : ∀ (ps : List Key) (d : List DirRecord),
    keysOnce d → keysOnce (ps.foldl (fun e p => dirUpdate e p f) d)
  | [], _, h => h
  | p :: ps, d, h => dirUpdates_keysOnce f hf ps _ (dirUpdate_keysOnce d p f hf h)

theorem dirMove_keysOnce (d : List DirRecord) (k : Key) (l : Location) (h : keysOnce d) : keysOnce (dirMove d k l) := by
  unfold dirMove keysOnce
  rw [map_keys _ _ (fun r => by split <;> rfl)]; exact h

theorem dirSet_keysOnce (d : List DirRecord) (k : Key) (l : Location) (h : keysOnce d) : keysOnce (dirSet d k l) := by
  unfold dirSet
  split
  · exact dirMove_keysOnce d k l h
  · exact dirUpdates_keysOnce (fun r => { r with count := r.count + 1 }) (fun _ => rfl) _ _
      (dirUpdate_keysOnce d k (fun r => { r with loc := some l }) (fun _ => rfl) h)

theorem dirTake_keysOnce (d : List DirRecord) (k : Key) (h : keysOnce d) : keysOnce (dirTake d k) := by
  unfold dirTake keysOnce
  refine List.Nodup.sublist (List.Sublist.map _ List.filter_sublist) ?_
  rw [map_keys _ _ (fun r => by split; rfl; split <;> rfl)]; exact h

/-! ## The copy list names each word of the victim once -/

theorem Compaction.lawful_retired (c : Compaction) (w : Nat) (h : c.lawful = true) :
    { c with copies := c.copies.filter (fun p => decide (p.1 ≠ w)) }.lawful = true := by
  have n : (c.copies.map Prod.fst).Nodup → ((c.copies.filter (fun p => decide (p.1 ≠ w))).map Prod.fst).Nodup :=
    List.Nodup.sublist (List.Sublist.map _ List.filter_sublist)
  unfold Compaction.lawful at h ⊢
  split at h
  · rename_i e
    simp only [Bool.and_eq_true, decide_eq_true_eq, List.all_eq_true] at h
    simp only [e, Bool.and_eq_true, decide_eq_true_eq, List.all_eq_true]
    exact ⟨⟨h.1.1, n h.1.2⟩, fun p hp => h.2 p (List.mem_filter.1 hp).1⟩
  · rename_i e
    simp only [Bool.and_eq_true, decide_eq_true_eq] at h
    simp only [e, Bool.and_eq_true, decide_eq_true_eq]
    exact ⟨h.1, n h.2⟩
  · rfl

theorem Compaction.lawful_before (c : Compaction) (w : Nat) (hw : c.cursor ≤ w) (h : c.lawful = true) (st : c.state = .copy) :
    c.victim ≠ c.target ∧ (c.copies.map Prod.fst).Nodup ∧ ∀ p ∈ c.copies, p.1 < w := by
  unfold Compaction.lawful at h
  simp only [st, Bool.and_eq_true, decide_eq_true_eq, List.all_eq_true] at h
  exact ⟨h.1.1, h.1.2, fun p hp => Nat.lt_of_lt_of_le (h.2 p hp) hw⟩

/-- The cursor moved on; the state is COPY or the copy list is not looked at. -/
theorem Compaction.lawful_cursor (c : Compaction) (w : Nat) (f : Option Nat) (hw : c.cursor ≤ w) (h : c.lawful = true) :
    { c with cursor := w, failed := f }.lawful = true := by
  by_cases st : c.state = .copy
  · obtain ⟨a, b, e⟩ := c.lawful_before w hw h st
    unfold Compaction.lawful
    simp only [st, Bool.and_eq_true, decide_eq_true_eq, List.all_eq_true]
    exact ⟨⟨a, b⟩, e⟩
  · unfold Compaction.lawful at h ⊢
    split at h <;> simp_all

/-- One word of the victim, at or after the cursor, joins the copy list. -/
theorem Compaction.lawful_copied (c : Compaction) (w t : Nat) (f : Option Nat) (hw : c.cursor ≤ w) (st : c.state = .copy)
    (h : c.lawful = true) : { c with copies := c.copies ++ [(w, t)], cursor := w + 1, failed := f }.lawful = true := by
  obtain ⟨a, b, e⟩ := c.lawful_before w hw h st
  unfold Compaction.lawful
  simp only [st, Bool.and_eq_true, decide_eq_true_eq, List.all_eq_true, List.map_append, List.map_cons, List.map_nil]
  refine ⟨⟨a, List.nodup_append.2 ⟨b, by simp, ?_⟩⟩, ?_⟩
  · intro x hx y hy hxy
    simp only [List.mem_singleton] at hy
    obtain ⟨p, hp, rfl⟩ := List.mem_map.1 hx
    have := e p hp
    omega
  · intro p hp
    rcases List.mem_append.1 hp with hp | hp
    · have := e p hp; omega
    · simp only [List.mem_singleton] at hp; subst hp; simp

theorem Compaction.lawful_seal (c : Compaction) (st : c.state = .copy) (h : c.lawful = true) :
    { c with state := .seal, sealStep := .seq }.lawful = true := by
  obtain ⟨a, b, _⟩ := c.lawful_before c.cursor (Nat.le_refl _) h st
  unfold Compaction.lawful
  simp only [Bool.and_eq_true, decide_eq_true_eq]
  exact ⟨a, b⟩

/-- A state in which the copy list is not looked at. -/
theorem Compaction.lawful_other (c : Compaction) (h1 : c.state ≠ .copy) (h2 : c.state ≠ .seal) : c.lawful = true := by
  unfold Compaction.lawful
  split
  · exact absurd (by assumption) h1
  · exact absurd (by assumption) h2
  · rfl

/-! ## The directory step (R108) -/

theorem dirMove_loc (d : List DirRecord) (k x : Key) (l : Location) :
    dirLoc (dirMove d k l) x = if x = k ∧ dirHas d k = true then some l else dirLoc d x := by
  unfold dirLoc dirMove dirHas dirFind
  induction d with
  | nil => simp
  | cons r d ih =>
    simp only [List.map_cons, List.find?_cons]
    by_cases hk : r.key = k <;> by_cases hx : r.key = x
    · simp_all
    · have : x ≠ k := fun e => hx (by rw [hk, e])
      simp_all
    · simp_all
    · simp_all

theorem dirMove_count (d : List DirRecord) (k x : Key) (l : Location) : dirCount (dirMove d k l) x = dirCount d x := by
  unfold dirCount dirMove dirFind
  induction d with
  | nil => rfl
  | cons r d ih =>
    simp only [List.map_cons, List.find?_cons]
    by_cases hk : r.key = k <;> by_cases hx : r.key = x <;> simp_all

/-- The key at a location stands in the directory, and where each key stands once it has that location. -/
theorem dirKeyAt_some (d : List DirRecord) (l : Location) (k : Key) (h : dirKeyAt d l = some k) (n : keysOnce d) :
    dirLoc d k = some l ∧ dirHas d k = true := by
  induction d with
  | nil => simp [dirKeyAt] at h
  | cons r d ih =>
    simp only [keysOnce, List.map_cons, List.nodup_cons] at n
    simp only [dirKeyAt, List.find?_cons] at h
    by_cases hr : r.loc = some l
    · simp only [hr, decide_true, Option.map_some, Option.some.injEq] at h
      subst h
      simp [dirLoc, dirHas, dirFind, hr]
    · simp only [hr, decide_false] at h
      have := ih h n.2
      have hk : r.key ≠ k := by
        intro e
        have : k ∈ d.map DirRecord.key := (dirHas_iff d k).1 this.2
        exact n.1 (by rw [e]; exact this)
      simpa [dirLoc, dirHas, dirFind, hk] using this

/-- Moving a key from one location to another leaves the key at every third location. -/
theorem dirMove_keyAt (d : List DirRecord) (k : Key) (l m x : Location) (n : keysOnce d) (hk : dirKeyAt d l = some k)
    (h1 : x ≠ l) (h2 : x ≠ m) : dirKeyAt (dirMove d k m) x = dirKeyAt d x := by
  have hl := dirKeyAt_some d l k hk n
  unfold dirKeyAt dirMove
  suffices h : ∀ e : List DirRecord, (∀ r ∈ e, r.key = k → r.loc = some l) →
      (e.map (fun r => if r.key = k then { r with loc := some m } else r)).find? (fun r => decide (r.loc = some x)) =
        e.find? (fun r => decide (r.loc = some x)) by
    rw [h]
    intro r hr e
    have := hl.1
    unfold dirLoc dirFind at this
    clear h hk hl
    induction d with
    | nil => simp at hr
    | cons a d ih =>
      simp only [keysOnce, List.map_cons, List.nodup_cons] at n
      simp only [List.find?_cons] at this
      rcases List.mem_cons.1 hr with rfl | hr
      · simpa [e] using this
      · have : a.key ≠ k := fun h => n.1 (by rw [h, ← e]; exact List.mem_map_of_mem hr)
        simp_all
  intro e he
  induction e with
  | nil => rfl
  | cons a e ih =>
    have ih := ih (fun r hr => he r (List.mem_cons_of_mem _ hr))
    have ha := he a (List.mem_cons_self ..)
    simp only [List.map_cons, List.find?_cons]
    by_cases hak : a.key = k
    · have : a.loc = some l := ha hak
      simp [hak, this, Ne.symm h1, Ne.symm h2, ih]
    · simp [hak, ih]

/-- The directory after the moves of some copies. -/
def movedBy (v t : Nat) : List (Nat × Nat) → List DirRecord → List DirRecord
  | [], d => d
  | (a, b) :: l, d =>
    movedBy v t l (match dirKeyAt d { sector := v, word := a } with
      | some k => dirMove d k { sector := t, word := b }
      | none => d)

/-- The directory step changes the directory alone. -/
theorem moveCopies_eq : ∀ (l : List (Nat × Nat)) (s : State),
    moveCopies l s = setDirectory (movedBy s.ctl.comp.victim s.ctl.comp.target l s.ctl.directory) s
  | [], s => rfl
  | (a, b) :: l, s => by
    simp only [moveCopies, movedBy]
    cases h : dirKeyAt s.ctl.directory { sector := s.ctl.comp.victim, word := a } with
    | none => exact moveCopies_eq l s
    | some k => exact moveCopies_eq l _

theorem movedBy_count (v t : Nat) (x : Key) : ∀ (l : List (Nat × Nat)) (d : List DirRecord),
    dirCount (movedBy v t l d) x = dirCount d x
  | [], d => rfl
  | (a, b) :: l, d => by
    simp only [movedBy]
    rw [movedBy_count v t x l]
    split
    · exact dirMove_count _ _ _ _
    · rfl

/-- What the directory step does: each key at a listed word of the victim is at its copy, and every other location is as
before (R108). -/
theorem movedBy_loc (v t : Nat) (h : v ≠ t) : ∀ (l : List (Nat × Nat)) (d : List DirRecord), keysOnce d →
    (l.map Prod.fst).Nodup →
    (∀ a b k, (a, b) ∈ l → dirKeyAt d { sector := v, word := a } = some k →
      dirLoc (movedBy v t l d) k = some { sector := t, word := b }) ∧
    ∀ k, (∀ a b, (a, b) ∈ l → dirKeyAt d { sector := v, word := a } ≠ some k) → dirLoc (movedBy v t l d) k = dirLoc d k
  | [], d, _, _ => ⟨fun a b k h => by simp at h, fun k _ => rfl⟩
  | (a, b) :: l, d, hd, hl => by
    simp only [List.map_cons, List.nodup_cons] at hl
    have hne : ∀ c e, (c, e) ∈ l → c ≠ a := fun c e hc he => hl.1 (by rw [← he]; exact List.mem_map_of_mem (f := Prod.fst) hc)
    simp only [movedBy]
    cases hk : dirKeyAt d { sector := v, word := a } with
    | none =>
      have ih := movedBy_loc v t h l d hd hl.2
      refine ⟨fun c e k hc he => ?_, fun k hk' => ih.2 k (fun c e hc => hk' c e (List.mem_cons_of_mem _ hc))⟩
      rcases List.mem_cons.1 hc with hc | hc
      · simp only [Prod.mk.injEq] at hc; obtain ⟨rfl, rfl⟩ := hc
        rw [hk] at he; contradiction
      · exact ih.1 c e k hc he
    | some k0 =>
      dsimp only
      have ih := movedBy_loc v t h l (dirMove d k0 { sector := t, word := b }) (dirMove_keysOnce _ _ _ hd) hl.2
      have hs := dirKeyAt_some d _ k0 hk hd
      have same : ∀ c e, (c, e) ∈ l → dirKeyAt (dirMove d k0 { sector := t, word := b }) { sector := v, word := c } =
          dirKeyAt d { sector := v, word := c } := fun c e hc =>
        dirMove_keyAt d k0 _ _ _ hd hk (by simpa using hne c e hc) (by simp [h])
      have k0out : ∀ c e, (c, e) ∈ l → dirKeyAt d { sector := v, word := c } ≠ some k0 := fun c e hc he => by
        have := (dirKeyAt_some d _ k0 he hd).1
        rw [hs.1] at this
        simp only [Option.some.injEq, Location.mk.injEq] at this
        exact hne c e hc this.2.symm
      refine ⟨fun c e k hc he => ?_, fun k hk' => ?_⟩
      · rcases List.mem_cons.1 hc with hc | hc
        · simp only [Prod.mk.injEq] at hc; obtain ⟨rfl, rfl⟩ := hc
          rw [hk] at he; simp only [Option.some.injEq] at he; subst he
          rw [ih.2 k0 (fun c e hc => by rw [same c e hc]; exact k0out c e hc), dirMove_loc]
          simp [hs.2]
        · exact ih.1 c e k hc (by rw [same c e hc]; exact he)
      · have hne0 : k ≠ k0 := fun e => hk' a b (List.mem_cons_self ..) (by rw [hk, e])
        rw [ih.2 k (fun c e hc => by rw [same c e hc]; exact hk' c e (List.mem_cons_of_mem _ hc)), dirMove_loc]
        simp [hne0]

/-! ## Keys lost with a sector (R110) -/

/-- A key stands in the directory, and every record of it has this location. -/
abbrev standsAt (d : List DirRecord) (k : Key) (l : Location) : Prop :=
  (∃ r ∈ d, r.key = k) ∧ ∀ r ∈ d, r.key = k → r.loc = some l

theorem dirLoc_of_standsAt {d : List DirRecord} {k : Key} {l : Location} (h : standsAt d k l) : dirLoc d k = some l := by
  unfold dirLoc dirFind
  cases hf : d.find? (fun r => decide (r.key = k)) with
  | none =>
    obtain ⟨r, hr, hk⟩ := h.1
    simpa [hk] using List.find?_eq_none.1 hf r hr
  | some r => exact h.2 r (List.mem_of_find?_eq_some hf) (by simpa using List.find?_some hf)

theorem standsAt_of_dirLoc {k : Key} {l : Location} : ∀ {d : List DirRecord}, dirLoc d k = some l → keysOnce d → standsAt d k l
  | [], h, _ => by simp [dirLoc, dirFind] at h
  | r :: d, h, n => by
    simp only [keysOnce, List.map_cons, List.nodup_cons] at n
    by_cases hk : r.key = k
    · have h' : r.loc = some l := by simpa [dirLoc, dirFind, hk] using h
      refine ⟨⟨r, List.mem_cons_self .., hk⟩, fun q hq e => ?_⟩
      rcases List.mem_cons.1 hq with rfl | hq
      · exact h'
      · exact absurd (by rw [hk, ← e]; exact List.mem_map_of_mem hq) n.1
    · have ih := standsAt_of_dirLoc (d := d) (by simpa [dirLoc, dirFind, hk] using h) n.2
      obtain ⟨q, hq, e⟩ := ih.1
      refine ⟨⟨q, List.mem_cons_of_mem _ hq, e⟩, fun p hp e => ?_⟩
      rcases List.mem_cons.1 hp with rfl | hp
      · exact absurd e hk
      · exact ih.2 p hp e

/-- A key that takes or changes its location stands at the new one. -/
theorem dirMove_standsAt (d : List DirRecord) (k : Key) (l : Location) (h : dirHas d k = true) : standsAt (dirMove d k l) k l := by
  obtain ⟨r, hr, hk⟩ := List.mem_map.1 ((dirHas_iff d k).1 h)
  unfold dirMove
  refine ⟨⟨_, List.mem_map_of_mem hr, by simp [hk]⟩, fun q hq e => ?_⟩
  obtain ⟨p, _, rfl⟩ := List.mem_map.1 hq
  split at e
  · rename_i hp; simp [hp]
  · rename_i hp; exact absurd e hp

theorem dirUpdate_standsAt {d : List DirRecord} {k p : Key} {l : Location} (f : DirRecord → DirRecord)
    (hk : ∀ r, (f r).key = r.key) (hl : ∀ r, (f r).loc = r.loc) (h : standsAt d k l) : standsAt (dirUpdate d p f) k l := by
  have hp : ∀ r, (if r.key = p then f r else r).key = r.key ∧ (if r.key = p then f r else r).loc = r.loc := fun r => by
    split <;> simp [hk, hl]
  unfold dirUpdate
  obtain ⟨r, hr, e⟩ := h.1
  split
  · refine ⟨⟨_, List.mem_map_of_mem hr, by rw [(hp r).1, e]⟩, fun q hq e => ?_⟩
    obtain ⟨o, ho, rfl⟩ := List.mem_map.1 hq
    rw [(hp o).2]; exact h.2 o ho (by rw [← (hp o).1, e])
  · rename_i hn
    rw [dirHas_iff] at hn
    refine ⟨⟨r, List.mem_append_left _ hr, e⟩, fun q hq e' => ?_⟩
    rcases List.mem_append.1 hq with hq | hq
    · exact h.2 q hq e'
    · rw [List.mem_singleton.1 hq, hk] at e'
      have e2 : p = k := e'
      exact absurd (by rw [e2, ← e]; exact List.mem_map_of_mem hr) hn

theorem dirUpdates_standsAt {k : Key} {l : Location} (f : DirRecord → DirRecord) (hk : ∀ r, (f r).key = r.key)
    (hl : ∀ r, (f r).loc = r.loc) : ∀ (ps : List Key) {d : List DirRecord}, standsAt d k l →
    standsAt (ps.foldl (fun e p => dirUpdate e p f) d) k l
  | [], _, h => h
  | _ :: ps, _, h => dirUpdates_standsAt f hk hl ps (dirUpdate_standsAt f hk hl h)

/-- A location given or moved: the key stands there (R93). -/
theorem dirSet_standsAt (d : List DirRecord) (k : Key) (l : Location) : standsAt (dirSet d k l) k l := by
  unfold dirSet
  split
  · rename_i m hm
    refine dirMove_standsAt d k l ?_
    unfold dirLoc at hm; unfold dirHas
    split at hm
    · rename_i r hr; rw [hr]; rfl
    · cases hm
  · unfold dirGive
    refine dirUpdates_standsAt (fun r => { r with count := r.count + 1 }) (fun _ => rfl) (fun _ => rfl) _ ?_
    unfold dirUpdate
    split
    · rename_i h; exact dirMove_standsAt d k l h
    · rename_i h
      rw [dirHas_iff] at h
      refine ⟨⟨_, List.mem_append_right _ (List.mem_singleton.2 rfl), rfl⟩, fun q hq e => ?_⟩
      rcases List.mem_append.1 hq with hq | hq
      · exact absurd (by rw [← e]; exact List.mem_map_of_mem hq) h
      · rw [List.mem_singleton.1 hq]

theorem dirTake_standsAt {d : List DirRecord} {k x : Key} {l : Location} (h : standsAt d x l) (hx : x ≠ k) :
    standsAt (dirTake d k) x l := by
  unfold dirTake
  constructor
  · obtain ⟨r, hr, e⟩ := h.1
    have hl := h.2 r hr e
    have hk : r.key ≠ k := by rw [e]; exact hx
    refine ⟨_, List.mem_filter.2 ⟨List.mem_map_of_mem hr, ?_⟩, ?_⟩
    · simp only [hk, if_false]; split <;> simp [hl]
    · simp only [hk, if_false]; split <;> exact e
  · intro q hq e
    obtain ⟨hq, _⟩ := List.mem_filter.1 hq
    obtain ⟨r, hr, rfl⟩ := List.mem_map.1 hq
    by_cases hk : r.key = k
    · simp only [hk, if_true] at e; exact absurd e.symm hx
    · simp only [hk, if_false] at e ⊢
      split at e <;> rename_i hp <;> simp only [hp, if_true] <;> exact h.2 r hr e

/-- No record gains a location when a key loses its own. -/
theorem dirTake_locs {d : List DirRecord} {k : Key} {q : DirRecord} {m : Location} (hq : q ∈ dirTake d k) (hm : q.loc = some m) :
    q.key ≠ k ∧ ∃ r ∈ d, r.key = q.key ∧ r.loc = some m := by
  unfold dirTake at hq
  obtain ⟨hq, _⟩ := List.mem_filter.1 hq
  obtain ⟨r, hr, rfl⟩ := List.mem_map.1 hq
  by_cases hk : r.key = k
  · simp only [hk, if_true] at hm; cases hm
  · simp only [hk, if_false] at hm ⊢
    split at hm <;> rename_i hp <;> simp only [hp, if_true] <;> exact ⟨hk, r, hr, rfl, hm⟩

/-- The directory when some keys have lost their locations. -/
abbrev takenBy (l : List Key) (d : List DirRecord) : List DirRecord := l.foldl dirTake d

theorem takenBy_standsAt {x : Key} {m : Location} : ∀ (l : List Key) {d : List DirRecord}, standsAt d x m → x ∉ l →
    standsAt (takenBy l d) x m
  | [], _, h, _ => h
  | k :: l, _, h, hx => takenBy_standsAt l (dirTake_standsAt h (fun e => hx (by simp [e]))) (fun e => hx (by simp [e]))

theorem takenBy_locs {q : DirRecord} {m : Location} : ∀ (l : List Key) {d : List DirRecord}, q ∈ takenBy l d → q.loc = some m →
    q.key ∉ l ∧ ∃ r ∈ d, r.key = q.key ∧ r.loc = some m
  | [], _, hq, hm => ⟨by simp, q, hq, rfl, hm⟩
  | k :: l, d, hq, hm => by
    obtain ⟨hl, r, hr, hk, e⟩ := takenBy_locs l (d := dirTake d k) hq hm
    obtain ⟨h1, p, hp, h2, h3⟩ := dirTake_locs hr e
    exact ⟨by rw [← hk] at hl ⊢; simp [hl, h1], p, hp, by rw [h2, hk], h3⟩

theorem loseSector_eq (n : Nat) (s : State) :
    (loseSector n s).ctl = { s.ctl with directory := takenBy (keysIn s.ctl.directory n) s.ctl.directory } ∧
      (loseSector n s).store = s.store := by
  unfold loseSector
  generalize keysIn s.ctl.directory n = l
  induction l generalizing s with
  | nil => exact ⟨rfl, rfl⟩
  | cons k l ih => exact ih (loseKey k s)

theorem mem_keysIn {d : List DirRecord} {n : Nat} {x : Key} :
    x ∈ keysIn d n ↔ ∃ r ∈ d, r.key = x ∧ ∃ m, r.loc = some m ∧ m.sector = n := by
  simp [keysIn, and_assoc]
  constructor
  · rintro ⟨r, h1, h2, h3⟩; exact ⟨r, h1, h3, h2⟩
  · rintro ⟨r, h1, h2, h3⟩; exact ⟨r, h1, h3, h2⟩

/-- A sector's keys lost: no key stands in it any more, and a key that stands elsewhere stays where it is. -/
theorem loseSector_spec (n : Nat) (s : State) :
    (∀ x m, dirLoc (loseSector n s).ctl.directory x = some m → m.sector ≠ n) ∧
    ∀ x m, standsAt s.ctl.directory x m → m.sector ≠ n → standsAt (loseSector n s).ctl.directory x m := by
  rw [(loseSector_eq n s).1]
  constructor
  · intro x m h e
    unfold dirLoc dirFind at h
    split at h
    · rename_i q hf
      obtain ⟨hl, r, hr, hk, hm⟩ := takenBy_locs _ (List.mem_of_find?_eq_some hf) h
      exact hl (mem_keysIn.2 ⟨r, hr, hk, m, hm, e⟩)
    · cases h
  · intro x m h hm
    refine takenBy_standsAt _ h (fun hx => ?_)
    obtain ⟨r, hr, hk, p, hp, e⟩ := mem_keysIn.1 hx
    have := h.2 r hr hk
    rw [hp] at this; injection this with this; subst this
    exact hm e

end Sys2Proof.Machine
end

