-- ==== Sys2Proof/Laws/Erasing.lean ====
section
/-! SUPPORT. The order of the pre-zero pass (R74): which word it takes next. -/

namespace Sys2Proof.Machine

/-- What a search upward finds. -/
theorem find?_some_iff_first {p : Nat → Bool} (N : Nat) (i : Nat) : (List.range N).find? p = some i ↔
    i < N ∧ p i = true ∧ ∀ j, j < i → p j = false := by
  induction N with
  | zero => simp
  | succ N ih =>
    rw [List.range_succ, List.find?_append, Option.or_eq_some_iff, ih]
    constructor
    · rintro (⟨h1, h2, h3⟩ | ⟨h1, h2⟩)
      · exact ⟨by omega, h2, h3⟩
      · rw [List.find?_singleton] at h2
        split at h2
        · rename_i hp
          simp only [Option.some.injEq] at h2
          subst h2
          refine ⟨by omega, hp, fun j hj => ?_⟩
          rw [List.find?_eq_none] at h1
          simpa using h1 j (List.mem_range.2 hj)
        · simp at h2
    · rintro ⟨h1, h2, h3⟩
      rcases Nat.lt_or_ge i N with hlt | hge
      · exact Or.inl ⟨hlt, h2, h3⟩
      · have : i = N := by omega
        subst this
        refine Or.inr ⟨?_, by simp [h2]⟩
        rw [List.find?_eq_none]
        intro x hx; simp [h3 x (List.mem_range.1 hx)]

theorem range_three (m : Nat) : List.range (3 + m) = 0 :: 1 :: 2 :: (List.range m).map (fun i => i + 3) := by
  have ec : (fun i : Nat => i + 3) = (fun i => 3 + i) := by funext i; omega
  rw [List.range_add, ec]; rfl

/-- The words of the pre-zero pass, from the format word upward, 1 and 2 left out (R74). -/
theorem prezeroWords_eq : prezeroWords = (List.range 4096).filter (fun i => decide (i ≠ 1) && decide (i ≠ 2)) := by
  have h : List.range 4096 = 0 :: 1 :: 2 :: (List.range 4093).map (fun i => i + 3) := range_three 4093
  rw [h]
  unfold prezeroWords
  rw [List.filter_cons_of_pos (by decide), List.filter_cons_of_neg (by decide), List.filter_cons_of_neg (by decide),
    List.filter_eq_self.2 (by
      intro a ha
      simp only [List.mem_map] at ha
      obtain ⟨x, _, rfl⟩ := ha
      simp)]
  rfl

/-- The next word of the pass: the first of these from a word on that does not read zero (R74). -/
theorem nextToZero_eq (n w : Nat) (s : State) : nextToZero n w s = (List.range 4096).find? (fun i =>
    decide (i ≠ 1) && decide (i ≠ 2) && (decide (w ≤ i) && decide ((wordAt s n i).bits ≠ 0))) := by
  unfold nextToZero
  rw [prezeroWords_eq, List.find?_filter]
  congr 1
  funext i
  simp

end Sys2Proof.Machine
end

