-- ==== Sys2Proof/Laws/Headers.lean ====
section
/-! SUPPORT. Entry header words with their mark bits taken as 1 (R205): the marks change no field and no class where a
programmed word is expected, and a word whose check bits are programmed, or on which a mark reads set, ends no walk. -/

namespace Sys2Proof.Machine

/-- The mark bits stand above every field of an entry header. -/
theorem entryFields_unmarked (v : BitVec 32) : entryFields (v ||| entryMarkBits) = entryFields v := by
  have hm : entryMarkBits.toNat = 511 * 2 ^ 23 := by decide
  unfold entryFields
  simp only [BitVec.toNat_or, hm, Nat.or_div_two_pow]
  congr 1
  · have : (8 : Nat) = 2 ^ 3 := rfl
    rw [this, Nat.or_mod_two_pow]; simp
  · have : (64 : Nat) = 2 ^ 6 := rfl
    rw [this, Nat.or_mod_two_pow]; simp
  · apply BitVec.eq_of_toNat_eq
    simp only [BitVec.toNat_ofNat, Nat.or_mod_two_pow]; simp

/-- With its check bits erased a word is not the programmed one expected. -/
theorem expectedClass_of_erased {ok : BitVec 32 → Bool} {w : StoreWord} (h : w.check = .erased) :
    expectedClass ok w = .uncorrectable := by
  have hc : classOf w = .erased ∨ classOf w = .uncorrectable := by
    unfold classOf; rw [h]; dsimp only; split <;> simp
  unfold expectedClass
  rcases hc with hc | hc <;> rw [hc]

/-- Where a programmed header is expected its class is the same with the marks taken as 1. -/
theorem expectedClass_unmarked (word : Nat) (w : StoreWord) :
    expectedClass (headerFits word) (unmarked w) = expectedClass (headerFits word) w := by
  have hf : ∀ v, headerFits word (v ||| entryMarkBits) = headerFits word v := fun v => by
    unfold headerFits headerValueOk; rw [entryFields_unmarked]
  rcases w with ⟨b, c⟩
  cases c
  case erased =>
    rw [expectedClass_of_erased rfl, expectedClass_of_erased rfl]
  all_goals simp [expectedClass, unmarked, classOf, hf]

/-- A word with its check bits programmed ends no walk. -/
theorem isBlankHeader_of_check {w : StoreWord} (h : w.check ≠ .erased) : isBlankHeader w = false := by
  unfold isBlankHeader unmarked classOf
  rcases w with ⟨b, c⟩
  cases c <;> simp_all

/-- A word on which an entry mark reads set ends no walk (R66). -/
theorem isBlankHeader_of_marked {w : StoreWord} (h : entryMarked w = true) : isBlankHeader w = false := by
  unfold isBlankHeader; rw [h]; simp

/-- What no header stands in: nothing but mark copies is programmed, and no mark reads set. -/
theorem isBlankHeader_eq_true {w : StoreWord} :
    isBlankHeader w = true ↔ w.check = .erased ∧ w.bits ||| entryMarkBits = BitVec.allOnes 32 ∧ entryMarked w = false := by
  unfold isBlankHeader unmarked classOf
  rcases w with ⟨b, c⟩
  cases c <;> simp

/-- A header on which writing has begun and nothing but marks took is uncorrectable: its size is not known (R66, R67). -/
theorem expectedClass_of_marked_erased {ok : BitVec 32 → Bool} {w : StoreWord} (hc : w.check = .erased)
    (h : entryMarked w = true) : isBlankHeader w = false ∧ expectedClass ok w = .uncorrectable :=
  ⟨isBlankHeader_of_marked h, expectedClass_of_erased hc⟩

end Sys2Proof.Machine
end

