-- ==== Sys2Proof/Laws/KeepsLink.lean ====
section
/-! SUPPORT. The carrier side of the Link Controller, the screen and the timebase keep the laws of `Keeps`. -/

namespace Sys2Proof.Machine

theorem setMode_keeps (m : LinkMode) (s : State) : Keeps s (setMode m s) :=
  Keeps.after (raiseIf_keeps _ _ _) (Keeps.same ⟨rfl, rfl, rfl, rfl, rfl, rfl, rfl⟩)

theorem enterDuplicate_keeps (s : State) : Keeps s (enterDuplicate s) :=
  Keeps.after (penLoss_keeps _ _ _) (Keeps.after (setMode_keeps _ _) (Keeps.same ⟨rfl, rfl, rfl, rfl, rfl, rfl, rfl⟩))

theorem followPlan_keeps (b : Bool) (s : State) : Keeps s (followPlan b s) := by
  unfold followPlan
  exact Keeps.ite (setMode_keeps _ s) (Keeps.ite
    (Keeps.after (setMode_keeps _ _) (Keeps.same ⟨rfl, rfl, rfl, rfl, rfl, rfl, rfl⟩)) (Keeps.same ⟨rfl, rfl, rfl, rfl, rfl, rfl, rfl⟩))

theorem takeBeacon_keeps (own : Bool) (b : Beacon) (s : State) : Keeps s (takeBeacon own b s) := by
  unfold takeBeacon
  dsimp only
  exact Keeps.after (beaconToPen_keeps _ _ _) (Keeps.after (followPlan_keeps _ _) (Keeps.same ⟨rfl, rfl, rfl, rfl, rfl, rfl, rfl⟩))

theorem dropVoidPass_keeps (u s : State) : Keeps s (dropVoidPass u s) := by
  unfold dropVoidPass
  split
  · exact Keeps.ite (Keeps.same ⟨rfl, rfl, rfl, rfl, rfl, rfl, rfl⟩) (Keeps.refl s)
  · exact Keeps.refl s

theorem sendBeacon_keeps (s : State) : Keeps s (sendBeacon s) :=
  Keeps.after (dropVoidPass_keeps s _) (takeBeacon_keeps true _ s)

theorem quietExpiry_keeps (s : State) : Keeps s (quietExpiry s) := by
  unfold quietExpiry
  exact Keeps.ite (Keeps.same ⟨rfl, rfl, rfl, rfl, rfl, rfl, rfl⟩) (Keeps.refl s)

theorem beaconCollided_keeps (s : State) : Keeps s (beaconCollided s) := Keeps.same ⟨rfl, rfl, rfl, rfl, rfl, rfl, rfl⟩

theorem beginWindow_keeps (s : State) : Keeps s (beginWindow s) := by
  unfold beginWindow
  dsimp only
  exact (catchUp_keeps s).next ⟨rfl, rfl, rfl, rfl, rfl, rfl, rfl⟩

theorem beginJoinSlot_keeps (s : State) : Keeps s (beginJoinSlot s) := by
  unfold beginJoinSlot
  dsimp only
  exact Keeps.ite (Keeps.same ⟨rfl, rfl, rfl, rfl, rfl, rfl, rfl⟩) (Keeps.same ⟨rfl, rfl, rfl, rfl, rfl, rfl, rfl⟩)

theorem beginWindows_keeps (l : List Station) (s : State) : Keeps s (beginWindows l s) := by
  unfold beginWindows
  dsimp only
  split
  · exact beginJoinSlot_keeps s
  · exact Keeps.ite (Keeps.after (beginWindow_keeps _) (Keeps.same ⟨rfl, rfl, rfl, rfl, rfl, rfl, rfl⟩))
      (Keeps.same ⟨rfl, rfl, rfl, rfl, rfl, rfl, rfl⟩)

theorem endRound_keeps (s : State) : Keeps s (endRound s) := Keeps.same ⟨rfl, rfl, rfl, rfl, rfl, rfl, rfl⟩

theorem nextPart_keeps (s : State) : Keeps s (nextPart s) := by
  unfold nextPart
  split
  · exact Keeps.refl s
  · exact beginWindows_keeps _ s
  · exact beginWindows_keeps _ s
  · exact endRound_keeps s
  · exact Keeps.refl s

theorem recordOwn_keeps (h : Header) (s : State) : Keeps s (recordOwn h s) := Keeps.same ⟨rfl, rfl, rfl, rfl, rfl, rfl, rfl⟩

theorem endOwn_keeps (s : State) : Keeps s (endOwn s) := by
  unfold endOwn
  split
  · exact Keeps.same ⟨rfl, rfl, rfl, rfl, rfl, rfl, rfl⟩
  · exact Keeps.refl s

theorem pairIdle_keeps (s : State) : Keeps s (pairIdle s) := Keeps.same ⟨rfl, rfl, rfl, rfl, rfl, rfl, rfl⟩

theorem absentGap_keeps (s : State) : Keeps s (absentGap s) := by
  unfold absentGap
  exact Keeps.ite (((endOwn_keeps s).trans (pairIdle_keeps _)).trans (nextPart_keeps _)) (Keeps.refl s)

theorem unitSent_keeps (u : TxUnit) (s : State) : Keeps s (unitSent u s) := by
  cases u with
  | mark m => exact Keeps.after (applyMark_keeps _ _) (Keeps.same ⟨rfl, rfl, rfl, rfl, rfl, rfl, rfl⟩)
  | item i => exact Keeps.same ⟨rfl, rfl, rfl, rfl, rfl, rfl, rfl⟩
  | resend i => exact Keeps.refl s
  | gap g => exact Keeps.refl s

theorem itemSent_keeps (s : State) : Keeps s (itemSent s) := by
  unfold itemSent
  split
  · split
    · exact ((recordOwn_keeps _ s).trans (unitSent_keeps _ _)).next ⟨rfl, rfl, rfl, rfl, rfl, rfl, rfl⟩
    · exact Keeps.refl s
  · exact Keeps.refl s

theorem collide_keeps (b : Bool) (s : State) : Keeps s (collide b s) := by
  unfold collide
  split
  · refine Keeps.ite (enterDuplicate_keeps s) ?_
    cases b <;> exact Keeps.same ⟨rfl, rfl, rfl, rfl, rfl, rfl, rfl⟩
  · exact Keeps.ite (beaconCollided_keeps s) (Keeps.refl s)

/-- A change of the carrier side alone. -/
theorem Keeps.withLink {s t : State} (h : Keeps s t) (l : Link) : Keeps s { t with link := l } :=
  Keeps.after (s := s) (t := t) (u := { t with link := l }) (Keeps.same ⟨rfl, rfl, rfl, rfl, rfl, rfl, rfl⟩) h

theorem countWords_keeps (n : Option Station) (cs : List RxCell) (s : State) : Keeps s (countWords n cs s) := by
  obtain ⟨r, h⟩ := countWords_eq n cs s
  rw [h]
  exact Keeps.same ⟨rfl, rfl, rfl, rfl, rfl, rfl, rfl⟩

theorem discardCells_keeps (n : Nat) (s : State) : Keeps s (discardCells n s) := Keeps.same ⟨rfl, rfl, rfl, rfl, rfl, rfl, rfl⟩

theorem discardJudged_keeps (cs : List RxCell) (s : State) : Keeps s (discardJudged cs s) :=
  Keeps.after (discardCells_keeps _ _) (countWords_keeps _ _ _)

theorem unknownSender_keeps (s : State) : Keeps s (unknownSender s) := Keeps.same ⟨rfl, rfl, rfl, rfl, rfl, rfl, rfl⟩

theorem takeHeader_keeps (h : Header) (n : Nat) (s : State) : Keeps s (takeHeader h n s) := by
  unfold takeHeader
  dsimp only
  exact Keeps.ite (Keeps.after (headerToPen_keeps _ _) (Keeps.same ⟨rfl, rfl, rfl, rfl, rfl, rfl, rfl⟩))
    (Keeps.same ⟨rfl, rfl, rfl, rfl, rfl, rfl, rfl⟩)

theorem headerReceived_keeps (c : RxCell) (s : State) : Keeps s (headerReceived c s) := by
  unfold headerReceived
  refine Keeps.ite (Keeps.refl s) (Keeps.ite (discardJudged_keeps _ s) ?_)
  split
  · exact Keeps.ite (Keeps.ite (enterDuplicate_keeps s) (unknownSender_keeps s)) (takeHeader_keeps _ _ s)
  · exact unknownSender_keeps s

theorem beaconReceived_keeps (c1 c2 : RxCell) (s : State) : Keeps s (beaconReceived c1 c2 s) := by
  unfold beaconReceived
  refine Keeps.ite (Keeps.refl s) (Keeps.ite (discardCells_keeps 2 s) ?_)
  have hc := countWords_keeps (beaconSender c1) [c1, c2] s
  dsimp only
  split
  · exact Keeps.ite (Keeps.after (enterDuplicate_keeps _) hc)
      (Keeps.ite (hc.withLink _)
        (Keeps.after (takeBeacon_keeps _ _ _) hc))
  · exact Keeps.after (unknownSender_keeps _) hc

/-- What an item does to the receiver keeps the laws when the taking of it does. -/
theorem cellsReceived_keeps (cs : List RxCell) (take : Option (Header → State → State))
    (ht : ∀ f, take = some f → ∀ h s, Keeps s (f h s)) (s : State) : Keeps s (cellsReceived cs take s) := by
  unfold cellsReceived
  refine Keeps.ite ?_ (Keeps.refl s)
  split
  · next f _ =>
    exact Keeps.ite
      (Keeps.after (ht f rfl _ _)
        ((countWords_keeps _ cs s).withLink _))
      (discardJudged_keeps cs s)
  · exact discardJudged_keeps cs s

theorem streamItem_keeps (i : Item) (h : Header) (s : State) : Keeps s (streamItem i h s) := by
  unfold streamItem
  exact Keeps.ite (itemIn_keeps i s) (Keeps.refl s)

theorem streamGap_keeps (g : GapItem) (h : Header) (s : State) : Keeps s (streamGap g h s) := by
  unfold streamGap
  exact Keeps.ite (gapIn_keeps g s) (Keeps.refl s)

theorem streamMark_keeps (m : MarkItem) (h : Header) (s : State) : Keeps s (streamMark m h s) := by
  unfold streamMark
  exact Keeps.ite (applyMark_keeps m s) (Keeps.refl s)

theorem cellDiscarded_keeps (s : State) : Keeps s (cellDiscarded s) := by
  unfold cellDiscarded
  exact Keeps.ite (discardCells_keeps _ s) (Keeps.refl s)

/-! ## Screen -/

theorem pressUp_keeps (s : State) : Keeps s (pressUp s) := Keeps.same ⟨rfl, rfl, rfl, rfl, rfl, rfl, rfl⟩

theorem pressDown_keeps (s : State) : Keeps s (pressDown s) := by
  unfold pressDown
  split <;> exact Keeps.same ⟨rfl, rfl, rfl, rfl, rfl, rfl, rfl⟩

theorem pressLive_keeps (s : State) : Keeps s (pressLive s) := Keeps.same ⟨rfl, rfl, rfl, rfl, rfl, rfl, rfl⟩

theorem pressMark_keeps (s : State) : Keeps s (pressMark s) := by
  unfold pressMark
  refine Keeps.ite (Keeps.same ⟨rfl, rfl, rfl, rfl, rfl, rfl, rfl⟩) ?_
  split
  · exact Keeps.same ⟨rfl, rfl, rfl, rfl, rfl, rfl, rfl⟩
  · exact Keeps.ite (Keeps.same ⟨rfl, rfl, rfl, rfl, rfl, rfl, rfl⟩) (Keeps.same ⟨rfl, rfl, rfl, rfl, rfl, rfl, rfl⟩)

theorem reviewIdleExpiry_keeps (s : State) : Keeps s (reviewIdleExpiry s) := by
  unfold reviewIdleExpiry
  exact Keeps.ite (Keeps.same ⟨rfl, rfl, rfl, rfl, rfl, rfl, rfl⟩) (Keeps.refl s)

theorem writeStart_keeps (s : State) : Keeps s (writeStart s) := by
  unfold writeStart
  split
  · next i l hd _ =>
    refine Keeps.ite (Keeps.refl s) (Keeps.ofScreen ⟨rfl, rfl, rfl, rfl, rfl, rfl⟩ (Screen.rowsGood_tail _ hd))
  · exact Keeps.refl s

theorem writeDone_keeps (s : State) : Keeps s (writeDone s) := by
  unfold writeDone
  split
  · exact Keeps.same ⟨rfl, rfl, rfl, rfl, rfl, by simp [Screen.rowParts], rfl⟩
  · exact Keeps.refl s

/-! ## Timebase -/

@[simp] theorem Screen.tick_rowParts (sc : Screen) : sc.tick.rowParts = sc.rowParts := by
  unfold Screen.tick
  split <;> rfl

theorem useDebounce_keeps (s : State) : Keeps s (useDebounce s) := by
  unfold useDebounce
  split
  · exact Keeps.same ⟨rfl, rfl, rfl, rfl, rfl, rfl, rfl⟩
  · exact Keeps.refl s

theorem tick_keeps (k : BitVec 23) (b : BitVec 5) (r : Bool) (s : State) : Keeps s (tick k b r s) := by
  unfold tick
  dsimp only
  have h : Keeps s (if r then useDebounce (takeDueKeys s) else takeDueKeys s) := by
    split
    · exact (useDebounce_keeps _).after (takeDueKeys_keeps s)
    · exact takeDueKeys_keeps s
  exact h.next ⟨rfl, rfl, rfl, rfl, rfl, Screen.tick_rowParts _, rfl⟩

theorem applyUpset_keeps (s : State) (u : Upset) : Keeps s (applyUpset s u) := by
  cases u with
  | storeWord a w => exact Keeps.ofStore ⟨rfl, rfl, rfl, rfl, rfl, rfl⟩ (Memory.wf_write s.store a w)
  | cacheParity set way =>
    refine Keeps.ofCache ⟨rfl, rfl, rfl, rfl, rfl, rfl⟩ (fun h => ?_)
    exact Cache.good_modify h (fun ls _ hg _ => agesGood_of_ages (modify_ages way flipParity (fun _ => rfl) ls) hg)

end Sys2Proof.Machine
end

