-- ==== Sys2Proof/Laws/ReadSide.lean ====
section
/-! SUPPORT. Reading entries changes the fault record, the repair list and the attention state, nothing else. -/

namespace Sys2Proof.Machine

/-- The parts that `ReadSide` says stay. -/
def State.besideReads (s : State) :
    Straps × StartState × Settings × PortState × List Byte × Clock × Scanner × Buttons × Journal × Translator × Composer × Record × Link × Pen × Screen × List Instr × Cache × Memory × StoreScript × List SecState × List Account × Nat × Option Nat × List DirRecord × List QueuedReq × Nat × Bool × Option Direct × Compaction × List KeyRow × Option (Nat × Nat) × LastKey × Bool × Option ConfigFields × Nat :=
  (s.straps, s.start, s.settings, s.port, s.portOut, s.clock, s.scanner, s.buttons, s.journal, s.trans, s.composer, s.record, s.link, s.pen, s.screen, s.pending, s.cache, s.store, s.script, s.ctl.sectors, s.ctl.accounts, s.ctl.highestSeq, s.ctl.reserve, s.ctl.directory, s.ctl.queue, s.ctl.nextId, s.ctl.headWaiting, s.ctl.direct, s.ctl.comp, s.ctl.keyTable, s.ctl.openSector, s.ctl.lastKey, s.ctl.baseProtected, s.ctl.configRecord, s.ctl.configAppend)

/-- What reading leaves: all but the fault record, the repair list and the attention state. -/
structure ReadSide (s t : State) : Prop where
  straps : t.straps = s.straps
  start : t.start = s.start
  settings : t.settings = s.settings
  port : t.port = s.port
  portOut : t.portOut = s.portOut
  clock : t.clock = s.clock
  scanner : t.scanner = s.scanner
  buttons : t.buttons = s.buttons
  journal : t.journal = s.journal
  translator : t.trans = s.trans
  composer : t.composer = s.composer
  record : t.record = s.record
  link : t.link = s.link
  pen : t.pen = s.pen
  screen : t.screen = s.screen
  pending : t.pending = s.pending
  cache : t.cache = s.cache
  store : t.store = s.store
  script : t.script = s.script
  sectors : t.ctl.sectors = s.ctl.sectors
  accounts : t.ctl.accounts = s.ctl.accounts
  highestSeq : t.ctl.highestSeq = s.ctl.highestSeq
  reserve : t.ctl.reserve = s.ctl.reserve
  directory : t.ctl.directory = s.ctl.directory
  queue : t.ctl.queue = s.ctl.queue
  nextId : t.ctl.nextId = s.ctl.nextId
  headWaiting : t.ctl.headWaiting = s.ctl.headWaiting
  direct : t.ctl.direct = s.ctl.direct
  comp : t.ctl.comp = s.ctl.comp
  keyTable : t.ctl.keyTable = s.ctl.keyTable
  openSector : t.ctl.openSector = s.ctl.openSector
  lastKey : t.ctl.lastKey = s.ctl.lastKey
  baseProtected : t.ctl.baseProtected = s.ctl.baseProtected
  configRecord : t.ctl.configRecord = s.ctl.configRecord
  configAppend : t.ctl.configAppend = s.ctl.configAppend

theorem ReadSide.same {s t : State} (h : t.besideReads = s.besideReads) : ReadSide s t := by
  simp only [State.besideReads, Prod.mk.injEq] at h
  obtain ⟨h0, h1, h2, h3, h4, h5, h6, h7, h8, h9, h10, h11, h12, h13, h14, h15, h16, h17, h18, h19, h20, h21, h22, h23, h24, h25, h26, h27, h28, h29, h30, h31, h32, h33, h34⟩ := h
  constructor <;> assumption

theorem ReadSide.eqs {s t : State} (h : ReadSide s t) : t.besideReads = s.besideReads := by
  obtain ⟨h0, h1, h2, h3, h4, h5, h6, h7, h8, h9, h10, h11, h12, h13, h14, h15, h16, h17, h18, h19, h20, h21, h22, h23, h24, h25, h26, h27, h28, h29, h30, h31, h32, h33, h34⟩ := h
  simp only [State.besideReads, h0, h1, h2, h3, h4, h5, h6, h7, h8, h9, h10, h11, h12, h13, h14, h15, h16, h17, h18, h19, h20, h21, h22, h23, h24, h25, h26, h27, h28, h29, h30, h31, h32, h33, h34]

theorem ReadSide.refl (s : State) : ReadSide s s := ReadSide.same rfl

theorem ReadSide.trans {s t u : State} (a : ReadSide s t) (b : ReadSide t u) : ReadSide s u := ReadSide.same (b.eqs.trans a.eqs)

theorem ReadSide.after {s t u : State} (b : ReadSide t u) (a : ReadSide s t) : ReadSide s u := a.trans b

theorem ReadSide.next {s t u : State} (a : ReadSide s t) (h : u.besideReads = t.besideReads) : ReadSide s u := a.trans (ReadSide.same h)

theorem ReadSide.ite {c : Prop} [Decidable c] {s a b : State} (ha : ReadSide s a) (hb : ReadSide s b) : ReadSide s (if c then a else b) := by
  split <;> assumption

theorem ReadSide.foldl {α : Type} (f : State → α → State) (h : ∀ s a, ReadSide s (f s a)) : ∀ (l : List α) (s : State), ReadSide s (l.foldl f s)
  | [], s => ReadSide.refl s
  | a :: l, s => (h s a).trans (ReadSide.foldl f h l _)

theorem raise_readSide (c : Cause) (s : State) : ReadSide s (raise c s) := ReadSide.same rfl

theorem raiseIf_readSide (b : Bool) (c : Cause) (s : State) : ReadSide s (raiseIf b c s) := by
  cases b
  · exact ReadSide.refl s
  · exact raise_readSide c s

theorem noteFault_readSide (k : FaultKind) (n w : Nat) (s : State) : ReadSide s (noteFault k n w s) :=
  ReadSide.after (raiseIf_readSide _ _ _) (ReadSide.same rfl)

theorem readWord_readSide (ok : BitVec 32 → Bool) (n w : Nat) (s : State) : ReadSide s (readWord ok n w s).1 := by
  unfold readWord
  dsimp only
  split
  · exact ReadSide.refl s
  · dsimp only; exact noteFault_readSide _ _ _ s
  · dsimp only; exact noteFault_readSide _ _ _ s

theorem readWords_readSide (ok : BitVec 32 → Bool) (n : Nat) : ∀ (c w : Nat) (s : State), ReadSide s (readWords ok n c w s).1
  | 0, _, s => ReadSide.refl s
  | c + 1, w, s => by
    unfold readWords
    dsimp only
    split
    · exact readWord_readSide ok n w s
    · exact (readWord_readSide ok n w s).trans (readWords_readSide ok n c (w + 1) _)

theorem readEntryAt_readSide (n w : Nat) (s : State) : ReadSide s (readEntryAt n w s).1 := by
  unfold readEntryAt
  dsimp only
  have h := readWord_readSide (headerFits w) n w s
  split
  · have c := fun m => h.trans (readWords_readSide chordValueOk n m (w + 1) _)
    split
    · split <;> exact (c _).trans (readWords_readSide _ _ _ _ _)
    · exact c _
  · exact h

theorem offerRepair_readSide (l : Location) (s : State) : ReadSide s (offerRepair l s) := by
  unfold offerRepair
  exact ReadSide.ite (ReadSide.refl s) (ReadSide.same rfl)

theorem offerRepairIf_readSide (b : Bool) (l : Location) (s : State) : ReadSide s (offerRepairIf b l s) := by
  cases b
  · exact ReadSide.refl s
  · exact offerRepair_readSide l s

theorem readLive_readSide (l : Location) (s : State) : ReadSide s (readLive l s).1 :=
  (readEntryAt_readSide _ _ s).trans (offerRepairIf_readSide _ _ _)

theorem probeSlot_readSide (n slot c : Nat) (s : State) : ReadSide s (probeSlot n slot c s).1 := by
  unfold probeSlot
  dsimp only
  have h := readWord_readSide slotValueOk n (Config.sectorWords - 1 - slot) s
  split
  · split
    · exact (h.trans (readWord_readSide _ _ _ _)).trans (readWords_readSide _ _ _ _ _)
    · exact (h.trans (readWord_readSide _ _ _ _)).trans (readWords_readSide _ _ _ _ _)
  · exact h

theorem searchSlots_readSide (n : Nat) (k : Key) : ∀ (f lo hi : Nat) (m : Met) (s : State),
    ReadSide s (searchSlots n k f lo hi m s).1
  | 0, _, _, _, s => ReadSide.refl s
  | f + 1, lo, hi, m, s => by
    unfold searchSlots
    split
    · exact ReadSide.refl s
    · dsimp only
      have h := probeSlot_readSide n ((lo + hi - 1) / 2) k.length s
      split
      · exact h
      · split
        · exact h
        · split
          · exact h.trans (searchSlots_readSide n k f _ _ _ _)
          · exact h.trans (searchSlots_readSide n k f _ _ _ _)

theorem nextExtends_readSide (t : List KeyRow) (r : KeyRow) (slot : Nat) (k : Key) (s : State) :
    ReadSide s (nextExtends t r slot k s).1 := by
  unfold nextExtends
  dsimp only
  split
  · split <;> exact probeSlot_readSide _ _ _ s
  · exact ReadSide.refl s

theorem baseSearch_readSide (k : Key) (s : State) : ReadSide s (baseSearch k s).1 := by
  unfold baseSearch
  dsimp only
  split
  · exact ReadSide.refl s
  · have h := fun n f lo hi g => searchSlots_readSide n k f lo hi g s
    split
    · exact h _ _ _ _ _
    · exact (h _ _ _ _ _).trans (nextExtends_readSide _ _ _ _ _)
    · exact (h _ _ _ _ _).trans (nextExtends_readSide _ _ _ _ _)

theorem sessionResult_readSide (l : Location) (e : Bool) (m : Met) (s : State) : ReadSide s (sessionResult l e m s).1 := by
  unfold sessionResult
  dsimp only
  split <;> exact readLive_readSide l s

theorem readText_readSide (l : Location) (s : State) : ReadSide s (readText l s).1 := readWords_readSide _ _ _ _ s

theorem baseResult_readSide (l : Option Location) (e : Bool) (m : Met) (s : State) : ReadSide s (baseResult l e m s).1 := by
  unfold baseResult
  split
  · exact ReadSide.refl s
  · split
    · exact ReadSide.refl s
    · dsimp only
      split <;> exact readText_readSide _ s

theorem resultOf_readSide (k : Key) (s : State) : ReadSide s (resultOf k s).1 := by
  unfold resultOf
  dsimp only
  split
  · exact (baseSearch_readSide k s).trans (sessionResult_readSide _ _ _ _)
  · exact (baseSearch_readSide k s).trans (baseResult_readSide _ _ _ _)

end Sys2Proof.Machine
end

