-- ==== Sys2Proof/Laws/WordSide.lean ====
section
/-! SUPPORT. Reading, programming and erasing words changes the store, the fault record, the attention state and what is left of the script, nothing else. -/

namespace Sys2Proof.Machine

/-- The parts that `WordSide` says stay. -/
def State.besideWords (s : State) :
    Straps × StartState × Settings × PortState × List Byte × Clock × Scanner × Buttons × Journal × Translator × Composer × Record × Link × Pen × Screen × List Instr × Cache × List SecState × List Account × Nat × Option Nat × List DirRecord × List QueuedReq × Nat × Bool × List Location × Option Direct × Compaction × List KeyRow × Option (Nat × Nat) × LastKey × Bool × Option ConfigFields × Nat :=
  (s.straps, s.start, s.settings, s.port, s.portOut, s.clock, s.scanner, s.buttons, s.journal, s.trans, s.composer, s.record, s.link, s.pen, s.screen, s.pending, s.cache, s.ctl.sectors, s.ctl.accounts, s.ctl.highestSeq, s.ctl.reserve, s.ctl.directory, s.ctl.queue, s.ctl.nextId, s.ctl.headWaiting, s.ctl.repair, s.ctl.direct, s.ctl.comp, s.ctl.keyTable, s.ctl.openSector, s.ctl.lastKey, s.ctl.baseProtected, s.ctl.configRecord, s.ctl.configAppend)

/-- What work on words leaves: all but the store, the script, the fault record and the attention state. -/
structure WordSide (s t : State) : Prop where
  straps : t.straps = s.straps
  start : t.start = s.start
  settings : t.settings = s.settings
  port : t.port = s.port
  portOut : t.portOut = s.portOut
  clock : t.clock = s.clock
  scanner : t.scanner = s.scanner
  buttons : t.buttons = s.buttons
  journal : t.journal = s.journal
  translator : t.trans = s.trans
  composer : t.composer = s.composer
  record : t.record = s.record
  link : t.link = s.link
  pen : t.pen = s.pen
  screen : t.screen = s.screen
  pending : t.pending = s.pending
  cache : t.cache = s.cache
  sectors : t.ctl.sectors = s.ctl.sectors
  accounts : t.ctl.accounts = s.ctl.accounts
  highestSeq : t.ctl.highestSeq = s.ctl.highestSeq
  reserve : t.ctl.reserve = s.ctl.reserve
  directory : t.ctl.directory = s.ctl.directory
  queue : t.ctl.queue = s.ctl.queue
  nextId : t.ctl.nextId = s.ctl.nextId
  headWaiting : t.ctl.headWaiting = s.ctl.headWaiting
  repair : t.ctl.repair = s.ctl.repair
  direct : t.ctl.direct = s.ctl.direct
  comp : t.ctl.comp = s.ctl.comp
  keyTable : t.ctl.keyTable = s.ctl.keyTable
  openSector : t.ctl.openSector = s.ctl.openSector
  lastKey : t.ctl.lastKey = s.ctl.lastKey
  baseProtected : t.ctl.baseProtected = s.ctl.baseProtected
  configRecord : t.ctl.configRecord = s.ctl.configRecord
  configAppend : t.ctl.configAppend = s.ctl.configAppend

theorem WordSide.same {s t : State} (h : t.besideWords = s.besideWords) : WordSide s t := by
  simp only [State.besideWords, Prod.mk.injEq] at h
  obtain ⟨h0, h1, h2, h3, h4, h5, h6, h7, h8, h9, h10, h11, h12, h13, h14, h15, h16, h17, h18, h19, h20, h21, h22, h23, h24, h25, h26, h27, h28, h29, h30, h31, h32, h33⟩ := h
  constructor <;> assumption

theorem WordSide.eqs {s t : State} (h : WordSide s t) : t.besideWords = s.besideWords := by
  obtain ⟨h0, h1, h2, h3, h4, h5, h6, h7, h8, h9, h10, h11, h12, h13, h14, h15, h16, h17, h18, h19, h20, h21, h22, h23, h24, h25, h26, h27, h28, h29, h30, h31, h32, h33⟩ := h
  simp only [State.besideWords, h0, h1, h2, h3, h4, h5, h6, h7, h8, h9, h10, h11, h12, h13, h14, h15, h16, h17, h18, h19, h20, h21, h22, h23, h24, h25, h26, h27, h28, h29, h30, h31, h32, h33]

theorem WordSide.refl (s : State) : WordSide s s := WordSide.same rfl

theorem WordSide.trans {s t u : State} (a : WordSide s t) (b : WordSide t u) : WordSide s u := WordSide.same (b.eqs.trans a.eqs)

theorem WordSide.after {s t u : State} (b : WordSide t u) (a : WordSide s t) : WordSide s u := a.trans b

theorem WordSide.next {s t u : State} (a : WordSide s t) (h : u.besideWords = t.besideWords) : WordSide s u := a.trans (WordSide.same h)

theorem WordSide.ite {c : Prop} [Decidable c] {s a b : State} (ha : WordSide s a) (hb : WordSide s b) : WordSide s (if c then a else b) := by
  split <;> assumption

theorem WordSide.foldl {α : Type} (f : State → α → State) (h : ∀ s a, WordSide s (f s a)) : ∀ (l : List α) (s : State), WordSide s (l.foldl f s)
  | [], s => WordSide.refl s
  | a :: l, s => (h s a).trans (WordSide.foldl f h l _)

theorem raise_wordSide (c : Cause) (s : State) : WordSide s (raise c s) := WordSide.same rfl

theorem raiseIf_wordSide (b : Bool) (c : Cause) (s : State) : WordSide s (raiseIf b c s) := by
  cases b
  · exact WordSide.refl s
  · exact raise_wordSide c s

theorem noteFault_wordSide (k : FaultKind) (n w : Nat) (s : State) : WordSide s (noteFault k n w s) :=
  WordSide.after (raiseIf_wordSide _ _ _) (WordSide.same rfl)

theorem readWord_wordSide (ok : BitVec 32 → Bool) (n w : Nat) (s : State) : WordSide s (readWord ok n w s).1 := by
  unfold readWord
  dsimp only
  split
  · exact WordSide.refl s
  · dsimp only; exact noteFault_wordSide _ _ _ s
  · dsimp only; exact noteFault_wordSide _ _ _ s

theorem readWords_wordSide (ok : BitVec 32 → Bool) (n : Nat) : ∀ (c w : Nat) (s : State), WordSide s (readWords ok n c w s).1
  | 0, _, s => WordSide.refl s
  | c + 1, w, s => by
    unfold readWords
    dsimp only
    split
    · exact readWord_wordSide ok n w s
    · exact (readWord_wordSide ok n w s).trans (readWords_wordSide ok n c (w + 1) _)

theorem readEntryAt_wordSide (n w : Nat) (s : State) : WordSide s (readEntryAt n w s).1 := by
  unfold readEntryAt
  dsimp only
  have h := readWord_wordSide (headerFits w) n w s
  split
  · have c := fun m => h.trans (readWords_wordSide chordValueOk n m (w + 1) _)
    split
    · split <;> exact (c _).trans (readWords_wordSide _ _ _ _ _)
    · exact c _
  · exact h

theorem pulseWord_wordSide (t : StoreWord) (n w : Nat) (s : State) : WordSide s (pulseWord t n w s).1 :=
  WordSide.same rfl

theorem programWord_wordSide (t : StoreWord) (n w : Nat) (s : State) : WordSide s (programWord t n w s).1 := by
  unfold programWord
  dsimp only
  split
  · exact pulseWord_wordSide t n w s
  · dsimp only
    exact (pulseWord_wordSide t n w s).trans (noteFault_wordSide _ _ _ _)

theorem programMark_wordSide (n : Nat) (m : Mark) (s : State) : WordSide s (programMark n m s).1 := by
  unfold programMark
  dsimp only
  have h := fun t => pulseWord_wordSide t n m.word s
  split
  · exact h _
  · dsimp only
    exact (h _).trans (noteFault_wordSide _ _ _ _)
  · split <;> dsimp only <;> exact (h _).trans (noteFault_wordSide _ _ _ _)

theorem programWords_wordSide (n : Nat) : ∀ (l : List (BitVec 32)) (w : Nat) (s : State), WordSide s (programWords n w l s).1
  | [], _, s => WordSide.refl s
  | v :: l, w, s => by
    unfold programWords
    dsimp only
    have h := programWord_wordSide (fieldWord v) n w s
    split
    · exact h.trans (programWords_wordSide n l (w + 1) _)
    · exact h

theorem writeEntryWords_wordSide (n w : Nat) (k : Key) (a : Attrs) (t : Text) (s : State) :
    WordSide s (writeEntryWords n w k a t s).1 := by
  unfold writeEntryWords
  dsimp only
  have h := fun v => programWord_wordSide v n w s
  split
  · split
    · exact ((h _).trans (programWords_wordSide _ _ _ _)).trans (programMark_wordSide _ _ _)
    · exact (h _).trans (programWords_wordSide _ _ _ _)
  · exact h _

theorem zeroWord_wordSide (n w : Nat) (s : State) : WordSide s (zeroWord n w s).1 := by
  unfold zeroWord
  split
  · exact WordSide.refl s
  · exact programWord_wordSide _ n w s

theorem zeroWords_wordSide (n : Nat) : ∀ (l : List Nat) (s : State), WordSide s (zeroWords n l s).1
  | [], s => WordSide.refl s
  | w :: l, s => by
    unfold zeroWords
    dsimp only
    split
    · exact (zeroWord_wordSide n w s).trans (zeroWords_wordSide n l _)
    · exact zeroWord_wordSide n w s

theorem programRetired_wordSide (l : Location) (s : State) : WordSide s (programRetired l s).1 := programMark_wordSide _ _ s

theorem writeRecord_wordSide (f : ConfigFields) (w : Nat) (s : State) : WordSide s (writeRecord f w s).1 := by
  unfold writeRecord
  dsimp only
  have h := programMark_wordSide Config.configSector (writingAt w) s
  split
  · split
    · exact (h.trans (programWords_wordSide _ _ _ _)).trans (programMark_wordSide _ _ _)
    · exact h.trans (programWords_wordSide _ _ _ _)
  · exact h

theorem pulseSector_wordSide (n : Nat) (s : State) : WordSide s (pulseSector n s) :=
  WordSide.same rfl

theorem programMarks_wordSide (n : Nat) : ∀ (l : List Mark) (s : State), WordSide s (programMarks n l s).1
  | [], s => WordSide.refl s
  | m :: l, s => by
    unfold programMarks
    dsimp only
    split
    · exact (programMark_wordSide n m s).trans (programMarks_wordSide n l _)
    · exact programMark_wordSide n m s

theorem formatSector_wordSide (n : Nat) (s : State) : WordSide s (formatSector n s).1 := by
  unfold formatSector
  dsimp only
  split
  · exact (programMarks_wordSide _ _ s).trans (programWord_wordSide _ _ _ _)
  · exact programMarks_wordSide _ _ s

end Sys2Proof.Machine
end

