-- ==== Sys2Proof/Laws/KeepsStore.lean ====
section
/-! SUPPORT. The operations on the store, the session partition, the base, erasing and compaction keep the laws of
`Keeps`. -/

namespace Sys2Proof.Machine

/-! ## Words -/

theorem readWord_keeps (ok : BitVec 32 → Bool) (n w : Nat) (s : State) : Keeps s (readWord ok n w s).1 := by
  unfold readWord
  dsimp only
  split
  · exact Keeps.refl s
  · dsimp only; exact noteFault_keeps _ _ _ s
  · dsimp only; exact noteFault_keeps _ _ _ s

theorem readWords_keeps (ok : BitVec 32 → Bool) (n : Nat) : ∀ (c w : Nat) (s : State), Keeps s (readWords ok n c w s).1
  | 0, _, s => Keeps.refl s
  | c + 1, w, s => by
    unfold readWords
    dsimp only
    split
    · exact readWord_keeps ok n w s
    · exact (readWord_keeps ok n w s).trans (readWords_keeps ok n c (w + 1) _)

theorem readEntryAt_keeps (n w : Nat) (s : State) : Keeps s (readEntryAt n w s).1 := by
  unfold readEntryAt
  dsimp only
  have h := readWord_keeps (headerFits w) n w s
  split
  · have c := fun m => h.trans (readWords_keeps chordValueOk n m (w + 1) _)
    split
    · split <;> exact (c _).trans (readWords_keeps _ _ _ _ _)
    · exact c _
  · exact h

theorem pulseWord_keeps (t : StoreWord) (n w : Nat) (s : State) : Keeps s (pulseWord t n w s).1 :=
  Keeps.ofStore ⟨rfl, rfl, rfl, rfl, rfl, rfl⟩ (Memory.wf_write s.store _ _)

theorem programWord_keeps (t : StoreWord) (n w : Nat) (s : State) : Keeps s (programWord t n w s).1 := by
  unfold programWord
  dsimp only
  split
  · exact pulseWord_keeps t n w s
  · dsimp only
    exact (pulseWord_keeps t n w s).trans (noteFault_keeps _ _ _ _)

theorem programMark_keeps (n : Nat) (m : Mark) (s : State) : Keeps s (programMark n m s).1 := by
  unfold programMark
  dsimp only
  have h := fun t => pulseWord_keeps t n m.word s
  split
  · exact h _
  · dsimp only
    exact (h _).trans (noteFault_keeps _ _ _ _)
  · split <;> dsimp only <;> exact (h _).trans (noteFault_keeps _ _ _ _)

theorem programWords_keeps (n : Nat) : ∀ (l : List (BitVec 32)) (w : Nat) (s : State), Keeps s (programWords n w l s).1
  | [], _, s => Keeps.refl s
  | v :: l, w, s => by
    unfold programWords
    dsimp only
    have h := programWord_keeps (fieldWord v) n w s
    split
    · exact h.trans (programWords_keeps n l (w + 1) _)
    · exact h

theorem writeEntryWords_keeps (n w : Nat) (k : Key) (a : Attrs) (t : Text) (s : State) :
    Keeps s (writeEntryWords n w k a t s).1 := by
  unfold writeEntryWords
  dsimp only
  have h := fun v => programWord_keeps v n w s
  split
  · split
    · exact ((h _).trans (programWords_keeps _ _ _ _)).trans (programMark_keeps _ _ _)
    · exact (h _).trans (programWords_keeps _ _ _ _)
  · exact h _

/-! ## RAM of the controller -/

theorem setDirectory_keeps (d : List DirRecord) (s : State) (h : keysOnce s.ctl.directory → keysOnce d) :
    Keeps s (setDirectory d s) :=
  Keeps.ofCopies ⟨rfl, rfl, rfl, rfl, rfl, rfl⟩ (fun g => ⟨h g.1, g.2⟩)

theorem setSector_keeps (n : Nat) (st : SecState) (s : State) : Keeps s (setSector n st s) :=
  Keeps.same ⟨rfl, rfl, rfl, rfl, rfl, rfl, rfl⟩

theorem modAccount_keeps (n : Nat) (f : Account → Account) (s : State) : Keeps s (modAccount n f s) :=
  Keeps.same ⟨modAccount_pending n f s, modAccount_straps n f s, modAccount_store n f s, modAccount_journal n f s,
    modAccount_cache n f s, congrArg Screen.rowParts (modAccount_screen n f s), by simp [State.copyParts]⟩

theorem modComp_keeps (f : Compaction → Compaction) (s : State)
    (h : s.ctl.comp.lawful = true → (f s.ctl.comp).lawful = true) : Keeps s (modComp f s) :=
  Keeps.ofCopies ⟨rfl, rfl, rfl, rfl, rfl, rfl⟩ (fun g => ⟨g.1, h g.2⟩)

theorem nameReserve_keeps (s : State) : Keeps s (nameReserve s) := Keeps.same ⟨rfl, rfl, rfl, rfl, rfl, rfl, rfl⟩

theorem zeroWord_keeps (n w : Nat) (s : State) : Keeps s (zeroWord n w s).1 := by
  unfold zeroWord
  split
  · exact Keeps.refl s
  · exact programWord_keeps _ n w s

theorem zeroWords_keeps (n : Nat) : ∀ (l : List Nat) (s : State), Keeps s (zeroWords n l s).1
  | [], s => Keeps.refl s
  | w :: l, s => by
    unfold zeroWords
    dsimp only
    split
    · exact (zeroWord_keeps n w s).trans (zeroWords_keeps n l _)
    · exact zeroWord_keeps n w s

theorem markBad_keeps (n : Nat) (s : State) : Keeps s (markBad n s) := by
  unfold markBad
  dsimp only
  refine Keeps.after (nameReserve_keeps _) (Keeps.ite ?_ ?_)
  · exact (programMark_keeps _ _ s).trans (setSector_keeps _ _ _)
  · exact ((programMark_keeps _ _ s).trans (zeroWords_keeps _ _ _)).trans (setSector_keeps _ _ _)

theorem offerRepair_keeps (l : Location) (s : State) : Keeps s (offerRepair l s) := by
  unfold offerRepair
  exact Keeps.ite (Keeps.refl s) (Keeps.same ⟨rfl, rfl, rfl, rfl, rfl, rfl, rfl⟩)

theorem offerRepairIf_keeps (b : Bool) (l : Location) (s : State) : Keeps s (offerRepairIf b l s) := by
  cases b
  · exact Keeps.refl s
  · exact offerRepair_keeps l s

theorem readLive_keeps (l : Location) (s : State) : Keeps s (readLive l s).1 :=
  (readEntryAt_keeps _ _ s).trans (offerRepairIf_keeps _ _ _)

theorem snoop_keeps (k : Key) (s : State) : Keeps s (snoop k s) :=
  Keeps.ofCache ⟨rfl, rfl, rfl, rfl, rfl, rfl⟩ (fun h => Cache.good_path (Cache.dropAll_good _ _ h) _)

theorem loseKey_keeps (k : Key) (s : State) : Keeps s (loseKey k s) :=
  Keeps.after (snoop_keeps _ _) (setDirectory_keeps _ s (dirTake_keysOnce _ k))

theorem answer_keeps (c : RespCode) (b : List Byte) (s : State) : Keeps s (answer c b s) := by
  unfold answer
  split
  · exact Keeps.same ⟨rfl, rfl, rfl, rfl, rfl, rfl, rfl⟩
  · exact Keeps.refl s

theorem finishDirect_keeps (c : RespCode) (b : List Byte) (s : State) : Keeps s (finishDirect c b s) :=
  Keeps.after (answer_keeps _ _ _) (Keeps.same ⟨rfl, rfl, rfl, rfl, rfl, rfl, rfl⟩)

theorem leaveQueue_keeps (r : Option Reason) (s : State) : Keeps s (leaveQueue r s) := by
  unfold leaveQueue
  split
  · exact Keeps.refl s
  · exact Keeps.after (retestHeld_keeps _) (Keeps.same ⟨rfl, rfl, rfl, rfl, rfl, rfl, rfl⟩)

/-! ## Lookup -/

theorem probeSlot_keeps (n slot c : Nat) (s : State) : Keeps s (probeSlot n slot c s).1 := by
  unfold probeSlot
  dsimp only
  have h := readWord_keeps slotValueOk n (Config.sectorWords - 1 - slot) s
  split
  · split
    · exact (h.trans (readWord_keeps _ _ _ _)).trans (readWords_keeps _ _ _ _ _)
    · exact (h.trans (readWord_keeps _ _ _ _)).trans (readWords_keeps _ _ _ _ _)
  · exact h

theorem searchSlots_keeps (n : Nat) (k : Key) : ∀ (f lo hi : Nat) (m : Met) (s : State),
    Keeps s (searchSlots n k f lo hi m s).1
  | 0, _, _, _, s => Keeps.refl s
  | f + 1, lo, hi, m, s => by
    unfold searchSlots
    split
    · exact Keeps.refl s
    · dsimp only
      have h := probeSlot_keeps n ((lo + hi - 1) / 2) k.length s
      split
      · exact h
      · split
        · exact h
        · split
          · exact h.trans (searchSlots_keeps n k f _ _ _ _)
          · exact h.trans (searchSlots_keeps n k f _ _ _ _)

theorem nextExtends_keeps (t : List KeyRow) (r : KeyRow) (slot : Nat) (k : Key) (s : State) :
    Keeps s (nextExtends t r slot k s).1 := by
  unfold nextExtends
  dsimp only
  split
  · split <;> exact probeSlot_keeps _ _ _ s
  · exact Keeps.refl s

theorem baseSearch_keeps (k : Key) (s : State) : Keeps s (baseSearch k s).1 := by
  unfold baseSearch
  dsimp only
  split
  · exact Keeps.refl s
  · have h := fun n f lo hi g => searchSlots_keeps n k f lo hi g s
    split
    · exact h _ _ _ _ _
    · exact (h _ _ _ _ _).trans (nextExtends_keeps _ _ _ _ _)
    · exact (h _ _ _ _ _).trans (nextExtends_keeps _ _ _ _ _)

theorem sessionResult_keeps (l : Location) (e : Bool) (m : Met) (s : State) : Keeps s (sessionResult l e m s).1 := by
  unfold sessionResult
  dsimp only
  split <;> exact readLive_keeps l s

theorem readText_keeps (l : Location) (s : State) : Keeps s (readText l s).1 := readWords_keeps _ _ _ _ s

theorem baseResult_keeps (l : Option Location) (e : Bool) (m : Met) (s : State) : Keeps s (baseResult l e m s).1 := by
  unfold baseResult
  split
  · exact Keeps.refl s
  · split
    · exact Keeps.refl s
    · dsimp only
      split <;> exact readText_keeps _ s

theorem resultOf_keeps (k : Key) (s : State) : Keeps s (resultOf k s).1 := by
  unfold resultOf
  dsimp only
  split
  · exact (baseSearch_keeps k s).trans (sessionResult_keeps _ _ _ _)
  · exact (baseSearch_keeps k s).trans (baseResult_keeps _ _ _ _)

theorem serveLookup_keeps (s : State) : Keeps s (serveLookup s) := by
  unfold serveLookup
  split
  · next k _ _ =>
    refine Keeps.ite ?_ (Keeps.refl s)
    dsimp only
    refine Keeps.after (lookupDone_keeps _ _) (Keeps.after (t := (resultOf k s).1) ?_ (resultOf_keeps k s))
    refine Keeps.ofCache ⟨rfl, rfl, rfl, rfl, rfl, rfl⟩ (fun h => ?_)
    split
    · exact Cache.good_path h _
    · exact Cache.good_path (Cache.fill_good _ _ _ h) _
  · exact Keeps.refl s

theorem serveReadEntry_keeps (s : State) : Keeps s (serveReadEntry s) := by
  unfold serveReadEntry
  split
  · refine Keeps.ite ?_ (Keeps.refl s)
    dsimp only
    exact Keeps.ite ((resultOf_keeps _ s).trans (finishDirect_keeps _ _ _))
      ((resultOf_keeps _ s).trans (finishDirect_keeps _ _ _))
  · exact Keeps.refl s

/-! ## Session partition -/

theorem abandonCompaction_keeps (s : State) : Keeps s (abandonCompaction s) :=
  Keeps.after (modComp_keeps _ _ (fun _ => rfl)) (modAccount_keeps _ _ s)

theorem compactionIdle_keeps (s : State) : Keeps s (compactionIdle s) :=
  Keeps.ofCopies ⟨rfl, rfl, rfl, rfl, rfl, rfl⟩ (fun g => ⟨g.1, rfl⟩)

theorem retireCopy_keeps (l : Location) (s : State) : Keeps s (retireCopy l s).1 := by
  unfold retireCopy
  split
  · exact Keeps.refl s
  · dsimp only
    split
    · dsimp only
      exact ((programMark_keeps _ _ s).trans (modAccount_keeps _ _ _)).trans (modComp_keeps _ _ (Compaction.lawful_retired _ l.word))
    · dsimp only
      exact ((programMark_keeps _ _ s).trans (setSector_keeps _ _ _)).trans (abandonCompaction_keeps _)

theorem makeFull_keeps (n : Nat) (s : State) : Keeps s (makeFull n s) :=
  (programMark_keeps n markFull s).trans (setSector_keeps _ _ _)

theorem tryActivate_keeps (n : Nat) (s : State) : Keeps s (tryActivate n s).1 := by
  unfold tryActivate
  dsimp only
  have h := fun t w => Keeps.after (programWord_keeps t n w { s with ctl := { s.ctl with highestSeq := s.ctl.highestSeq + 1 } })
    (Keeps.same (s := s) ⟨rfl, rfl, rfl, rfl, rfl, rfl, rfl⟩)
  split
  · split
    · exact (((h _ _).trans (programMark_keeps _ _ _)).trans (modAccount_keeps _ _ _)).trans (setSector_keeps _ _ _)
    · exact ((h _ _).trans (programMark_keeps _ _ _)).trans (markBad_keeps _ _)
  · exact (h _ _).trans (markBad_keeps _ _)

theorem activateFrom_keeps : ∀ (l : List Nat) (s : State), Keeps s (activateFrom l s).1
  | [], s => Keeps.refl s
  | n :: l, s => by
    unfold activateFrom
    split
    · exact activateFrom_keeps l s
    · dsimp only
      split
      · exact tryActivate_keeps n s
      · exact (tryActivate_keeps n s).trans (activateFrom_keeps l _)

theorem activate_keeps (s : State) : Keeps s (activate s).1 := activateFrom_keeps _ s

theorem appendEntry_keeps (n : Nat) (k : Key) (a : Attrs) (t : Text) (s : State) : Keeps s (appendEntry n k a t s).1 :=
  (writeEntryWords_keeps _ _ _ _ _ s).trans (modAccount_keeps _ _ _)

theorem placeRetry_keeps (k : Key) (a : Attrs) (t : Text) (s : State) : Keeps s (placeRetry k a t s).1 := by
  unfold placeRetry
  dsimp only
  split
  · exact activate_keeps s
  · split
    · exact (activate_keeps s).trans (appendEntry_keeps _ _ _ _ _)
    · exact ((activate_keeps s).trans (appendEntry_keeps _ _ _ _ _)).trans (makeFull_keeps _ _)

theorem placeIn_keeps (n : Nat) (k : Key) (a : Attrs) (t : Text) (s : State) : Keeps s (placeIn n k a t s).1 := by
  unfold placeIn
  dsimp only
  split
  · exact appendEntry_keeps _ _ _ _ s
  · exact ((appendEntry_keeps _ _ _ _ s).trans (makeFull_keeps _ _)).trans (placeRetry_keeps _ _ _ _)

theorem sectorFor_keeps (n : Nat) (s : State) : Keeps s (sectorFor n s).1 := by
  unfold sectorFor
  split
  · split
    · exact Keeps.refl s
    · exact (makeFull_keeps _ s).trans (activate_keeps _)
  · exact activate_keeps s

theorem placeEntry_keeps (k : Key) (a : Attrs) (t : Text) (s : State) : Keeps s (placeEntry k a t s).1 := by
  unfold placeEntry
  dsimp only
  split
  · exact (sectorFor_keeps _ s).trans (placeIn_keeps _ _ _ _ _)
  · exact sectorFor_keeps _ s

theorem programRetired_keeps (l : Location) (s : State) : Keeps s (programRetired l s).1 := programMark_keeps _ _ s

theorem accountRetired_keeps (l : Location) (s : State) : Keeps s (accountRetired l s) := modAccount_keeps _ _ s

theorem supersede_keeps (l : Option Location) (s : State) : Keeps s (supersede l s).1 := by
  unfold supersede
  split
  · exact ((programRetired_keeps _ s).trans (accountRetired_keeps _ _)).trans (retireCopy_keeps _ _)
  · exact Keeps.refl s

theorem loseSector_keeps (n : Nat) (s : State) : Keeps s (loseSector n s) :=
  Keeps.foldl _ (fun t k => loseKey_keeps k t) _ s

theorem loseWithTarget_keeps (b : Bool) (s : State) : Keeps s (loseWithTarget b s) :=
  Keeps.ite (loseSector_keeps _ s) (Keeps.refl s)

theorem makeEffective_keeps (k : Key) (l : Location) (s : State) : Keeps s (makeEffective k l s) := by
  unfold makeEffective
  dsimp only
  exact (((supersede_keeps _ s).trans (setDirectory_keeps _ _ (dirSet_keysOnce _ k l))).trans (snoop_keeps _ _)).trans (loseWithTarget_keeps _ _)

theorem waitForSpace_keeps (s : State) : Keeps s (waitForSpace s) := by
  unfold waitForSpace
  exact Keeps.ite (Keeps.same ⟨rfl, rfl, rfl, rfl, rfl, rfl, rfl⟩) (leaveQueue_keeps _ s)

theorem applyDefine_keeps (k : Key) (a : Attrs) (t : Text) (s : State) : Keeps s (applyDefine k a t s) := by
  unfold applyDefine
  split
  · exact leaveQueue_keeps _ s
  · dsimp only
    have h := placeEntry_keeps k a t s
    split
    · exact (h.trans (makeEffective_keeps _ _ _)).trans (leaveQueue_keeps _ _)
    · exact h.trans (waitForSpace_keeps _)
    · exact h.trans (leaveQueue_keeps _ _)
    · exact h.trans (leaveQueue_keeps _ _)

theorem serveDefine_keeps (s : State) : Keeps s (serveDefine s) := by
  unfold serveDefine
  split
  · exact Keeps.ite (applyDefine_keeps _ _ _ s) (Keeps.refl s)
  · exact Keeps.refl s

theorem applyRetire_keeps (k : Key) (s : State) : Keeps s (applyRetire k s) := by
  unfold applyRetire
  refine Keeps.ite (leaveQueue_keeps _ s) ?_
  split
  · exact leaveQueue_keeps _ s
  · dsimp only
    refine Keeps.ite ?_ ((programRetired_keeps _ s).trans (leaveQueue_keeps _ _))
    exact (((((programRetired_keeps _ s).trans (accountRetired_keeps _ _)).trans (retireCopy_keeps _ _)).trans
      (loseKey_keeps _ _)).trans (loseWithTarget_keeps _ _)).trans (leaveQueue_keeps _ _)

theorem serveRetire_keeps (s : State) : Keeps s (serveRetire s) := by
  unfold serveRetire
  split
  · exact Keeps.ite (applyRetire_keeps _ s) (Keeps.refl s)
  · exact Keeps.refl s

theorem rewriteEntry_keeps (l : Location) (s : State) : Keeps s (rewriteEntry l s) := by
  unfold rewriteEntry
  dsimp only
  have h := readEntryAt_keeps l.sector l.word s
  split
  · split
    · exact (h.trans (placeEntry_keeps _ _ _ _)).trans (makeEffective_keeps _ _ _)
    · exact h.trans (placeEntry_keeps _ _ _ _)
  · exact h

theorem serveRepair_keeps (s : State) : Keeps s (serveRepair s) := by
  unfold serveRepair
  split
  · refine Keeps.ite ?_ (Keeps.refl s)
    dsimp only
    exact Keeps.ite (Keeps.after (rewriteEntry_keeps _ _) (Keeps.same ⟨rfl, rfl, rfl, rfl, rfl, rfl, rfl⟩))
      (Keeps.same ⟨rfl, rfl, rfl, rfl, rfl, rfl, rfl⟩)
  · exact Keeps.refl s

/-! ## Compaction -/

theorem chooseTarget_keeps (v r : Nat) (hv : v ≠ r) (s : State) : Keeps s (chooseTarget v r s) := by
  unfold chooseTarget
  dsimp only
  have h := fun m => Keeps.after (programMark_keeps r m { s with ctl := { s.ctl with reserve := none } })
    (Keeps.same (s := s) ⟨rfl, rfl, rfl, rfl, rfl, rfl, rfl⟩)
  refine Keeps.ite ?_ (((h _).trans (markBad_keeps _ _)).trans (compactionIdle_keeps _))
  exact ((((h _).trans (setSector_keeps _ _ _)).trans (modAccount_keeps _ _ _)).trans
    (modComp_keeps _ _ (fun _ => by simp [Compaction.lawful, hv]))).trans (nameReserve_keeps _)

/-- The reserve is no victim (R105). -/
theorem mostDead_mem (c : Control) : ∀ (l : List Nat) (v : Nat), mostDead c l = some v → v ∈ l
  | [], _, h => by simp [mostDead] at h
  | n :: l, v, h => by
    unfold mostDead at h
    split at h
    · rename_i m hm
      split at h
      · injection h with h; subst h; exact List.mem_cons_of_mem n (mostDead_mem c l _ hm)
      · injection h with h; subst h; exact List.mem_cons_self ..
    · injection h with h; subst h; exact List.mem_cons_self ..

theorem victim_ne_reserve (c : Control) (v r : Nat) (hv : mostDead c (victims c) = some v) (hr : c.reserve = some r) :
    v ≠ r := by
  have := (List.mem_filter.1 (mostDead_mem c _ v hv)).2
  simp only [mayBeVictim, Bool.and_eq_true, decide_eq_true_eq] at this
  intro e
  exact this.2 (by rw [hr, e])

theorem compactSelect_keeps (s : State) : Keeps s (compactSelect s) := by
  unfold compactSelect
  refine Keeps.ite ?_ (Keeps.refl s)
  split
  · rename_i hv hr
    exact Keeps.ite (modComp_keeps _ s (fun _ => rfl)) (chooseTarget_keeps _ _ (victim_ne_reserve _ _ _ hv hr) s)
  · exact Keeps.refl s

theorem loseEntry_keeps (l : Location) (s : State) : Keeps s (loseEntry l s) := by
  unfold loseEntry
  split
  · exact ((programRetired_keeps _ s).trans (accountRetired_keeps _ _)).trans (loseKey_keeps _ _)
  · exact Keeps.refl s

theorem writeCopy_keeps (k : Key) (a : Attrs) (t : Text) (s : State) : Keeps s (writeCopy k a t s).1 := by
  unfold writeCopy
  dsimp only
  exact
  ((writeEntryWords_keeps _ _ _ _ _ s).trans (modAccount_keeps _ _ _)).trans (modComp_keeps _ _ id)

/-- A copy's writing moves the target's append point on; nothing else of compaction changes. -/
theorem writeCopy_comp (k : Key) (a : Attrs) (t : Text) (s : State) :
    (writeCopy k a t s).1.ctl.comp = { s.ctl.comp with targetAppend := s.ctl.comp.targetAppend + entrySize k t } := by
  have h := (writeEntryWords_wordSide s.ctl.comp.target s.ctl.comp.targetAppend k a t s).comp
  simp [writeCopy, h]

theorem copyFailed_keeps (w : Nat) (s : State) (hw : s.ctl.comp.cursor ≤ w) : Keeps s (copyFailed w s) :=
  Keeps.ite (abandonCompaction_keeps s) (modComp_keeps _ s (Compaction.lawful_cursor _ w _ hw))

theorem tryCopy_keeps (w : Nat) (k : Key) (a : Attrs) (t : Text) (s : State) (hw : s.ctl.comp.cursor ≤ w)
    (st : s.ctl.comp.state = .copy) : Keeps s (tryCopy w k a t s) := by
  have hc := writeCopy_comp k a t s
  unfold tryCopy
  dsimp only
  refine Keeps.ite (Keeps.ite ((writeCopy_keeps _ _ _ s).trans (modComp_keeps _ _ ?_))
    ((writeCopy_keeps _ _ _ s).trans (copyFailed_keeps w _ ?_))) (abandonCompaction_keeps s)
  · exact Compaction.lawful_copied _ w _ _ (by rw [hc]; exact hw) (by rw [hc]; exact st)
  · rw [hc]; exact hw

theorem loseEntry_comp (l : Location) (s : State) : (loseEntry l s).ctl.comp = s.ctl.comp := by
  unfold loseEntry
  split
  · have h := (programMark_wordSide l.sector (retiredAt l.word) s).comp
    simp [loseKey, accountRetired, programRetired, h]
  · rfl

theorem copyEntry_keeps (w : Nat) (s : State) (hw : s.ctl.comp.cursor ≤ w) (st : s.ctl.comp.state = .copy) :
    Keeps s (copyEntry w s) := by
  unfold copyEntry
  dsimp only
  have h := readLive_keeps { sector := s.ctl.comp.victim, word := w } s
  have hc := (readLive_readSide { sector := s.ctl.comp.victim, word := w } s).comp
  split
  · exact h.trans (tryCopy_keeps _ _ _ _ _ (by rw [hc]; exact hw) (by rw [hc]; exact st))
  · refine (h.trans (loseEntry_keeps _ _)).trans (modComp_keeps _ _ ?_)
    refine Compaction.lawful_cursor _ (w + 1) _ ?_
    rw [loseEntry_comp, hc]; omega

theorem sealIfDone_keeps (s : State) : Keeps s (sealIfDone s) := by
  unfold sealIfDone
  split
  · rename_i h
    exact modComp_keeps _ s (Compaction.lawful_seal _ h.1)
  · exact Keeps.refl s

theorem lowest_mem : ∀ (l : List Nat) (n : Nat), lowest l = some n → n ∈ l
  | [], _, h => by simp [lowest] at h
  | a :: l, n, h => by
    unfold lowest at h
    split at h
    · rename_i m hm
      injection h with h
      rcases Nat.le_total a m with q | q
      · rw [Nat.min_eq_left q] at h; subst h; exact List.mem_cons_self ..
      · rw [Nat.min_eq_right q] at h; subst h; exact List.mem_cons_of_mem a (lowest_mem l _ hm)
    · injection h with h; subst h; exact List.mem_cons_self ..

/-- The next held word lies at or after the cursor (R106). -/
theorem nextHeld_ge {d : List DirRecord} {v c w : Nat} (h : nextHeld d v c = some w) : c ≤ w := by
  obtain ⟨l, _, hl⟩ := List.mem_filterMap.1 (lowest_mem _ _ h)
  split at hl
  · rename_i q; injection hl with hl; omega
  · cases hl

theorem compactCopy_keeps (s : State) : Keeps s (compactCopy s) := by
  unfold compactCopy
  split
  · rename_i h
    simp only [compactionAt, Bool.and_eq_true, decide_eq_true_eq] at h
    split
    · rename_i hw
      exact (copyEntry_keeps _ s (nextHeld_ge hw) h.2).trans (sealIfDone_keeps _)
    · exact sealIfDone_keeps s
  · exact Keeps.refl s

theorem moveCopies_keeps : ∀ (l : List (Nat × Nat)) (s : State), Keeps s (moveCopies l s)
  | [], s => Keeps.refl s
  | (v, w) :: l, s => by
    unfold moveCopies
    refine Keeps.after (moveCopies_keeps l _) ?_
    split
    · exact setDirectory_keeps _ s (dirMove_keysOnce _ _ _)
    · exact Keeps.refl s

theorem sealNext_keeps (st : SealStep) (s : State) : Keeps s (sealNext st s) := modComp_keeps _ s id

theorem sealWent_keeps {s : State} (r : State × Bool) (st : SealStep) (h : Keeps s r.1) : Keeps s (sealWent r st) := by
  unfold sealWent
  exact Keeps.ite (h.trans (sealNext_keeps st _)) (h.trans (abandonCompaction_keeps _))

theorem sealSeq_keeps (s : State) : Keeps s (sealSeq s) := by
  unfold sealSeq
  exact sealWent_keeps _ _ (Keeps.after (programWord_keeps _ _ _ _) (Keeps.same ⟨rfl, rfl, rfl, rfl, rfl, rfl, rfl⟩))

theorem sealState_keeps (s : State) : Keeps s (sealState s) := sealWent_keeps _ _ (programMark_keeps _ _ s)

theorem sealSealed_keeps (b : Bool) (s : State) : Keeps s (sealSealed b s) := by
  unfold sealSealed
  dsimp only
  have h := programMark_keeps s.ctl.comp.target markSealed s
  exact Keeps.ite ((h.trans (setSector_keeps _ _ _)).trans (sealNext_keeps _ _)) (h.trans (abandonCompaction_keeps _))

theorem sealDirectory_keeps (s : State) : Keeps s (sealDirectory s) := by
  unfold sealDirectory
  dsimp only
  exact Keeps.after (modComp_keeps _ _ (fun _ => rfl)) (Keeps.after (modAccount_keeps _ _ _) (Keeps.after (modAccount_keeps _ _ _)
    (moveCopies_keeps _ s)))

theorem compactSeal_keeps (s : State) : Keeps s (compactSeal s) := by
  unfold compactSeal
  refine Keeps.ite ?_ (Keeps.refl s)
  split
  · exact sealSeq_keeps s
  · exact sealState_keeps s
  · exact sealSealed_keeps _ s
  · exact (makeFull_keeps _ s).trans (sealNext_keeps _ _)
  · exact sealDirectory_keeps s

theorem compactRetireVictim_keeps (s : State) : Keeps s (compactRetireVictim s) := by
  unfold compactRetireVictim
  dsimp only
  exact Keeps.ite (((programMark_keeps _ _ s).trans (setSector_keeps _ _ _)).trans
    (modComp_keeps _ _ (fun _ => rfl))) (Keeps.refl s)

/-! ## Base, protection, configuration -/

theorem closeBase_keeps (n : Nat) (s : State) : Keeps s (closeBase n s) :=
  (programMark_keeps n markClosed s).next ⟨rfl, rfl, rfl, rfl, rfl, rfl, rfl⟩

theorem loadInto_keeps (n f : Nat) (k : Key) (a : Attrs) (t : Text) (s : State) : Keeps s (loadInto n f k a t s).1 := by
  unfold loadInto
  dsimp only
  have h := writeEntryWords_keeps n f k a t s
  split
  · have q := fun v w => h.trans (programWord_keeps v n w _)
    split
    · exact (q _ _).next ⟨rfl, rfl, rfl, rfl, rfl, rfl, rfl⟩
    · exact (q _ _).trans (closeBase_keeps _ _)
  · exact h.trans (closeBase_keeps _ _)

theorem openBase_keeps (n : Nat) (k : Key) (s : State) : Keeps s (openBase n k s).1 := by
  unfold openBase
  dsimp only
  have h := fun l => programWords_keeps n l 3 s
  split
  · split
    · exact ((h _).trans (programMark_keeps _ _ _)).next ⟨rfl, rfl, rfl, rfl, rfl, rfl, rfl⟩
    · exact ((h _).trans (programMark_keeps _ _ _)).trans (markBad_keeps _ _)
  · exact (h _).trans (markBad_keeps _ _)

theorem loadFresh_keeps (k : Key) (a : Attrs) (t : Text) : ∀ (n : Nat) (s : State), Keeps s (loadFresh k a t n s).1
  | 0, s => Keeps.refl s
  | n + 1, s => by
    unfold loadFresh
    split
    · exact Keeps.refl s
    · dsimp only
      have h := fun m => openBase_keeps m k s
      split
      · split
        · exact (h _).trans (loadInto_keeps _ _ _ _ _ _)
        · exact ((h _).trans (loadInto_keeps _ _ _ _ _ _)).trans (loadFresh_keeps k a t n _)
      · exact (h _).trans (loadFresh_keeps k a t n _)

theorem loadEntry_keeps (k : Key) (a : Attrs) (t : Text) (s : State) : Keeps s (loadEntry k a t s).1 := by
  unfold loadEntry
  split
  · split
    · dsimp only
      split
      · exact loadInto_keeps _ _ _ _ _ s
      · exact (loadInto_keeps _ _ _ _ _ s).trans (loadFresh_keeps _ _ _ _ _)
    · exact (closeBase_keeps _ s).trans (loadFresh_keeps _ _ _ _ _)
  · exact loadFresh_keeps _ _ _ _ s

theorem loadAnswer_keeps (k : Key) (a : Attrs) (t : Text) (s : State) : Keeps s (loadAnswer k a t s).1 := by
  unfold loadAnswer
  split
  · exact Keeps.refl s
  · split
    · exact Keeps.refl s
    · exact loadEntry_keeps k a t s

theorem serveLoadEntry_keeps (s : State) : Keeps s (serveLoadEntry s) := by
  unfold serveLoadEntry
  split
  · exact Keeps.ite ((loadAnswer_keeps _ _ _ s).trans (finishDirect_keeps _ _ _)) (Keeps.refl s)
  · exact Keeps.refl s

theorem protectBase_keeps (s : State) : Keeps s (protectBase s).1 := by
  unfold protectBase
  split
  · exact Keeps.refl s
  · split
    · exact Keeps.same ⟨rfl, rfl, rfl, rfl, rfl, rfl, rfl⟩
    · dsimp only
      have h := programMark_keeps Config.configSector markProtectA s
      split
      · exact h.next ⟨rfl, rfl, rfl, rfl, rfl, rfl, rfl⟩
      · split
        · exact (h.trans (programMark_keeps _ _ _)).next ⟨rfl, rfl, rfl, rfl, rfl, rfl, rfl⟩
        · exact h.trans (programMark_keeps _ _ _)

theorem serveProtect_keeps (s : State) : Keeps s (serveProtect s) := by
  unfold serveProtect
  split
  · exact Keeps.ite ((protectBase_keeps s).trans (finishDirect_keeps _ _ _)) (Keeps.refl s)
  · exact Keeps.refl s

theorem writeRecord_keeps (f : ConfigFields) (w : Nat) (s : State) : Keeps s (writeRecord f w s).1 := by
  unfold writeRecord
  dsimp only
  have h := programMark_keeps Config.configSector (writingAt w) s
  split
  · split
    · exact (h.trans (programWords_keeps _ _ _ _)).trans (programMark_keeps _ _ _)
    · exact h.trans (programWords_keeps _ _ _ _)
  · exact h

theorem appendRecord_keeps (f : ConfigFields) : ∀ (n : Nat) (s : State), Keeps s (appendRecord f n s).1
  | 0, s => Keeps.refl s
  | n + 1, s => by
    unfold appendRecord
    dsimp only
    split
    · have h := (writeRecord_keeps f s.ctl.configAppend s).next
        (u := { (writeRecord f s.ctl.configAppend s).1 with
          ctl := { (writeRecord f s.ctl.configAppend s).1.ctl with configAppend := s.ctl.configAppend + 4 } })
        ⟨rfl, rfl, rfl, rfl, rfl, rfl, rfl⟩
      split
      · exact h
      · exact h.trans (appendRecord_keeps f n _)
    · exact Keeps.refl s

theorem writeConfig_keeps (f : ConfigFields) (s : State) : Keeps s (writeConfig f s).1 := by
  unfold writeConfig
  split
  · exact appendRecord_keeps f 2 s
  · exact Keeps.refl s

theorem serveWriteConfig_keeps (s : State) : Keeps s (serveWriteConfig s) := by
  unfold serveWriteConfig
  split
  · exact Keeps.ite ((writeConfig_keeps _ s).trans (finishDirect_keeps _ _ _)) (Keeps.refl s)
  · exact Keeps.refl s

/-! ## Erasing -/

theorem setPhase_keeps (o : EraseOwner) (p : ErasePhase) (s : State) : Keeps s (setPhase o p s) := by
  cases o
  · exact modComp_keeps (fun c => { c with phase := p, state := eraseState p }) s (fun _ => by cases p <;> rfl)
  · exact Keeps.same ⟨rfl, rfl, rfl, rfl, rfl, rfl, rfl⟩

theorem baseCleared_keeps (s : State) : Keeps s (baseCleared s) := Keeps.same ⟨rfl, rfl, rfl, rfl, rfl, rfl, rfl⟩

theorem eraseBaseDone_keeps (s : State) : Keeps s (eraseBaseDone s) :=
  (baseCleared_keeps s).trans (finishDirect_keeps _ _ _)

theorem unprotectDone_keeps (b : Bool) (s : State) : Keeps s (unprotectDone b s) := by
  unfold unprotectDone
  exact Keeps.ite ((baseCleared_keeps s).trans (finishDirect_keeps _ _ _)) (Keeps.same ⟨rfl, rfl, rfl, rfl, rfl, rfl, rfl⟩)

theorem clearedStep_keeps (s : State) : Keeps s (clearedStep s) :=
  ((baseCleared_keeps s).trans (programMark_keeps _ _ _)).trans (finishDirect_keeps _ _ _)

theorem nextSector_keeps (s : State) : Keeps s (nextSector s) := by
  unfold nextSector
  split
  · exact Keeps.ite (eraseBaseDone_keeps s) (Keeps.same ⟨rfl, rfl, rfl, rfl, rfl, rfl, rfl⟩)
  · exact Keeps.ite (unprotectDone_keeps _ s) (Keeps.same ⟨rfl, rfl, rfl, rfl, rfl, rfl, rfl⟩)
  · exact Keeps.refl s

theorem configFailed_keeps (n : Nat) (s : State) : Keeps s (configFailed n s) := by
  unfold configFailed
  split
  · exact Keeps.ite (Keeps.same ⟨rfl, rfl, rfl, rfl, rfl, rfl, rfl⟩) (Keeps.refl s)
  · exact Keeps.refl s

theorem sectorLost_keeps (n : Nat) (s : State) : Keeps s (sectorLost n s) :=
  (markBad_keeps n s).trans (noteFault_keeps _ _ _ _)

theorem eraseFailed_keeps (o : EraseOwner) (n : Nat) (s : State) : Keeps s (eraseFailed o n s) := by
  cases o with
  | compaction => exact (sectorLost_keeps n s).trans (compactionIdle_keeps _)
  | direct => exact ((sectorLost_keeps n s).trans (configFailed_keeps _ _)).trans (nextSector_keeps _)

theorem configFormatted_keeps (s : State) : Keeps s (configFormatted s) := by
  unfold configFormatted
  dsimp only
  exact Keeps.ite (Keeps.after (setPhase_keeps _ _ _) (Keeps.same ⟨rfl, rfl, rfl, rfl, rfl, rfl, rfl⟩))
    (Keeps.after (nextSector_keeps _) (Keeps.same ⟨rfl, rfl, rfl, rfl, rfl, rfl, rfl⟩))

theorem recordStep_keeps (b : Bool) (s : State) : Keeps s (recordStep b s) := by
  unfold recordStep
  split
  · dsimp only
    exact Keeps.ite ((appendRecord_keeps _ _ s).trans (nextSector_keeps _)) ((appendRecord_keeps _ _ s).trans (setPhase_keeps _ _ _))
  · exact nextSector_keeps s

theorem eraseSucceeded_keeps (o : EraseOwner) (n : Nat) (s : State) : Keeps s (eraseSucceeded o n s) := by
  have h := setSector_keeps n (formattedState n) s
  cases o with
  | compaction => exact ((h.trans (modAccount_keeps _ _ _)).trans (nameReserve_keeps _)).trans (compactionIdle_keeps _)
  | direct => exact Keeps.ite (h.trans (configFormatted_keeps _)) (h.trans (nextSector_keeps _))

theorem prezeroStep_keeps (e : EraseAt) (w : Nat) (s : State) : Keeps s (prezeroStep e w s) := by
  unfold prezeroStep
  split
  · exact setPhase_keeps _ _ s
  · dsimp only
    exact Keeps.ite (((programWord_keeps _ _ _ s).trans (setSector_keeps _ _ _)).trans (setPhase_keeps _ _ _))
      ((programWord_keeps _ _ _ s).trans (eraseFailed_keeps _ _ _))

theorem pulseSector_keeps (n : Nat) (s : State) : Keeps s (pulseSector n s) :=
  Keeps.ofStore ⟨rfl, rfl, rfl, rfl, rfl, rfl⟩ (fun h => Memory.wf_writeAll _ _ (Memory.wf_clearSector _ n h))

theorem pulseStep_keeps (e : EraseAt) (g : Nat) (s : State) : Keeps s (pulseStep e g s) := by
  unfold pulseStep
  dsimp only
  exact Keeps.ite ((pulseSector_keeps _ s).trans (setPhase_keeps _ _ _))
    (Keeps.ite ((pulseSector_keeps _ s).trans (eraseFailed_keeps _ _ _)) ((pulseSector_keeps _ s).trans (setPhase_keeps _ _ _)))

theorem programMarks_keeps (n : Nat) : ∀ (l : List Mark) (s : State), Keeps s (programMarks n l s).1
  | [], s => Keeps.refl s
  | m :: l, s => by
    unfold programMarks
    dsimp only
    split
    · exact (programMark_keeps n m s).trans (programMarks_keeps n l _)
    · exact programMark_keeps n m s

theorem formatSector_keeps (n : Nat) (s : State) : Keeps s (formatSector n s).1 := by
  unfold formatSector
  dsimp only
  split
  · exact (programMarks_keeps _ _ s).trans (programWord_keeps _ _ _ _)
  · exact programMarks_keeps _ _ s

theorem formatStep_keeps (e : EraseAt) (s : State) : Keeps s (formatStep e s) := by
  unfold formatStep
  dsimp only
  exact Keeps.ite ((formatSector_keeps _ s).trans (eraseSucceeded_keeps _ _ _))
    ((formatSector_keeps _ s).trans (eraseFailed_keeps _ _ _))

theorem prezeroWord_keeps (s : State) : Keeps s (prezeroWord s) := by
  unfold prezeroWord
  split
  · split
    · exact prezeroStep_keeps _ _ s
    · exact Keeps.refl s
  · exact Keeps.refl s

theorem erasePulse_keeps (s : State) : Keeps s (erasePulse s) := by
  unfold erasePulse
  split
  · split
    · exact pulseStep_keeps _ _ s
    · exact Keeps.refl s
  · exact Keeps.refl s

theorem formatCommand_keeps (s : State) : Keeps s (formatCommand s) := by
  unfold formatCommand
  split
  · split
    · exact formatStep_keeps _ s
    · exact recordStep_keeps _ s
    · exact clearedStep_keeps s
    · exact Keeps.refl s
  · exact Keeps.refl s

end Sys2Proof.Machine
end

