-- ==== Sys2Proof/Laws/KeepsPort.lean ====
section
/-! SUPPORT. The start scan and the service port keep the laws of `Keeps`. -/

namespace Sys2Proof.Machine

/-! ## Start scan -/

theorem noteFormat_keeps (n : Nat) (s : State) : Keeps s (noteFormat n s) := by
  unfold noteFormat
  refine Keeps.ite (Keeps.refl s) ?_
  split
  · exact noteFault_keeps _ _ _ s
  · exact noteFault_keeps _ _ _ s
  · exact Keeps.refl s

theorem readSeq_keeps (n : Nat) (s : State) : Keeps s (readSeq n s).1 := by
  unfold readSeq
  dsimp only
  split <;> exact readWord_keeps _ _ _ s

theorem readHeader_keeps (n : Nat) (s : State) : Keeps s (readHeader n s).1 := by
  unfold readHeader
  dsimp only
  have h := (noteFormat_keeps n s).trans (setSector_keeps n (decodeSector s n) _)
  split
  · exact h.trans (readSeq_keeps n _)
  · exact h

theorem readHeaders_keeps : ∀ (l : List Nat) (s : State), Keeps s (readHeaders l s).1
  | [], s => Keeps.refl s
  | n :: l, s => (readHeader_keeps n s).trans (readHeaders_keeps l _)

theorem prezeroAll_keeps (n : Nat) (s : State) : Keeps s (prezeroAll n s).1 := by
  unfold prezeroAll
  split
  · exact Keeps.refl s
  · exact zeroWords_keeps n _ s

theorem pulseAll_keeps (n : Nat) : ∀ (k : Nat) (s : State), Keeps s (pulseAll n k s).1
  | 0, s => Keeps.refl s
  | k + 1, s => by
    unfold pulseAll
    dsimp only
    split
    · exact pulseSector_keeps n s
    · exact (pulseSector_keeps n s).trans (pulseAll_keeps n k _)

theorem eraseWhole_keeps (n : Nat) (s : State) : Keeps s (eraseWhole n s).1 := by
  unfold eraseWhole
  dsimp only
  have z := prezeroAll_keeps n s
  have p : Keeps s (if (prezeroAll n s).2 = true then pulseAll n Config.pulseLimit (prezeroAll n s).1
      else prezeroAll n s).1 := by
    split
    · exact z.trans (pulseAll_keeps n _ _)
    · exact z
  generalize (if (prezeroAll n s).2 = true then pulseAll n Config.pulseLimit (prezeroAll n s).1 else prezeroAll n s) = q at p ⊢
  have f : Keeps s (if q.2 = true then formatSector n q.1 else q).1 := by
    split
    · exact p.trans (formatSector_keeps n _)
    · exact p
  generalize (if q.2 = true then formatSector n q.1 else q) = r at f ⊢
  split
  · exact f.trans (setSector_keeps _ _ _)
  · exact f.trans (sectorLost_keeps _ _)

theorem eraseEach_keeps : ∀ (l : List Nat) (s : State), Keeps s (eraseEach l s)
  | [], s => Keeps.refl s
  | n :: l, s => (eraseWhole_keeps n s).trans (eraseEach_keeps l _)

theorem eraseBaseWhole_keeps (b : Bool) (s : State) : Keeps s (eraseBaseWhole b s) := by
  unfold eraseBaseWhole
  exact Keeps.ite ((eraseEach_keeps _ s).trans (programMark_keeps _ _ _)) (eraseEach_keeps _ s)

theorem recoverConfig_keeps (s : State) : Keeps s (recoverConfig s) := by
  unfold recoverConfig
  split
  · exact Keeps.refl s
  · exact Keeps.ite (eraseBaseWhole_keeps _ s) (Keeps.refl s)
  · exact (eraseWhole_keeps _ s).trans (eraseBaseWhole_keeps _ _)

theorem readConfig_keeps (s : State) : Keeps s (readConfig s) := by
  unfold readConfig
  refine Keeps.ite ?_ (Keeps.same ⟨rfl, rfl, rfl, rfl, rfl, rfl, rfl⟩)
  dsimp only
  split
  · exact Keeps.same ⟨rfl, rfl, rfl, rfl, rfl, rfl, rfl⟩
  · next a _ =>
    have h := fun t => readWords_keeps anyValueOk Config.configSector 3 (a + 1) t
    refine Keeps.trans ?_ ((h _).next ⟨rfl, rfl, rfl, rfl, rfl, rfl, rfl⟩)
    exact Keeps.same ⟨rfl, rfl, rfl, rfl, rfl, rfl, rfl⟩

theorem recoverBase_keeps (s : State) : Keeps s (recoverBase s) := by
  unfold recoverBase
  refine Keeps.ite ?_ (eraseEach_keeps _ s)
  exact Keeps.foldl _ (fun t n => (setSector_keeps _ _ t).trans (raise_keeps _ _)) _ s

theorem retireInStore_keeps (l : Location) (s : State) : Keeps s (retireInStore l s) := programRetired_keeps l s

theorem countDead_keeps (n k : Nat) (s : State) : Keeps s (countDead n k s) := modAccount_keeps _ _ s

theorem retireEarlier_keeps (k : Key) (s : State) : Keeps s (retireEarlier k s) := by
  unfold retireEarlier
  split
  · exact (retireInStore_keeps _ s).trans (accountRetired_keeps _ _)
  · exact Keeps.refl s

theorem scanLost_keeps (k : Key) (l : Location) (n : Nat) (s : State) : Keeps s (scanLost k l n s) := by
  unfold scanLost
  dsimp only
  have h := (retireInStore_keeps l s).trans (countDead_keeps l.sector n _)
  split
  · exact ((h.trans (retireEarlier_keeps _ _)).trans (setDirectory_keeps _ _ (dirTake_keysOnce _ k))).trans (snoop_keeps _ _)
  · exact h

theorem scanEnter_keeps (k : Key) (l : Location) (n : Nat) (s : State) : Keeps s (scanEnter k l n s) := by
  unfold scanEnter
  refine Keeps.ite (((retireInStore_keeps l s).trans (countDead_keeps _ _ _)).trans (noteFault_keeps _ _ _ _)) ?_
  dsimp only
  exact (((retireEarlier_keeps k s).trans (setDirectory_keeps _ _ (dirSet_keysOnce _ k l))).trans (snoop_keeps _ _)).trans
    (modAccount_keeps _ _ _)

theorem scanLive_keeps (l : Location) (n : Nat) (s : State) : Keeps s (scanLive l n s) := by
  unfold scanLive
  dsimp only
  have h := readLive_keeps l s
  split
  · exact h.trans (scanEnter_keeps _ _ _ _)
  · exact h.trans (scanLost_keeps _ _ _ _)
  · exact (h.trans (retireInStore_keeps _ _)).trans (countDead_keeps _ _ _)

theorem walkBroken_keeps (n w : Nat) (s : State) : Keeps s (walkBroken n w s) := by
  unfold walkBroken
  dsimp only
  exact Keeps.ite (((noteFault_keeps _ n w s).trans (modAccount_keeps _ _ _)).trans (makeFull_keeps _ _))
    ((noteFault_keeps _ n w s).trans (modAccount_keeps _ _ _))

theorem walkSector_keeps (n : Nat) : ∀ (f w : Nat) (s : State), Keeps s (walkSector n f w s)
  | 0, _, s => modAccount_keeps _ _ s
  | f + 1, w, s => by
    unfold walkSector
    dsimp only
    refine Keeps.ite (modAccount_keeps _ _ s) ?_
    split
    · exact walkBroken_keeps n w s
    · refine Keeps.ite (Keeps.after (walkSector_keeps n f _ _) (scanLive_keeps _ _ s)) ?_
      refine Keeps.after (walkSector_keeps n f _ _) (Keeps.after (countDead_keeps _ _ _) ?_)
      exact Keeps.ite (noteFault_keeps _ _ _ s) (Keeps.refl s)

theorem rebuildDirectory_keeps (l : List (Nat × Nat)) (s : State) : Keeps s (rebuildDirectory l s) := by
  unfold rebuildDirectory oneActive
  dsimp only
  refine Keeps.trans (Keeps.after (Keeps.foldl (fun t n => walkSector n 2048 Config.bodyStart t)
    (fun t n => walkSector_keeps n 2048 Config.bodyStart t) (walkOrder s.ctl l) _) (setDirectory_keeps [] s (fun _ => List.nodup_nil))) ?_
  exact Keeps.foldl _ (fun t n => makeFull_keeps n t) _ _

theorem readFirstKey_keeps (n : Nat) (s : State) : Keeps s (readFirstKey n s).1 := by
  unfold readFirstKey
  dsimp only
  split
  · exact (readWord_keeps _ _ _ s).trans (readWords_keeps _ _ _ _ _)
  · exact readWord_keeps _ _ _ s

theorem countSlots_keeps (n : Nat) : ∀ (f c : Nat) (s : State), Keeps s (countSlots n f c s).1
  | 0, _, s => Keeps.refl s
  | f + 1, c, s => by
    unfold countSlots
    split
    · exact Keeps.refl s
    · exact (readWord_keeps _ _ _ s).trans (countSlots_keeps n f _ _)

theorem listSector_keeps (n : Nat) (s : State) : Keeps s (listSector n s) := by
  unfold listSector
  dsimp only
  have h := readFirstKey_keeps n s
  split
  · exact h.trans (raise_keeps _ _)
  · exact Keeps.ite ((h.trans (countSlots_keeps n 4080 0 _)).next ⟨rfl, rfl, rfl, rfl, rfl, rfl, rfl⟩) (h.trans (raise_keeps _ _))

theorem buildKeyTable_keeps (s : State) : Keeps s (buildKeyTable s) :=
  Keeps.after (Keeps.foldl _ (fun t n => listSector_keeps n t) _ _) (Keeps.same ⟨rfl, rfl, rfl, rfl, rfl, rfl, rfl⟩)

theorem closeStale_keeps (s : State) : Keeps s (closeStale s) := by
  unfold closeStale
  exact Keeps.ite (Keeps.refl s) (Keeps.foldl _ (fun t n => closeBase_keeps n t) _ s)

theorem fillPoint_keeps (n b : Nat) : ∀ (f w : Nat) (s : State), Keeps s (fillPoint n b f w s).1
  | 0, _, s => Keeps.refl s
  | f + 1, w, s => by
    unfold fillPoint
    split
    · exact Keeps.refl s
    · dsimp only
      split
      · exact (readWord_keeps _ _ _ s).trans (fillPoint_keeps n b f _ _)
      · exact readWord_keeps _ _ _ s

theorem readLastKey_keeps (r : KeyRow) (s : State) : Keeps s (readLastKey r s).1 := by
  unfold readLastKey
  split
  · exact Keeps.refl s
  · dsimp only
    split <;> exact probeSlot_keeps _ _ _ s

theorem openLast_keeps (r : KeyRow) (s : State) : Keeps s (openLast r s) := by
  unfold openLast
  dsimp only
  exact Keeps.ite ((fillPoint_keeps _ _ _ _ s).next ⟨rfl, rfl, rfl, rfl, rfl, rfl, rfl⟩) (Keeps.same ⟨rfl, rfl, rfl, rfl, rfl, rfl, rfl⟩)

theorem openForLoading_keeps (s : State) : Keeps s (openForLoading s) := by
  unfold openForLoading
  split
  · exact Keeps.refl s
  · next r _ => exact ((openLast_keeps r s).trans (readLastKey_keeps r _)).next ⟨rfl, rfl, rfl, rfl, rfl, rfl, rfl⟩

theorem recoverSectors_keeps (l : List (Nat × Nat)) (s : State) : Keeps s (recoverSectors l s) := by
  unfold recoverSectors
  dsimp only
  have h0 : Keeps s { s with ctl := { s.ctl with highestSeq := maxSeq l } } := Keeps.same ⟨rfl, rfl, rfl, rfl, rfl, rfl, rfl⟩
  have h1 := (h0.trans (recoverConfig_keeps _)).trans (readConfig_keeps _)
  generalize readConfig (recoverConfig _) = u at h1 ⊢
  have h2 := (h1.trans (eraseEach_keeps (staleSession u.ctl) u)).trans (recoverBase_keeps _)
  generalize recoverBase _ = v at h2 ⊢
  exact Keeps.after (nameReserve_keeps _) (h2.next ⟨rfl, rfl, rfl, rfl, rfl, rfl, rfl⟩)

theorem scanRecovery_keeps (s : State) : Keeps s (scanRecovery s).1 :=
  (readHeaders_keeps headerOrder s).trans (recoverSectors_keeps _ _)

theorem startScan_keeps (s : State) : Keeps s (startScan s) := by
  unfold startScan
  dsimp only
  have h := (((scanRecovery_keeps s).trans (rebuildDirectory_keeps (scanRecovery s).2 _)).trans (buildKeyTable_keeps _)).trans
    (closeStale_keeps _)
  exact Keeps.ite (h.trans (openForLoading_keeps _)) h

/-! ## Service port -/

theorem queueRequest_keeps (op : DefOp) (s : State) : Keeps s (queueRequest op s) := by
  unfold queueRequest
  exact Keeps.ite (answer_keeps _ _ s) (Keeps.after (answer_keeps _ _ _) (Keeps.same ⟨rfl, rfl, rfl, rfl, rfl, rfl, rfl⟩))

theorem setDirect_keeps (d : Direct) (s : State) : Keeps s (setDirect d s) := Keeps.same ⟨rfl, rfl, rfl, rfl, rfl, rfl, rfl⟩

theorem askOpenSession_keeps (s : State) : Keeps s (askOpenSession s) := by
  unfold askOpenSession
  split
  · exact answer_keeps _ _ s
  · exact ((openSession_keeps s).trans (refreshScreen_keeps _)).trans (answer_keeps _ _ _)
  · exact answer_keeps _ _ s

theorem askCloseSession_keeps (s : State) : Keeps s (askCloseSession s) := by
  unfold askCloseSession
  split
  · exact answer_keeps _ _ s
  · exact Keeps.ite (answer_keeps _ _ s) (Keeps.ite (answer_keeps _ _ s) (Keeps.ite
      (((leaveSession_keeps s).trans (refreshScreen_keeps _)).trans (answer_keeps _ _ _))
      (((closeAsHolder_keeps s).trans (refreshScreen_keeps _)).trans (answer_keeps _ _ _))))

theorem askJournal_keeps (n : Nat) (s : State) : Keeps s (askJournal n s) :=
  Keeps.after (answer_keeps _ _ _) (Keeps.ofJournal ⟨rfl, rfl, rfl, rfl, rfl, rfl⟩ (Journal.archive_lawful s.journal n))

theorem clearFaults_keeps (s : State) : Keeps s (clearFaults s) := Keeps.ofCache ⟨rfl, rfl, rfl, rfl, rfl, rfl⟩ id

theorem askEraseBase_keeps (s : State) : Keeps s (askEraseBase s) := by
  unfold askEraseBase
  refine Keeps.ite (answer_keeps _ _ s) ?_
  split
  · exact (setDirect_keeps _ s).trans (eraseBaseDone_keeps _)
  · exact setDirect_keeps _ s

theorem askLoad_keeps (k : Key) (a : Attrs) (t : Text) (s : State) : Keeps s (askLoad k a t s) := by
  unfold askLoad
  exact Keeps.ite (answer_keeps _ _ s) (setDirect_keeps _ s)

theorem askUnprotect_keeps (s : State) : Keeps s (askUnprotect s) := by
  unfold askUnprotect
  dsimp only
  split
  · exact (setDirect_keeps _ s).trans (unprotectDone_keeps _ _)
  · exact setDirect_keeps _ s

theorem askEntry_keeps (k : Key) (s : State) : Keeps s (askEntry k s) := by
  unfold askEntry
  exact Keeps.ite (setDirect_keeps _ s) (answer_keeps _ _ s)

theorem serveRequest_keeps (r : Request) (s : State) : Keeps s (serveRequest r s) := by
  cases r with
  | maskAttention m => exact Keeps.after (answer_keeps _ _ _) (Keeps.same ⟨rfl, rfl, rfl, rfl, rfl, rfl, rfl⟩)
  | ackAttention c n => exact Keeps.after (answer_keeps _ _ _) (Keeps.same ⟨rfl, rfl, rfl, rfl, rfl, rfl, rfl⟩)
  | define k a t => exact queueRequest_keeps _ s
  | retire k => exact queueRequest_keeps _ s
  | readEntry k => exact askEntry_keeps k s
  | openSession => exact askOpenSession_keeps s
  | closeSession => exact askCloseSession_keeps s
  | readJournal n => exact askJournal_keeps _ s
  | clearFault => exact (clearFaults_keeps s).trans (answer_keeps _ _ _)
  | eraseBase => exact askEraseBase_keeps s
  | loadEntry k a t => exact askLoad_keeps k a t s
  | writeConfig f => exact setDirect_keeps _ s
  | protect => exact setDirect_keeps _ s
  | unprotect => exact askUnprotect_keeps s
  | status => exact answer_keeps _ _ s
  | readAttention => exact answer_keeps _ _ s
  | readRecord f n => exact answer_keeps _ _ s
  | readMarks => exact answer_keeps _ _ s
  | readFault => exact answer_keeps _ _ s

theorem respond_keeps (tag : Byte) (c : RespCode) (s : State) : Keeps s (respond tag c s) :=
  Keeps.same ⟨rfl, rfl, rfl, rfl, rfl, rfl, rfl⟩

theorem judgeRequest_keeps (tag : Byte) (r : Request) (s : State) : Keeps s (judgeRequest tag r s) := by
  unfold judgeRequest
  exact Keeps.ite (respond_keeps _ _ s) (Keeps.ite (respond_keeps _ _ s) (Keeps.ite
    (Keeps.same ⟨rfl, rfl, rfl, rfl, rfl, rfl, rfl⟩)
    (Keeps.after (serveRequest_keeps _ _) (Keeps.same ⟨rfl, rfl, rfl, rfl, rfl, rfl, rfl⟩))))

theorem judgeBytes_keeps (l : List Byte) (s : State) : Keeps s (judgeBytes l s) := by
  unfold judgeBytes
  split
  · exact Keeps.refl s
  · exact respond_keeps _ _ s
  · exact respond_keeps _ _ s
  · exact judgeRequest_keeps _ _ s

theorem clockOut_keeps (n : Nat) (s : State) : Keeps s (clockOut n s) := Keeps.same ⟨rfl, rfl, rfl, rfl, rfl, rfl, rfl⟩

theorem transaction_keeps (tag : Byte) (n : Nat) (r : Request) (s : State) : Keeps s (transaction tag n r s) := by
  unfold transaction
  dsimp only
  exact Keeps.ite (Keeps.ite ((clockOut_keeps _ s).trans (respond_keeps _ _ _))
    ((clockOut_keeps _ s).trans (judgeRequest_keeps _ _ _))) (clockOut_keeps _ s)

theorem rawFrame_keeps (l : List Byte) (s : State) : Keeps s (rawFrame l s) := by
  unfold rawFrame
  dsimp only
  exact Keeps.ite ((clockOut_keeps _ s).trans (judgeBytes_keeps _ _)) (clockOut_keeps _ s)

theorem passHeld_keeps (s : State) : Keeps s (passHeld s) := by
  unfold passHeld
  split
  · exact Keeps.after (serveRequest_keeps _ _) (Keeps.same ⟨rfl, rfl, rfl, rfl, rfl, rfl, rfl⟩)
  · exact Keeps.refl s

/-! ## Start-up -/

theorem configure_keeps (s : State) : Keeps s (configure s) :=
  Keeps.after (raiseIf_keeps _ _ _) (Keeps.ofScreen ⟨rfl, rfl, rfl, rfl, rfl, rfl⟩ (fun _ => Screen.withRows_rowsGood _ _))

theorem leaveScan_keeps (s : State) : Keeps s (leaveScan s) :=
  Keeps.after (raise_keeps _ _) (Keeps.same ⟨rfl, rfl, rfl, rfl, rfl, rfl, rfl⟩)

theorem scanComplete_keeps (s : State) : Keeps s (scanComplete s) :=
  ((((startScan_keeps s).trans (configure_keeps _)).trans (leaveScan_keeps _)).trans (passHeld_keeps _)).trans
    (refreshScreen_keeps _)

/-- A store step with what the cells answer to it. -/
theorem withScript_keeps (script : StoreScript) (f : State → State) (hf : ∀ s, Keeps s (f s)) (s : State) :
    Keeps s (withScript script f s) := by
  refine Keeps.next (Keeps.after (refreshScreen_keeps _) (Keeps.after (hf _) ?_)) ⟨rfl, rfl, rfl, rfl, rfl, rfl, rfl⟩
  exact Keeps.same ⟨rfl, rfl, rfl, rfl, rfl, rfl, rfl⟩

end Sys2Proof.Machine
end

