-- ==== Sys2Proof/Laws/KeepsExec.lean ====
section
/-! SUPPORT. Every command but RESET keeps the laws of `Keeps`, command by command and as one lemma. -/

namespace Sys2Proof.Machine

theorem execScanComplete_keeps (s t : State) : ∀ script, exec (.scanComplete script) s = .next t → Keeps s t := by
  intro script h
  simp only [exec, execScanComplete] at h
  split at h
  · injection h with h; subst h
    have k := scanComplete_keeps { s with script := script }
    generalize scanComplete { s with script := script } = u at k ⊢
    exact Keeps.next (t := u) (k.after (Keeps.same ⟨rfl, rfl, rfl, rfl, rfl, rfl, rfl⟩)) ⟨rfl, rfl, rfl, rfl, rfl, rfl, rfl⟩
  · injection h with h; subst h; exact Keeps.refl _

theorem execTick_keeps (s t : State) : ∀ k b e, exec (.tick k b e) s = .next t → Keeps s t := by
  intro k b e h
  simp only [exec, execTick] at h
  split at h
  · injection h with h; subst h
    exact (tick_keeps k b e.configRead s).trans (Keeps.foldl _ applyUpset_keeps _ _)
  · cases h

theorem execReliefPress_keeps (s t : State) (h : exec (.reliefPress) s = .next t) : Keeps s t := by

  simp only [exec, execReliefPress] at h
  split at h <;> (injection h with h; subst h)
  · exact Keeps.after (refreshScreen_keeps _) (Keeps.after (relief_keeps _) (Keeps.same ⟨rfl, rfl, rfl, rfl, rfl, rfl, rfl⟩))
  · exact Keeps.refl _

theorem execUpPress_keeps (s t : State) (h : exec (.upPress) s = .next t) : Keeps s t := by

  simp only [exec, execUpPress] at h
  split at h <;> (injection h with h; subst h)
  · exact Keeps.after (refreshScreen_keeps _) (Keeps.after (pressUp_keeps _) (Keeps.same ⟨rfl, rfl, rfl, rfl, rfl, rfl, rfl⟩))
  · exact Keeps.refl _

theorem execDownPress_keeps (s t : State) (h : exec (.downPress) s = .next t) : Keeps s t := by

  simp only [exec, execDownPress] at h
  split at h <;> (injection h with h; subst h)
  · exact Keeps.after (refreshScreen_keeps _) (Keeps.after (pressDown_keeps _) (Keeps.same ⟨rfl, rfl, rfl, rfl, rfl, rfl, rfl⟩))
  · exact Keeps.refl _

theorem execLivePress_keeps (s t : State) (h : exec (.livePress) s = .next t) : Keeps s t := by

  simp only [exec, execLivePress] at h
  split at h <;> (injection h with h; subst h)
  · exact Keeps.after (refreshScreen_keeps _) (Keeps.after (pressLive_keeps _) (Keeps.same ⟨rfl, rfl, rfl, rfl, rfl, rfl, rfl⟩))
  · exact Keeps.refl _

theorem execMarkPress_keeps (s t : State) (h : exec (.markPress) s = .next t) : Keeps s t := by

  simp only [exec, execMarkPress] at h
  split at h <;> (injection h with h; subst h)
  · exact Keeps.after (refreshScreen_keeps _) (Keeps.after (pressMark_keeps _) (Keeps.same ⟨rfl, rfl, rfl, rfl, rfl, rfl, rfl⟩))
  · exact Keeps.refl _

theorem execBeaconDue_keeps (s t : State) (h : exec (.beaconDue) s = .next t) : Keeps s t := by

  simp only [exec, execBeaconDue] at h
  split at h <;> (injection h with h; subst h)
  · exact Keeps.after (refreshScreen_keeps _) (sendBeacon_keeps _)
  · exact Keeps.refl _

theorem execBackoffExpiry_keeps (s t : State) (h : exec (.backoffExpiry) s = .next t) : Keeps s t := by

  simp only [exec, execBackoffExpiry] at h
  split at h <;> (injection h with h; subst h)
  · exact Keeps.after (refreshScreen_keeps _) (sendBeacon_keeps _)
  · exact Keeps.refl _

theorem execKeyDebounced_keeps (s t : State) (h : exec (.keyDebounced) s = .next t) : Keeps s t := by
  injection h with h; subst h; exact takeDueKeys_keeps _

theorem execAppendReceived_keeps (s t : State) : ∀ a b, exec (.appendReceived a b) s = .next t → Keeps s t := by
  intro a b h
  injection h with h; subst h
  exact Keeps.after (refreshScreen_keeps _) (cellsReceived_keeps _ _ (by
    intro f hf; rw [Option.map_eq_some_iff] at hf; obtain ⟨i, _, rfl⟩ := hf; intro h s; exact streamItem_keeps _ h s) _)

theorem execBreakReceived_keeps (s t : State) : ∀ a, exec (.breakReceived a) s = .next t → Keeps s t := by
  intro a h
  injection h with h; subst h
  exact Keeps.after (refreshScreen_keeps _) (cellsReceived_keeps _ _ (by
    intro f hf; rw [Option.map_eq_some_iff] at hf; obtain ⟨i, _, rfl⟩ := hf; intro h s; exact streamItem_keeps _ h s) _)

theorem execCutReceived_keeps (s t : State) : ∀ a, exec (.cutReceived a) s = .next t → Keeps s t := by
  intro a h
  injection h with h; subst h
  exact Keeps.after (refreshScreen_keeps _) (cellsReceived_keeps _ _ (by
    intro f hf; rw [Option.map_eq_some_iff] at hf; obtain ⟨i, _, rfl⟩ := hf; intro h s; exact streamItem_keeps _ h s) _)

theorem execPassReceived_keeps (s t : State) : ∀ a, exec (.passReceived a) s = .next t → Keeps s t := by
  intro a h
  injection h with h; subst h
  exact Keeps.after (refreshScreen_keeps _) (cellsReceived_keeps _ _ (by
    intro f hf; rw [Option.map_eq_some_iff] at hf; obtain ⟨i, _, rfl⟩ := hf; intro h s; exact streamItem_keeps _ h s) _)

theorem execGapReceived_keeps (s t : State) : ∀ a, exec (.gapReceived a) s = .next t → Keeps s t := by
  intro a h
  injection h with h; subst h
  exact Keeps.after (refreshScreen_keeps _) (cellsReceived_keeps _ _ (by
    intro f hf; rw [Option.map_eq_some_iff] at hf; obtain ⟨i, _, rfl⟩ := hf; intro h s; exact streamGap_keeps _ h s) _)

theorem execMarkReceived_keeps (s t : State) : ∀ a, exec (.markReceived a) s = .next t → Keeps s t := by
  intro a h
  injection h with h; subst h
  exact Keeps.after (refreshScreen_keeps _) (cellsReceived_keeps _ _ (by
    intro f hf; rw [Option.map_eq_some_iff] at hf; obtain ⟨i, _, rfl⟩ := hf; intro h s; exact streamMark_keeps _ h s) _)

theorem execSettleExpiry_keeps (s t : State) (h : exec (.settleExpiry) s = .next t) : Keeps s t := by
  injection h with h; subst h; exact Keeps.after (refreshScreen_keeps _) (settleExpiry_keeps _)

theorem execTakeStroke_keeps (s t : State) (h : exec (.takeStroke) s = .next t) : Keeps s t := by
  injection h with h; subst h; exact Keeps.after (refreshScreen_keeps _) (takeStroke_keeps _)

theorem execOutboundSpaceFree_keeps (s t : State) (h : exec (.outboundSpaceFree) s = .next t) : Keeps s t := by
  injection h with h; subst h; exact Keeps.after (refreshScreen_keeps _) (spaceFree_keeps _)

theorem execHandoffQuietReached_keeps (s t : State) (h : exec (.handoffQuietReached) s = .next t) : Keeps s t := by
  injection h with h; subst h; exact Keeps.after (refreshScreen_keeps _) (handoffQuiet_keeps _)

theorem execPassQueue_keeps (s t : State) (h : exec (.passQueue) s = .next t) : Keeps s t := by
  injection h with h; subst h; exact Keeps.after (refreshScreen_keeps _) (queuePass_keeps _)

theorem execServeLookup_keeps (s t : State) (h : exec (.serveLookup) s = .next t) : Keeps s t := by
  injection h with h; subst h; exact Keeps.after (refreshScreen_keeps _) (serveLookup_keeps _)

theorem execServeReadEntry_keeps (s t : State) (h : exec (.serveReadEntry) s = .next t) : Keeps s t := by
  injection h with h; subst h; exact serveReadEntry_keeps _

theorem execServeDefine_keeps (s t : State) : ∀ x, exec (.serveDefine x) s = .next t → Keeps s t := by
  intro x h
  injection h with h; subst h; exact withScript_keeps _ _ serveDefine_keeps _

theorem execServeRetire_keeps (s t : State) : ∀ x, exec (.serveRetire x) s = .next t → Keeps s t := by
  intro x h
  injection h with h; subst h; exact withScript_keeps _ _ serveRetire_keeps _

theorem execServeRepair_keeps (s t : State) : ∀ x, exec (.serveRepair x) s = .next t → Keeps s t := by
  intro x h
  injection h with h; subst h; exact withScript_keeps _ _ serveRepair_keeps _

theorem execCompactSelect_keeps (s t : State) : ∀ x, exec (.compactSelect x) s = .next t → Keeps s t := by
  intro x h
  injection h with h; subst h; exact withScript_keeps _ _ compactSelect_keeps _

theorem execCompactCopy_keeps (s t : State) : ∀ x, exec (.compactCopy x) s = .next t → Keeps s t := by
  intro x h
  injection h with h; subst h; exact withScript_keeps _ _ compactCopy_keeps _

theorem execCompactSeal_keeps (s t : State) : ∀ x, exec (.compactSeal x) s = .next t → Keeps s t := by
  intro x h
  injection h with h; subst h; exact withScript_keeps _ _ compactSeal_keeps _

theorem execCompactRetireVictim_keeps (s t : State) : ∀ x, exec (.compactRetireVictim x) s = .next t → Keeps s t := by
  intro x h
  injection h with h; subst h; exact withScript_keeps _ _ compactRetireVictim_keeps _

theorem execPrezeroWord_keeps (s t : State) : ∀ x, exec (.prezeroWord x) s = .next t → Keeps s t := by
  intro x h
  injection h with h; subst h; exact withScript_keeps _ _ prezeroWord_keeps _

theorem execErasePulse_keeps (s t : State) : ∀ x, exec (.erasePulse x) s = .next t → Keeps s t := by
  intro x h
  injection h with h; subst h; exact withScript_keeps _ _ erasePulse_keeps _

theorem execFormatSector_keeps (s t : State) : ∀ x, exec (.formatSector x) s = .next t → Keeps s t := by
  intro x h
  injection h with h; subst h; exact withScript_keeps _ _ formatCommand_keeps _

theorem execServeLoadEntry_keeps (s t : State) : ∀ x, exec (.serveLoadEntry x) s = .next t → Keeps s t := by
  intro x h
  injection h with h; subst h; exact withScript_keeps _ _ serveLoadEntry_keeps _

theorem execServeProtect_keeps (s t : State) : ∀ x, exec (.serveProtect x) s = .next t → Keeps s t := by
  intro x h
  injection h with h; subst h; exact withScript_keeps _ _ serveProtect_keeps _

theorem execServeWriteConfig_keeps (s t : State) : ∀ x, exec (.serveWriteConfig x) s = .next t → Keeps s t := by
  intro x h
  injection h with h; subst h; exact withScript_keeps _ _ serveWriteConfig_keeps _

theorem execPoll_keeps (s t : State) : ∀ n, exec (.poll n) s = .next t → Keeps s t := by
  intro n h
  injection h with h; subst h; exact clockOut_keeps _ _

theorem execFrameRejected_keeps (s t : State) : ∀ l, exec (.frameRejected l) s = .next t → Keeps s t := by
  intro l h
  injection h with h; subst h; exact rawFrame_keeps _ _

theorem execBeaconReceived_keeps (s t : State) : ∀ a b, exec (.beaconReceived a b) s = .next t → Keeps s t := by
  intro a b h
  injection h with h; subst h; exact Keeps.after (refreshScreen_keeps _) (beaconReceived_keeps _ _ _)

theorem execHeaderReceived_keeps (s t : State) : ∀ a, exec (.headerReceived a) s = .next t → Keeps s t := by
  intro a h
  injection h with h; subst h; exact Keeps.after (refreshScreen_keeps _) (headerReceived_keeps _ _)

theorem execCellDiscarded_keeps (s t : State) (h : exec (.cellDiscarded) s = .next t) : Keeps s t := by
  injection h with h; subst h; exact cellDiscarded_keeps _

theorem execCollision_keeps (s t : State) : ∀ b, exec (.collision b) s = .next t → Keeps s t := by
  intro b h
  injection h with h; subst h; exact Keeps.after (refreshScreen_keeps _) (collide_keeps _ _)

theorem execItemSent_keeps (s t : State) (h : exec (.itemSent) s = .next t) : Keeps s t := by
  injection h with h; subst h; exact Keeps.after (refreshScreen_keeps _) (itemSent_keeps _)

theorem execAbsentGapExpiry_keeps (s t : State) (h : exec (.absentGapExpiry) s = .next t) : Keeps s t := by
  injection h with h; subst h; exact Keeps.after (refreshScreen_keeps _) (absentGap_keeps _)

theorem execQuietTimerExpiry_keeps (s t : State) (h : exec (.quietTimerExpiry) s = .next t) : Keeps s t := by
  injection h with h; subst h; exact quietExpiry_keeps _

theorem execReviewIdleExpiry_keeps (s t : State) (h : exec (.reviewIdleExpiry) s = .next t) : Keeps s t := by
  injection h with h; subst h; exact Keeps.after (refreshScreen_keeps _) (reviewIdleExpiry_keeps _)

theorem execScreenWriteStart_keeps (s t : State) (h : exec (.screenWriteStart) s = .next t) : Keeps s t := by
  injection h with h; subst h; exact writeStart_keeps _

theorem execScreenWriteDone_keeps (s t : State) (h : exec (.screenWriteDone) s = .next t) : Keeps s t := by
  injection h with h; subst h; exact writeDone_keeps _

theorem transaction_next_keeps {tag : Byte} {n : Nat} {r : Request} {s t : State}
    (h : (Host.Outcome.next (transaction tag n r s) : Host.Outcome State Fault Refusal) = .next t) : Keeps s t := by
  injection h with h; subst h; exact transaction_keeps _ _ _ _

theorem exec_keeps (c : Instr) (s t : State) (h : exec c s = .next t) (hc : ∀ a b, c ≠ .reset a b) : Keeps s t := by
  cases c with
  | reset a b => exact absurd rfl (hc a b)
  | scanComplete script => exact execScanComplete_keeps s t script h
  | keyDebounced => exact execKeyDebounced_keeps s t h
  | reliefPress => exact execReliefPress_keeps s t h
  | upPress => exact execUpPress_keeps s t h
  | downPress => exact execDownPress_keeps s t h
  | livePress => exact execLivePress_keeps s t h
  | markPress => exact execMarkPress_keeps s t h
  | settleExpiry => exact execSettleExpiry_keeps s t h
  | takeStroke => exact execTakeStroke_keeps s t h
  | outboundSpaceFree => exact execOutboundSpaceFree_keeps s t h
  | serveLookup => exact execServeLookup_keeps s t h
  | serveDefine script => exact execServeDefine_keeps s t script h
  | serveRetire script => exact execServeRetire_keeps s t script h
  | serveRepair script => exact execServeRepair_keeps s t script h
  | compactSelect script => exact execCompactSelect_keeps s t script h
  | compactCopy script => exact execCompactCopy_keeps s t script h
  | compactSeal script => exact execCompactSeal_keeps s t script h
  | compactRetireVictim script => exact execCompactRetireVictim_keeps s t script h
  | prezeroWord script => exact execPrezeroWord_keeps s t script h
  | erasePulse script => exact execErasePulse_keeps s t script h
  | formatSector script => exact execFormatSector_keeps s t script h
  | serveReadEntry => exact execServeReadEntry_keeps s t h
  | serveLoadEntry script => exact execServeLoadEntry_keeps s t script h
  | serveProtect script => exact execServeProtect_keeps s t script h
  | serveWriteConfig script => exact execServeWriteConfig_keeps s t script h
  | status tag clocks => exact transaction_next_keeps h
  | readAttention tag clocks => exact transaction_next_keeps h
  | maskAttention tag clocks mask => exact transaction_next_keeps h
  | ackAttention tag clocks causes count => exact transaction_next_keeps h
  | define tag clocks key attrs text => exact transaction_next_keeps h
  | retire tag clocks key => exact transaction_next_keeps h
  | readEntry tag clocks key => exact transaction_next_keeps h
  | openSession tag clocks => exact transaction_next_keeps h
  | closeSession tag clocks => exact transaction_next_keeps h
  | readJournal tag clocks count => exact transaction_next_keeps h
  | readRecord tag clocks first count => exact transaction_next_keeps h
  | readMarks tag clocks => exact transaction_next_keeps h
  | readFault tag clocks => exact transaction_next_keeps h
  | clearFault tag clocks => exact transaction_next_keeps h
  | eraseBase tag clocks => exact transaction_next_keeps h
  | loadEntry tag clocks key attrs text => exact transaction_next_keeps h
  | writeConfig tag clocks fields => exact transaction_next_keeps h
  | protect tag clocks => exact transaction_next_keeps h
  | unprotect tag clocks => exact transaction_next_keeps h
  | poll clocks => exact execPoll_keeps s t clocks h
  | frameRejected bytes => exact execFrameRejected_keeps s t bytes h
  | beaconReceived first second => exact execBeaconReceived_keeps s t first second h
  | headerReceived cell => exact execHeaderReceived_keeps s t cell h
  | appendReceived first second => exact execAppendReceived_keeps s t first second h
  | breakReceived cell => exact execBreakReceived_keeps s t cell h
  | cutReceived cell => exact execCutReceived_keeps s t cell h
  | passReceived cell => exact execPassReceived_keeps s t cell h
  | gapReceived cell => exact execGapReceived_keeps s t cell h
  | markReceived cell => exact execMarkReceived_keeps s t cell h
  | cellDiscarded => exact execCellDiscarded_keeps s t h
  | collision onHeader => exact execCollision_keeps s t onHeader h
  | itemSent => exact execItemSent_keeps s t h
  | absentGapExpiry => exact execAbsentGapExpiry_keeps s t h
  | beaconDue => exact execBeaconDue_keeps s t h
  | quietTimerExpiry => exact execQuietTimerExpiry_keeps s t h
  | backoffExpiry => exact execBackoffExpiry_keeps s t h
  | handoffQuietReached => exact execHandoffQuietReached_keeps s t h
  | passQueue => exact execPassQueue_keeps s t h
  | reviewIdleExpiry => exact execReviewIdleExpiry_keeps s t h
  | screenWriteStart => exact execScreenWriteStart_keeps s t h
  | screenWriteDone => exact execScreenWriteDone_keeps s t h
  | tick keys buttons events => exact execTick_keeps s t keys buttons events h

/-- A RESET that completes leaves every block in its reset state. -/
theorem execReset_next {a : Straps} {b : List (Nat × StoreWord)} {s t : State} (h : exec (.reset a b) s = .next t) :
    t = State.atReset a (s.store.writeAll b) s.pending := by
  simp only [exec, execReset] at h
  split at h
  · injection h with h; exact h.symm
  · cases h

end Sys2Proof.Machine
end

