-- ==== Sys2Proof/Laws/Refresh.lean ====
section
/-! SUPPORT. What looking at the rows again leaves: every part but the dirty-row set. It asks for what the rows show alone, and
looking twice is looking once. -/

namespace Sys2Proof.Machine

@[simp] theorem refreshScreen_butDirty (s : State) : (refreshScreen s).screen.butDirty = s.screen.butDirty := by
  unfold refreshScreen; split <;> rfl

/-! ## What the rows are made of -/

/-- The parts that the content of the rows and the comparison of R181 look at. -/
def State.rowView (s : State) :=
  (s.start, s.screen.rows, s.screen.view, s.screen.newText, s.screen.pendingStart, s.screen.markRefused, s.screen.shown,
    s.screen.writing, s.straps, s.composer.mode, s.composer.shadow, s.record, s.pen.session, s.link.latest)

theorem rowContent_congr {s t : State} (h : s.rowView = t.rowView) (i : Nat) : rowContent s i = rowContent t i := by
  obtain ⟨⟩ := s; obtain ⟨⟩ := t
  simp only [State.rowView, Prod.mk.injEq] at h
  simp [rowContent, statusRow, shadowRowShown, lineOfRow, rlnOfRow, lineRows, shadowRow, shownWriter, gapShown, h]

theorem changedRows_congr {s t : State} (h : s.rowView = t.rowView) : changedRows s = changedRows t := by
  have hr := fun i => rowContent_congr h i
  simp only [State.rowView, Prod.mk.injEq] at h
  obtain ⟨_, hn, _, _, _, _, hs, hw, _⟩ := h
  unfold changedRows Screen.lastContent
  rw [hn, hs, hw]
  simp only [hr]

/-- Two states whose rows look the same and whose dirty-row sets are the same have the same set after a refresh. -/
theorem refreshScreen_dirty_congr {s t : State} (h : s.rowView = t.rowView) (hd : s.screen.dirty = t.screen.dirty) :
    (refreshScreen s).screen.dirty = (refreshScreen t).screen.dirty := by
  have hc := changedRows_congr h
  simp only [State.rowView, Prod.mk.injEq] at h
  unfold refreshScreen
  rw [h.1]
  split
  · exact hd
  · simp only [hc, hd]

@[simp] theorem refreshScreen_rowView (s : State) : (refreshScreen s).rowView = s.rowView := by
  unfold refreshScreen; split <;> rfl

theorem insertAsc_cons (n j : Nat) (l : List Nat) :
    insertAsc n (j :: l) = if n < j then n :: j :: l else if n = j then j :: l else j :: insertAsc n l := rfl

/-- A row that has joined joins no more. -/
theorem insertAsc_again (n : Nat) : ∀ l : List Nat, insertAsc n (insertAsc n l) = insertAsc n l
  | [] => by simp [insertAsc]
  | j :: l => by
    have ih := insertAsc_again n l
    rw [insertAsc_cons]
    by_cases h1 : n < j
    · rw [if_pos h1, insertAsc_cons, if_neg (Nat.lt_irrefl n), if_pos rfl]
    · rw [if_neg h1]
      by_cases h2 : n = j
      · rw [if_pos h2, insertAsc_cons, if_neg h1, if_pos h2]
      · rw [if_neg h2, insertAsc_cons, if_neg h1, if_neg h2, ih]

/-- A row that joins no more still does not once another has joined. -/
theorem insertAsc_stays (n m : Nat) : ∀ l : List Nat, insertAsc n l = l → insertAsc n (insertAsc m l) = insertAsc m l
  | [], h => by simp [insertAsc] at h
  | j :: l, h => by
    have h' := h
    rw [insertAsc_cons] at h
    by_cases h1 : n < j
    · simp [h1] at h
    · rw [if_neg h1] at h
      rw [insertAsc_cons m]
      by_cases h3 : m < j
      · rw [if_pos h3, insertAsc_cons, if_neg (by omega), if_neg (by omega), h']
      · rw [if_neg h3]
        by_cases h4 : m = j
        · rw [if_pos h4, h']
        · rw [if_neg h4, insertAsc_cons, if_neg h1]
          by_cases h2 : n = j
          · rw [if_pos h2]
          · rw [if_neg h2, List.cons.injEq] at h
            rw [if_neg h2, insertAsc_stays n m l h.2]

theorem insertRows_stays (n : Nat) : ∀ (rows l : List Nat), insertAsc n l = l →
    insertAsc n (rows.foldl (fun d i => insertAsc i d) l) = rows.foldl (fun d i => insertAsc i d) l
  | [], _, h => h
  | m :: rows, l, h => insertRows_stays n rows _ (insertAsc_stays n m l h)

/-- Rows that have joined join no more. -/
theorem insertRows_again (rows l : List Nat) :
    rows.foldl (fun d i => insertAsc i d) (rows.foldl (fun d i => insertAsc i d) l) =
      rows.foldl (fun d i => insertAsc i d) l := by
  suffices h : ∀ (rs : List Nat) (d : List Nat), (∀ i ∈ rs, insertAsc i d = d) → rs.foldl (fun d i => insertAsc i d) d = d from
    h rows _ (fun i hi => by
      clear h
      induction rows generalizing l with
      | nil => simp at hi
      | cons m rows ih =>
        rcases List.mem_cons.1 hi with rfl | hi
        · exact insertRows_stays i rows _ (insertAsc_again i l)
        · exact ih _ hi)
  intro rs
  induction rs with
  | nil => intro d _; rfl
  | cons i rs ih =>
    intro d h
    rw [List.foldl_cons, h i (List.mem_cons_self ..)]
    exact ih d (fun j hj => h j (List.mem_cons_of_mem i hj))

/-- Looking again at rows that look the same adds none to the set. -/
theorem refreshScreen_dirty_again {s t : State} (h : t.rowView = s.rowView) (hd : t.screen.dirty = (refreshScreen s).screen.dirty) :
    (refreshScreen t).screen.dirty = (refreshScreen s).screen.dirty := by
  have hc := changedRows_congr h
  simp only [State.rowView, Prod.mk.injEq] at h
  unfold refreshScreen at hd ⊢
  rw [h.1]
  split
  · rename_i h0; rw [if_pos h0] at hd; exact hd
  · rename_i h0; rw [if_neg h0] at hd
    dsimp only at hd ⊢
    rw [hc, hd, insertRows_again]

/-- Looking at the rows twice is looking at them once. -/
theorem refreshScreen_again (s : State) : refreshScreen (refreshScreen s) = refreshScreen s := by
  have hd := refreshScreen_dirty_again (refreshScreen_rowView s) rfl
  generalize refreshScreen s = t at hd ⊢
  obtain ⟨d, h⟩ := refreshScreen_eq t
  rw [h] at hd ⊢
  dsimp only at hd
  rw [hd]

theorem refreshScreen_with_port (s : State) (p : PortState) (o : List Byte) :
    refreshScreen { s with port := p, portOut := o } = { refreshScreen s with port := p, portOut := o } := by
  unfold refreshScreen; split <;> rfl

theorem refreshScreen_with_script (s : State) (x : StoreScript) :
    refreshScreen { s with script := x } = { refreshScreen s with script := x } := by
  unfold refreshScreen; split <;> rfl

/-- A store step is its operation with the script in place, then `afterStep`. -/
theorem withScript_eq (x : StoreScript) (f : State → State) (s : State) :
    withScript x f s = afterStep (f { s with script := x }) := rfl

theorem afterStep_with_script (s : State) (x : StoreScript) : afterStep { s with script := x } = afterStep s := by
  unfold afterStep; rw [refreshScreen_with_script]

end Sys2Proof.Machine
end

