-- ==== Sys2Proof/Laws/Lookups.lean ====
section
/-! SUPPORT. What an answer to a lookup does (R21, R37, R41), what resolving the run does (R23, R33, R36), and how a held
lookup is tested again as a request leaves the define queue (R51). -/

namespace Sys2Proof.Machine

/-! ## The run resolved -/

/-- Text placed in the shadow buffer, one item after another: the buffer, and rows that join the dirty-row set (R128). -/
theorem shadowItems_eq (l : List ItemBody) : ∀ s : State, ∃ d, (∀ i ∈ s.screen.dirty, i ∈ d) ∧
    l.foldl (fun t b => setShadow (shadowApply t.composer.shadow b) t) s =
      { s with composer := { s.composer with shadow := l.foldl shadowApply s.composer.shadow }
               screen := { s.screen with dirty := d } } := by
  induction l with
  | nil => intro s; exact ⟨s.screen.dirty, fun _ h => h, rfl⟩
  | cons b l ih =>
    intro s
    have h1 : ∃ d, (∀ i ∈ s.screen.dirty, i ∈ d) ∧ setShadow (shadowApply s.composer.shadow b) s =
        { s with composer := { s.composer with shadow := shadowApply s.composer.shadow b }
                 screen := { s.screen with dirty := d } } := by
      unfold setShadow refreshScreen
      split
      · exact ⟨s.screen.dirty, fun _ h => h, rfl⟩
      · exact ⟨_, fun i hi => (mem_insertRows i _ _).2 (Or.inr hi), rfl⟩
    obtain ⟨d, hd, h1⟩ := h1
    obtain ⟨e, he, h2⟩ := ih (setShadow (shadowApply s.composer.shadow b) s)
    refine ⟨e, fun i hi => he i ?_, ?_⟩
    · rw [h1]; exact hd i hi
    · rw [List.foldl_cons, h2, h1, List.foldl_cons]

/-- A unit placed in the shadow buffer (R128). -/
theorem placeUnit_shadow (u : TransUnit) (s : State) (h : s.composer.mode = .shadow) :
    ∃ d, (∀ i ∈ s.screen.dirty, i ∈ d) ∧ placeUnit u s = { s with
      composer := { s.composer with
        shadow := (if u.text.isEmpty then [] else unitItems s.settings.lineWidth s.composer.fmt u (shadowEnd s.composer.shadow)).foldl
          shadowApply s.composer.shadow
        fmt := formatAfter s.composer.fmt u.text u.attrs }
      screen := { s.screen with dirty := d } } := by
  have hc : currentPos s = shadowEnd s.composer.shadow := by simp [currentPos, h]
  obtain ⟨d, hd, he⟩ := shadowItems_eq
    (if u.text.isEmpty then [] else unitItems s.settings.lineWidth s.composer.fmt u (shadowEnd s.composer.shadow)) s
  refine ⟨d, hd, ?_⟩
  unfold placeUnit
  simp only [hc, h, reduceCtorEq, if_false, he]

theorem foldl_setShadow_trans (l : List ItemBody) (s : State) :
    (l.foldl (fun t b => setShadow (shadowApply t.composer.shadow b) t) s).trans = s.trans := by
  obtain ⟨d, _, h⟩ := shadowItems_eq l s; rw [h]

@[simp] theorem askClose_trans (b : Bool) (s : State) : (askClose b s).trans = s.trans := by cases b <;> rfl

@[simp] theorem placeUnit_trans (u : TransUnit) (s : State) : (placeUnit u s).trans = s.trans := by
  unfold placeUnit
  dsimp only
  split
  · rw [askClose_trans, (queueItems_beside _ _ _).2.1]
  · exact foldl_setShadow_trans _ s

/-- Handing over a unit leaves the re-take list and the forced-release flag (R33, R36). -/
theorem handOver_unit_leaves (u : TransUnit) (s : State) : (handOver (.unit u) s).trans.retake = s.trans.retake ∧
    (handOver (.unit u) s).trans.forced = s.trans.forced := by
  unfold handOver
  split
  · exact ⟨rfl, rfl⟩
  · simp [handOverNow, Translator.remember]

/-- Resolving a run puts its strokes after the unit's on the re-take list (R23). -/
theorem resolveRun_retake {s : State} (h : s.trans.run ≠ []) : (resolveRun s).trans.retake =
    s.trans.run.drop (resolvedLength s.trans.results) ++ s.trans.retake ∧ (resolveRun s).trans.forced = s.trans.forced := by
  unfold resolveRun
  rw [if_neg (by simpa using h)]
  exact handOver_unit_leaves _ _

theorem keepLast_getLast? {α : Type} (n : Nat) (l : List α) (x : α) (h : 0 < n) : (keepLast n (l ++ [x])).getLast? = some x := by
  unfold keepLast
  have : (l ++ [x]).length - n ≤ l.length := by simp; omega
  rw [List.drop_append_of_le_length this]
  simp

/-- A unit handed over while publishing with room (R33 to R35, R113 to R119, R169). -/
theorem handOverNow_unitPlaced (u : TransUnit) (t : Translator) (s : State) (hp : t.publishing = true)
    (hm : s.composer.mode = .publish) :
    unitPlaced u t s (refreshScreen (handOverNow (.unit u) { s with trans := t })) := by
  unfold unitPlaced
  intro p bodies passes items hroom
  have hb : (if u.text.isEmpty then [] else unitItems s.settings.lineWidth s.composer.fmt u p) = bodies := rfl
  have hnp : bodies.all ItemBody.noPass = true := by
    unfold bodies; split
    · rfl
    · exact unitItems_noPass _ _ _ _
  have hcp : currentPos { s with trans := t } = p := by unfold currentPos; rw [if_pos (by exact hm)]
  obtain ⟨q1, q2⟩ := queueItems_pen u.time bodies { s with trans := t } (by exact hroom) hnp
  have hbe := queueItems_beside u.time bodies { s with trans := t }
  have he : handOverNow (.unit u) { s with trans := t } =
      (let z := askClose passes (queueItems u.time bodies { s with trans := t })
       { z with
         composer := { z.composer with fmt := formatAfter s.composer.fmt u.text u.attrs }
         trans := z.trans.remember { u with start := p, before := s.composer.fmt } }) := by
    unfold handOverNow placeUnit
    simp only [hcp, hb]
    rw [if_pos (by exact hm)]
  have hz : ∀ x : State, (askClose passes x).pen = { x.pen with
        closing := x.pen.closing || passes, exhausted := x.pen.exhausted || passes } ∧
      (askClose passes x).record = x.record ∧ (askClose passes x).composer = x.composer ∧
      (askClose passes x).trans = x.trans ∧ (askClose passes x).journal = x.journal := by
    intro x; cases passes <;> simp [askClose]
  obtain ⟨z1, z2, z3, z4, z5⟩ := hz (queueItems u.time bodies { s with trans := t })
  have hside : PenSide s (refreshScreen (handOverNow (.unit u) { s with trans := t })) :=
    PenSide.after ((handOverNow_penSide _ _).trans (refreshScreen_penSide _)) (PenSide.same rfl)
  rw [he] at hside ⊢
  dsimp only
  refine ⟨?_, ?_, ?_, ?_, ?_, ?_, ?_, hside⟩
  · rw [refreshScreen_pen]
    dsimp only
    rw [z1, q1]
    dsimp only
    simp only [items, mapIdx_items]
  · rw [refreshScreen_record]; dsimp only; rw [z2, q2]
  · rw [refreshScreen_record]; dsimp only; rw [z2, q2]
  · rw [refreshScreen_composer]; dsimp only; rw [z3, hbe.2.2.1]
  · rw [refreshScreen_trans]; dsimp only; rw [z4, hbe.2.1]
    simp only [Translator.remember, Config.undoSize, hp, and_true]
    cases t.undo <;> simp
  · rw [refreshScreen_trans]; dsimp only; rw [z4, hbe.2.1]
    simp [Translator.lastPublished, Translator.remember, Config.undoSize, keepLast_getLast?]
  · rw [refreshScreen_journal]; dsimp only; rw [z5, hbe.1]

/-- The run resolved (R23, R24, R33, R36). -/
theorem resolveRun_resolved {s : State} (h : s.trans.run ≠ []) : runResolved s (refreshScreen (resolveRun s)) := by
  have hr : resolveRun s = handOver (.unit (resolvedUnit s.trans.run s.trans.results))
      { s with trans :=
        { s.trans with
          run := [], results := [], settle := none
          retake := s.trans.run.drop (resolvedLength s.trans.results) ++ s.trans.retake } } := by
    unfold resolveRun; rw [if_neg (by simpa using h)]
  rw [hr]
  refine ⟨?_, ?_, ?_⟩
  · intro hp hm
    unfold handOver
    rw [if_neg (by simp [mustStall, hp])]
    obtain ⟨d, hd, he⟩ := placeUnit_shadow (resolvedUnit s.trans.run s.trans.results)
      { s with trans :=
        { s.trans with
          run := [], results := [], settle := none
          retake := s.trans.run.drop (resolvedLength s.trans.results) ++ s.trans.retake } } hm
    refine ⟨d, hd, ?_⟩
    unfold handOverNow
    dsimp only
    rw [he]
    simp only [currentPos, hm, reduceCtorEq, if_false]
  · intro hp hm hfree
    unfold handOver
    rw [if_neg (by simp [mustStall, hp, Config.handOverRoom, Nat.not_lt.2 hfree])]
    exact handOverNow_unitPlaced _ _ s hp hm
  · intro hp hfree
    unfold handOver
    rw [if_pos (by simp [mustStall, hp, Config.handOverRoom, hfree])]

/-! ## Forced release (R41) -/

theorem releaseCheck_of_not_set {s : State} (h : s.trans.forced ≠ .set) : releaseCheck s = s := by
  unfold releaseCheck; rw [if_neg (fun e => h e.1)]

theorem releaseCheck_of_retake {s : State} (h : s.trans.retake ≠ []) : releaseCheck s = s := by
  unfold releaseCheck; rw [if_neg (fun e => h e.2.2)]

/-! ## Replay (R38) -/

theorem Journal.search_eq (cut : LinkTime) (j : Journal) : j.search cut = { j with
    readPoint := ((j.strokes.find? (fun k => ! k.unsynced && decide (cut.toNat < k.downTime.toNat))).map Stroke.sn).getD
      j.nextSn } := by
  have h : (fun k : Stroke => ! k.unsynced && decide (cut.toNat < k.downTime.toNat)) = afterCut cut := rfl
  rw [h]
  unfold Journal.search
  cases j.strokes.find? (afterCut cut) <;> rfl

theorem lastMark_eq (ls : List RecLine) :
    lastMark ls = (ls.flatMap RecLine.text).reverse.find? (fun x => decide (x ≠ 0x20#8)) := by
  unfold lastMark spaceCh
  congr 1
  induction ls with
  | nil => rfl
  | cons l ls ih => simp [List.flatMap_append, ih]

theorem Composer.enterPublish_eq (c : Composer) (ls : List RecLine) (e : Epoch) : c.enterPublish ls e = c.publishing ls e := by
  unfold Composer.enterPublish Composer.publishing
  rw [lastMark_eq]
  simp only
  congr 2
  unfold endsSentence
  cases (ls.flatMap RecLine.text).reverse.find? (fun x => decide (x ≠ 0x20#8)) <;> simp [Bool.or_assoc]

/-! ## The answer -/

/-- An answer that has reached the Translator (R21, R37, R41). -/
theorem lookupDone_reached (a : Answer) (s : State) : answerReached a s (refreshScreen (lookupDone a s)) := by
  refine ⟨?_, ?_, ?_⟩
  · intro hd he hf
    unfold lookupDone
    rw [if_neg (by simp [hd])]
    dsimp only
    rw [if_pos ⟨he, hf⟩, releaseCheck_of_not_set (by exact hf)]
    rfl
  · intro hd hr hc
    unfold lookupDone
    rw [if_neg (by simp [hd])]
    dsimp only
    have hc' : ¬ (a.ext = true ∧ s.trans.forced ≠ .set) := by
      rcases hc with hc | hc
      · simp [hc.1]
      · intro h; exact h.2 hc.1
    rw [if_neg hc']
    have hrr := resolveRun_retake (s := { s with trans := { s.trans with mode := .ready, results := s.trans.results ++ [a] } }) hr
    have : releaseCheck (resolveRun { s with trans := { s.trans with mode := .ready, results := s.trans.results ++ [a] } }) =
        resolveRun { s with trans := { s.trans with mode := .ready, results := s.trans.results ++ [a] } } := by
      rcases hc with hc | hc
      · exact releaseCheck_of_not_set (by rw [hrr.2]; exact hc.2)
      · refine releaseCheck_of_retake ?_
        rw [hrr.1]
        dsimp only
        rcases hc.2 with h | h
        · simp [h]
        · intro e
          have := List.append_eq_nil_iff.1 e
          rw [List.drop_eq_nil_iff] at this
          omega
    rw [this]
    exact resolveRun_resolved hr
  · intro hd hf
    refine ⟨?_, ?_⟩
    · intro hg
      unfold lookupDone
      rw [if_pos hd]
      simp only [hg]
      rw [releaseCheck_of_not_set (by exact hf)]
    · intro cut hg
      dsimp only
      have hfa : ∀ x : State, x.trans.forced = s.trans.forced → releaseCheck (actOnGrant cut x) = actOnGrant cut x := by
        intro x hx
        apply releaseCheck_of_not_set
        unfold actOnGrant
        split
        · simpa [hx] using hf
        · simpa [startReplay, hx] using hf
      unfold lookupDone
      rw [if_pos hd]
      simp only [hg]
      rw [hfa]
      · unfold actOnGrant startReplay
        refine ⟨fun hp => ?_, fun hp => ?_⟩
        · rw [if_pos (by exact hp)]
        · rw [if_neg (by exact hp), refreshScreen_again]
          simp only [Journal.search_eq, Composer.enterPublish_eq, replayEndOf]
      · rfl

/-! ## The hold test (R51) -/

theorem leaveQueue_eq (reason : Option Reason) (s : State) (r : QueuedReq) (l : List QueuedReq) (h : s.ctl.queue = r :: l) :
    leaveQueue reason s = retestHeld { s with
      ctl := { s.ctl with queue := l, headWaiting := false }
      att := s.att.addOutcome { id := r.id, reason := reason } } := by
  unfold leaveQueue; rw [h]

/-- A held lookup is tested again as a request leaves the queue (R51). -/
theorem retestHeld_queueLeft (x : State) : queueLeft x (afterStep (retestHeld x)) := by
  refine ⟨?_, ?_⟩
  · intro h
    unfold retestHeld
    split
    · rename_i k hk; exact absurd hk (h k)
    · rfl
  · intro k hk
    unfold retestHeld
    simp only [hk]
    refine ⟨?_, ?_, ?_⟩
    · intro hb; rw [if_pos hb]
    · intro hb hl
      rw [if_neg (by simp [hb])]
      unfold examine; simp only [hl]
    · intro a hb hl
      rw [if_neg (by simp [hb])]
      refine ⟨_, lookupDone_reached a _, ?_⟩
      unfold examine; simp only [hl]; rfl

end Sys2Proof.Machine
end

