-- ==== Sys2Proof/Laws/PlaceSide.lean ====
section
/-! SUPPORT. Placing and retiring entries leaves the cache, the define queue, the directory and every other record of the controller but sectors, accounts, sequence number, reserve, compaction and faults. -/

namespace Sys2Proof.Machine

/-- The parts that `PlaceSide` says stay. -/
def State.besidePlaces (s : State) :
    Straps × StartState × Settings × PortState × List Byte × Clock × Scanner × Buttons × Journal × Translator × Composer × Record × Link × Pen × Screen × List Instr × Cache × List DirRecord × List QueuedReq × Nat × Bool × List Location × Option Direct × List KeyRow × Option (Nat × Nat) × LastKey × Bool × Option ConfigFields × Nat :=
  (s.straps, s.start, s.settings, s.port, s.portOut, s.clock, s.scanner, s.buttons, s.journal, s.trans, s.composer, s.record, s.link, s.pen, s.screen, s.pending, s.cache, s.ctl.directory, s.ctl.queue, s.ctl.nextId, s.ctl.headWaiting, s.ctl.repair, s.ctl.direct, s.ctl.keyTable, s.ctl.openSector, s.ctl.lastKey, s.ctl.baseProtected, s.ctl.configRecord, s.ctl.configAppend)

/-- What placing and retiring entries leaves. -/
structure PlaceSide (s t : State) : Prop where
  straps : t.straps = s.straps
  start : t.start = s.start
  settings : t.settings = s.settings
  port : t.port = s.port
  portOut : t.portOut = s.portOut
  clock : t.clock = s.clock
  scanner : t.scanner = s.scanner
  buttons : t.buttons = s.buttons
  journal : t.journal = s.journal
  translator : t.trans = s.trans
  composer : t.composer = s.composer
  record : t.record = s.record
  link : t.link = s.link
  pen : t.pen = s.pen
  screen : t.screen = s.screen
  pending : t.pending = s.pending
  cache : t.cache = s.cache
  directory : t.ctl.directory = s.ctl.directory
  queue : t.ctl.queue = s.ctl.queue
  nextId : t.ctl.nextId = s.ctl.nextId
  headWaiting : t.ctl.headWaiting = s.ctl.headWaiting
  repair : t.ctl.repair = s.ctl.repair
  direct : t.ctl.direct = s.ctl.direct
  keyTable : t.ctl.keyTable = s.ctl.keyTable
  openSector : t.ctl.openSector = s.ctl.openSector
  lastKey : t.ctl.lastKey = s.ctl.lastKey
  baseProtected : t.ctl.baseProtected = s.ctl.baseProtected
  configRecord : t.ctl.configRecord = s.ctl.configRecord
  configAppend : t.ctl.configAppend = s.ctl.configAppend

theorem PlaceSide.same {s t : State} (h : t.besidePlaces = s.besidePlaces) : PlaceSide s t := by
  simp only [State.besidePlaces, Prod.mk.injEq] at h
  obtain ⟨h0, h1, h2, h3, h4, h5, h6, h7, h8, h9, h10, h11, h12, h13, h14, h15, h16, h17, h18, h19, h20, h21, h22, h23, h24, h25, h26, h27, h28⟩ := h
  constructor <;> assumption

theorem PlaceSide.eqs {s t : State} (h : PlaceSide s t) : t.besidePlaces = s.besidePlaces := by
  obtain ⟨h0, h1, h2, h3, h4, h5, h6, h7, h8, h9, h10, h11, h12, h13, h14, h15, h16, h17, h18, h19, h20, h21, h22, h23, h24, h25, h26, h27, h28⟩ := h
  simp only [State.besidePlaces, h0, h1, h2, h3, h4, h5, h6, h7, h8, h9, h10, h11, h12, h13, h14, h15, h16, h17, h18, h19, h20, h21, h22, h23, h24, h25, h26, h27, h28]

theorem PlaceSide.refl (s : State) : PlaceSide s s := PlaceSide.same rfl

theorem PlaceSide.trans {s t u : State} (a : PlaceSide s t) (b : PlaceSide t u) : PlaceSide s u := PlaceSide.same (b.eqs.trans a.eqs)

theorem PlaceSide.after {s t u : State} (b : PlaceSide t u) (a : PlaceSide s t) : PlaceSide s u := a.trans b

theorem PlaceSide.next {s t u : State} (a : PlaceSide s t) (h : u.besidePlaces = t.besidePlaces) : PlaceSide s u := a.trans (PlaceSide.same h)

theorem PlaceSide.ite {c : Prop} [Decidable c] {s a b : State} (ha : PlaceSide s a) (hb : PlaceSide s b) : PlaceSide s (if c then a else b) := by
  split <;> assumption

theorem PlaceSide.foldl {α : Type} (f : State → α → State) (h : ∀ s a, PlaceSide s (f s a)) : ∀ (l : List α) (s : State), PlaceSide s (l.foldl f s)
  | [], s => PlaceSide.refl s
  | a :: l, s => (h s a).trans (PlaceSide.foldl f h l _)

theorem raise_placeSide (c : Cause) (s : State) : PlaceSide s (raise c s) := PlaceSide.same rfl

theorem raiseIf_placeSide (b : Bool) (c : Cause) (s : State) : PlaceSide s (raiseIf b c s) := by
  cases b
  · exact PlaceSide.refl s
  · exact raise_placeSide c s

theorem noteFault_placeSide (k : FaultKind) (n w : Nat) (s : State) : PlaceSide s (noteFault k n w s) :=
  PlaceSide.after (raiseIf_placeSide _ _ _) (PlaceSide.same rfl)

theorem readWord_placeSide (ok : BitVec 32 → Bool) (n w : Nat) (s : State) : PlaceSide s (readWord ok n w s).1 := by
  unfold readWord
  dsimp only
  split
  · exact PlaceSide.refl s
  · dsimp only; exact noteFault_placeSide _ _ _ s
  · dsimp only; exact noteFault_placeSide _ _ _ s

theorem readWords_placeSide (ok : BitVec 32 → Bool) (n : Nat) : ∀ (c w : Nat) (s : State), PlaceSide s (readWords ok n c w s).1
  | 0, _, s => PlaceSide.refl s
  | c + 1, w, s => by
    unfold readWords
    dsimp only
    split
    · exact readWord_placeSide ok n w s
    · exact (readWord_placeSide ok n w s).trans (readWords_placeSide ok n c (w + 1) _)

theorem readEntryAt_placeSide (n w : Nat) (s : State) : PlaceSide s (readEntryAt n w s).1 := by
  unfold readEntryAt
  dsimp only
  have h := readWord_placeSide (headerFits w) n w s
  split
  · have c := fun m => h.trans (readWords_placeSide chordValueOk n m (w + 1) _)
    split
    · split <;> exact (c _).trans (readWords_placeSide _ _ _ _ _)
    · exact c _
  · exact h

theorem pulseWord_placeSide (t : StoreWord) (n w : Nat) (s : State) : PlaceSide s (pulseWord t n w s).1 :=
  PlaceSide.same rfl

theorem programWord_placeSide (t : StoreWord) (n w : Nat) (s : State) : PlaceSide s (programWord t n w s).1 := by
  unfold programWord
  dsimp only
  split
  · exact pulseWord_placeSide t n w s
  · dsimp only
    exact (pulseWord_placeSide t n w s).trans (noteFault_placeSide _ _ _ _)

theorem programMark_placeSide (n : Nat) (m : Mark) (s : State) : PlaceSide s (programMark n m s).1 := by
  unfold programMark
  dsimp only
  have h := fun t => pulseWord_placeSide t n m.word s
  split
  · exact h _
  · dsimp only
    exact (h _).trans (noteFault_placeSide _ _ _ _)
  · split <;> dsimp only <;> exact (h _).trans (noteFault_placeSide _ _ _ _)

theorem programWords_placeSide (n : Nat) : ∀ (l : List (BitVec 32)) (w : Nat) (s : State), PlaceSide s (programWords n w l s).1
  | [], _, s => PlaceSide.refl s
  | v :: l, w, s => by
    unfold programWords
    dsimp only
    have h := programWord_placeSide (fieldWord v) n w s
    split
    · exact h.trans (programWords_placeSide n l (w + 1) _)
    · exact h

theorem writeEntryWords_placeSide (n w : Nat) (k : Key) (a : Attrs) (t : Text) (s : State) :
    PlaceSide s (writeEntryWords n w k a t s).1 := by
  unfold writeEntryWords
  dsimp only
  have h := fun v => programWord_placeSide v n w s
  split
  · split
    · exact ((h _).trans (programWords_placeSide _ _ _ _)).trans (programMark_placeSide _ _ _)
    · exact (h _).trans (programWords_placeSide _ _ _ _)
  · exact h _

theorem setSector_placeSide (n : Nat) (st : SecState) (s : State) : PlaceSide s (setSector n st s) :=
  PlaceSide.same rfl

theorem modAccount_placeSide (n : Nat) (f : Account → Account) (s : State) : PlaceSide s (modAccount n f s) := by
  constructor <;> simp

theorem modComp_placeSide (f : Compaction → Compaction) (s : State) : PlaceSide s (modComp f s) :=
  PlaceSide.same rfl

theorem nameReserve_placeSide (s : State) : PlaceSide s (nameReserve s) := PlaceSide.same rfl

theorem zeroWord_placeSide (n w : Nat) (s : State) : PlaceSide s (zeroWord n w s).1 := by
  unfold zeroWord
  split
  · exact PlaceSide.refl s
  · exact programWord_placeSide _ n w s

theorem zeroWords_placeSide (n : Nat) : ∀ (l : List Nat) (s : State), PlaceSide s (zeroWords n l s).1
  | [], s => PlaceSide.refl s
  | w :: l, s => by
    unfold zeroWords
    dsimp only
    split
    · exact (zeroWord_placeSide n w s).trans (zeroWords_placeSide n l _)
    · exact zeroWord_placeSide n w s

theorem markBad_placeSide (n : Nat) (s : State) : PlaceSide s (markBad n s) := by
  unfold markBad
  dsimp only
  refine PlaceSide.after (nameReserve_placeSide _) (PlaceSide.ite ?_ ?_)
  · exact (programMark_placeSide _ _ s).trans (setSector_placeSide _ _ _)
  · exact ((programMark_placeSide _ _ s).trans (zeroWords_placeSide _ _ _)).trans (setSector_placeSide _ _ _)

theorem abandonCompaction_placeSide (s : State) : PlaceSide s (abandonCompaction s) :=
  PlaceSide.after (modComp_placeSide _ _) (modAccount_placeSide _ _ s)

theorem retireCopy_placeSide (l : Location) (s : State) : PlaceSide s (retireCopy l s).1 := by
  unfold retireCopy
  split
  · exact PlaceSide.refl s
  · dsimp only
    split
    · dsimp only
      exact ((programMark_placeSide _ _ s).trans (modAccount_placeSide _ _ _)).trans (modComp_placeSide _ _)
    · dsimp only
      exact ((programMark_placeSide _ _ s).trans (setSector_placeSide _ _ _)).trans (abandonCompaction_placeSide _)

theorem makeFull_placeSide (n : Nat) (s : State) : PlaceSide s (makeFull n s) :=
  (programMark_placeSide n markFull s).trans (setSector_placeSide _ _ _)

theorem tryActivate_placeSide (n : Nat) (s : State) : PlaceSide s (tryActivate n s).1 := by
  unfold tryActivate
  dsimp only
  have h := fun t w => PlaceSide.after (programWord_placeSide t n w { s with ctl := { s.ctl with highestSeq := s.ctl.highestSeq + 1 } })
    (PlaceSide.same (s := s) rfl)
  split
  · split
    · exact (((h _ _).trans (programMark_placeSide _ _ _)).trans (modAccount_placeSide _ _ _)).trans (setSector_placeSide _ _ _)
    · exact ((h _ _).trans (programMark_placeSide _ _ _)).trans (markBad_placeSide _ _)
  · exact (h _ _).trans (markBad_placeSide _ _)

theorem activateFrom_placeSide : ∀ (l : List Nat) (s : State), PlaceSide s (activateFrom l s).1
  | [], s => PlaceSide.refl s
  | n :: l, s => by
    unfold activateFrom
    split
    · exact activateFrom_placeSide l s
    · dsimp only
      split
      · exact tryActivate_placeSide n s
      · exact (tryActivate_placeSide n s).trans (activateFrom_placeSide l _)

theorem activate_placeSide (s : State) : PlaceSide s (activate s).1 := activateFrom_placeSide _ s

theorem appendEntry_placeSide (n : Nat) (k : Key) (a : Attrs) (t : Text) (s : State) : PlaceSide s (appendEntry n k a t s).1 :=
  (writeEntryWords_placeSide _ _ _ _ _ s).trans (modAccount_placeSide _ _ _)

theorem placeRetry_placeSide (k : Key) (a : Attrs) (t : Text) (s : State) : PlaceSide s (placeRetry k a t s).1 := by
  unfold placeRetry
  dsimp only
  split
  · exact activate_placeSide s
  · split
    · exact (activate_placeSide s).trans (appendEntry_placeSide _ _ _ _ _)
    · exact ((activate_placeSide s).trans (appendEntry_placeSide _ _ _ _ _)).trans (makeFull_placeSide _ _)

theorem placeIn_placeSide (n : Nat) (k : Key) (a : Attrs) (t : Text) (s : State) : PlaceSide s (placeIn n k a t s).1 := by
  unfold placeIn
  dsimp only
  split
  · exact appendEntry_placeSide _ _ _ _ s
  · exact ((appendEntry_placeSide _ _ _ _ s).trans (makeFull_placeSide _ _)).trans (placeRetry_placeSide _ _ _ _)

theorem sectorFor_placeSide (n : Nat) (s : State) : PlaceSide s (sectorFor n s).1 := by
  unfold sectorFor
  split
  · split
    · exact PlaceSide.refl s
    · exact (makeFull_placeSide _ s).trans (activate_placeSide _)
  · exact activate_placeSide s

theorem placeEntry_placeSide (k : Key) (a : Attrs) (t : Text) (s : State) : PlaceSide s (placeEntry k a t s).1 := by
  unfold placeEntry
  dsimp only
  split
  · exact (sectorFor_placeSide _ s).trans (placeIn_placeSide _ _ _ _ _)
  · exact sectorFor_placeSide _ s

theorem programRetired_placeSide (l : Location) (s : State) : PlaceSide s (programRetired l s).1 := programMark_placeSide _ _ s

theorem accountRetired_placeSide (l : Location) (s : State) : PlaceSide s (accountRetired l s) := modAccount_placeSide _ _ s

theorem supersede_placeSide (l : Option Location) (s : State) : PlaceSide s (supersede l s).1 := by
  unfold supersede
  split
  · exact ((programRetired_placeSide _ s).trans (accountRetired_placeSide _ _)).trans (retireCopy_placeSide _ _)
  · exact PlaceSide.refl s

theorem writeRecord_placeSide (f : ConfigFields) (w : Nat) (s : State) : PlaceSide s (writeRecord f w s).1 := by
  unfold writeRecord
  dsimp only
  have h := programMark_placeSide Config.configSector (writingAt w) s
  split
  · split
    · exact (h.trans (programWords_placeSide _ _ _ _)).trans (programMark_placeSide _ _ _)
    · exact h.trans (programWords_placeSide _ _ _ _)
  · exact h

theorem pulseSector_placeSide (n : Nat) (s : State) : PlaceSide s (pulseSector n s) :=
  PlaceSide.same rfl

theorem programMarks_placeSide (n : Nat) : ∀ (l : List Mark) (s : State), PlaceSide s (programMarks n l s).1
  | [], s => PlaceSide.refl s
  | m :: l, s => by
    unfold programMarks
    dsimp only
    split
    · exact (programMark_placeSide n m s).trans (programMarks_placeSide n l _)
    · exact programMark_placeSide n m s

theorem formatSector_placeSide (n : Nat) (s : State) : PlaceSide s (formatSector n s).1 := by
  unfold formatSector
  dsimp only
  split
  · exact (programMarks_placeSide _ _ s).trans (programWord_placeSide _ _ _ _)
  · exact programMarks_placeSide _ _ s

end Sys2Proof.Machine
end

