-- ==== Sys2Proof/Laws/Programming.lean ====
section
/-! SUPPORT. What programming does to the store (R71): no word but the one named changes, the canonical form is kept, and a
success leaves the word at its target. -/

namespace Sys2Proof.Machine

/-! ## One write of the memory -/

theorem Memory.read_insert_ne (a x : Nat) (w : StoreWord) (h : x ≠ a) : ∀ m : Memory, (m.insert a w).read x = m.read x
  | [] => by unfold Memory.insert; split <;> simp [Memory.read, Ne.symm h]
  | (b, v) :: m => by
    unfold Memory.insert
    have := Memory.read_insert_ne a x w h m
    split
    · split <;> simp [Memory.read, Ne.symm h]
    · split
      · subst_vars; split <;> simp [Memory.read, Ne.symm h]
      · simp [Memory.read, this]

theorem Memory.read_write_ne (a x : Nat) (w : StoreWord) (h : x ≠ a) (m : Memory) : (m.write a w).read x = m.read x := by
  unfold Memory.write; split
  · exact Memory.read_insert_ne a x w h m
  · rfl

/-! ## Words outside the one programmed -/

theorem pulseWord_frame (t : StoreWord) (n w : Nat) (s : State) (x : Nat) (h : x ≠ addrOf n w) :
    (pulseWord t n w s).1.store.read x = s.store.read x := Memory.read_write_ne _ _ _ h _

theorem programWord_frame (t : StoreWord) (n w : Nat) (s : State) (x : Nat) (h : x ≠ addrOf n w) :
    (programWord t n w s).1.store.read x = s.store.read x := by
  unfold programWord; dsimp only
  split
  · exact pulseWord_frame _ _ _ _ _ h
  · dsimp only; rw [noteFault_store]; exact pulseWord_frame _ _ _ _ _ h

theorem programMark_frame (n : Nat) (m : Mark) (s : State) (x : Nat) (h : x ≠ addrOf n m.word) :
    (programMark n m s).1.store.read x = s.store.read x := by
  unfold programMark; dsimp only
  split
  · exact pulseWord_frame _ _ _ _ _ h
  · dsimp only; rw [noteFault_store]; exact pulseWord_frame _ _ _ _ _ h
  · split <;> (dsimp only; rw [noteFault_store]; exact pulseWord_frame _ _ _ _ _ h)

theorem retireCopy_frame (l : Location) (s : State) (x : Nat)
    (h : ∀ w, copyOf s.ctl.comp l = some w → x ≠ addrOf s.ctl.comp.target w) :
    (retireCopy l s).1.store.read x = s.store.read x := by
  unfold retireCopy
  split
  · rfl
  · rename_i w hw
    dsimp only
    have := programMark_frame s.ctl.comp.target (retiredAt w) s x (h w hw)
    split
    · rw [modComp_store, modAccount_store]; exact this
    · unfold abandonCompaction; rw [modComp_store, modAccount_store]; exact this

/-- Compaction abandons exactly when RETIRED will not take on the copy of a retired entry (R107). -/
theorem retireCopy_abandons (l : Location) (s : State) : (retireCopy l s).2 = true ↔
    ∃ w, copyOf s.ctl.comp l = some w ∧ (programMark s.ctl.comp.target (retiredAt w) s).2 = false := by
  unfold retireCopy
  cases copyOf s.ctl.comp l with
  | none => simp
  | some w => cases h : (programMark s.ctl.comp.target (retiredAt w) s).2 <;> simp [h]

/-- What that abandonment leaves: the target next to be erased, and out of the sectors that take entries (R110; log 93). -/
theorem retireCopy_abandoned (l : Location) (s : State) (h : (retireCopy l s).2 = true) :
    (retireCopy l s).1.ctl.comp = { s.ctl.comp.startErase s.ctl.comp.target with copies := [], failed := none } ∧
      (retireCopy l s).1.ctl.sectors = s.ctl.sectors.set s.ctl.comp.target .copyTarget := by
  obtain ⟨w, hw, hp⟩ := (retireCopy_abandons l s).1 h
  have g := programMark_wordSide s.ctl.comp.target (retiredAt w) s
  unfold retireCopy
  simp [hw, hp, abandonCompaction, setSector, modComp, modAccount, g.comp, g.sectors]

/-- A supersession touches the old entry's header and that of its copy alone (R99, R107). -/
theorem supersede_frame (old : Option Location) (s : State) (x : Nat) (h : headersTouched old s x = false) :
    (supersede old s).1.store.read x = s.store.read x := by
  unfold supersede
  cases old with
  | none => rfl
  | some l =>
    dsimp only
    simp [headersTouched] at h
    have e : (accountRetired l (programRetired l s).1).ctl.comp = s.ctl.comp := by
      unfold accountRetired; rw [modAccount_ctl]; exact (programMark_wordSide l.sector (retiredAt l.word) s).comp
    rw [retireCopy_frame]
    · unfold accountRetired; rw [modAccount_store]
      exact programMark_frame l.sector (retiredAt l.word) s x h.1
    · intro w hw
      rw [e] at hw ⊢
      rw [hw] at h
      simpa using h.2

/-! ## A success -/

theorem pulseLoop_matched (t : StoreWord) : ∀ (n : Nat) (l : List StoreWord) (w : StoreWord),
    (pulseLoop t n l w).2 = .matched → (pulseLoop t n l w).1 = t
  | 0, l, w, h => by simp [pulseLoop] at h
  | n + 1, l, w, h => by
    unfold pulseLoop at h ⊢
    dsimp only at h ⊢
    split
    · assumption
    · rename_i h1; rw [if_neg h1] at h
      split
      · rename_i h2; rw [if_pos h2] at h; simp at h
      · rename_i h2; rw [if_neg h2] at h; exact pulseLoop_matched t n _ _ h

theorem programWord_reads (t : StoreWord) (n w : Nat) (s : State) (g : StoreGood s) (ha : addrOf n w < Config.storeWords)
    (h : (programWord t n w s).2 = true) : wordAt (programWord t n w s).1 n w = t := by
  unfold programWord at h ⊢; dsimp only at h ⊢
  split
  · rename_i h1
    unfold pulseWord at h1 ⊢; dsimp only at h1 ⊢
    unfold wordAt; dsimp only
    rw [Memory.read_write _ _ _ g ha, if_pos rfl]
    exact pulseLoop_matched _ _ _ _ h1
  · rename_i h1; split at h
    · contradiction
    · simp at h

/-- A mark that has taken: its three copies programmed, or it reads set. -/
theorem programMark_reads (n : Nat) (m : Mark) (s : State) (g : StoreGood s) (ha : addrOf n m.word < Config.storeWords)
    (h : (programMark n m s).2 = true) :
    (wordAt (programMark n m s).1 n m.word).bits = (wordAt s n m.word).bits &&& ~~~ markMask m.hi ∨
      readsMark (programMark n m s).1 n m = true := by
  unfold programMark at h ⊢; dsimp only at h ⊢
  split
  · rename_i h1
    left
    unfold pulseWord at h1 ⊢; dsimp only at h1 ⊢
    unfold wordAt; dsimp only
    rw [Memory.read_write _ _ _ g ha, if_pos rfl]
    exact congrArg StoreWord.bits (pulseLoop_matched _ _ _ _ h1)
  · rename_i h1; split at h <;> simp_all
  · rename_i h1
    split at h
    · simp_all
    · simp_all
    · split at h
      · rename_i h2
        right
        rw [if_pos h2]; unfold readsMark wordAt; rw [noteFault_store]; exact h2
      · simp at h

/-- Clearing the copies of a mark sets it (R63). -/
theorem markSet_cleared (v : BitVec 32) {hi : Nat} (h2 : 2 ≤ hi) (h : hi < 32) : markSet (v &&& ~~~ markMask hi) hi = true := by
  have hb : ∀ i, i ≤ 2 → (v &&& ~~~ markMask hi).getLsbD (hi - i) = false := by
    intro i hi2
    have h3 : (7#32).getLsbD (hi - i - (hi - 2)) = true := by
      have : hi - i - (hi - 2) = 2 - i := by omega
      rw [this]
      match i, hi2 with
      | 0, _ => decide
      | 1, _ => decide
      | 2, _ => decide
    rw [BitVec.getLsbD_and, BitVec.getLsbD_not, markMask, BitVec.getLsbD_shiftLeft, h3]
    have : ¬ hi - i < hi - 2 := by omega
    simp [this]
  have h0 : (v &&& ~~~ markMask hi).getLsbD hi = false := hb 0 (by decide)
  have h1 : (v &&& ~~~ markMask hi).getLsbD (hi - 1) = false := hb 1 (by decide)
  have h2' : (v &&& ~~~ markMask hi).getLsbD (hi - 2) = false := hb 2 (by decide)
  unfold markSet copiesSet
  rw [h0, h1, h2']
  decide

/-- A mark that has taken reads set (R63, R73). -/
theorem programMark_readsMark (n : Nat) (m : Mark) (s : State) (g : StoreGood s) (ha : addrOf n m.word < Config.storeWords)
    (h2 : 2 ≤ m.hi) (h : m.hi < 32) (ht : (programMark n m s).2 = true) : readsMark (programMark n m s).1 n m = true := by
  rcases programMark_reads n m s g ha ht with hr | hr
  · unfold readsMark; rw [hr]; exact markSet_cleared _ h2 h
  · exact hr

end Sys2Proof.Machine
end

