-- ==== Sys2Proof/Laws/StoreSide.lean ====
section
/-! SUPPORT. The operations of the store controller leave every other block but the cache as it was. -/

namespace Sys2Proof.Machine

/-- The parts that `StoreSide` says stay. -/
def State.besideStore (s : State) :
    Straps × StartState × Settings × PortState × List Byte × Clock × Scanner × Buttons × Journal × Translator × Composer × Record × Link × Pen × Screen × List Instr :=
  (s.straps, s.start, s.settings, s.port, s.portOut, s.clock, s.scanner, s.buttons, s.journal, s.trans, s.composer, s.record, s.link, s.pen, s.screen.butDirty, s.pending)

theorem StoreSide.same {s t : State} (h : t.besideStore = s.besideStore) : StoreSide s t := by
  simp only [State.besideStore, Prod.mk.injEq] at h
  obtain ⟨h0, h1, h2, h3, h4, h5, h6, h7, h8, h9, h10, h11, h12, h13, h14, h15⟩ := h
  constructor <;> assumption

theorem StoreSide.eqs {s t : State} (h : StoreSide s t) : t.besideStore = s.besideStore := by
  obtain ⟨h0, h1, h2, h3, h4, h5, h6, h7, h8, h9, h10, h11, h12, h13, h14, h15⟩ := h
  simp only [State.besideStore, h0, h1, h2, h3, h4, h5, h6, h7, h8, h9, h10, h11, h12, h13, h14, h15]

theorem StoreSide.refl (s : State) : StoreSide s s := StoreSide.same rfl

theorem StoreSide.trans {s t u : State} (a : StoreSide s t) (b : StoreSide t u) : StoreSide s u := StoreSide.same (b.eqs.trans a.eqs)

theorem StoreSide.after {s t u : State} (b : StoreSide t u) (a : StoreSide s t) : StoreSide s u := a.trans b

theorem StoreSide.next {s t u : State} (a : StoreSide s t) (h : u.besideStore = t.besideStore) : StoreSide s u := a.trans (StoreSide.same h)

theorem StoreSide.ite {c : Prop} [Decidable c] {s a b : State} (ha : StoreSide s a) (hb : StoreSide s b) : StoreSide s (if c then a else b) := by
  split <;> assumption

theorem StoreSide.foldl {α : Type} (f : State → α → State) (h : ∀ s a, StoreSide s (f s a)) : ∀ (l : List α) (s : State), StoreSide s (l.foldl f s)
  | [], s => StoreSide.refl s
  | a :: l, s => (h s a).trans (StoreSide.foldl f h l _)

theorem raise_storeSide (c : Cause) (s : State) : StoreSide s (raise c s) := StoreSide.same rfl

theorem raiseIf_storeSide (b : Bool) (c : Cause) (s : State) : StoreSide s (raiseIf b c s) := by
  cases b
  · exact StoreSide.refl s
  · exact raise_storeSide c s

theorem noteFault_storeSide (k : FaultKind) (n w : Nat) (s : State) : StoreSide s (noteFault k n w s) :=
  StoreSide.after (raiseIf_storeSide _ _ _) (StoreSide.same rfl)

theorem refreshScreen_storeSide (s : State) : StoreSide s (refreshScreen s) := by
  obtain ⟨d, h⟩ := refreshScreen_eq s
  rw [h]; exact StoreSide.same rfl

theorem readWord_storeSide (ok : BitVec 32 → Bool) (n w : Nat) (s : State) : StoreSide s (readWord ok n w s).1 := by
  unfold readWord
  dsimp only
  split
  · exact StoreSide.refl s
  · dsimp only; exact noteFault_storeSide _ _ _ s
  · dsimp only; exact noteFault_storeSide _ _ _ s

theorem readWords_storeSide (ok : BitVec 32 → Bool) (n : Nat) : ∀ (c w : Nat) (s : State), StoreSide s (readWords ok n c w s).1
  | 0, _, s => StoreSide.refl s
  | c + 1, w, s => by
    unfold readWords
    dsimp only
    split
    · exact readWord_storeSide ok n w s
    · exact (readWord_storeSide ok n w s).trans (readWords_storeSide ok n c (w + 1) _)

theorem readEntryAt_storeSide (n w : Nat) (s : State) : StoreSide s (readEntryAt n w s).1 := by
  unfold readEntryAt
  dsimp only
  have h := readWord_storeSide (headerFits w) n w s
  split
  · have c := fun m => h.trans (readWords_storeSide chordValueOk n m (w + 1) _)
    split
    · split <;> exact (c _).trans (readWords_storeSide _ _ _ _ _)
    · exact c _
  · exact h

theorem pulseWord_storeSide (t : StoreWord) (n w : Nat) (s : State) : StoreSide s (pulseWord t n w s).1 :=
  StoreSide.same rfl

theorem programWord_storeSide (t : StoreWord) (n w : Nat) (s : State) : StoreSide s (programWord t n w s).1 := by
  unfold programWord
  dsimp only
  split
  · exact pulseWord_storeSide t n w s
  · dsimp only
    exact (pulseWord_storeSide t n w s).trans (noteFault_storeSide _ _ _ _)

theorem programMark_storeSide (n : Nat) (m : Mark) (s : State) : StoreSide s (programMark n m s).1 := by
  unfold programMark
  dsimp only
  have h := fun t => pulseWord_storeSide t n m.word s
  split
  · exact h _
  · dsimp only
    exact (h _).trans (noteFault_storeSide _ _ _ _)
  · split <;> dsimp only <;> exact (h _).trans (noteFault_storeSide _ _ _ _)

theorem programWords_storeSide (n : Nat) : ∀ (l : List (BitVec 32)) (w : Nat) (s : State), StoreSide s (programWords n w l s).1
  | [], _, s => StoreSide.refl s
  | v :: l, w, s => by
    unfold programWords
    dsimp only
    have h := programWord_storeSide (fieldWord v) n w s
    split
    · exact h.trans (programWords_storeSide n l (w + 1) _)
    · exact h

theorem writeEntryWords_storeSide (n w : Nat) (k : Key) (a : Attrs) (t : Text) (s : State) :
    StoreSide s (writeEntryWords n w k a t s).1 := by
  unfold writeEntryWords
  dsimp only
  have h := fun v => programWord_storeSide v n w s
  split
  · split
    · exact ((h _).trans (programWords_storeSide _ _ _ _)).trans (programMark_storeSide _ _ _)
    · exact (h _).trans (programWords_storeSide _ _ _ _)
  · exact h _

theorem setDirectory_storeSide (d : List DirRecord) (s : State) : StoreSide s (setDirectory d s) :=
  StoreSide.same rfl

theorem setSector_storeSide (n : Nat) (st : SecState) (s : State) : StoreSide s (setSector n st s) :=
  StoreSide.same rfl

theorem modAccount_storeSide (n : Nat) (f : Account → Account) (s : State) : StoreSide s (modAccount n f s) :=
  ⟨modAccount_straps n f s, modAccount_start n f s, modAccount_settings n f s, modAccount_port n f s, modAccount_portOut n f s, modAccount_clock n f s,
    modAccount_scanner n f s, modAccount_buttons n f s, modAccount_journal n f s, modAccount_trans n f s, modAccount_composer n f s, modAccount_record n f s,
    modAccount_link n f s, modAccount_pen n f s, by rw [modAccount_screen], modAccount_pending n f s⟩

theorem modComp_storeSide (f : Compaction → Compaction) (s : State) : StoreSide s (modComp f s) :=
  StoreSide.same rfl

theorem nameReserve_storeSide (s : State) : StoreSide s (nameReserve s) := StoreSide.same rfl

theorem zeroWord_storeSide (n w : Nat) (s : State) : StoreSide s (zeroWord n w s).1 := by
  unfold zeroWord
  split
  · exact StoreSide.refl s
  · exact programWord_storeSide _ n w s

theorem zeroWords_storeSide (n : Nat) : ∀ (l : List Nat) (s : State), StoreSide s (zeroWords n l s).1
  | [], s => StoreSide.refl s
  | w :: l, s => by
    unfold zeroWords
    dsimp only
    split
    · exact (zeroWord_storeSide n w s).trans (zeroWords_storeSide n l _)
    · exact zeroWord_storeSide n w s

theorem markBad_storeSide (n : Nat) (s : State) : StoreSide s (markBad n s) := by
  unfold markBad
  dsimp only
  refine StoreSide.after (nameReserve_storeSide _) (StoreSide.ite ?_ ?_)
  · exact (programMark_storeSide _ _ s).trans (setSector_storeSide _ _ _)
  · exact ((programMark_storeSide _ _ s).trans (zeroWords_storeSide _ _ _)).trans (setSector_storeSide _ _ _)

theorem offerRepair_storeSide (l : Location) (s : State) : StoreSide s (offerRepair l s) := by
  unfold offerRepair
  exact StoreSide.ite (StoreSide.refl s) (StoreSide.same rfl)

theorem offerRepairIf_storeSide (b : Bool) (l : Location) (s : State) : StoreSide s (offerRepairIf b l s) := by
  cases b
  · exact StoreSide.refl s
  · exact offerRepair_storeSide l s

theorem readLive_storeSide (l : Location) (s : State) : StoreSide s (readLive l s).1 :=
  (readEntryAt_storeSide _ _ s).trans (offerRepairIf_storeSide _ _ _)

theorem snoop_storeSide (k : Key) (s : State) : StoreSide s (snoop k s) :=
  StoreSide.same rfl

theorem loseKey_storeSide (k : Key) (s : State) : StoreSide s (loseKey k s) :=
  StoreSide.after (snoop_storeSide _ _) (setDirectory_storeSide _ s)

theorem probeSlot_storeSide (n slot c : Nat) (s : State) : StoreSide s (probeSlot n slot c s).1 := by
  unfold probeSlot
  dsimp only
  have h := readWord_storeSide slotValueOk n (Config.sectorWords - 1 - slot) s
  split
  · split
    · exact (h.trans (readWord_storeSide _ _ _ _)).trans (readWords_storeSide _ _ _ _ _)
    · exact (h.trans (readWord_storeSide _ _ _ _)).trans (readWords_storeSide _ _ _ _ _)
  · exact h

theorem searchSlots_storeSide (n : Nat) (k : Key) : ∀ (f lo hi : Nat) (m : Met) (s : State),
    StoreSide s (searchSlots n k f lo hi m s).1
  | 0, _, _, _, s => StoreSide.refl s
  | f + 1, lo, hi, m, s => by
    unfold searchSlots
    split
    · exact StoreSide.refl s
    · dsimp only
      have h := probeSlot_storeSide n ((lo + hi - 1) / 2) k.length s
      split
      · exact h
      · split
        · exact h
        · split
          · exact h.trans (searchSlots_storeSide n k f _ _ _ _)
          · exact h.trans (searchSlots_storeSide n k f _ _ _ _)

theorem nextExtends_storeSide (t : List KeyRow) (r : KeyRow) (slot : Nat) (k : Key) (s : State) :
    StoreSide s (nextExtends t r slot k s).1 := by
  unfold nextExtends
  dsimp only
  split
  · split <;> exact probeSlot_storeSide _ _ _ s
  · exact StoreSide.refl s

theorem baseSearch_storeSide (k : Key) (s : State) : StoreSide s (baseSearch k s).1 := by
  unfold baseSearch
  dsimp only
  split
  · exact StoreSide.refl s
  · have h := fun n f lo hi g => searchSlots_storeSide n k f lo hi g s
    split
    · exact h _ _ _ _ _
    · exact (h _ _ _ _ _).trans (nextExtends_storeSide _ _ _ _ _)
    · exact (h _ _ _ _ _).trans (nextExtends_storeSide _ _ _ _ _)

theorem sessionResult_storeSide (l : Location) (e : Bool) (m : Met) (s : State) : StoreSide s (sessionResult l e m s).1 := by
  unfold sessionResult
  dsimp only
  split <;> exact readLive_storeSide l s

theorem readText_storeSide (l : Location) (s : State) : StoreSide s (readText l s).1 := readWords_storeSide _ _ _ _ s

theorem baseResult_storeSide (l : Option Location) (e : Bool) (m : Met) (s : State) : StoreSide s (baseResult l e m s).1 := by
  unfold baseResult
  split
  · exact StoreSide.refl s
  · split
    · exact StoreSide.refl s
    · dsimp only
      split <;> exact readText_storeSide _ s

theorem resultOf_storeSide (k : Key) (s : State) : StoreSide s (resultOf k s).1 := by
  unfold resultOf
  dsimp only
  split
  · exact (baseSearch_storeSide k s).trans (sessionResult_storeSide _ _ _ _)
  · exact (baseSearch_storeSide k s).trans (baseResult_storeSide _ _ _ _)

theorem abandonCompaction_storeSide (s : State) : StoreSide s (abandonCompaction s) :=
  StoreSide.after (modComp_storeSide _ _) (modAccount_storeSide _ _ s)

theorem compactionIdle_storeSide (s : State) : StoreSide s (compactionIdle s) := StoreSide.same rfl

theorem retireCopy_storeSide (l : Location) (s : State) : StoreSide s (retireCopy l s).1 := by
  unfold retireCopy
  split
  · exact StoreSide.refl s
  · dsimp only
    split
    · dsimp only
      exact ((programMark_storeSide _ _ s).trans (modAccount_storeSide _ _ _)).trans (modComp_storeSide _ _)
    · dsimp only
      exact ((programMark_storeSide _ _ s).trans (setSector_storeSide _ _ _)).trans (abandonCompaction_storeSide _)

theorem makeFull_storeSide (n : Nat) (s : State) : StoreSide s (makeFull n s) :=
  (programMark_storeSide n markFull s).trans (setSector_storeSide _ _ _)

theorem tryActivate_storeSide (n : Nat) (s : State) : StoreSide s (tryActivate n s).1 := by
  unfold tryActivate
  dsimp only
  have h := fun t w => StoreSide.after (programWord_storeSide t n w { s with ctl := { s.ctl with highestSeq := s.ctl.highestSeq + 1 } })
    (StoreSide.same (s := s) rfl)
  split
  · split
    · exact (((h _ _).trans (programMark_storeSide _ _ _)).trans (modAccount_storeSide _ _ _)).trans (setSector_storeSide _ _ _)
    · exact ((h _ _).trans (programMark_storeSide _ _ _)).trans (markBad_storeSide _ _)
  · exact (h _ _).trans (markBad_storeSide _ _)

theorem activateFrom_storeSide : ∀ (l : List Nat) (s : State), StoreSide s (activateFrom l s).1
  | [], s => StoreSide.refl s
  | n :: l, s => by
    unfold activateFrom
    split
    · exact activateFrom_storeSide l s
    · dsimp only
      split
      · exact tryActivate_storeSide n s
      · exact (tryActivate_storeSide n s).trans (activateFrom_storeSide l _)

theorem activate_storeSide (s : State) : StoreSide s (activate s).1 := activateFrom_storeSide _ s

theorem appendEntry_storeSide (n : Nat) (k : Key) (a : Attrs) (t : Text) (s : State) : StoreSide s (appendEntry n k a t s).1 :=
  (writeEntryWords_storeSide _ _ _ _ _ s).trans (modAccount_storeSide _ _ _)

theorem placeRetry_storeSide (k : Key) (a : Attrs) (t : Text) (s : State) : StoreSide s (placeRetry k a t s).1 := by
  unfold placeRetry
  dsimp only
  split
  · exact activate_storeSide s
  · split
    · exact (activate_storeSide s).trans (appendEntry_storeSide _ _ _ _ _)
    · exact ((activate_storeSide s).trans (appendEntry_storeSide _ _ _ _ _)).trans (makeFull_storeSide _ _)

theorem placeIn_storeSide (n : Nat) (k : Key) (a : Attrs) (t : Text) (s : State) : StoreSide s (placeIn n k a t s).1 := by
  unfold placeIn
  dsimp only
  split
  · exact appendEntry_storeSide _ _ _ _ s
  · exact ((appendEntry_storeSide _ _ _ _ s).trans (makeFull_storeSide _ _)).trans (placeRetry_storeSide _ _ _ _)

theorem sectorFor_storeSide (n : Nat) (s : State) : StoreSide s (sectorFor n s).1 := by
  unfold sectorFor
  split
  · split
    · exact StoreSide.refl s
    · exact (makeFull_storeSide _ s).trans (activate_storeSide _)
  · exact activate_storeSide s

theorem placeEntry_storeSide (k : Key) (a : Attrs) (t : Text) (s : State) : StoreSide s (placeEntry k a t s).1 := by
  unfold placeEntry
  dsimp only
  split
  · exact (sectorFor_storeSide _ s).trans (placeIn_storeSide _ _ _ _ _)
  · exact sectorFor_storeSide _ s

theorem programRetired_storeSide (l : Location) (s : State) : StoreSide s (programRetired l s).1 := programMark_storeSide _ _ s

theorem accountRetired_storeSide (l : Location) (s : State) : StoreSide s (accountRetired l s) := modAccount_storeSide _ _ s

theorem supersede_storeSide (l : Option Location) (s : State) : StoreSide s (supersede l s).1 := by
  unfold supersede
  split
  · exact ((programRetired_storeSide _ s).trans (accountRetired_storeSide _ _)).trans (retireCopy_storeSide _ _)
  · exact StoreSide.refl s

theorem loseSector_storeSide (n : Nat) (s : State) : StoreSide s (loseSector n s) :=
  StoreSide.foldl _ (fun t k => loseKey_storeSide k t) _ s

theorem loseWithTarget_storeSide (b : Bool) (s : State) : StoreSide s (loseWithTarget b s) :=
  StoreSide.ite (loseSector_storeSide _ s) (StoreSide.refl s)

theorem makeEffective_storeSide (k : Key) (l : Location) (s : State) : StoreSide s (makeEffective k l s) := by
  unfold makeEffective
  dsimp only
  exact (((supersede_storeSide _ s).trans (setDirectory_storeSide _ _)).trans (snoop_storeSide _ _)).trans (loseWithTarget_storeSide _ _)

theorem rewriteEntry_storeSide (l : Location) (s : State) : StoreSide s (rewriteEntry l s) := by
  unfold rewriteEntry
  dsimp only
  have h := readEntryAt_storeSide l.sector l.word s
  split
  · split
    · exact (h.trans (placeEntry_storeSide _ _ _ _)).trans (makeEffective_storeSide _ _ _)
    · exact h.trans (placeEntry_storeSide _ _ _ _)
  · exact h

theorem serveRepair_storeSide (s : State) : StoreSide s (serveRepair s) := by
  unfold serveRepair
  split
  · refine StoreSide.ite ?_ (StoreSide.refl s)
    dsimp only
    exact StoreSide.ite (StoreSide.after (rewriteEntry_storeSide _ _) (StoreSide.same rfl))
      (StoreSide.same rfl)
  · exact StoreSide.refl s

theorem chooseTarget_storeSide (v r : Nat) (s : State) : StoreSide s (chooseTarget v r s) := by
  unfold chooseTarget
  dsimp only
  have h := fun m => StoreSide.after (programMark_storeSide r m { s with ctl := { s.ctl with reserve := none } })
    (StoreSide.same (s := s) rfl)
  refine StoreSide.ite ?_ (((h _).trans (markBad_storeSide _ _)).trans (compactionIdle_storeSide _))
  exact ((((h _).trans (setSector_storeSide _ _ _)).trans (modAccount_storeSide _ _ _)).trans (modComp_storeSide _ _)).trans
    (nameReserve_storeSide _)

theorem compactSelect_storeSide (s : State) : StoreSide s (compactSelect s) := by
  unfold compactSelect
  refine StoreSide.ite ?_ (StoreSide.refl s)
  split
  · exact StoreSide.ite (modComp_storeSide _ s) (chooseTarget_storeSide _ _ s)
  · exact StoreSide.refl s

theorem loseEntry_storeSide (l : Location) (s : State) : StoreSide s (loseEntry l s) := by
  unfold loseEntry
  split
  · exact ((programRetired_storeSide _ s).trans (accountRetired_storeSide _ _)).trans (loseKey_storeSide _ _)
  · exact StoreSide.refl s

theorem writeCopy_storeSide (k : Key) (a : Attrs) (t : Text) (s : State) : StoreSide s (writeCopy k a t s).1 := by
  unfold writeCopy
  dsimp only
  exact
  ((writeEntryWords_storeSide _ _ _ _ _ s).trans (modAccount_storeSide _ _ _)).trans (modComp_storeSide _ _)

theorem copyFailed_storeSide (w : Nat) (s : State) : StoreSide s (copyFailed w s) :=
  StoreSide.ite (abandonCompaction_storeSide s) (modComp_storeSide _ s)

theorem tryCopy_storeSide (w : Nat) (k : Key) (a : Attrs) (t : Text) (s : State) : StoreSide s (tryCopy w k a t s) := by
  unfold tryCopy
  dsimp only
  exact StoreSide.ite (StoreSide.ite ((writeCopy_storeSide _ _ _ s).trans (modComp_storeSide _ _))
    ((writeCopy_storeSide _ _ _ s).trans (copyFailed_storeSide w _))) (abandonCompaction_storeSide s)

theorem copyEntry_storeSide (w : Nat) (s : State) : StoreSide s (copyEntry w s) := by
  unfold copyEntry
  dsimp only
  have h := readLive_storeSide { sector := s.ctl.comp.victim, word := w } s
  split
  · exact h.trans (tryCopy_storeSide _ _ _ _ _)
  · exact (h.trans (loseEntry_storeSide _ _)).trans (modComp_storeSide _ _)

theorem sealIfDone_storeSide (s : State) : StoreSide s (sealIfDone s) := by
  unfold sealIfDone
  exact StoreSide.ite (modComp_storeSide _ s) (StoreSide.refl s)

theorem compactCopy_storeSide (s : State) : StoreSide s (compactCopy s) := by
  unfold compactCopy
  refine StoreSide.ite ?_ (StoreSide.refl s)
  split
  · exact (copyEntry_storeSide _ s).trans (sealIfDone_storeSide _)
  · exact sealIfDone_storeSide s

theorem moveCopies_storeSide : ∀ (l : List (Nat × Nat)) (s : State), StoreSide s (moveCopies l s)
  | [], s => StoreSide.refl s
  | (v, w) :: l, s => by
    unfold moveCopies
    refine StoreSide.after (moveCopies_storeSide l _) ?_
    split
    · exact setDirectory_storeSide _ s
    · exact StoreSide.refl s

theorem sealNext_storeSide (st : SealStep) (s : State) : StoreSide s (sealNext st s) := modComp_storeSide _ s

theorem sealWent_storeSide {s : State} (r : State × Bool) (st : SealStep) (h : StoreSide s r.1) : StoreSide s (sealWent r st) := by
  unfold sealWent
  exact StoreSide.ite (h.trans (sealNext_storeSide st _)) (h.trans (abandonCompaction_storeSide _))

theorem sealSeq_storeSide (s : State) : StoreSide s (sealSeq s) := by
  unfold sealSeq
  exact sealWent_storeSide _ _ (StoreSide.after (programWord_storeSide _ _ _ _) (StoreSide.same rfl))

theorem sealState_storeSide (s : State) : StoreSide s (sealState s) := sealWent_storeSide _ _ (programMark_storeSide _ _ s)

theorem sealSealed_storeSide (b : Bool) (s : State) : StoreSide s (sealSealed b s) := by
  unfold sealSealed
  dsimp only
  have h := programMark_storeSide s.ctl.comp.target markSealed s
  exact StoreSide.ite ((h.trans (setSector_storeSide _ _ _)).trans (sealNext_storeSide _ _)) (h.trans (abandonCompaction_storeSide _))

theorem sealDirectory_storeSide (s : State) : StoreSide s (sealDirectory s) := by
  unfold sealDirectory
  dsimp only
  exact StoreSide.after (modComp_storeSide _ _) (StoreSide.after (modAccount_storeSide _ _ _) (StoreSide.after (modAccount_storeSide _ _ _)
    (moveCopies_storeSide _ s)))

theorem compactSeal_storeSide (s : State) : StoreSide s (compactSeal s) := by
  unfold compactSeal
  refine StoreSide.ite ?_ (StoreSide.refl s)
  split
  · exact sealSeq_storeSide s
  · exact sealState_storeSide s
  · exact sealSealed_storeSide _ s
  · exact (makeFull_storeSide _ s).trans (sealNext_storeSide _ _)
  · exact sealDirectory_storeSide s

theorem compactRetireVictim_storeSide (s : State) : StoreSide s (compactRetireVictim s) := by
  unfold compactRetireVictim
  dsimp only
  exact StoreSide.ite (((programMark_storeSide _ _ s).trans (setSector_storeSide _ _ _)).trans (modComp_storeSide _ _)) (StoreSide.refl s)

theorem closeBase_storeSide (n : Nat) (s : State) : StoreSide s (closeBase n s) :=
  (programMark_storeSide n markClosed s).next rfl

theorem loadInto_storeSide (n f : Nat) (k : Key) (a : Attrs) (t : Text) (s : State) : StoreSide s (loadInto n f k a t s).1 := by
  unfold loadInto
  dsimp only
  have h := writeEntryWords_storeSide n f k a t s
  split
  · have q := fun v w => h.trans (programWord_storeSide v n w _)
    split
    · exact (q _ _).next rfl
    · exact (q _ _).trans (closeBase_storeSide _ _)
  · exact h.trans (closeBase_storeSide _ _)

theorem openBase_storeSide (n : Nat) (k : Key) (s : State) : StoreSide s (openBase n k s).1 := by
  unfold openBase
  dsimp only
  have h := fun l => programWords_storeSide n l 3 s
  split
  · split
    · exact ((h _).trans (programMark_storeSide _ _ _)).next rfl
    · exact ((h _).trans (programMark_storeSide _ _ _)).trans (markBad_storeSide _ _)
  · exact (h _).trans (markBad_storeSide _ _)

theorem loadFresh_storeSide (k : Key) (a : Attrs) (t : Text) : ∀ (n : Nat) (s : State), StoreSide s (loadFresh k a t n s).1
  | 0, s => StoreSide.refl s
  | n + 1, s => by
    unfold loadFresh
    split
    · exact StoreSide.refl s
    · dsimp only
      have h := fun m => openBase_storeSide m k s
      split
      · split
        · exact (h _).trans (loadInto_storeSide _ _ _ _ _ _)
        · exact ((h _).trans (loadInto_storeSide _ _ _ _ _ _)).trans (loadFresh_storeSide k a t n _)
      · exact (h _).trans (loadFresh_storeSide k a t n _)

theorem loadEntry_storeSide (k : Key) (a : Attrs) (t : Text) (s : State) : StoreSide s (loadEntry k a t s).1 := by
  unfold loadEntry
  split
  · split
    · dsimp only
      split
      · exact loadInto_storeSide _ _ _ _ _ s
      · exact (loadInto_storeSide _ _ _ _ _ s).trans (loadFresh_storeSide _ _ _ _ _)
    · exact (closeBase_storeSide _ s).trans (loadFresh_storeSide _ _ _ _ _)
  · exact loadFresh_storeSide _ _ _ _ s

theorem loadAnswer_storeSide (k : Key) (a : Attrs) (t : Text) (s : State) : StoreSide s (loadAnswer k a t s).1 := by
  unfold loadAnswer
  split
  · exact StoreSide.refl s
  · split
    · exact StoreSide.refl s
    · exact loadEntry_storeSide k a t s

theorem protectBase_storeSide (s : State) : StoreSide s (protectBase s).1 := by
  unfold protectBase
  split
  · exact StoreSide.refl s
  · split
    · exact StoreSide.same rfl
    · dsimp only
      have h := programMark_storeSide Config.configSector markProtectA s
      split
      · exact h.next rfl
      · split
        · exact (h.trans (programMark_storeSide _ _ _)).next rfl
        · exact h.trans (programMark_storeSide _ _ _)

theorem writeRecord_storeSide (f : ConfigFields) (w : Nat) (s : State) : StoreSide s (writeRecord f w s).1 := by
  unfold writeRecord
  dsimp only
  have h := programMark_storeSide Config.configSector (writingAt w) s
  split
  · split
    · exact (h.trans (programWords_storeSide _ _ _ _)).trans (programMark_storeSide _ _ _)
    · exact h.trans (programWords_storeSide _ _ _ _)
  · exact h

theorem appendRecord_storeSide (f : ConfigFields) : ∀ (n : Nat) (s : State), StoreSide s (appendRecord f n s).1
  | 0, s => StoreSide.refl s
  | n + 1, s => by
    unfold appendRecord
    dsimp only
    split
    · have h := (writeRecord_storeSide f s.ctl.configAppend s).next
        (u := { (writeRecord f s.ctl.configAppend s).1 with
          ctl := { (writeRecord f s.ctl.configAppend s).1.ctl with configAppend := s.ctl.configAppend + 4 } })
        rfl
      split
      · exact h
      · exact h.trans (appendRecord_storeSide f n _)
    · exact StoreSide.refl s

theorem writeConfig_storeSide (f : ConfigFields) (s : State) : StoreSide s (writeConfig f s).1 := by
  unfold writeConfig
  split
  · exact appendRecord_storeSide f 2 s
  · exact StoreSide.refl s

theorem setPhase_storeSide (o : EraseOwner) (p : ErasePhase) (s : State) : StoreSide s (setPhase o p s) := by
  cases o <;> exact StoreSide.same rfl

theorem baseCleared_storeSide (s : State) : StoreSide s (baseCleared s) := StoreSide.same rfl

theorem configFailed_storeSide (n : Nat) (s : State) : StoreSide s (configFailed n s) := by
  unfold configFailed
  split
  · exact StoreSide.ite (StoreSide.same rfl) (StoreSide.refl s)
  · exact StoreSide.refl s

theorem sectorLost_storeSide (n : Nat) (s : State) : StoreSide s (sectorLost n s) :=
  (markBad_storeSide n s).trans (noteFault_storeSide _ _ _ _)

theorem pulseSector_storeSide (n : Nat) (s : State) : StoreSide s (pulseSector n s) :=
  StoreSide.same rfl

theorem programMarks_storeSide (n : Nat) : ∀ (l : List Mark) (s : State), StoreSide s (programMarks n l s).1
  | [], s => StoreSide.refl s
  | m :: l, s => by
    unfold programMarks
    dsimp only
    split
    · exact (programMark_storeSide n m s).trans (programMarks_storeSide n l _)
    · exact programMark_storeSide n m s

theorem formatSector_storeSide (n : Nat) (s : State) : StoreSide s (formatSector n s).1 := by
  unfold formatSector
  dsimp only
  split
  · exact (programMarks_storeSide _ _ s).trans (programWord_storeSide _ _ _ _)
  · exact programMarks_storeSide _ _ s

theorem noteFormat_storeSide (n : Nat) (s : State) : StoreSide s (noteFormat n s) := by
  unfold noteFormat
  refine StoreSide.ite (StoreSide.refl s) ?_
  split
  · exact noteFault_storeSide _ _ _ s
  · exact noteFault_storeSide _ _ _ s
  · exact StoreSide.refl s

theorem readSeq_storeSide (n : Nat) (s : State) : StoreSide s (readSeq n s).1 := by
  unfold readSeq
  dsimp only
  split <;> exact readWord_storeSide _ _ _ s

theorem readHeader_storeSide (n : Nat) (s : State) : StoreSide s (readHeader n s).1 := by
  unfold readHeader
  dsimp only
  have h := (noteFormat_storeSide n s).trans (setSector_storeSide n (decodeSector s n) _)
  split
  · exact h.trans (readSeq_storeSide n _)
  · exact h

theorem readHeaders_storeSide : ∀ (l : List Nat) (s : State), StoreSide s (readHeaders l s).1
  | [], s => StoreSide.refl s
  | n :: l, s => (readHeader_storeSide n s).trans (readHeaders_storeSide l _)

theorem prezeroAll_storeSide (n : Nat) (s : State) : StoreSide s (prezeroAll n s).1 := by
  unfold prezeroAll
  split
  · exact StoreSide.refl s
  · exact zeroWords_storeSide n _ s

theorem pulseAll_storeSide (n : Nat) : ∀ (k : Nat) (s : State), StoreSide s (pulseAll n k s).1
  | 0, s => StoreSide.refl s
  | k + 1, s => by
    unfold pulseAll
    dsimp only
    split
    · exact pulseSector_storeSide n s
    · exact (pulseSector_storeSide n s).trans (pulseAll_storeSide n k _)

theorem eraseWhole_storeSide (n : Nat) (s : State) : StoreSide s (eraseWhole n s).1 := by
  unfold eraseWhole
  dsimp only
  have z := prezeroAll_storeSide n s
  have p : StoreSide s (if (prezeroAll n s).2 = true then pulseAll n Config.pulseLimit (prezeroAll n s).1
      else prezeroAll n s).1 := by
    split
    · exact z.trans (pulseAll_storeSide n _ _)
    · exact z
  generalize (if (prezeroAll n s).2 = true then pulseAll n Config.pulseLimit (prezeroAll n s).1 else prezeroAll n s) = q at p ⊢
  have f : StoreSide s (if q.2 = true then formatSector n q.1 else q).1 := by
    split
    · exact p.trans (formatSector_storeSide n _)
    · exact p
  generalize (if q.2 = true then formatSector n q.1 else q) = r at f ⊢
  split
  · exact f.trans (setSector_storeSide _ _ _)
  · exact f.trans (sectorLost_storeSide _ _)

theorem eraseEach_storeSide : ∀ (l : List Nat) (s : State), StoreSide s (eraseEach l s)
  | [], s => StoreSide.refl s
  | n :: l, s => (eraseWhole_storeSide n s).trans (eraseEach_storeSide l _)

theorem eraseBaseWhole_storeSide (b : Bool) (s : State) : StoreSide s (eraseBaseWhole b s) := by
  unfold eraseBaseWhole
  exact StoreSide.ite ((eraseEach_storeSide _ s).trans (programMark_storeSide _ _ _)) (eraseEach_storeSide _ s)

theorem recoverConfig_storeSide (s : State) : StoreSide s (recoverConfig s) := by
  unfold recoverConfig
  split
  · exact StoreSide.refl s
  · exact StoreSide.ite (eraseBaseWhole_storeSide _ s) (StoreSide.refl s)
  · exact (eraseWhole_storeSide _ s).trans (eraseBaseWhole_storeSide _ _)

theorem readConfig_storeSide (s : State) : StoreSide s (readConfig s) := by
  unfold readConfig
  refine StoreSide.ite ?_ (StoreSide.same rfl)
  dsimp only
  split
  · exact StoreSide.same rfl
  · next a _ =>
    have h := fun t => readWords_storeSide anyValueOk Config.configSector 3 (a + 1) t
    refine StoreSide.trans ?_ ((h _).next rfl)
    exact StoreSide.same rfl

theorem recoverBase_storeSide (s : State) : StoreSide s (recoverBase s) := by
  unfold recoverBase
  refine StoreSide.ite ?_ (eraseEach_storeSide _ s)
  exact StoreSide.foldl _ (fun t n => (setSector_storeSide _ _ t).trans (raise_storeSide _ _)) _ s

theorem retireInStore_storeSide (l : Location) (s : State) : StoreSide s (retireInStore l s) := programRetired_storeSide l s

theorem countDead_storeSide (n k : Nat) (s : State) : StoreSide s (countDead n k s) := modAccount_storeSide _ _ s

theorem retireEarlier_storeSide (k : Key) (s : State) : StoreSide s (retireEarlier k s) := by
  unfold retireEarlier
  split
  · exact (retireInStore_storeSide _ s).trans (accountRetired_storeSide _ _)
  · exact StoreSide.refl s

theorem scanLost_storeSide (k : Key) (l : Location) (n : Nat) (s : State) : StoreSide s (scanLost k l n s) := by
  unfold scanLost
  dsimp only
  have h := (retireInStore_storeSide l s).trans (countDead_storeSide l.sector n _)
  split
  · exact ((h.trans (retireEarlier_storeSide _ _)).trans (setDirectory_storeSide _ _)).trans (snoop_storeSide _ _)
  · exact h

theorem scanEnter_storeSide (k : Key) (l : Location) (n : Nat) (s : State) : StoreSide s (scanEnter k l n s) := by
  unfold scanEnter
  refine StoreSide.ite (((retireInStore_storeSide l s).trans (countDead_storeSide _ _ _)).trans (noteFault_storeSide _ _ _ _)) ?_
  dsimp only
  exact (((retireEarlier_storeSide k s).trans (setDirectory_storeSide _ _)).trans (snoop_storeSide _ _)).trans (modAccount_storeSide _ _ _)

theorem scanLive_storeSide (l : Location) (n : Nat) (s : State) : StoreSide s (scanLive l n s) := by
  unfold scanLive
  dsimp only
  have h := readLive_storeSide l s
  split
  · exact h.trans (scanEnter_storeSide _ _ _ _)
  · exact h.trans (scanLost_storeSide _ _ _ _)
  · exact (h.trans (retireInStore_storeSide _ _)).trans (countDead_storeSide _ _ _)

theorem walkBroken_storeSide (n w : Nat) (s : State) : StoreSide s (walkBroken n w s) := by
  unfold walkBroken
  dsimp only
  exact StoreSide.ite (((noteFault_storeSide _ n w s).trans (modAccount_storeSide _ _ _)).trans (makeFull_storeSide _ _))
    ((noteFault_storeSide _ n w s).trans (modAccount_storeSide _ _ _))

theorem walkSector_storeSide (n : Nat) : ∀ (f w : Nat) (s : State), StoreSide s (walkSector n f w s)
  | 0, _, s => modAccount_storeSide _ _ s
  | f + 1, w, s => by
    unfold walkSector
    dsimp only
    refine StoreSide.ite (modAccount_storeSide _ _ s) ?_
    split
    · exact walkBroken_storeSide n w s
    · refine StoreSide.ite (StoreSide.after (walkSector_storeSide n f _ _) (scanLive_storeSide _ _ s)) ?_
      refine StoreSide.after (walkSector_storeSide n f _ _) (StoreSide.after (countDead_storeSide _ _ _) ?_)
      exact StoreSide.ite (noteFault_storeSide _ _ _ s) (StoreSide.refl s)

theorem rebuildDirectory_storeSide (l : List (Nat × Nat)) (s : State) : StoreSide s (rebuildDirectory l s) := by
  unfold rebuildDirectory oneActive
  dsimp only
  refine StoreSide.trans (StoreSide.after (StoreSide.foldl (fun t n => walkSector n 2048 Config.bodyStart t)
    (fun t n => walkSector_storeSide n 2048 Config.bodyStart t) (walkOrder s.ctl l) _) (setDirectory_storeSide [] s)) ?_
  exact StoreSide.foldl _ (fun t n => makeFull_storeSide n t) _ _

theorem readFirstKey_storeSide (n : Nat) (s : State) : StoreSide s (readFirstKey n s).1 := by
  unfold readFirstKey
  dsimp only
  split
  · exact (readWord_storeSide _ _ _ s).trans (readWords_storeSide _ _ _ _ _)
  · exact readWord_storeSide _ _ _ s

theorem countSlots_storeSide (n : Nat) : ∀ (f c : Nat) (s : State), StoreSide s (countSlots n f c s).1
  | 0, _, s => StoreSide.refl s
  | f + 1, c, s => by
    unfold countSlots
    split
    · exact StoreSide.refl s
    · exact (readWord_storeSide _ _ _ s).trans (countSlots_storeSide n f _ _)

theorem listSector_storeSide (n : Nat) (s : State) : StoreSide s (listSector n s) := by
  unfold listSector
  dsimp only
  have h := readFirstKey_storeSide n s
  split
  · exact h.trans (raise_storeSide _ _)
  · exact StoreSide.ite ((h.trans (countSlots_storeSide n 4080 0 _)).next rfl) (h.trans (raise_storeSide _ _))

theorem buildKeyTable_storeSide (s : State) : StoreSide s (buildKeyTable s) :=
  StoreSide.after (StoreSide.foldl _ (fun t n => listSector_storeSide n t) _ _) (StoreSide.same rfl)

theorem closeStale_storeSide (s : State) : StoreSide s (closeStale s) := by
  unfold closeStale
  exact StoreSide.ite (StoreSide.refl s) (StoreSide.foldl _ (fun t n => closeBase_storeSide n t) _ s)

theorem fillPoint_storeSide (n b : Nat) : ∀ (f w : Nat) (s : State), StoreSide s (fillPoint n b f w s).1
  | 0, _, s => StoreSide.refl s
  | f + 1, w, s => by
    unfold fillPoint
    split
    · exact StoreSide.refl s
    · dsimp only
      split
      · exact (readWord_storeSide _ _ _ s).trans (fillPoint_storeSide n b f _ _)
      · exact readWord_storeSide _ _ _ s

theorem readLastKey_storeSide (r : KeyRow) (s : State) : StoreSide s (readLastKey r s).1 := by
  unfold readLastKey
  split
  · exact StoreSide.refl s
  · dsimp only
    split <;> exact probeSlot_storeSide _ _ _ s

theorem openLast_storeSide (r : KeyRow) (s : State) : StoreSide s (openLast r s) := by
  unfold openLast
  dsimp only
  exact StoreSide.ite ((fillPoint_storeSide _ _ _ _ s).next rfl) (StoreSide.same rfl)

theorem openForLoading_storeSide (s : State) : StoreSide s (openForLoading s) := by
  unfold openForLoading
  split
  · exact StoreSide.refl s
  · next r _ => exact ((openLast_storeSide r s).trans (readLastKey_storeSide r _)).next rfl

theorem recoverSectors_storeSide (l : List (Nat × Nat)) (s : State) : StoreSide s (recoverSectors l s) := by
  unfold recoverSectors
  dsimp only
  have h0 : StoreSide s { s with ctl := { s.ctl with highestSeq := maxSeq l } } := StoreSide.same rfl
  have h1 := (h0.trans (recoverConfig_storeSide _)).trans (readConfig_storeSide _)
  generalize readConfig (recoverConfig _) = u at h1 ⊢
  have h2 := (h1.trans (eraseEach_storeSide (staleSession u.ctl) u)).trans (recoverBase_storeSide _)
  generalize recoverBase _ = v at h2 ⊢
  exact StoreSide.after (nameReserve_storeSide _) (h2.next rfl)

theorem scanRecovery_storeSide (s : State) : StoreSide s (scanRecovery s).1 :=
  (readHeaders_storeSide headerOrder s).trans (recoverSectors_storeSide _ _)

theorem startScan_storeSide (s : State) : StoreSide s (startScan s) := by
  unfold startScan
  dsimp only
  have h := (((scanRecovery_storeSide s).trans (rebuildDirectory_storeSide (scanRecovery s).2 _)).trans (buildKeyTable_storeSide _)).trans
    (closeStale_storeSide _)
  exact StoreSide.ite (h.trans (openForLoading_storeSide _)) h

end Sys2Proof.Machine
end

