-- ==== Sys2Proof/Laws/Placing.lean ====
section
/-! SUPPORT. Activating a sector (R95, R96, R73) and the words that writing an entry changes (R66, R72). -/

namespace Sys2Proof.Machine

/-! ## Words changed -/

theorem programWords_frame (n : Nat) (x : Nat) : ∀ (l : List (BitVec 32)) (w : Nat) (s : State),
    (∀ i, i < l.length → x ≠ addrOf n (w + i)) → (programWords n w l s).1.store.read x = s.store.read x
  | [], _, _, _ => rfl
  | v :: l, w, s, h => by
    unfold programWords
    dsimp only
    have h0 := programWord_frame (fieldWord v) n w s x (by simpa using h 0 (by simp))
    split
    · rw [programWords_frame n x l (w + 1) _ (fun i hi => by have := h (i + 1) (by simpa using hi); rwa [Nat.add_right_comm, Nat.add_assoc] at *), h0]
    · exact h0

/-- Writing an entry changes the entry's own words alone, whether it succeeds or not (R66, R72). -/
theorem writeEntryWords_frame (n w : Nat) (k : Key) (a : Attrs) (t : Text) (s : State) (x : Nat)
    (h : ∀ i, i < entrySize k t → x ≠ addrOf n (w + i)) : (writeEntryWords n w k a t s).1.store.read x = s.store.read x := by
  have h0 : x ≠ addrOf n w := by simpa using h 0 (by unfold entrySize; omega)
  have hl : (k.map (BitVec.ofNat 32) ++ textWords t).length + 1 = entrySize k t := by
    simp [entrySize, textWords]; omega
  unfold writeEntryWords
  dsimp only
  have e1 := programWord_frame (fieldWord (entryHeader k a t &&& ~~~ markMask 31)) n w s x h0
  split
  · have e2 := programWords_frame n x (k.map (BitVec.ofNat 32) ++ textWords t) (w + 1)
      (programWord (fieldWord (entryHeader k a t &&& ~~~ markMask 31)) n w s).1
      (fun i hi => by rw [Nat.add_assoc, Nat.add_comm 1]; exact h (i + 1) (by omega))
    split
    · rw [programMark_frame _ _ _ _ (by exact h0), e2, e1]
    · rw [e2, e1]
  · exact e1

/-- Pre-zeroing changes words of its sector alone. -/
theorem zeroWords_frame (n x : Nat) : ∀ (l : List Nat) (s : State), (∀ w ∈ l, x ≠ addrOf n w) →
    (zeroWords n l s).1.store.read x = s.store.read x
  | [], _, _ => rfl
  | w :: l, s, h => by
    have hz : (zeroWord n w s).1.store.read x = s.store.read x := by
      unfold zeroWord; split
      · rfl
      · exact programWord_frame _ _ _ _ _ (h w (List.mem_cons_self ..))
    unfold zeroWords
    dsimp only
    split
    · rw [zeroWords_frame n x l _ (fun v hv => h v (List.mem_cons_of_mem w hv)), hz]
    · exact hz

/-! ## Marking a sector BAD (R73) -/

/-- What marking a sector BAD leaves and changes (R73, R95). -/
theorem markBad_does (m : Nat) (s : State) :
    (markBad m s).ctl.highestSeq = s.ctl.highestSeq ∧
    (markBad m s).ctl.sectors = s.ctl.sectors.set m (if (programMark m markBadSector s).2 then .bad else .outOfUse) ∧
    (markBad m s).ctl.accounts = s.ctl.accounts ∧ (markBad m s).ctl.directory = s.ctl.directory ∧
    (markBad m s).ctl.comp = s.ctl.comp ∧
    ((programMark m markBadSector s).2 = true → (markBad m s).store = (programMark m markBadSector s).1.store) ∧
    ∀ x, x / 4096 ≠ m → (markBad m s).store.read x = s.store.read x := by
  have g := programMark_wordSide m markBadSector s
  have z := g.trans (zeroWords_wordSide m prezeroWords (programMark m markBadSector s).1)
  have hm : ∀ x w, x / 4096 ≠ m → w < 4096 → x ≠ addrOf m w := by
    intro x w hx hw e; apply hx; subst e; simp only [addrOf, Config.sectorWords]; omega
  unfold markBad nameReserve setSector
  by_cases h : (programMark m markBadSector s).2 = true
  · simp only [h, if_true]
    refine ⟨g.highestSeq, by rw [g.sectors], g.accounts, g.directory, g.comp, fun _ => trivial, fun x hx => ?_⟩
    exact programMark_frame _ _ _ _ (hm x 1 hx (by decide))
  · simp only [h]
    refine ⟨z.highestSeq, by simp [z.sectors], z.accounts, z.directory, z.comp, fun e => absurd e (by simp), fun x hx => ?_⟩
    show (zeroWords m prezeroWords (programMark m markBadSector s).1).1.store.read x = _
    rw [zeroWords_frame]
    · exact programMark_frame _ _ _ _ (hm x 1 hx (by decide))
    · intro w hw
      apply hm x w hx
      have : ∀ w ∈ prezeroWords, w < 4096 := by
        intro w hw
        simp only [prezeroWords, Config.sectorWords, List.mem_cons, List.mem_map, List.mem_range] at hw
        rcases hw with rfl | ⟨i, hi, rfl⟩ <;> omega
      exact this w hw

theorem nameReserve_reserve {r : Nat} {s : State} (hr : s.ctl.reserve = some r) (hf : s.ctl.sectorState r = .free) :
    (nameReserve s).ctl.reserve = some r := by
  unfold nameReserve; simp only [hr, hf, if_true]

/-- The reserve stays while it is FREE (R95). -/
theorem markBad_reserve {m r : Nat} {s : State} (hr : s.ctl.reserve = some r) (hf : s.ctl.sectorState r = .free) (hm : r ≠ m) :
    (markBad m s).ctl.reserve = some r := by
  have g := programMark_wordSide m markBadSector s
  have z := g.trans (zeroWords_wordSide m prezeroWords (programMark m markBadSector s).1)
  have hs : ∀ v : SecState, (s.ctl.sectors.set m v).getD r .unknown = .free := by
    intro v
    rw [List.getD_eq_getElem?_getD, List.getElem?_set_ne (Ne.symm hm), ← List.getD_eq_getElem?_getD]
    exact hf
  unfold markBad
  dsimp only
  apply nameReserve_reserve
  · split
    · exact g.reserve.trans hr
    · exact z.reserve.trans hr
  · split
    · unfold setSector Control.sectorState; dsimp only; rw [g.sectors]; exact hs .bad
    · unfold setSector Control.sectorState; dsimp only; rw [z.sectors]; exact hs .outOfUse

/-! ## Activation (R96) -/

theorem nextFree_eq (s : State) : nextFree s = (s.ctl.sessionIn .free).find? (fun n => decide (s.ctl.reserve ≠ some n)) := by
  unfold nextFree Control.sessionIn sessionSectors
  rw [List.find?_filter]
  congr 1
  funext n; simp

theorem activateFrom_skip : ∀ (pre post : List Nat) (s : State), (∀ p ∈ pre, s.ctl.reserve = some p) →
    activateFrom (pre ++ post) s = activateFrom post s
  | [], _, _, _ => rfl
  | p :: pre, post, s, h => by
    simp only [List.cons_append, activateFrom]
    rw [if_pos (h p (List.mem_cons_self ..))]
    exact activateFrom_skip pre post s (fun q hq => h q (List.mem_cons_of_mem p hq))

/-- The FREE sectors before the one tried are the reserve. -/
theorem nextFree_split {s : State} {m : Nat} (h : nextFree s = some m) : ∃ pre post,
    s.ctl.sessionIn .free = pre ++ m :: post ∧ (∀ p ∈ pre, s.ctl.reserve = some p) ∧ s.ctl.reserve ≠ some m := by
  rw [nextFree_eq, List.find?_eq_some_iff_append] at h
  obtain ⟨h1, pre, post, h2, h3⟩ := h
  exact ⟨pre, post, h2, fun p hp => by simpa using h3 p hp, by simpa using h1⟩

/-- With no FREE sector but the reserve activation fails (R96). -/
theorem activate_none {s : State} (h : nextFree s = none) : activate s = (s, none) := by
  rw [nextFree_eq, List.find?_eq_none] at h
  unfold activate
  have := activateFrom_skip (s.ctl.sessionIn .free) [] s (fun p hp => by simpa using h p hp)
  rw [List.append_nil] at this
  exact this

/-- Activation tries the next FREE sector first. -/
theorem activate_tries {s : State} {m : Nat} (h : nextFree s = some m) : ∃ pre post,
    s.ctl.sessionIn .free = pre ++ m :: post ∧ (∀ p ∈ pre, s.ctl.reserve = some p) ∧
    activate s = if (tryActivate m s).2 then ((tryActivate m s).1, some m) else activateFrom post (tryActivate m s).1 := by
  obtain ⟨pre, post, h1, h2, h3⟩ := nextFree_split h
  refine ⟨pre, post, h1, h2, ?_⟩
  unfold activate
  rw [h1, activateFrom_skip _ _ _ h2]
  simp only [activateFrom]
  rw [if_neg h3]

theorem modify_const {α : Type} (v : α) : ∀ (l : List α) (n : Nat), l.modify n (fun _ => v) = l.set n v
  | [], _ => by simp
  | _ :: _, 0 => rfl
  | a :: l, n + 1 => by simp [modify_const v l n]

theorem sequenceProgrammed_wordSide (m : Nat) (s : State) :
    WordSide { s with ctl := { s.ctl with highestSeq := s.ctl.highestSeq + 1 } } (sequenceProgrammed m s).1 :=
  programWord_wordSide _ _ _ _

theorem nextFree_session {s : State} {m : Nat} (h : nextFree s = some m) : 224 ≤ m ∧ m < 255 := by
  obtain ⟨_, _, h1, _, _⟩ := nextFree_split h
  have hm : m ∈ s.ctl.sessionIn .free := by rw [h1]; simp
  have : m ∈ sessionSectors := (List.mem_filter.1 hm).1
  simp only [sessionSectors, Config.firstSession, List.mem_map, List.mem_range] at this
  omega

/-- A sector activated: ACTIVE, its account fresh, its sequence word and its mark programmed (R96). -/
theorem activate_some {s w x : State} {m : Nat} (h : nextFree s = some m) (hw : sequenceProgrammed m s = (w, true))
    (hx : programMark m markActive w = (x, true)) :
    activate s = ({ x with ctl := { x.ctl with
      sectors := s.ctl.sectors.set m .active
      accounts := s.ctl.accounts.set (m - 224) { appendPoint := 16, live := 0, dead := 0, passedOver := false } } }, some m) ∧
    x.ctl.highestSeq = s.ctl.highestSeq + 1 ∧
    (∀ y, y ≠ addrOf m 3 → y ≠ addrOf m 2 → x.store.read y = s.store.read y) ∧
    (StoreGood s → (wordAt x m 3).bits = BitVec.ofNat 32 (s.ctl.highestSeq + 1) ∧ readsMark x m markActive = true) := by
  obtain ⟨pre, post, _, _, he⟩ := activate_tries h
  have gw : WordSide { s with ctl := { s.ctl with highestSeq := s.ctl.highestSeq + 1 } } w := by
    have g := sequenceProgrammed_wordSide m s; rw [hw] at g; exact g
  have gx : WordSide w x := by
    have g := programMark_wordSide m markActive w; rw [hx] at g; exact g
  have ht : tryActivate m s = ({ x with ctl := { x.ctl with
      sectors := s.ctl.sectors.set m .active
      accounts := s.ctl.accounts.set (m - 224) { appendPoint := 16, live := 0, dead := 0, passedOver := false } } }, true) := by
    unfold sequenceProgrammed at hw
    unfold tryActivate
    simp only [hw, hx, if_true]
    unfold setSector modAccount
    simp only [gx.sectors, gw.sectors, gx.accounts, gw.accounts, modify_const]
    rfl
  refine ⟨by rw [he, ht]; rfl, by rw [gx.highestSeq, gw.highestSeq], fun y h3 h2 => ?_, fun g => ?_⟩
  rotate_left
  · have hm := nextFree_session h
    have hw2 : (sequenceProgrammed m s).2 = true := by rw [hw]
    have hx2 : (programMark m markActive w).2 = true := by rw [hx]
    have ha : addrOf m 3 < Config.storeWords := by simp only [addrOf, Config.sectorWords, Config.storeWords]; omega
    have ha2 : addrOf m 2 < Config.storeWords := by simp only [addrOf, Config.sectorWords, Config.storeWords]; omega
    have k : StoreGood w := by
      have k1 := (programWord_keeps (fieldWord (BitVec.ofNat 32 (s.ctl.highestSeq + 1))) m 3
        { s with ctl := { s.ctl with highestSeq := s.ctl.highestSeq + 1 } }).store g
      unfold sequenceProgrammed at hw
      rw [hw] at k1; exact k1
    have r1 := programWord_reads (fieldWord (BitVec.ofNat 32 (s.ctl.highestSeq + 1))) m 3
      { s with ctl := { s.ctl with highestSeq := s.ctl.highestSeq + 1 } } g ha hw2
    have r2 := programMark_readsMark m markActive w k ha2 (by decide) (by decide) hx2
    have e := programMark_frame m markActive w (addrOf m 3) (by simp [addrOf, markActive])
    unfold sequenceProgrammed at hw
    rw [hw] at r1
    rw [hx] at r2 e
    unfold wordAt at r1
    refine ⟨?_, r2⟩
    unfold wordAt; rw [e, r1]; rfl
  have e1 := programMark_frame m markActive w y h2
  rw [hx] at e1
  have e2 := programWord_frame (fieldWord (BitVec.ofNat 32 (s.ctl.highestSeq + 1))) m 3
    { s with ctl := { s.ctl with highestSeq := s.ctl.highestSeq + 1 } } y h3
  unfold sequenceProgrammed at hw
  rw [hw] at e2
  exact e1.trans e2

theorem sessionSectors_nodup : sessionSectors.Nodup := by decide

/-- The FREE sectors once one of them is FREE no more. -/
theorem sessionIn_set {c : Control} {pre post : List Nat} {m : Nat} {v : SecState} (h : c.sessionIn .free = pre ++ m :: post)
    (hv : v ≠ .free) (d : Control) (hd : d.sectors = c.sectors.set m v) : d.sessionIn .free = pre ++ post := by
  have hmem : m ∈ c.sessionIn .free := by rw [h]; simp
  have hfree : c.sectorState m = .free := by simpa [Control.sessionIn] using (List.mem_filter.1 hmem).2
  have hlt : m < c.sectors.length := by
    apply Classical.byContradiction
    intro hn
    simp [Control.sectorState, List.getD_eq_getElem?_getD, List.getElem?_eq_none (Nat.not_lt.1 hn)] at hfree
  have hst : ∀ n, d.sectorState n = if n = m then v else c.sectorState n := by
    intro n
    unfold Control.sectorState
    rw [hd, List.getD_eq_getElem?_getD, List.getElem?_set]
    by_cases e : m = n
    · subst e; simp [hlt]
    · simp [e, Ne.symm e, List.getD_eq_getElem?_getD]
  have hf : d.sessionIn .free = (c.sessionIn .free).filter (fun n => decide (n ≠ m)) := by
    unfold Control.sessionIn
    rw [List.filter_filter]
    apply List.filter_congr
    intro n _
    rw [hst]
    by_cases e : n = m <;> simp [e, hv]
  have hn : (pre ++ m :: post).Nodup := by
    rw [← h]; exact sessionSectors_nodup.filter _
  rw [hf, h, List.filter_append, List.filter_cons_of_neg (by simp)]
  have hn' := List.nodup_append.1 hn
  have hpost := List.nodup_cons.1 hn'.2.1
  rw [List.filter_eq_self.2, List.filter_eq_self.2]
  · intro a ha; simp; rintro rfl; exact hpost.1 ha
  · intro a ha; simp; rintro rfl; exact hn'.2.2 a ha a (by simp) rfl

/-- A sector on which activation fails goes BAD, the sequence number is not given back, and the next FREE sector other than
the reserve is tried in the same way (R96, R73). -/
theorem activate_fails {s w x : State} {m : Nat} (h : nextFree s = some m)
    (hf : sequenceProgrammed m s = (x, false) ∨ (sequenceProgrammed m s = (w, true) ∧ programMark m markActive w = (x, false))) :
    activate s = activate (markBad m x) ∧ x.ctl.highestSeq = s.ctl.highestSeq + 1 ∧ x.ctl.sectors = s.ctl.sectors ∧
      x.ctl.accounts = s.ctl.accounts ∧ x.ctl.comp = s.ctl.comp ∧ x.ctl.reserve = s.ctl.reserve ∧
      x.ctl.directory = s.ctl.directory ∧ StoreSide s x ∧
      ∀ y, y / 4096 ≠ m → x.store.read y = s.store.read y := by
  obtain ⟨pre, post, hs, hp, he⟩ := activate_tries h
  have hm3 : ∀ y k, k < 4096 → y / 4096 ≠ m → y ≠ addrOf m k := by
    intro y k hk hy e; apply hy; subst e; simp only [addrOf, Config.sectorWords]; omega
  have hx : tryActivate m s = (markBad m x, false) ∧ x.ctl.highestSeq = s.ctl.highestSeq + 1 ∧ x.ctl.sectors = s.ctl.sectors ∧
      x.ctl.accounts = s.ctl.accounts ∧ x.ctl.comp = s.ctl.comp ∧ x.ctl.reserve = s.ctl.reserve ∧
      x.ctl.directory = s.ctl.directory ∧ StoreSide s x ∧
      ∀ y, y / 4096 ≠ m → x.store.read y = s.store.read y := by
    have gw := sequenceProgrammed_wordSide m s
    have fw := fun y hy => programWord_frame (fieldWord (BitVec.ofNat 32 (s.ctl.highestSeq + 1))) m 3
      { s with ctl := { s.ctl with highestSeq := s.ctl.highestSeq + 1 } } y hy
    have gs := programWord_storeSide (fieldWord (BitVec.ofNat 32 (s.ctl.highestSeq + 1))) m 3
      { s with ctl := { s.ctl with highestSeq := s.ctl.highestSeq + 1 } }
    rcases hf with hf | ⟨hf, hg⟩
    · rw [hf] at gw
      unfold sequenceProgrammed at hf
      rw [hf] at fw gs
      refine ⟨?_, gw.highestSeq, gw.sectors, gw.accounts, gw.comp, gw.reserve, gw.directory, (StoreSide.same (s := s) (t := { s with ctl := { s.ctl with highestSeq := s.ctl.highestSeq + 1 } }) rfl).trans gs, fun y hy => fw y (hm3 y 3 (by decide) hy)⟩
      unfold tryActivate; simp only [hf]; rfl
    · rw [hf] at gw
      unfold sequenceProgrammed at hf
      rw [hf] at fw gs
      have gx := programMark_wordSide m markActive w
      have fx := fun y hy => programMark_frame m markActive w y hy
      have hs := programMark_storeSide m markActive w
      rw [hg] at gx fx hs
      have g := gw.trans gx
      refine ⟨?_, g.highestSeq, g.sectors, g.accounts, g.comp, g.reserve, g.directory, (StoreSide.same (s := s) (t := { s with ctl := { s.ctl with highestSeq := s.ctl.highestSeq + 1 } }) rfl).trans (gs.trans hs), fun y hy => ?_⟩
      · unfold tryActivate; simp only [hf, hg, if_true]; rfl
      · exact (fx y (hm3 y 2 (by decide) hy)).trans (fw y (hm3 y 3 (by decide) hy))
  refine ⟨?_, hx.2⟩
  rw [he, hx.1, if_neg Bool.false_ne_true]
  have hb := markBad_does m x
  have hsec : (markBad m x).ctl.sectors = s.ctl.sectors.set m (if (programMark m markBadSector x).2 then .bad else .outOfUse) := by
    rw [hb.2.1, hx.2.2.1]
  have hin := sessionIn_set hs (v := if (programMark m markBadSector x).2 then .bad else .outOfUse)
    (by split <;> decide) _ hsec
  unfold activate
  rw [hin, activateFrom_skip]
  intro p hp'
  have hr := hp p hp'
  have hmem : p ∈ s.ctl.sessionIn .free := by rw [hs]; simp [hp']
  have hfree : s.ctl.sectorState p = .free := by simpa [Control.sessionIn] using (List.mem_filter.1 hmem).2
  apply markBad_reserve
  · rw [hx.2.2.2.2.2.1]; exact hr
  · unfold Control.sectorState; rw [hx.2.2.1]; exact hfree
  · rintro rfl
    obtain ⟨_, _, _, _, h3⟩ := nextFree_split h
    exact h3 hr

/-! ## Writing an entry at the append point (R66, R72, R94) -/

theorem modify_eq_set_getD {α : Type} (f : α → α) (d : α) : ∀ (l : List α) (n : Nat), l.modify n f = l.set n (f (l.getD n d))
  | [], n => by simp
  | a :: l, 0 => by simp
  | a :: l, n + 1 => by simp [modify_eq_set_getD f d l n]

theorem modAccount_accounts (n : Nat) (f : Account → Account) (s : State) :
    (modAccount n f s).ctl.accounts = s.ctl.accounts.set (n - Config.firstSession) (f (s.ctl.account n)) := by
  rw [modAccount_ctl]
  unfold Control.account
  dsimp only
  generalize n - Config.firstSession = i
  exact modify_eq_set_getD f Account.fresh _ i

/-- Programming a mark reads the store and the script alone. -/
theorem programMark_store_congr (n : Nat) (m : Mark) {s t : State} (h1 : s.store = t.store) (h2 : s.script = t.script) :
    (programMark n m s).1.store = (programMark n m t).1.store := by
  unfold programMark pulseWord wordAt
  simp only [h1, h2]
  split <;> simp
  split <;> simp

/-- Making a sector FULL programs the mark and no more (R96). -/
theorem makeFull_does (n : Nat) (s : State) : (makeFull n s).store = (programMark n markFull s).1.store ∧
    (makeFull n s).ctl.sectors = s.ctl.sectors.set n .full ∧ (makeFull n s).ctl.highestSeq = s.ctl.highestSeq ∧
    (makeFull n s).ctl.reserve = s.ctl.reserve ∧ (makeFull n s).ctl.accounts = s.ctl.accounts := by
  have g := programMark_wordSide n markFull s
  unfold makeFull
  simp [g.sectors, g.highestSeq, g.reserve, g.accounts]

/-- What writing an entry at the append point leaves and changes. -/
theorem appendEntry_does (n : Nat) (k : Key) (a : Attrs) (t : Text) (s : State) :
    let r := writeEntryWords n (s.ctl.account n).appendPoint k a t s
    let p := appendEntry n k a t s
    p.2 = r.2 ∧ p.1.store = r.1.store ∧ p.1.script = r.1.script ∧ p.1.ctl.sectors = s.ctl.sectors ∧
    p.1.ctl.highestSeq = s.ctl.highestSeq ∧ p.1.ctl.reserve = s.ctl.reserve ∧
    p.1.ctl.accounts = s.ctl.accounts.set (n - Config.firstSession)
      (if r.2 then (s.ctl.account n).wrote (entrySize k t) else (s.ctl.account n).wroteDead (entrySize k t)) := by
  intro r p
  have g : WordSide s r.1 := writeEntryWords_wordSide n (s.ctl.account n).appendPoint k a t s
  have hp : p = (modAccount n (fun c => if r.2 then c.wrote (entrySize k t) else c.wroteDead (entrySize k t)) r.1, r.2) := rfl
  have ha : r.1.ctl.account n = s.ctl.account n := by unfold Control.account; rw [g.accounts]
  rw [hp]
  refine ⟨rfl, modAccount_store .., modAccount_script .., ?_, ?_, ?_, ?_⟩
  · rw [modAccount_ctl]; exact g.sectors
  · rw [modAccount_ctl]; exact g.highestSeq
  · rw [modAccount_ctl]; exact g.reserve
  · rw [modAccount_accounts, g.accounts, ha]

/-- A write that failed makes its sector FULL (R98). -/
theorem appendEntry_makeFull (n : Nat) (k : Key) (a : Attrs) (t : Text) (s : State) :
    let r := writeEntryWords n (s.ctl.account n).appendPoint k a t s
    let q := makeFull n (appendEntry n k a t s).1
    q.store = (programMark n markFull r.1).1.store ∧ q.ctl.sectors = r.1.ctl.sectors.set n .full ∧
    q.ctl.highestSeq = r.1.ctl.highestSeq ∧ q.ctl.reserve = r.1.ctl.reserve ∧
    (r.2 = false → q.ctl.accounts = s.ctl.accounts.set (n - Config.firstSession) ((s.ctl.account n).wroteDead (entrySize k t))) := by
  intro r q
  have g : WordSide s r.1 := writeEntryWords_wordSide n (s.ctl.account n).appendPoint k a t s
  have h := appendEntry_does n k a t s
  have m := makeFull_does n (appendEntry n k a t s).1
  refine ⟨m.1.trans (programMark_store_congr n markFull h.2.1 h.2.2.1), ?_, ?_, ?_, fun hr => ?_⟩
  · rw [m.2.1, h.2.2.2.1, g.sectors]
  · rw [m.2.2.1, h.2.2.2.2.1, g.highestSeq]
  · rw [m.2.2.2.1, h.2.2.2.2.2.1, g.reserve]
  · rw [m.2.2.2.2, h.2.2.2.2.2.2, if_neg (by rw [hr]; exact Bool.false_ne_true)]

/-- The first write and the retry, from the sector the entry goes to (R98). -/
theorem placeIn_eq (n : Nat) (k : Key) (a : Attrs) (t : Text) (s : State) :
    placeIn n k a t s = if (appendEntry n k a t s).2 then
        ((appendEntry n k a t s).1, .at_ { sector := n, word := (s.ctl.account n).appendPoint })
      else match activate (makeFull n (appendEntry n k a t s).1) with
        | (y, none) => (y, .noRetry)
        | (y, some m) => if (appendEntry m k a t y).2 then
            ((appendEntry m k a t y).1, .at_ { sector := m, word := (y.ctl.account m).appendPoint })
          else (makeFull m (appendEntry m k a t y).1, .failed) := by
  unfold placeIn placeRetry
  dsimp only
  split
  · rfl
  · rcases activate (makeFull n (appendEntry n k a t s).1) with ⟨y, m | m⟩ <;> rfl

end Sys2Proof.Machine
end

