-- ==== Sys2Proof/Laws/Port.lean ====
section
/-! SUPPORT. Every service-port command is one transaction, and what a transaction does in each case (R196, R197). -/

namespace Sys2Proof.Machine

theorem beBytes_length (n v : Nat) : (beBytes n v).length = n := by simp [beBytes]

/-- A request's frame has five bytes beside its body. -/
theorem requestFrame_length (tag : Byte) (r : Request) : (requestFrame tag r).length = r.body.length + 5 := by
  simp [requestFrame, frameOf, beBytes]; omega

theorem exec_service {c : Instr} {tag : Byte} {n : Nat} {r : Request} (h : serviceOf c = some (tag, n, r)) (s : State) :
    exec c s = .next (transaction tag n r s) := by
  cases c <;> simp [serviceOf] at h <;> (obtain ⟨rfl, rfl, rfl⟩ := h; rfl)

/-- A transaction in all its cases: the port not free, the frame too long, the frame judged. -/
theorem transaction_eq (tag : Byte) (n : Nat) (r : Request) (s : State) :
    transaction tag n r s =
      if portFree tag n r s then
        (if frameFits tag r then judgeRequest tag r (transacted tag n r .idle s) else answered tag n r .badFrame [] s)
      else transacted tag n r (s.port.afterClocks (bytesOf tag n r)) s := by
  have e : clockOut (max n (requestFrame tag r).length) s = transacted tag n r (s.port.afterClocks (bytesOf tag n r)) s := rfl
  unfold transaction
  dsimp only
  rw [e]
  by_cases h : s.port.afterClocks (bytesOf tag n r) = .idle
  · have h1 : (transacted tag n r (s.port.afterClocks (bytesOf tag n r)) s).port = .idle := h
    have h2 : portFree tag n r s := h
    rw [if_pos h1, if_pos h2, h]
    by_cases f : frameFits tag r
    · rw [if_pos f, if_neg (by unfold frameFits at f; omega)]
    · rw [if_neg f, if_pos (by unfold frameFits at f; omega)]; rfl
  · have h1 : ¬ (transacted tag n r (s.port.afterClocks (bytesOf tag n r)) s).port = .idle := h
    have h2 : ¬ portFree tag n r s := h
    rw [if_neg h1, if_neg h2]

/-- A request that is neither refused nor held is passed to its owner with the port WORKING. -/
theorem transaction_served {tag : Byte} {n : Nat} {r : Request} {s : State} (h : portFree tag n r s) (f : frameFits tag r)
    (c : r.countOk = true) (m : r.maintenanceOnly = false ∨ s.start = .maintenance)
    (o : r.ownAnswer = true ∨ s.start ≠ .storeScan) :
    transaction tag n r s = serveRequest r (transacted tag n r (.working tag none) s) := by
  rw [transaction_eq, if_pos h, if_pos f, judgeRequest, c]
  have e1 : (r.maintenanceOnly && decide ((transacted tag n r PortState.idle s).start ≠ .maintenance)) = false := by
    rcases m with m | m
    · simp [m]
    · have : (transacted tag n r PortState.idle s).start = .maintenance := m
      simp [this]
  have e2 : (decide ((transacted tag n r PortState.idle s).start = .storeScan) && ! r.ownAnswer) = false := by
    rcases o with o | o
    · simp [o]
    · have : (transacted tag n r PortState.idle s).start ≠ .storeScan := o
      simp [this]
  rw [e1, e2]; rfl

end Sys2Proof.Machine
end

