-- ==== Sys2Proof/Laws/Stream.lean ====
section
/-! SUPPORT. Received stream cells: which items and MARKs a station takes (R171), and what the cells of one change before. -/

namespace Sys2Proof.Machine

/-- The items a station takes (R171). -/
theorem acceptsItem_iff (h : Header) (e : Epoch) (s : State) : acceptsItem h e s = true ↔ itemAccepted h e s := by
  unfold acceptsItem judgesItems itemAccepted
  cases s.link.latest <;> simp [and_assoc]

/-- The MARKs a station takes (R171). -/
theorem acceptsMark_iff (h : Header) (s : State) : acceptsMark h s = true ↔ markAccepted h s := by
  unfold acceptsMark judgesItems markAccepted planOf
  cases s.link.latest <;> simp [and_assoc, inPlan]

/-- Usable cells within the budget of an open window: counted, then applied (R133, R134, R145). -/
theorem cellsReceived_window {cs : List RxCell} {f : Header → State → State} {h : Header} {n : Nat} {s : State}
    (h1 : receives s = true) (h2 : s.link.rx = .window h n) (h3 : cs.all cellUsable = true) (h4 : n + cs.length ≤ budgetOf h s) :
    cellsReceived cs (some f) s = f h { s with link := { s.link with
      busy := true, rx := .window h (n + cs.length), roster := rosterCounted h.station cs s } } := by
  unfold cellsReceived
  rw [if_pos h1, h2]
  simp only [h3, h4, decide_true, Bool.and_self, if_true]
  congr 1
  unfold countWords rosterCounted Link.countCorrected Link.setEntry
  by_cases e : h.station = s.straps.station <;> simp [e]

theorem itemAccepted_congr (h : Header) (e : Epoch) (s : State) (l : Link) (hl : l.latest = s.link.latest) :
    itemAccepted h e { s with link := l } ↔ itemAccepted h e s := by simp only [itemAccepted, hl]

end Sys2Proof.Machine
end

