-- ==== Sys2Proof/Tests/Slice0.lean ====
section
/-! SUPPORT. Tests: the commands that cannot be sent, examples from the spec, and for every statement with hypotheses a
state and operands that meet them together. -/

namespace Sys2Proof.Tests

open Sys2Proof.Machine

/-! One test is checked after the other: side by side they would ask for more threads than the check's memory has. -/
set_option Elab.async false

/-! ## Commands that cannot be sent -/

def badScript : StoreScript := { prog := [List.replicate 17 blankWord], erase := [] }
def longScript : StoreScript := { prog := [List.replicate 16 blankWord], erase := [] }

theorem test_wf_reset : (Instr.reset State.reset.straps [(1048576, blankWord)]).wf = false ∧
    (Instr.reset State.reset.straps [(1048575, blankWord)]).wf = true := by decide

def tickUpsets (l : List Upset) : Instr := .tick 0 0 { configRead := false, upsets := l }

theorem test_wf_tick : (tickUpsets [.storeWord 1048576 blankWord]).wf = false ∧
    (tickUpsets [.cacheParity 16 0]).wf = false ∧ (tickUpsets [.cacheParity 0 4]).wf = false ∧
    (tickUpsets [.storeWord 1048575 blankWord, .cacheParity 15 3]).wf = true := by decide

theorem test_wf_key : (Instr.define 0 0 [16777216] 0 []).wf = false ∧ (Instr.loadEntry 0 0 [16777216] 0 []).wf = false ∧
    (Instr.retire 0 0 [16777216]).wf = false ∧ (Instr.readEntry 0 0 (List.replicate 256 1)).wf = false ∧
    (Instr.define 0 0 [16777215] 0 []).wf = true := by decide +kernel

theorem test_wf_text : (Instr.define 0 0 [1] 0 (List.replicate 256 0)).wf = false ∧
    (Instr.loadEntry 0 0 [1] 0 (List.replicate 256 0)).wf = false ∧
    (Instr.define 0 0 [1] 0 (List.replicate 255 0)).wf = true := by decide +kernel

theorem test_wf_script : (Instr.scanComplete badScript).wf = false ∧ (Instr.serveDefine badScript).wf = false ∧
    (Instr.serveRetire badScript).wf = false ∧ (Instr.serveRepair badScript).wf = false ∧
    (Instr.compactSelect badScript).wf = false ∧ (Instr.compactCopy badScript).wf = false ∧
    (Instr.compactSeal badScript).wf = false ∧ (Instr.compactRetireVictim badScript).wf = false ∧
    (Instr.prezeroWord badScript).wf = false ∧ (Instr.erasePulse badScript).wf = false ∧
    (Instr.formatSector badScript).wf = false ∧ (Instr.serveLoadEntry badScript).wf = false ∧
    (Instr.serveProtect badScript).wf = false ∧ (Instr.serveWriteConfig badScript).wf = false ∧
    (Instr.serveDefine longScript).wf = true := by decide

/-! ## Examples -/

/-- No row of the table gives bits, so no word spells a command. -/
theorem test_no_word_spells_a_command : decodeTableWord 32 0 = none := rfl

theorem test_fetch_leaves_the_queue : (State.reset.withFetchWord 32 5).pending = [] := rfl

/-- The front command is run and leaves the queue. -/
theorem test_step_runs_reset :
    step { State.reset with pending := [.reset { station := 3, role := .display, maintenance := false } [], .keyDebounced] } =
      .next (State.atReset { station := 3, role := .display, maintenance := false } [] [.keyDebounced]) := rfl

/-- The sets of the keys of R48's table and of the example of section 3.8. -/
theorem test_sets_of_keys : setOf [328] = 8 ∧ setOf [328, 688641] = 9 ∧ setOf [328, 688641, 8450] = 11 ∧ setOf [8450] = 2 ∧
    setOf [2097152] = 0 ∧ setOf [15, 15] = 14 ∧ setOf [263700] = 4 := by decide

/-- An untranslate of -Z has a hyphen, one of the star key has none (R25). -/
theorem test_untranslates : renderChord 2097152 = [0x2D#8, 0x5A#8] ∧ renderChord 2048 = [0x2A#8] := by decide

/-! ## States for the witnesses -/

def running : State := { State.reset with start := .running }
def maintained : State := { State.reset with start := .maintenance }
def atPen (p : PenState) : State := { running with pen := { running.pen with state := some p } }

def stroke (n : Nat) (c : Chord) : Stroke :=
  { sn := n, chord := c, downTime := 5, upTime := 9, retract := isRetract c, unsynced := false, refusedBefore := 0 }

def answerOf (found ext : Bool) : Answer := { found := found, text := [0x61#8], attrs := 0, ext := ext }

def scanning (m : ScanMode) (down due : Chord) : State :=
  { running with scanner := { running.scanner with mode := m, down := down, due := due, chord := 3 } }

/-! ## Witnesses: the queue, reset, frames and cells -/

theorem test_witness_StepRunsTheFrontCommand : State.reset.pending = [] := rfl

theorem test_witness_ResetRestoresEveryBlock : wordsInStore [(0, blankWord), (1048575, blankWord)] = true ∧
    State.reset.straps.role = .writer := by decide

theorem test_witness_CommandsLeaveQueueAndStraps : exec .keyDebounced State.reset = .next State.reset ∧
    ∀ straps torn, Instr.keyDebounced ≠ .reset straps torn := ⟨rfl, by intro _ _ h; cases h⟩

theorem test_witness_OnlyMissingStoreWordsStop : QueueGood { running with pending := [.keyDebounced] } ∧
    wordsInStore [(1048576, blankWord)] = false ∧ [Upset.storeWord 1048576 blankWord].all upsetInStore = false := by decide

theorem test_witness_StepKeepsStoreGood : StoreGood State.reset ∧ step State.reset = .next State.reset := ⟨by decide, rfl⟩
theorem test_witness_StepKeepsJournalGood : JournalGood State.reset ∧ step State.reset = .next State.reset :=
  ⟨by decide, rfl⟩
theorem test_witness_StepKeepsCacheGood : CacheGood State.reset ∧ step State.reset = .next State.reset := ⟨by decide, rfl⟩

def longText : Text := List.replicate 72 0x61#8

def longKey : Key := [1, 8388607, 1, 2, 3, 16777215]

/-- The longest frame, 98 bytes, and the shortest. -/
theorem test_witness_RequestFrameReadsBack :
    (serviceOf (.define 7 0 longKey 63 longText) = some (7, 0, .define longKey 63 longText) ∧
      (Instr.define 7 0 longKey 63 longText).wf = true ∧ frameFits 7 (.define longKey 63 longText) ∧
      (requestFrame 7 (.define longKey 63 longText)).length = 98) ∧
    (serviceOf (.status 7 0) = some (7, 0, .status) ∧ (Instr.status 7 0).wf = true ∧ frameFits 7 .status) := by decide +kernel

def headerOfWriter : Header :=
  { station := 7, role := .writer, joined := true, request := .penReq, applied := 16777215, need := 16777216
    recordEnd := { rln := 16777215, col := 64 }, lastStroke := 9, session := 5, epoch := 1 }

def beaconOfTwo : Beacon :=
  { timekeeper := 1, round := 3, time := 1000, session := 5, holder := some 2, epoch := 1, startRsn := 1
    startPos := { rln := 0, col := 64 }, cut := 0, plan := [(1, .display), (2, .writer)] }

def itemOf (rsn : Nat) (b : ItemBody) : Item := { rsn := rsn, epoch := 1, time := 77, body := b }

def endPoint : Pos := { rln := 16777215, col := 64 }

theorem test_witness_CellsReadBack :
    headerOfWriter.sendable = true ∧ beaconOfTwo.sendable = true ∧
    (itemOf 16777215 (.append endPoint (List.replicate 20 0x7E#8))).sendable = true ∧
    (itemOf 0 (.append endPoint [0x20#8])).sendable = true ∧ (itemOf 1 (.brk endPoint)).sendable = true ∧
    (itemOf 1 (.cut endPoint)).sendable = true ∧ (itemOf 1 (.pass 7 endPoint)).sendable = true := by decide

/-! ## Witnesses: strokes and the journal -/

theorem test_witness_KeysBeginAndJoinAStroke :
    ((scanning .idle 0 0x400000).scanner.mode = .idle ∧ (scanning .idle 0 0x400000).scanner.due ≠ 0 ∧
      downAfter (scanning .idle 0 0x400000) ≠ 0) ∧
    ((scanning .forming 1 2).scanner.mode = .forming ∧ (scanning .forming 1 2).scanner.due ≠ 0 ∧
      downAfter (scanning .forming 1 2) ≠ 0) ∧
    ((scanning .waitClear 1 1).scanner.mode = .waitClear ∧ (scanning .waitClear 1 1).scanner.due ≠ 0 ∧
      downAfter (scanning .waitClear 1 1) = 0 ∧ downAfter (scanning .waitClear 3 1) ≠ 0) ∧
    running.scanner.due = 0 := by decide

def fullJournal (readPoint nextSn : Nat) : Journal :=
  { strokes := stroke 1 1 :: List.replicate 2047 (stroke 2 1), nextSn := nextSn, readPoint := readPoint, archivePoint := 1
    refused := 0, archiveLost := 0 }

def ending (j : Journal) : State := { scanning .forming 3 3 with journal := j }

theorem test_full (r n : Nat) : (ending (fullJournal r n)).journal.strokes.length = 2048 := by
  show (stroke 1 1 :: List.replicate 2047 (stroke 2 1)).length = 2048
  rw [List.length_cons, List.length_replicate]

theorem test_ends (j : Journal) : strokeEnds (ending j) := by
  exact (by decide : strokeEnds (scanning .forming 3 3))

theorem test_witness_EndedStrokeIsKeptOrOverwrites :
    (strokeEnds (ending Journal.emptied) ∧ (ending Journal.emptied).journal.strokes.length < 2048 ∧
      (ending Journal.emptied).journal.nextSn < 4294967296) ∧
    (strokeEnds (ending (fullJournal 2 4294967295)) ∧ (ending (fullJournal 2 4294967295)).journal.strokes.length = 2048 ∧
      (ending (fullJournal 2 4294967295)).journal.strokes = stroke 1 1 :: List.replicate 2047 (stroke 2 1) ∧
      (stroke 1 1).sn < (ending (fullJournal 2 4294967295)).journal.readPoint ∧
      (ending (fullJournal 2 4294967295)).journal.nextSn < 4294967296) ∧
    (strokeEnds (ending (fullJournal 2 4294967296)) ∧ (ending (fullJournal 2 4294967296)).journal.nextSn = 4294967296) :=
  ⟨⟨test_ends _, by decide, by decide⟩, ⟨test_ends _, test_full _ _, rfl, by decide, by decide⟩, test_ends _, rfl⟩

theorem test_witness_FullJournalRefuses :
    (strokeEnds (ending (fullJournal 1 3)) ∧ (ending (fullJournal 1 3)).journal.strokes.length = 2048 ∧
      (ending (fullJournal 1 3)).journal.strokes = stroke 1 1 :: List.replicate 2047 (stroke 2 1) ∧
      (ending (fullJournal 1 3)).journal.readPoint ≤ (stroke 1 1).sn) ∧
    (strokeEnds (ending (fullJournal 2 3)) ∧ (ending (fullJournal 2 3)).journal.strokes.length = 2048 ∧
      (ending (fullJournal 2 3)).journal.strokes = stroke 1 1 :: List.replicate 2047 (stroke 2 1) ∧
      (stroke 1 1).sn < (ending (fullJournal 2 3)).journal.readPoint ∧ (ending (fullJournal 2 3)).journal.nextSn < 4294967296) :=
  ⟨⟨test_ends _, test_full _ _, rfl, by decide⟩, test_ends _, test_full _ _, rfl, by decide, by decide⟩

theorem test_witness_TickMovesTimeAndSamples :
    [Upset.storeWord 1048575 blankWord, .cacheParity 15 3].all upsetInStore = true ∧ running.scanner.due = 0 ∧
    running.scanner.mode ≠ .stopped ∧ running.scanner.counts[22]? = some 0 ∧ (scanning .stopped 0 0).scanner.mode = .stopped ∧
    (∀ w, .storeWord 7 w ∉ [Upset.cacheParity 15 3]) ∧ (.cacheParity 15 2) ∉ [Upset.cacheParity 15 3] ∧
    (running.cache.sets[15]?).isSome = true ∧ ([] : List Upset).all upsetInStore = true ∧
    (scanning .forming 3 2).scanner.due ≠ 0 := by
  refine ⟨by decide, by decide, by decide, by decide, by decide, ?_, by decide, by decide, by decide, by decide⟩
  intro w h; simp at h

/-! ## Witnesses: translation -/

def taking (k : Stroke) (t : Translator) : State :=
  { running with
    trans := { t with mode := .ready }
    journal := { Journal.emptied with strokes := [k], nextSn := 2 } }

def withRun (t : Translator) : Translator := { t with run := [stroke 1 4], results := [answerOf false true] }

def someUnit : TransUnit :=
  { strokes := [stroke 1 4, stroke 2 4], text := [0x61#8], attrs := 0, time := 5, start := { rln := 0, col := 0 }
    before := FormatState.clear }

def defines (k : Key) : QueuedReq := { id := 1, op := .define k 0 [0x61#8] }

def queued (q : List QueuedReq) (s : State) : State := { s with ctl := { s.ctl with queue := q } }

theorem test_witness_TakenStrokeIsLookedUp :
    let k := stroke 1 3
    let s := taking k running.trans
    takesNext k s ∧ k.retract = false ∧
    bearsOn (keyOfStrokes (s.trans.run ++ [k])) (queued [defines [3, 5]] s).ctl.queue = true ∧ takesNext k (queued [defines [3, 5]] s) ∧
    bearsOn (keyOfStrokes (s.trans.run ++ [k])) s.ctl.queue = false ∧ (s.cache.checkSet [3]).lookup [3] = none ∧
    ((s.cache.fill [3] (answerOf true true)).checkSet [3]).lookup [3] = some (answerOf true true) ∧ s.trans.discard = false := by
  decide

theorem test_witness_RetractTakesBackStrokeOrUnit :
    (takesNext (stroke 1 2048) (taking (stroke 1 2048) (withRun running.trans)) ∧ (stroke 1 2048).retract = true ∧
      (taking (stroke 1 2048) (withRun running.trans)).trans.run ≠ []) ∧
    (takesNext (stroke 1 2048) (taking (stroke 1 2048) { running.trans with undo := [someUnit] }) ∧
      (taking (stroke 1 2048) { running.trans with undo := [someUnit] }).trans.run = [] ∧
      (taking (stroke 1 2048) { running.trans with undo := [someUnit] }).trans.undo = [] ++ [someUnit] ∧
      running.trans.publishing = false ∧ running.composer.mode = .shadow) := by decide

theorem test_witness_RetractOfNothing :
    takesNext (stroke 1 2048) (taking (stroke 1 2048) running.trans) ∧ (stroke 1 2048).retract = true ∧
    (taking (stroke 1 2048) running.trans).trans.run = [] ∧ (taking (stroke 1 2048) running.trans).trans.undo = [] := by decide

theorem test_witness_LongestFoundPrefixIsTheUnit :
    ([answerOf true true, answerOf false false][0]? = some (answerOf true true) ∧ (answerOf true true).found = true ∧
      ∀ m b, 0 < m → [answerOf true true, answerOf false false][m]? = some b → b.found = false) ∧
    (∀ a ∈ [answerOf false true, answerOf false false], a.found = false) := by
  refine ⟨⟨rfl, rfl, ?_⟩, by decide⟩
  intro m b h hb
  match m, h, hb with
  | 1, _, hb => simp at hb; subst hb; rfl
  | n + 2, _, hb => simp at hb

def settled (publishing : Bool) (outbound : List Item) : State :=
  { running with
    trans := { withRun running.trans with mode := .ready, settle := some 0, publishing := publishing }
    pen := { running.pen with outbound := outbound } }

def manyItems (n : Nat) : List Item := List.replicate n (itemOf 1 (.brk endPoint))

def stalled (outbound : List Item) : State :=
  { running with
    trans := { running.trans with mode := .stalled, handOver := some (.unit someUnit), publishing := true }
    pen := { running.pen with outbound := outbound } }

theorem test_witness_SettleExpiryAndStall :
    ((settled false []).trans.settle = some 0 ∧ (settled false []).trans.mode = .ready ∧ (settled false []).trans.retake = [] ∧
      (settled false []).trans.run ≠ [] ∧ (settled false []).trans.forced = .clear ∧ (settled false []).trans.publishing = false ∧
      (settled false []).composer.mode = .shadow) ∧
    ((settled true (manyItems 57)).trans.publishing = true ∧ (settled true (manyItems 57)).pen.freePlaces < 8 ∧
      (settled true (manyItems 57)).trans.settle = some 0 ∧ (settled true (manyItems 57)).trans.run ≠ []) ∧
    ((stalled (manyItems 56)).trans.handOver = some (.unit someUnit) ∧ 8 ≤ (stalled (manyItems 56)).pen.freePlaces ∧
      (stalled (manyItems 56)).trans.mode = .stalled ∧ (stalled (manyItems 56)).trans.forced = .clear) ∧
    ((stalled (manyItems 57)).pen.freePlaces < 8 ∧ (stalled (manyItems 57)).trans.publishing = true) := by decide +kernel

/-! ## Witnesses: composition, keys, the cache -/

def wordOf (n : Nat) : Text := List.replicate n 0x61#8

theorem test_witness_WordIsSpacedOrWrapped :
    (1 ≤ (wordOf 38).length ∧ (wordOf 38).all (fun c => decide (c ≠ spaceCh)) = true ∧ 1 + 1 + (wordOf 38).length ≤ 40) ∧
    (40 < 1 + 1 + (wordOf 39).length ∧ (wordOf 40).length ≤ 40 ∧ 40 < 40 + 1 + (wordOf 40).length ∧
      (wordOf 40).all (fun c => decide (c ≠ spaceCh)) = true) := by decide

def passing : State :=
  { running with pen := { running.pen with state := some .releasing, passTo := some (3, 50), nextRsn := 16777214 } }

theorem test_witness_HolderQueuesItemsAndPass :
    { running.pen with nextRsn := 16777215 }.nextRsn ≤ 16777215 ∧
    passing.pen.state = some .releasing ∧ passing.pen.closing = false ∧ passing.pen.passTo = some (3, 50) ∧
    passing.pen.outbound.length < 64 ∧ passing.pen.nextRsn < 16777215 ∧ passing.trans.handOver = none := by decide

def line (rln n : Nat) : RecLine :=
  { rln := rln, text := wordOf n, isOpen := false, tag := 1, marked := false, gap := false }

theorem test_witness_BreakOpensTheNextLine : (line 16777214 64).rln < 16777215 ∧ (line 16777215 0).rln = 16777215 := by decide

theorem test_witness_AppendAndCutChangeTheEnd :
    (∀ m ∈ [line 1 3], m.rln < (line 2 5).rln) ∧ (∀ m ∈ [line 3 0], (line 2 5).rln < m.rln) ∧
    ([line 3 0] = [] → 9 ≤ (line 2 5).text.length) ∧ 5 ≤ (line 2 5).text.length := by decide

theorem test_witness_KeyOrder :
    1 < 2 ∧ keyLt [3] [3] = false ∧ keyLt [1] [2] = true ∧ keyLt [2] [3] = true ∧ properPrefix [1] [1, 9] = true ∧
    keyLt [1] [2] = true ∧ properPrefix [1] [2] = false ∧
    [[1], [1, 9], [2]].Pairwise (fun x y => keyLt x y = true) := by decide

theorem test_witness_SetOfKey : 0 ≠ setOf [1] ∧ 15 ≠ setOf [16] ∧
    Cache.reset.sets[setOf [15]]? = (Cache.reset.fill [1] (answerOf true false)).sets[setOf [15]]? := by decide

theorem test_witness_AgesOrderTheWays : agesGood [CacheLine.reset 3, .reset 1, .reset 0, .reset 2] = true ∧
    ageAt [CacheLine.reset 3, .reset 1, .reset 0, .reset 2] 0 = 3 := by decide

theorem test_witness_SnoopDropsKeyAndPrefixes : ([1, 2] : Key) ≠ [] ∧ properPrefix [1, 2] [1, 2, 3] = true ∧
    (∀ ls ∈ Cache.reset.sets, ∀ l ∈ ls, l.erring = false) ∧ ([1, 2, 3, 4] : Key) ≠ [1, 2, 3] ∧
    properPrefix [1, 2, 3, 4] [1, 2, 3] = false := by decide

/-! ## Witnesses: the store -/

def inCtl (f : Control → Control) (s : State) : State := { s with ctl := f s.ctl }

def fetching (k : Key) : State := { running with cache := { running.cache with path := .fetching k false } }

def place : Location := { sector := 224, word := 16 }

def oneKey (count : Nat) : List DirRecord := [{ key := [3], loc := some place, count := count }]

/-- The entry of key 3 at word 16 of sector 224. -/
def stored : State := inCtl (fun c => { c with directory := oneKey 0 }) (writeEntryWords 224 16 [3] 0 [0x61#8] running).1

/-- Base sector 0 with the keys 3 and 3/5 in its slots; sector 1 listed after it. -/
def based : State :=
  let s := (writeEntryWords 0 19 [3, 5] 0 [] (writeEntryWords 0 16 [3] 0 [0x61#8] running).1).1
  let t := (programWord (fieldWord 19) 0 4094 (programWord (fieldWord 16) 0 4095 s).1).1
  inCtl (fun c => { c with
    keyTable := [{ sector := 0, firstKey := [3], slots := 2 }, { sector := 1, firstKey := [7], slots := 1 }] }) t

theorem test_witness_base_slots (i n : Nat) (e : Key) (w : Nat) (he : [[3], [3, 5]][i]? = some e)
    (hw : [16, 19][i]? = some w) : probeSlot 0 i n based = (based, .key w e { damaged := false, corrected := false }) := by
  match i, he, hw with
  | 0, he, hw => cases he; cases hw; rfl
  | 1, he, hw => cases he; cases hw; rfl

theorem test_witness_base :
    based.ctl.keyTable = [] ++ { sector := 0, firstKey := [3], slots := 2 } :: [{ sector := 1, firstKey := [7], slots := 1 }] ∧
    keyLt [3] [3] = false ∧ keyLt [3] [7] = true ∧ keyLt [4] [3] = false ∧ keyLt [4] [7] = true ∧ [4] ∉ [[3], [3, 5]] ∧
    [[3], [3, 5]].Pairwise (fun x y => keyLt x y = true) ∧ dirLoc based.ctl.directory [3] = none ∧
    (readEntryAt 0 16 based).2 = .good [3] 0 [0x61#8] false ∧ (readEntryAt 0 16 based).1 = based := by decide +kernel

theorem test_witness_LookupIsServedAndCached :
    ((fetching [3]).cache.path = .fetching [3] false ∧ (fetching [3]).start ≠ .storeScan ∧ (fetching [3]).ctl.queue = [] ∧
      (resultOf [3] (inCtl (fun c => { c with directory := [{ key := [3], loc := none, count := 1 }] }) (fetching [3]))).2.ans.ext = true ∧
      (fetching [3]).trans.discard = false ∧ (fetching [3]).trans.forced = .clear) ∧
    (running.ctl.keyTable = [] ∧ dirLoc running.ctl.directory [3] = none) ∧
    (stored.ctl.keyTable = [] ∧ dirLoc stored.ctl.directory [3] = some place ∧
      (readEntryAt 224 16 stored).2 = .good [3] 0 [0x61#8] false) := by decide +kernel

def stuck : State := { running with script := { prog := [List.replicate 16 blankWord], erase := [] } }

theorem test_witness_ProgrammingAWord :
    StoreGood running ∧ addrOf 255 4095 < Config.storeWords ∧ (programWord (fieldWord 5) 255 4095 running).2 = true ∧
    (programWord (fieldWord 5) 255 4095 stuck).2 = false ∧ running.script.prog = [] ∧
    (fieldWord 5).bits &&& (wordAt running 255 4095).bits = (fieldWord 5).bits := by decide +kernel

theorem test_witness_WrittenEntryReadsBack :
    (StoreGood running ∧ 255 < 256 ∧ 4077 + entrySize [1, 2, 3, 4, 5, 8388607] (wordOf 48) ≤ 4096 ∧
      keyOk [1, 2, 3, 4, 5, 8388607] = true ∧ textOk (wordOf 48) = true ∧ running.script.prog = []) ∧
    ∀ i, i < entrySize [1, 2, 3, 4, 5, 8388607] (wordOf 48) → wordAt running 255 (4077 + i) = blankWord :=
  ⟨by decide, fun _ _ => rfl⟩

def fullDirectory : List DirRecord := List.replicate 8192 { key := [9, 9], loc := some place, count := 0 }

def activated : State := inCtl (fun c => { c with sectors := c.sectors.set 224 .active }) running

theorem test_witness_DefineIsRefusedOrTakesEffect :
    ((queued [defines []] running).ctl.queue = [{ id := 1, op := .define [] 0 [0x61#8] }] ∧ running.start ≠ .storeScan ∧
      running.ctl.headWaiting = false ∧ (∀ q, running.cache.path ≠ .held q) ∧ keyOk [] = false ∧ keyOk [2048] = true ∧
      textOk (wordOf 49) = false) ∧
    (keyOk [3] = true ∧ [3] ≠ [2048] ∧ textOk [0x61#8] = true ∧
      8192 < fullDirectory.length + recordsNeeded fullDirectory [3]) ∧
    (defineCheck [3] [0x61#8] activated.ctl.directory = none ∧
      (placeEntry [3] 0 [0x61#8] { activated with script := StoreScript.none }).2 = .at_ place ∧ StoreGood activated ∧
      dirLoc activated.ctl.directory [3] = none) := by
  exact ⟨⟨rfl, by decide, rfl, (fun q h => by cases h), by decide⟩, ⟨by decide, by decide, by decide, by decide +kernel⟩,
    by decide +kernel⟩

def retires : QueuedReq := { id := 1, op := .retire [3] }

theorem test_witness_RetireTakesTheLocationAway :
    ((queued [retires] stored).ctl.queue = [{ id := 1, op := .retire [3] }] ∧ (queued [retires] stored).start ≠ .storeScan ∧
      (queued [retires] stored).ctl.headWaiting = false ∧ (∀ q, (queued [retires] stored).cache.path ≠ .held q) ∧
      keyOk [3] = true) ∧
    (dirLoc (queued [retires] stored).ctl.directory [3] = some place ∧
      (programMark 224 (retiredAt 16) { queued [retires] stored with script := StoreScript.none }).2 = true) ∧
    dirLoc (queued [retires] running).ctl.directory [3] = none := by
  refine ⟨⟨rfl, by decide +kernel, by decide +kernel, ?_, by decide⟩, by decide +kernel, by decide⟩
  intro q h
  have : (queued [retires] stored).cache.path = .idle := by decide +kernel
  rw [this] at h; cases h

/-- A RETIRED that the cells do not take, and requests for a key without a session entry and for none. -/
theorem test_witness_RetireRefused :
    (programMark 224 (retiredAt 16) { queued [retires] stored with script := { prog := [List.replicate 16 blankWord], erase := [] } }).2 = false ∧
    StoreGood (queued [retires] stored) ∧ addrOf 224 16 < 1048576 ∧
    nextWork (queued [retires] running) = .retire ∧ keyOk [] = false := by decide +kernel

def repairing (s : State) : State :=
  inCtl (fun c => { c with
    repair := [place], sectors := c.sectors.set 224 .active,
    accounts := c.accounts.set 0 { Account.fresh with appendPoint := 19 } }) s

theorem test_witness_RepairRewritesTheEntry :
    (nextWork (repairing running) = .repair ∧ (repairing running).ctl.repair = [place] ∧
      dirKeyAt (repairing running).ctl.directory place = none) ∧
    (nextWork (repairing stored) = .repair ∧ dirKeyAt (repairing stored).ctl.directory place = some [3] ∧
      (readEntryAt 224 16 (repairing stored)).2 = .good [3] 0 [0x61#8] false ∧
      (placeEntry [3] 0 [0x61#8] (readEntryAt 224 16 (repairing stored)).1).2 = .at_ { sector := 224, word := 19 }) ∧
    (StoreGood (repairing stored) ∧ keyOk [3] = true ∧
      (List.range (entrySize [3] [0x61#8])).all (fun i => ! headersTouched (some place) (repairing stored) (addrOf 224 (19 + i)))) ∧
    (let s := inCtl (fun c => { c with directory := oneKey 0 }) (repairing running)
     nextWork s = .repair ∧ dirKeyAt s.ctl.directory place = some [3] ∧ (readEntryAt 224 16 s).2 = .badHeader) := by
  decide +kernel

def fullSectors (live : Nat) (s : State) : State :=
  inCtl (fun c => { c with
    sectors := ((c.sectors.set 224 .full).set 225 .full).set 226 .free, reserve := some 226,
    accounts := (c.accounts.set 0 { Account.fresh with live := live, dead := 9 }).set 1 { Account.fresh with dead := 9 } }) s

def comp (f : Compaction → Compaction) (s : State) : State := modComp f s

def copying (s : State) : State :=
  comp (fun c => { c with state := .copy, victim := 224, target := 226, targetAppend := 16, cursor := 16 }) s

theorem test_witness_CompactionSelectsAndCopies :
    (nextWork (fullSectors 0 running) = .compaction ∧ (fullSectors 0 running).ctl.comp.state = .idle ∧
      triggerHolds (fullSectors 0 running).ctl = true ∧ victims (fullSectors 0 running).ctl = [224, 225] ∧
      ((fullSectors 0 running).ctl.account 224).dead = ((fullSectors 0 running).ctl.account 225).dead ∧
      (fullSectors 0 running).ctl.reserve = some 226 ∧ ((fullSectors 0 running).ctl.account 224).live = 0) ∧
    (((fullSectors 3 stored).ctl.account 224).live ≠ 0 ∧
      (programMark 226 markCopyTarget { inCtl (fun c => { c with reserve := none }) (fullSectors 3 stored) with script := StoreScript.none }).2 = true) ∧
    (nextWork (copying running) = .compaction ∧ (copying running).ctl.comp.state = .copy ∧
      nextHeld (copying running).ctl.directory 224 16 = none) ∧
    (nextHeld (copying stored).ctl.directory 224 16 = some 16 ∧ dirKeyAt (copying stored).ctl.directory place = some [3] ∧
      (readEntryAt 224 16 (copying stored)).2 = .good [3] 0 [0x61#8] false ∧ 16 + entrySize [3] [0x61#8] ≤ 4096 ∧
      (writeEntryWords 226 16 [3] 0 [0x61#8] (offerRepairIf false place (readEntryAt 224 16 (copying stored)).1)).2 = true) := by
  decide +kernel

/-- SEAL at a step, sector 225 ACTIVE with its append point at `n`. -/
def sealing (st : SealStep) (n : Nat) : State :=
  inCtl (fun c => { c with sectors := c.sectors.set 225 .active, accounts := c.accounts.set 1 { Account.fresh with appendPoint := n } })
    (comp (fun c => { c with
      state := .seal, sealStep := st, victim := 224, target := 226, targetAppend := 19, copies := [(16, 16)] }) stored)

theorem test_witness_SealAndRetireVictim :
    (nextWork (sealing .seq 20) = .compaction ∧ (sealing .seq 20).ctl.comp.state = .seal ∧
      (programWord (fieldWord 1) 226 3 (sealing .seq 20)).2 = true ∧
      (programWord (fieldWord 1) 226 3 { sealing .seq 20 with script := stuck.script }).2 = false) ∧
    (nextWork (sealing .state 20) = .compaction ∧ (sealing .state 20).ctl.activeSector = some 225 ∧
      (programMark 226 markActive (sealing .state 20)).2 = true ∧ (programMark 226 markFull (sealing .state 19)).2 = true ∧
      (programMark 226 markActive { sealing .state 20 with script := stuck.script }).2 = false) ∧
    (nextWork (sealing (.sealed true) 20) = .compaction ∧ (programMark 226 markSealed (sealing (.sealed true) 20)).2 = true ∧
      (programMark 226 markSealed { sealing (.sealed true) 20 with script := stuck.script }).2 = false ∧
      (sealing (.sealed false) 19).ctl.comp.sealStep = .sealed false) ∧
    (nextWork (sealing (.full 225) 20) = .compaction ∧ nextWork (sealing .directory 20) = .compaction) ∧
    nextWork (comp (fun c => { c with state := .retireVictim, victim := 224 }) stored) = .compaction := by decide +kernel

def erasing (n : Nat) (st : CompState) (ph : ErasePhase) (s : State) : State :=
  comp (fun c => { c with state := st, erasing := n, phase := ph }) s

theorem test_witness_EraseStagesOfCompaction :
    (nextWork (erasing 224 .prezero (.prezero 0) stored) = .compaction ∧ StoreGood stored ∧
      stored.ctl.sectors.length = 256 ∧ stored.ctl.accounts.length = 31 ∧
      nextToZero 224 0 (erasing 224 .prezero (.prezero 0) stored) = some 0 ∧
      (programWord (fieldWord 0) 224 0 (erasing 224 .prezero (.prezero 0) stored)).2 = true) ∧
    nextToZero 254 4096 (erasing 254 .prezero (.prezero 4096) running) = none ∧
    nextWork (erasing 254 .erase (.pulses 15) running) = .compaction ∧
    nextWork (erasing 254 .erase .format running) = .compaction := by decide +kernel

theorem test_witness_erased_sector : ∀ w, w < 4096 → wordAt (erasing 254 .erase .format running) 254 w = blankWord :=
  fun _ _ => rfl

def asking (d : Direct) (s : State) : State := { inCtl (fun c => { c with direct := some d }) s with port := .working 7 none }

theorem test_witness_ReadEntryIsServed :
    (asking (.readEntry [3]) stored).ctl.direct = some (.readEntry [3]) ∧ nextWork (asking (.readEntry [3]) stored) = .direct ∧
    (asking (.readEntry [3]) stored).port = .working 7 none := by decide +kernel

def fields : ConfigFields := { lineWidth := 40, debounce := 15, settle := 0, handoff := 10, rows := 8, reviewIdle := 121 }

def loading (last : LastKey) (s : State) : State :=
  inCtl (fun c => { c with
    lastKey := last, openSector := some (0, 16), keyTable := [{ sector := 0, firstKey := [3], slots := 0 }]
    sectors := c.sectors.set 255 .config }) s

theorem test_witness_MaintenanceRequestsAreServed :
    (nextWork (asking (.loadEntry [] 0 []) maintained) = .direct ∧ keyOk [] = false) ∧
    (nextWork (asking (.loadEntry [3] 0 []) (loading (.key [3]) maintained)) = .direct ∧ keyOk [3] = true ∧ textOk [] = true ∧
      keyLt [3] [3] = false) ∧
    (orderOk (.key [2]) [3] = true ∧ 4092 + entrySize [3] [] + slotsOf (loading (.key [2]) maintained).ctl 0 + 1 ≤ 4096 ∧
      (writeEntryWords 0 16 [3] 0 [] (asking (.loadEntry [3] 0 []) (loading (.key [2]) maintained))).2 = true ∧
      (programWord (fieldWord 16) 0 4095 (writeEntryWords 0 16 [3] 0 [] (asking (.loadEntry [3] 0 []) (loading (.key [2]) maintained))).1).2 = true) ∧
    (nextWork (asking .protect (loading .none maintained)) = .direct ∧
      (asking .protect (loading .none maintained)).ctl.sectorState 255 = .config ∧
      readsMark maintained 255 markProtectA = false ∧ readsMark maintained 255 markProtectB = false ∧
      (programMark 255 markProtectA (asking .protect (loading .none maintained))).2 = true) ∧
    (nextWork (asking (.writeConfig fields) (loading .none maintained)) = .direct ∧
      (writeRecord fields 4092 (asking (.writeConfig fields) (loading .none maintained))).2 = true) := by decide +kernel

/-! ## Witnesses: the service port -/

def busyPort : State := { running with port := .working 7 none }
def readyPort : State := { running with port := .ready { tag := 7, code := .done, body := [] } }

theorem test_witness_FramesAreJudgedFirst :
    (serviceOf (.status 7 0) = some (7, 0, .status) ∧ ¬ portFree 7 0 .status busyPort) ∧
    (portFree 7 0 .status running ∧ portFree 7 5 .status readyPort) ∧
    ¬ frameFits 7 (.define [1] 0 (List.replicate 255 0x61#8)) ∧
    (frameFits 7 (.readJournal 17) ∧ (Request.readJournal 17).countOk = false ∧ (Request.readRecord 0 0).countOk = false ∧
      (Request.readRecord 0 9).countOk = false) ∧
    (frameFits 7 .protect ∧ Request.protect.countOk = true ∧ Request.protect.maintenanceOnly = true ∧
      running.start ≠ .maintenance ∧ State.reset.start ≠ .maintenance) ∧
    (frameFits 7 .readMarks ∧ Request.readMarks.maintenanceOnly = false ∧ Request.readMarks.ownAnswer = false ∧
      State.reset.start = .storeScan ∧ portFree 7 0 .readMarks State.reset) := by decide +kernel

theorem test_witness_PortAnswersItsOwnRequests : portFree 7 0 .status State.reset ∧ portFree 7 0 .readAttention readyPort ∧
    portFree 7 0 (.maskAttention 0xFFFF) maintained ∧ portFree 7 0 (.ackAttention 0x3FF 8) running := by decide +kernel

theorem test_witness_DefineAndRetireAreQueued :
    portFree 7 0 (.define [3] 0 []) running ∧ frameFits 7 (.define [3] 0 []) ∧ frameFits 7 (.retire [3]) ∧
    running.start ≠ .storeScan ∧ (queued (List.replicate 3 retires) running).ctl.queue.length < 4 ∧
    4 ≤ (queued (List.replicate 4 retires) running).ctl.queue.length := by decide +kernel

theorem test_witness_DirectRequestsWait :
    (portFree 7 0 (.readEntry [3]) running ∧ frameFits 7 (.readEntry [3]) ∧ frameFits 7 (.readEntry []) ∧ keyOk [3] = true ∧
      keyOk [] = false) ∧
    (portFree 7 0 (.loadEntry [3] 0 []) maintained ∧ frameFits 7 (.loadEntry [3] 0 []) ∧ maintained.start = .maintenance ∧
      maintained.ctl.baseProtected = false ∧ (inCtl (fun c => { c with baseProtected := true }) maintained).ctl.baseProtected = true) ∧
    (portFree 7 0 (.writeConfig fields) maintained ∧ portFree 7 0 .protect maintained ∧ portFree 7 0 .eraseBase maintained ∧
      portFree 7 0 .unprotect maintained ∧ maintained.ctl.sectorState 255 ≠ .bad ∧
      (List.range 224).filter (fun i => decide (maintained.ctl.sectorState i ≠ .bad)) = 0 :: (List.range 223).map (· + 1)) := by
  decide +kernel

theorem test_witness_ReadRequestsCopyOut :
    running.start ≠ .storeScan ∧ portFree 7 0 (.readRecord 0xFFFFFF 8) running ∧ 1 ≤ (1 : Byte).toNat ∧ (8 : Byte).toNat ≤ 8 ∧
    portFree 7 0 .readMarks running ∧ portFree 7 0 .readFault running ∧ portFree 7 0 .clearFault running ∧
    portFree 7 0 (.readJournal 16) running ∧ (16 : Byte).toNat ≤ 16 := by decide +kernel

def displayed : State := { running with pen := { running.pen with state := none } }

theorem test_witness_SessionRequests :
    running.start ≠ .storeScan ∧ portFree 7 0 .openSession running ∧ running.pen.state = some .outside ∧
    displayed.pen.state = none ∧ (atPen .shadow).pen.state = some .shadow ∧ PenState.shadow ≠ .outside ∧
    portFree 7 0 .closeSession (atPen .requesting) ∧ passToSelf (atPen .requesting) = false ∧
    (atPen .releasing).pen.state = some .releasing ∧ passToSelf (atPen .releasing) = false ∧
    (atPen .releasing).trans.forced = .clear ∧
    ({ atPen .releasing with trans := { running.trans with mode := .looking } } : State).trans.mode = .looking ∧
    (atPen .handing).pen.state = some .handing ∧ (atPen .catchingUp).pen.state = some .catchingUp := by decide +kernel

theorem test_witness_PollsAndBadFrames :
    running.port = .idle ∧ busyPort.port = .working 7 none ∧ readyPort.port = .ready { tag := 7, code := .done, body := [] } ∧
    (running.port.afterClocks 3 = .idle ∧ parseFrame [0, 97, 1] = .badFrame 0) ∧
    (running.port.afterClocks 5 = .idle ∧ parseFrame [0, 3, 99, 9, 0x91] = .badRequest 9) := by decide +kernel

def masking : Attention := { Attention.reset with mask := 0x3FF }

theorem test_witness_AttentionLineFollowsTheSet :
    (Cause.configFault ≠ .defineDone ∧ Cause.configFault ≠ .defineRefused ∧ masking.isMasked .configFault = true ∧
      Attention.reset.isMasked .storeFault = false) ∧
    Attention.reset.isMasked (if ({ id := 1, reason := none } : DefOutcome).reason.isNone then .defineDone else .defineRefused) = false ∧
    Attention.reset.isMasked (if ({ id := 1, reason := some .absent } : DefOutcome).reason.isNone then .defineDone else .defineRefused) = false := by
  decide

theorem test_witness_ScanEndsInRunningOrMaintenance : State.reset.start = .storeScan ∧
    State.reset.att.isMasked .linkState = false ∧ ∀ tag r, State.reset.port ≠ .working tag (some r) :=
  ⟨rfl, rfl, fun _ _ h => by cases h⟩

/-! ## Witnesses: the Link, the pen and the screen -/

def linked (f : Link → Link) (s : State) : State := { s with link := f { s.link with mode := .joined, latest := some beaconOfTwo } }

def asStation (n : Station) (s : State) : State := { s with straps := { s.straps with station := n } }

def inMode (m : TransMode) (s : State) : State := { s with trans := { s.trans with mode := m } }

def badCell : RxCell := { cellOf 0 with w0 := { bits := 0, cls := .uncorrectable } }

/-- The cells of `beaconOfTwo`, one word of them corrected. -/
def beaconCells : RxCell × RxCell :=
  ({ cellOf (encodeBeacon beaconOfTwo) with w1 := { (cellOf (encodeBeacon beaconOfTwo)).w1 with cls := .corrected } },
    cellOf (encodeCont beaconOfTwo))

theorem test_witness_BeaconIsTaken :
    takesBeacon beaconCells.1 beaconCells.2 beaconOfTwo (linked id running) ∧
    (linked id running).link.roster.length = 8 ∧
    takesBeacon beaconCells.1 beaconCells.2 beaconOfTwo (linked (fun l => { l with role := .timekeeper }) (asStation 2 running)) :=
  by decide +kernel

/-- A beacon as it is received. -/
def heardBeacon (b : Beacon) : RxCell × RxCell := (cellOf (encodeBeacon b), cellOf (encodeCont b))

/-- A station of session 5, epoch 1, in a state of its pen, that takes `b`. -/
def takesIn (b : Beacon) (s : State) : Prop := takesBeacon (heardBeacon b).1 (heardBeacon b).2 b s

def inSession (p : PenState) : State :=
  linked id { running with pen := { running.pen with session := 5, epoch := 1, holder := some 2, state := some p } }

def noneBeacon_ : Beacon := { beaconOfTwo with holder := none }
def newEpoch : Beacon := { beaconOfTwo with epoch := 2, startRsn := 9, cut := 40 }
def otherSession : Beacon := { beaconOfTwo with session := 9 }
def sessionZero_ : Beacon := { beaconOfTwo with session := 0, holder := none }
def grantBeacon (epoch : Epoch) (n : Nat) : Beacon :=
  { beaconOfTwo with holder := some 0, epoch := epoch, startRsn := n, plan := [(0, .writer), (1, .display), (2, .writer)] }

theorem test_witness_followed_beacons :
    (takesIn beaconOfTwo (inSession .shadow) ∧ beaconOfTwo.session ≠ 0 ∧ beaconOfTwo.session = (inSession .shadow).pen.session ∧
      beaconOfTwo.holder ≠ some (inSession .shadow).straps.station ∧ holdsPen .shadow = false ∧
      beaconOfTwo.epoch = (inSession .shadow).pen.epoch ∧ beaconOfTwo.holder = (inSession .shadow).pen.holder) ∧
    (takesIn noneBeacon_ (inSession .shadow) ∧ noneBeacon_.holder = none) ∧
    (takesIn newEpoch (inSession .shadow) ∧ newEpoch.holder ≠ none ∧ newEpoch.epoch ≠ (inSession .shadow).pen.epoch ∧
      (inSession .shadow).pen.reorder = []) := by
  unfold takesIn; decide +kernel

/-- Grants: of the followed record's next RSN, of a later one, and in a session that is adopted by it. -/
theorem test_witness_grants :
    (takesIn (grantBeacon 2 1) (inMode .ready (inSession .requesting)) ∧
      (grantBeacon 2 1).holder = some (inSession .requesting).straps.station ∧
      (grantBeacon 2 1).epoch ≠ (inSession .requesting).pen.epoch ∧
      (grantBeacon 2 1).startRsn - 1 ≤ (inSession .requesting).pen.applied) ∧
    (takesIn (grantBeacon 2 9) (inMode .ready (inSession .requesting)) ∧
      (inMode .ready (inSession .requesting)).trans.mode = .ready ∧
      (inMode .ready (inSession .requesting)).pen.applied < (grantBeacon 2 9).startRsn - 1) ∧
    (takesIn (grantBeacon 1 1) (inMode .ready (linked id running)) ∧
      (grantBeacon 1 1).session ≠ (inMode .ready (linked id running)).pen.session) := by
  unfold takesIn; decide +kernel

theorem test_witness_BeaconOrCellNotTaken :
    (receives (linked id running) = true ∧ (linked id running).link.rx = .idle ∧ beaconIn badCell (cellOf 0) = none ∧
      beaconIn (cellOf 0) (cellOf 0) = none) ∧
    (receives (linked id (asStation 1 running)) = true ∧ beaconIn beaconCells.1 beaconCells.2 = some beaconOfTwo ∧
      beaconOfTwo.timekeeper = (linked id (asStation 1 running)).straps.station) ∧
    ((linked (fun l => { l with role := .timekeeper }) running).link.role = .timekeeper ∧
      receives (linked (fun l => { l with role := .timekeeper }) running) = true ∧
      running.straps.station.val < beaconOfTwo.timekeeper.val) ∧
    (receives (linked (fun l => { l with rx := .window headerOfWriter 16 }) running) = true ∧
      (linked (fun l => { l with rx := .window headerOfWriter 16 }) running).link.rx = .window headerOfWriter 16) ∧
    (receives (linked (fun l => { l with rx := .beacon }) running) = true ∧
      (linked (fun l => { l with rx := .beacon }) running).link.rx = .beacon ∧ Rx.beacon ≠ .idle ∧
      ∀ h n, Rx.beacon ≠ .window h n) := by
  refine ⟨by decide +kernel, by decide +kernel, by decide +kernel, by decide +kernel, by decide +kernel, rfl, by decide, ?_⟩
  intro h n e; cases e

/-- A header of station 2, which the plan lists, with a request for the pen. -/
def requesterHeader : Header := { headerOfWriter with station := 2, applied := 0, need := 0, recordEnd := { rln := 0, col := 0 } }

def following (p : PenState) (s : State) : State :=
  linked id { s with pen := { s.pen with session := 5, epoch := 1, holder := some 2, state := some p } }

theorem test_witness_HeaderIsTaken :
    receives (following .holding running) = true ∧ (following .holding running).link.rx = .idle ∧
    headerIn (cellOf (encodeHeader requesterHeader)) = some requesterHeader ∧
    requesterHeader.station ≠ running.straps.station ∧ (following .holding running).link.roster.length = 8 ∧
    (following .holding running).pen.state = some .holding ∧ requesterHeader.request = .penReq ∧
    requesterHeader.role = .writer ∧ requesterHeader.session = (following .holding running).pen.session ∧
    inPlan (planOf (following .holding running)) requesterHeader.station = true ∧
    (following .holding running).pen.strokeQuiet < (following .holding running).settings.handoff * 1000 ∧
    (following .shadow running).pen.state ≠ some .holding := by decide +kernel

/-- A station in SHADOW that hears the holder's window, `n` cells after its header. -/
def hearing (n : Nat) (s : State) : State :=
  let t := following .shadow s
  { t with link := { t.link with rx := .window requesterHeader n } }

def cellsOf (i : Item) : List RxCell := (encodeItem i).map cellOf

theorem test_witness_StreamItemIsApplied :
    (receives (hearing 14 running) = true ∧ (hearing 14 running).link.rx = .window requesterHeader 14 ∧
      (cellsOf (itemOf 1 (.append endPoint [0x61#8]))).all cellUsable = true ∧
      14 + (cellsOf (itemOf 1 (.append endPoint [0x61#8]))).length ≤ budgetOf requesterHeader (hearing 14 running) ∧
      acceptsItem requesterHeader 1 (hearing 14 running) = true ∧
      decodeBreak (cellValue (cellOf ((encodeItem (itemOf 1 (.brk endPoint))).headD 0))) = some (itemOf 1 (.brk endPoint)) ∧
      decodeCut (cellValue (cellOf ((encodeItem (itemOf 2 (.cut endPoint))).headD 0))) = some (itemOf 2 (.cut endPoint)) ∧
      decodePass (cellValue (cellOf ((encodeItem (itemOf 1 (.pass 0 endPoint))).headD 0))) = some (itemOf 1 (.pass 0 endPoint))) ∧
    (encodeItem (itemOf 1 (.append endPoint [0x61#8]))).length = 2 ∧
    (let c := cellsOf (itemOf 1 (.append endPoint [0x61#8]))
     decodeAppend (cellValue (c.headD (cellOf 0))) (cellValue (c.getLastD (cellOf 0))) = some (itemOf 1 (.append endPoint [0x61#8]))) ∧
    ((itemOf 1 (.brk endPoint)).rsn = (hearing 14 running).pen.applied + 1 ∧ (hearing 14 running).pen.reorder = [] ∧
      (itemOf 0 (.brk endPoint)).rsn ≤ (hearing 14 running).pen.applied ∧
      (hearing 14 running).pen.applied + 1 < (itemOf 2 (.brk endPoint)).rsn ∧ (hearing 14 running).pen.reorder.length < 16) := by
  decide +kernel

def someGap : GapItem := { first := 1, last := 16777215, epoch := 1 }
def laterGap : GapItem := { first := 2, last := 3, epoch := 1 }
def someMark : MarkItem := { origin := 2, id := 9, first := 0, last := 0 }

theorem test_witness_GapAndMarkAreTaken :
    (receives (hearing 15 running) = true ∧ 15 + 1 ≤ budgetOf requesterHeader (hearing 15 running) ∧
      cellUsable (cellOf (encodeGap someGap)) = true ∧ decodeGap (cellValue (cellOf (encodeGap someGap))) = some someGap ∧
      acceptsItem requesterHeader someGap.epoch (hearing 15 running) = true ∧
      someGap.first ≤ (hearing 15 running).pen.applied + 1 ∧ (hearing 15 running).pen.applied + 1 ≤ someGap.last ∧
      (∀ i ∈ (hearing 15 running).pen.reorder, i.rsn ≤ someGap.last)) ∧
    (decodeGap (cellValue (cellOf (encodeGap laterGap))) = some laterGap ∧
      (hearing 15 running).pen.applied + 1 < laterGap.first) ∧
    (decodeMark (cellValue (cellOf (encodeMark someMark))) = some someMark ∧
      acceptsMark requesterHeader (hearing 15 running) = true) := by decide +kernel

def sendingUnit (u : Option TxUnit) (join : Bool) (s : State) : State :=
  let t : Sending :=
    { join := join, header := requesterHeader, current := u, resends := [], markLeft := false, cells := 2, asHolder := true }
  linked (fun l => { l with sending := some t }) s

def timekeeping : State :=
  linked (fun l => { l with role := .timekeeper, phase := .ended, sinceBeacon := 5 }) (asStation 1 running)

def backingOff : State := linked (fun l => { l with role := .backoff, backoff := .running 3999 }) running

theorem test_witness_CollisionEndsTheSending :
    ((sendingUnit none true running).link.sending.isSome = true ∧ (sendingUnit none false running).link.sending.isSome = true) ∧
    timekeeping.link.sending = none ∧ beaconDue timekeeping = true ∧ backingOff.link.sending = none ∧
    backoffDue backingOff = true := by decide +kernel

theorem test_witness_SentUnitLeavesItsQueue :
    (let i := itemOf 5 (.brk endPoint)
     let s := sendingUnit (some (.item i)) false { running with pen := { running.pen with outbound := [i] } }
     s.link.sending.map Sending.current = some (some (.item i)) ∧ s.pen.outbound = i :: []) ∧
    (let s := sendingUnit (some (.mark someMark)) false { running with pen := { running.pen with markQueue := [someMark] } }
     s.link.sending.map Sending.current = some (some (.mark someMark)) ∧ s.pen.markQueue = someMark :: []) ∧
    (let i := itemOf 5 (.brk endPoint)
     (sendingUnit (some (.resend i)) false running).link.sending.map Sending.current = some (some (.resend i))) := by
  decide +kernel

def inPhase (p : RoundPhase) : State := linked (fun l => { l with phase := p }) running

theorem test_witness_AbsentGapMovesTheRoundOn :
    (hears (inPhase (.window [1, 2])) = true ∧ inFlight (inPhase (.window [1, 2])) = false ∧
      (inPhase (.window [1, 2])).link.phase = .window [1, 2] ∧ (2 : Station) ≠ running.straps.station) ∧
    ((inPhase (.window [1, 0])).link.phase = .window [1, running.straps.station] ∧
      (inPhase (.window [1, 0])).link.mode = .joined ∧ (inPhase (.window [1, 0])).pen.state ≠ some .catchingUp) ∧
    (inPhase (.window [2])).link.phase = .window [2] ∧ (inPhase .joinSlot).link.phase = .joinSlot := by decide +kernel

/-- A CATCHING-UP writer before its own window, its record short of the epoch's start position. -/
def catching : State :=
  let s := { inPhase (.window [1, 0]) with pen := { running.pen with session := 5, state := some .catchingUp, startRsn := 9
                                                                     startPos := { rln := 0, col := 3 } } }
  { s with trans := { s.trans with mode := .catchingUp, grant := some 4 } }

theorem test_witness_catching_up :
    hears catching = true ∧ inFlight catching = false ∧ catching.link.phase = .window [1, catching.straps.station] ∧
    catching.link.mode = .joined ∧ catching.pen.state = some .catchingUp ∧ catching.pen.closing = false ∧
    catching.trans.mode = .catchingUp ∧ catching.trans.grant = some 4 ∧ catching.record.lines ≠ [] ∧
    posLt catching.record.endPos catching.pen.startPos = true := by decide +kernel

/-- Station 1 as a timekeeper whose latest beacon is `b`, in session 5 and epoch 1, with the latest header of station 2. -/
def keeping (b : Beacon) (h : Header) (s : State) : State :=
  let k := linked (fun l => { l with role := .timekeeper, phase := .ended, sinceBeacon := 5 }) (asStation 1 s)
  { k with link := { k.link with latest := some b }.recordHeader h 0, pen := { k.pen with session := 5, epoch := 1 } }

def pendingTo (n : Station) (s : State) : State :=
  { s with pen := { s.pen with passPending := some { target := n, rsn := 8, recordEnd := endPoint, cut := 3 } } }

/-- The beacon such a timekeeper sends. -/
def sent (s : State) : Option Beacon :=
  match exec .beaconDue s with
  | .next t => t.link.latest
  | _ => none

def writerHeader (r : ReqCode) : Header := { headerOfWriter with station := 2, request := r, applied := 8 }

/-- Each case of a timekeeper's beacon: no session and no request, an OPEN-REQ, a CLOSE-REQ of the holder, a pass applied,
a holder that stays, a holder that has left, NONE with a PEN-REQ, with a second gone by, and before that. -/
theorem test_witness_TimekeeperElectionAndBeacon :
    beaconDue timekeeping = true ∧ backoffDue backingOff = true ∧ backingOff.link.wasTimekeeper = false ∧
    ((keeping sessionZero_ (writerHeader .none) running).link.latest = some sessionZero_ ∧
      beaconDue (keeping sessionZero_ (writerHeader .none) running) = true) ∧
    ((sent (keeping sessionZero_ (writerHeader .openReq) running)).map (fun b => (b.session, b.holder, b.epoch)) = some (3, some 2, 1) ∧
      (sent (keeping sessionZero_ (writerHeader .none) running)).map (fun b => (b.session, b.holder)) = some (0, none)) ∧
    ((sent (keeping beaconOfTwo (writerHeader .closeReq) running)).map (fun b => (b.session, b.holder)) = some (0, none) ∧
      (sent (pendingTo 2 (keeping beaconOfTwo (writerHeader .none) running))).map (fun b => (b.holder, b.epoch, b.startRsn)) =
        some (some 2, 2, 9) ∧
      (sent (keeping beaconOfTwo (writerHeader .none) running)).map (fun b => (b.holder, b.epoch)) = some (some 2, 1) ∧
      (sent (keeping { beaconOfTwo with plan := [(1, .display)] } (writerHeader .none) running)).map (fun b => b.holder) =
        some none ∧
      inPlan (composePlan 4 (keeping beaconOfTwo (writerHeader .none) running)) 3 = false) ∧
    ((sent (keeping noneBeacon_ (writerHeader .penReq) running)).map (fun b => (b.holder, b.startRsn)) = some (some 2, 9) ∧
      (sent { keeping noneBeacon_ (writerHeader .none) running with
        pen := { (keeping noneBeacon_ (writerHeader .none) running).pen with noneSince := some 0 }
        clock := { linkTime := 1000, synced := true } }).map (fun b => (b.holder, b.startRsn)) = some (some 2, 9) ∧
      (sent (keeping noneBeacon_ (writerHeader .none) running)).map (fun b => (b.holder, b.epoch)) = some (none, 1)) ∧
    (hears (linked (fun l => { l with quiet := some 0 }) running) = true ∧
      (linked (fun l => { l with quiet := some 0 }) running).link.role = .following ∧
      (linked (fun l => { l with quiet := some 0 }) running).link.quiet = some 0) := by decide +kernel

def pressed : Button := { down := true, count := 0, pressed := true }

def pressing (s : State) : State :=
  { s with buttons := { relief := pressed, up := pressed, down := pressed, live := pressed, mark := pressed } }

def passPendingTo (n : Station) (s : State) : State :=
  { s with pen := { s.pen with passPending := some { target := n, rsn := 1, recordEnd := endPoint, cut := 0 } } }

def quietFor (n : Nat) (s : State) : State := { s with pen := { s.pen with strokeQuiet := n } }

/-- RELEASING, quiet for the handoff quiet time, with station 2 asking for the pen or not. -/
def releasing (asked : Bool) : State :=
  let s := quietFor 3000 (inMode .ready (following .releasing running))
  if asked then { s with link := s.link.recordHeader requesterHeader 0 } else s

theorem test_witness_ReliefAndHandoffQuiet :
    ((pressing (atPen .shadow)).buttons.relief.pressed = true ∧ (pressing (atPen .shadow)).pen.state = some .shadow) ∧
    ((pressing (passPendingTo 3 (atPen .requesting))).pen.state = some .requesting ∧ (3 : Station) ≠ running.straps.station) ∧
    ((passPendingTo 0 (atPen .requesting)).pen.passPending.map PassPending.target = some running.straps.station) ∧
    ((inMode .looking (atPen .releasing)).pen.state = some .releasing ∧ (atPen .releasing).pen.closing = false ∧
      (atPen .releasing).trans.forced = .clear ∧ (inMode .looking (atPen .releasing)).trans.mode = .looking) ∧
    (releasing true).settings.handoff * 1000 ≤ (releasing true).pen.strokeQuiet ∧
    ((releasing true).pen.state = some .releasing ∧ (releasing true).pen.closing = false ∧ (releasing true).trans.forced = .clear ∧
      (releasing true).trans.mode = .ready ∧ (releasing true).trans.run = [] ∧ (releasing true).trans.retake = [] ∧
      passTarget (releasing true) = some 2) ∧
    passTarget (releasing false) = none := by decide +kernel

/-- Pen loss in HOLDING and in HANDING, where the pass granted is the own one or not, and a void-pass return. -/
theorem test_witness_PenLossAndVoidPass :
    (takesIn noneBeacon_ (inSession .holding) ∧ noneBeacon_.session = (inSession .holding).pen.session ∧
      noneBeacon_.holder ≠ some (inSession .holding).straps.station ∧ holdsPen .holding = true ∧
      (inSession .holding).trans.handOver = none) ∧
    (takesIn newEpoch (passPendingTo 2 (inSession .handing)) ∧ holdsPen .handing = true ∧
      ({ newEpoch with startRsn := 2 } : Beacon).startRsn = 1 + 1 ∧ newEpoch.startRsn ≠ 1 + 1) ∧
    (let s := inMode .ready (passPendingTo 5 { inSession .handing with pen := { (inSession .handing).pen with holder := some 0 } })
     takesIn (grantBeacon 1 1) s ∧ (grantBeacon 1 1).epoch = s.pen.epoch ∧ (grantBeacon 1 1).holder = some s.straps.station ∧
       s.pen.holder = (grantBeacon 1 1).holder ∧ s.pen.state = some .handing ∧ inPlan (grantBeacon 1 1).plan 5 = false ∧
       s.trans.mode = .ready) := by
  unfold takesIn; decide +kernel

def reviewing (top : Nat) (s : State) : State := { s with screen := { s.screen with view := .review top, idle := some 0 } }

theorem test_witness_ButtonsMoveTheView :
    (pressing running).buttons.up.pressed = true ∧ (pressing running).buttons.down.pressed = true ∧
    (pressing running).screen.view = .live ∧ (pressing (reviewing 0 running)).screen.view = .review 0 ∧
    (pressing running).buttons.live.pressed = true ∧ (reviewing 0 running).screen.idle = some 0 := by decide +kernel

def marking (queued : Nat) (s : State) : State :=
  { s with
    pen := { s.pen with session := 5, markQueue := List.replicate queued someMark }
    screen := { s.screen with pendingStart := some 7 } }

theorem test_witness_MarkStartsEndsOrIsRefused :
    (pressing running).buttons.mark.pressed = true ∧ (pressing running).pen.session = 0 ∧
    ((pressing (following .shadow running)).pen.session ≠ 0 ∧ (pressing (following .shadow running)).screen.pendingStart = none) ∧
    ((marking 4 running).pen.session ≠ 0 ∧ (marking 4 running).screen.pendingStart = some 7 ∧
      (marking 4 running).pen.markQueue.length = 4 ∧ (marking 3 running).pen.markQueue.length < 4) := by decide +kernel

/-- A record of one held line, marked and with a gap. -/
def withLine : State :=
  { running with record := { running.record with lines := [{ line 0 5 with marked := true, gap := true }] } }

theorem test_witness_ScreenRowsAreWritten :
    (running.start ≠ .storeScan ∧ running.screen.dirty = 0 :: (List.range 15).map (· + 1) ∧ running.screen.writing = none ∧
      ({ running.screen with writing := some (31, []) } : Screen).writing = some (31, []) ∧ ScreenGood running) ∧
    (withLine.straps.role = .writer ∧ withLine.composer.mode = .shadow ∧ withLine.composer.shadow = [] ++ [{ num := 0, text := [] }] ∧
      15 + 1 = withLine.screen.rows ∧ 0 + 14 = withLine.record.lastRln + 14 ∧
      withLine.record.lines.find? (fun l => decide (l.rln = 0)) = some { line 0 5 with marked := true, gap := true } ∧
      rowContent withLine 14 = spaces 6 ++ [0x31#8, 0x3A#8, 0x31#8, 0x20#8] ++ padRight 64 (wordOf 5) ++
        [0x20#8, 0x4D#8, 0x20#8, 0x47#8, 0x20#8, 0x20#8] ∧
      rowContent withLine 3 = spaces 80) := by decide +kernel

/-- Rows of which none differs from its content. -/
def shownAll : State :=
  { running with screen := { running.screen with dirty := [], shown := (List.range 16).map (fun i => some (rowContent running i)) } }

theorem test_witness_RowsShown : ScreenGood shownAll ∧ RowsShown shownAll ∧ step shownAll = .next shownAll := by
  refine ⟨by decide +kernel, fun _ i h => Or.inr ?_, rfl⟩
  have all : (List.range 16).all (fun i => decide (shownAll.screen.lastContent i = some (rowContent shownAll i))) = true := by
    decide +kernel
  exact of_decide_eq_true (List.all_eq_true.mp all i (List.mem_range.mpr h))

/-! ## Witnesses: further clauses, each with a state and operands that meet its hypotheses -/

def stuckIn (s : State) : State := { s with script := stuck.script }

/-- The entry of key 3 with a text word that cannot be read. -/
def unreadable : State :=
  { stored with store := stored.store.write (addrOf 224 18) { bits := 0, check := .twoWrong } }

/-- O34: a copy that fails, the first time and on its retry, one without room, one that cannot be read, and a COPY-TARGET
that will not take. -/
theorem test_witness_copies :
    (nextHeld (copying stored).ctl.directory 224 16 = some 16 ∧ (copying stored).ctl.comp.failed = none ∧
      (writeEntryWords 226 16 [3] 0 [0x61#8] (stuckIn (copying stored))).2 = false ∧
      nextWork (comp (fun c => { c with failed := some 16 }) (copying stored)) = .compaction) ∧
    (nextHeld (comp (fun c => { c with targetAppend := 4094 }) (copying stored)).ctl.directory 224 16 = some 16 ∧
      4096 < 4094 + entrySize [3] [0x61#8]) ∧
    (nextWork (copying unreadable) = .compaction ∧ nextHeld (copying unreadable).ctl.directory 224 16 = some 16 ∧
      dirKeyAt (copying unreadable).ctl.directory place = some [3] ∧
      (readEntryAt 224 16 (copying unreadable)).2 = .badText [3] false) ∧
    (programMark 226 markCopyTarget (stuckIn (inCtl (fun c => { c with reserve := none }) (fullSectors 3 stored)))).2 = false := by
  decide +kernel

/-- O35: the directory step with one copied entry, and a state that keeps the law of the copy list. -/
theorem test_witness_directory_step :
    (let s := sealing .directory 20
     CopiesGood s ∧ (16, 16) ∈ s.ctl.comp.copies ∧
       dirKeyAt s.ctl.directory { sector := s.ctl.comp.victim, word := 16 } = some [3] ∧
       s.ctl.comp.target ≠ s.ctl.comp.victim ∧ s.ctl.accounts.length = 31) ∧
    (programMark 225 markFull (sealing (.full 225) 20)).2 = true ∧ (programMark 225 markFull (stuckIn (sealing (.full 225) 20))).2 = false ∧
    (CopiesGood (copying stored) ∧ step (copying stored) = .next (copying stored)) := by
  refine ⟨by decide +kernel, by decide +kernel, by decide +kernel, by decide +kernel, rfl⟩

/-- O36: failed words, pulses and formats; the erases of ERASE-BASE and UNPROTECT; the record, and BASE-CLEARED. -/
theorem test_witness_erases :
    (nextToZero 224 0 (erasing 224 .prezero (.prezero 0) stored) = some 0 ∧
      (programWord (fieldWord 0) 224 0 (stuckIn (erasing 224 .prezero (.prezero 0) stored))).2 = false) ∧
    ((fun script : StoreScript => script.erase.head?) { prog := [], erase := [[(5#12, fieldWord 7)]] } = some [(5#12, fieldWord 7)] ∧
      fieldWord 7 ≠ blankWord) ∧
    (formatSector 254 (stuckIn (erasing 254 .erase .format running))).2 = false ∧
    (nextWork (asking (.eraseBase [0, 1] (.prezero 4096)) maintained) = .direct ∧
      nextToZero 0 4096 (asking (.eraseBase [0, 1] (.prezero 4096)) maintained) = none ∧
      nextWork (asking (.eraseBase [0, 1] (.pulses 15)) maintained) = .direct ∧
      nextWork (asking (.unprotect [255] .format false) maintained) = .direct) ∧
    (let s := asking (.unprotect [255] (.record true) false) (inCtl (fun c => { c with configRecord := some fields, configAppend := 16 }) maintained)
     StoreGood s ∧ s.ctl.sectors.length = 256 ∧ s.ctl.accounts.length = 31 ∧ nextWork s = .direct ∧ s.ctl.configRecord = some fields ∧
       s.ctl.configAppend + 4 ≤ 4096 ∧ (writeRecord fields 16 s).2 = true ∧ (writeRecord fields 16 (stuckIn s)).2 = false) ∧
    (let s := asking (.unprotect [] .cleared false) maintained
     nextWork s = .direct ∧ (programMark 255 markBaseCleared s).2 = true ∧ (programMark 255 markBaseCleared (stuckIn s)).2 = false) := by
  decide +kernel

def publishing (outbound : List Item) (s : State) : State :=
  { s with
    trans := { s.trans with publishing := true }, composer := { s.composer with mode := .publish }
    pen := { s.pen with outbound := outbound } }

/-- O16, O19: a unit and a CUT handed over while PUBLISHING, and a stall. -/
theorem test_witness_publishing :
    (let s := publishing (manyItems 56) (taking (stroke 1 2048) { running.trans with undo := [someUnit] })
     takesNext (stroke 1 2048) s ∧ s.trans.run = [] ∧ s.trans.undo = [] ++ [someUnit] ∧ 8 ≤ s.pen.freePlaces ∧ s.pen.nextRsn < 16777215) ∧
    (let s := publishing (manyItems 57) (taking (stroke 1 2048) { running.trans with undo := [someUnit] })
     takesNext (stroke 1 2048) s ∧ s.pen.freePlaces < 8) ∧
    (let s := publishing (manyItems 56) (settled true [])
     s.trans.settle = some 0 ∧ s.trans.mode = .ready ∧ s.trans.retake = [] ∧ s.trans.run ≠ [] ∧ s.trans.forced = .clear ∧
       8 ≤ s.pen.freePlaces ∧
       let u := resolvedUnit s.trans.run s.trans.results
       u.text.isEmpty = false ∧ passesRlnMax s.settings.lineWidth s.composer.fmt u s.record.endPos = false ∧
       s.pen.nextRsn + (unitItems s.settings.lineWidth s.composer.fmt u s.record.endPos).length ≤ 16777215) ∧
    (let s := publishing (manyItems 56) (stalled [])
     s.trans.mode = .stalled ∧ s.trans.handOver = some (.unit someUnit) ∧ 8 ≤ s.pen.freePlaces ∧ s.trans.forced = .clear) ∧
    (let s := publishing [] { stalled [] with trans := { (stalled []).trans with handOver := some (.cut endPoint FormatState.clear []) } }
     s.trans.mode = .stalled ∧ s.trans.handOver = some (.cut endPoint FormatState.clear []) ∧ s.pen.nextRsn < 16777215) := by
  decide +kernel

/-- O21: each item a holder queues, the last RSN and the one after it, and a PASS that waits. -/
theorem test_witness_queued_items :
    running.pen.nextRsn ≤ 16777215 ∧ { running.pen with nextRsn := 16777216 }.nextRsn > 16777215 ∧
    (let s := { passing with pen := { passing.pen with nextRsn := 16777215 } }
     s.pen.state = some .releasing ∧ s.pen.closing = false ∧ s.pen.passTo = some (3, 50) ∧ s.pen.outbound.length < 64 ∧
       s.pen.nextRsn ≤ 16777215 ∧ s.trans.handOver = none) ∧
    64 ≤ { passing.pen with outbound := manyItems 64 }.outbound.length ∧
    16777215 < { passing.pen with nextRsn := 16777216 }.nextRsn := by decide +kernel

def defining (s : State) : State := queued [defines [3]] s

/-- One FREE sector, the reserve, and no other. -/
def onlyReserve (s : State) : State :=
  inCtl (fun c => { c with sectors := c.sectors.set 226 .free, reserve := some 226 }) s

/-- O31: an old entry retired, waiting for space, STORE-FULL, an entry without room, and STORE-FAULT. -/
theorem test_witness_define :
    (let s := defining (repairing stored)
     defineCheck [3] [0x61#8] s.ctl.directory = none ∧
       (placeEntry [3] 0 [0x61#8] s).2 = .at_ { sector := 224, word := 19 } ∧ dirLoc s.ctl.directory [3] = some place ∧
       (programMark 224 (retiredAt 16) (placeEntry [3] 0 [0x61#8] s).1).2 = true ∧ StoreGood s ∧ addrOf 224 16 < 1048576 ∧
       (List.range 3).all (fun i => ! headersTouched (some place) s (addrOf 224 (19 + i)))) ∧
    ((placeEntry [3] 0 [0x61#8] (defining (fullSectors 0 running))).2 = .noSector ∧
      triggerHolds (fullSectors 0 running).ctl = true ∧ (fullSectors 0 running).ctl.comp.state = .idle) ∧
    ((placeEntry [3] 0 [0x61#8] (defining running)).2 = .noSector ∧ running.ctl.comp.state = .idle ∧
      triggerHolds running.ctl = false) ∧
    ((placeEntry [3] 0 [0x61#8] (stuckIn (defining (repairing stored)))).2 = .noRetry) ∧
    (let s := onlyReserve (repairing stored)
     (∀ n ∈ s.ctl.sessionIn .free, s.ctl.reserve = some n) ∧ s.ctl.activeSector = some 224 ∧
       (writeEntryWords 224 19 [3] 0 [0x61#8] s).2 = true ∧ (writeEntryWords 224 19 [3] 0 [0x61#8] (stuckIn s)).2 = false) ∧
    (onlyReserve running).ctl.activeSector = none := by decide +kernel

/-- O44: a CLOSE-SESSION while the pass names this station, and at a holder in other modes. -/
theorem test_witness_close :
    ((passPendingTo 0 (atPen .requesting)).pen.passPending.map PassPending.target = some running.straps.station ∧
      PenState.requesting ≠ .outside) ∧
    portFree 7 0 .closeSession (atPen .holding) ∧
    ((inMode .ready (atPen .holding)).trans.mode = .ready ∧ (atPen .holding).trans.retake = [] ∧ (atPen .holding).trans.run = [] ∧
      (atPen .holding).trans.forced = .clear ∧ (inMode .stalled (atPen .holding)).trans.mode ≠ .ready) := by decide +kernel

/-- O44: a session adopted under another holder, the session left, and session 0 with the pen, with a session and with
none. -/
theorem test_witness_sessions :
    (takesIn otherSession (inSession .shadow) ∧ otherSession.session ≠ 0 ∧
      otherSession.session ≠ (inSession .shadow).pen.session ∧ (inSession .shadow).pen.left ≠ some otherSession.session ∧
      otherSession.holder ≠ some (inSession .shadow).straps.station) ∧
    (let s := { inSession .outside with pen := { (inSession .outside).pen with session := 0, left := some 5 } }
     takesIn beaconOfTwo s ∧ beaconOfTwo.session ≠ s.pen.session ∧ s.pen.left = some beaconOfTwo.session ∧ holdsPen .outside = false) ∧
    (takesIn sessionZero_ (inSession .holding) ∧ sessionZero_.session = 0 ∧ (inSession .holding).pen.session ≠ 0 ∧
      holdsPen .holding = true ∧ (inSession .holding).trans.handOver = none ∧ holdsPen .handing = true) ∧
    (takesIn sessionZero_ (inSession .shadow) ∧ holdsPen .shadow = false) ∧
    (takesIn sessionZero_ (linked id running) ∧ running.pen.session = 0 ∧ running.pen.state = some .outside) := by
  unfold takesIn; decide +kernel

def written (n w : Nat) (v : StoreWord) (s : State) : State := { s with store := s.store.write (addrOf n w) v }

/-- A config sector with one live record, at its first place. -/
def configured : State := (writeRecord fields 16 (inCtl (fun c => { c with sectors := c.sectors.set 255 .config }) running)).1

/-- O47: the walk's four ends, an entry of a key met before, one whose text is lost, the config record, the sector open for
loading and its fill point. -/
theorem test_witness_scan :
    (isBlankHeader (wordAt stored 224 19) = true ∧
      expectedClass (headerFits 19) (wordAt (written 224 19 { bits := 0, check := .twoWrong } stored) 224 19) = .uncorrectable ∧
      isBlankHeader (wordAt (written 224 19 { bits := 0, check := .twoWrong } stored) 224 19) = false) ∧
    (isBlankHeader (wordAt stored 224 16) = false ∧ expectedClass (headerFits 16) (wordAt stored 224 16) ≠ .uncorrectable ∧
      (readsMark stored 224 (liveAt 16) && ! readsMark stored 224 (retiredAt 16)) = true ∧
      (readLive place stored).2 = .good [3] 0 [0x61#8] false ∧ dirLoc stored.ctl.directory [3] ≠ none ∧
      dirLoc running.ctl.directory [3] = none ∧ running.ctl.directory.length + recordsNeeded running.ctl.directory [3] ≤ 8192 ∧
      (readLive place unreadable).2 = .badText [3] false ∧
      readsMark (programMark 224 (retiredAt 16) stored).1 224 (retiredAt 16) = true) ∧
    (configured.ctl.sectorState 255 = .config ∧
      (List.range 1020).all (fun j => readsMark configured 255 (liveAt (16 + 4 * j)) == decide (j = 0)) = true ∧
      (List.range 1020).all (fun j => readsMark configured 255 (writingAt (16 + 4 * j)) == decide (j = 0)) = true) ∧
    ((loading .none maintained).ctl.keyTable.getLast? = some { sector := 0, firstKey := [3], slots := 0 } ∧
      (loading .none maintained).ctl.sectorState 0 ≠ .filling ∧
      (inCtl (fun c => { c with sectors := c.sectors.set 0 .filling }) (loading .none maintained)).ctl.sectorState 0 = .filling ∧
      ({ sector := 0, firstKey := [3], slots := 2 } : KeyRow).slots ≠ 0 ∧
      (probeSlot 0 1 1 based).2 = .key 19 [3, 5] { damaged := false, corrected := false } ∧
      (probeSlot 0 1 1 (written 0 4094 { bits := 0, check := .twoWrong } based)).2 = .broken false) ∧
    (16 < 4094 ∧ isBlankHeader (wordAt based 0 16) = false ∧
      expectedClass (headerFits 16) (wordAt based 0 16) ≠ .uncorrectable ∧ 4094 ≤ 4094) := by decide +kernel

/-- O47: the states a session sector's marks decode to, one with each mark. -/
theorem test_witness_decoded_states :
    let f := (formatSector 224 running).1
    readsMark f 224 markBadSector = false ∧ formatGood f 224 = true ∧ roleGood f 224 = true ∧ decodeSector f 224 = .free ∧
    decodeSector (programMark 224 markActive f).1 224 = .active ∧ decodeSector (programMark 224 markFull f).1 224 = .full ∧
    decodeSector (programMark 224 markCopyTarget f).1 224 = .copyTarget ∧ decodeSector (programMark 224 markSealed f).1 224 = .invalid ∧
    decodeSector (programMark 224 markReleased f).1 224 = .invalid ∧ decodeSector (programMark 224 markBadSector f).1 224 = .bad ∧
    formatGood running 224 = false := by decide +kernel

def reordering (l : List Item) (s : State) : State := { s with pen := { s.pen with reorder := l } }

def brk (n : Nat) : Item := itemOf n (.brk endPoint)

/-- O51, O52: the reorder list drained up to a gap in it, a list that holds the RSN already or is full, and a GAP with items
below, at and above what follows it. -/
theorem test_witness_reorder_list :
    (let s := reordering ([brk 2, brk 3] ++ [brk 5]) (hearing 14 running)
     s.pen.reorder = [brk 2, brk 3] ++ [brk 5] ∧ (brk 1).rsn = s.pen.applied + 1 ∧
       (∀ m j, [brk 2, brk 3][m]? = some j → j.rsn = (brk 1).rsn + 1 + m) ∧
       (∀ j, [brk 5].head? = some j → j.rsn ≠ (brk 1).rsn + 1 + 2) ∧ acceptsItem requesterHeader 1 s = true) ∧
    (let s := reordering ([brk 3] ++ brk 5 :: []) (hearing 14 running)
     s.pen.reorder.length < 16 ∧ s.pen.applied + 1 < (brk 5).rsn ∧ (∀ x ∈ [brk 3], x.rsn < (brk 5).rsn) ∧
       (∀ x ∈ [brk 3], x.rsn < (brk 4).rsn) ∧ (∀ x ∈ [brk 5], (brk 4).rsn < x.rsn)) ∧
    16 ≤ (reordering ((List.range 16).map (fun n => brk (n + 2))) (hearing 14 running)).pen.reorder.length ∧
    (let g : GapItem := { first := 1, last := 3, epoch := 1 }
     let s := reordering ([brk 2] ++ [brk 4, brk 5] ++ [brk 7]) (hearing 15 running)
     s.pen.reorder = [brk 2] ++ [brk 4, brk 5] ++ [brk 7] ∧ g.first ≤ s.pen.applied + 1 ∧ s.pen.applied + 1 ≤ g.last ∧
       (∀ j ∈ [brk 2], j.rsn ≤ g.last) ∧ (∀ m j, [brk 4, brk 5][m]? = some j → j.rsn = g.last + 1 + m) ∧
       (∀ j ∈ [brk 7], g.last < j.rsn) ∧ (∀ j, [brk 7].head? = some j → j.rsn ≠ g.last + 1 + 2) ∧
       decodeGap (cellValue (cellOf (encodeGap g))) = some g) := by
  refine ⟨⟨by decide +kernel, by decide +kernel, ?_, ?_, by decide +kernel⟩, by decide +kernel, by decide +kernel,
    by decide +kernel, by decide +kernel, by decide +kernel, by decide +kernel, ?_, by decide +kernel, ?_, by decide +kernel⟩
  · intro m j h
    match m, h with
    | 0, h => simp at h; subst h; rfl
    | 1, h => simp at h; subst h; rfl
    | n + 2, h => simp at h
  · intro j h; simp at h; subst h; decide
  · intro m j h
    match m, h with
    | 0, h => simp at h; subst h; rfl
    | 1, h => simp at h; subst h; rfl
    | n + 2, h => simp at h
  · intro j h; simp at h; subst h; decide

/-- O53: what a station hears after a collision opens nothing until the absent gap. -/
theorem test_witness_collision_hears : hears (sendingUnit none false running) = true := by decide +kernel

/-- Station 2, the holder of epoch 1, before its window: it has counted RSNs 1 to 4 sent, and station 1 shows need `n`. -/
def resending (log : List Item) (n : Nat) : State :=
  let s := linked (fun l => { l with phase := .window [1, 2] }) (asStation 2 running)
  { s with
    pen := { s.pen with session := 5, epoch := 1, holder := some 2, state := some .holding, sentRsn := 4, log := log }
    link := s.link.recordHeader { headerOfWriter with station := 1, session := 5, epoch := 1, need := n } 0 }

/-- Station `n` in LISTEN after two beacons, before the join slot of round 3. -/
def joining (n : Station) : State :=
  let s := linked (fun l => { l with phase := .window [2], listenCount := 2 }) (asStation n running)
  { s with link := { s.link with mode := .listen } }

/-- O55: resends from the log, a GAP, no need shown; the first window after a beacon; a join header in the own slot and in
none; a listed station heard and one not heard at the end of the round. -/
theorem test_witness_window_parts :
    (let s := resending [brk 1, brk 2, brk 3, brk 4] 2
     hears s = true ∧ inFlight s = false ∧ s.link.phase = .window [1, s.straps.station] ∧ s.link.mode = .joined ∧
       s.pen.state ≠ some .catchingUp ∧ beaconOfTwo.holder = some s.straps.station ∧ s.link.latest = some beaconOfTwo ∧
       (headerOf s 1).map (fun h => (h.session, h.epoch, h.need)) = some (s.pen.session, s.pen.epoch, 2) ∧
       s.pen.startRsn ≤ 2 ∧ 2 ≤ s.pen.sentRsn ∧ logAt s.pen 2 = some (brk 2)) ∧
    (let s := resending [brk 3, brk 4] 2
     logAt s.pen 2 = none ∧ (∃ i ∈ s.pen.log, i.rsn = 3) ∧ (∀ i ∈ s.pen.log, 2 < i.rsn → 3 ≤ i.rsn)) ∧
    (resending [] 5).pen.sentRsn < 5 ∧
    ((inPhase .beacon).link.phase = .beacon ∧ (planOf (inPhase .beacon)).map Prod.fst = [1, 2]) ∧
    (let s := joining 3
     hears s = true ∧ inFlight s = false ∧ s.link.phase = .window (2 :: []) ∧ s.link.mode = .listen ∧ s.link.listenCount = 2 ∧
       s.link.latest = some beaconOfTwo ∧ beaconOfTwo.round.toNat % 8 = s.straps.station.val) ∧
    (let s := linked (fun l => { l with phase := .window [1, 2] }) (asStation 2 running)
     { s with link := { s.link with mode := .listen } }.link.phase = .window [1, s.straps.station]) ∧
    (let s := { inPhase .joinSlot with link := { (inPhase .joinSlot).link with heard := [1] } }
     s.link.phase = .joinSlot ∧ inPlan (planOf s) 1 = true ∧ (1 : Station) ∈ s.link.heard ∧ inPlan (planOf s) 2 = true ∧
       (2 : Station) ∉ s.link.heard ∧ inPlan (planOf s) 3 = false ∧ (s.link.roster[2]?).isSome = true) := by decide +kernel

/-- O60: an item that changes a row, on a screen whose rows were all shown. -/
theorem test_witness_row_changes :
    shownAll.start ≠ .storeScan ∧ 15 < shownAll.screen.rows ∧ shownAll.screen.writing = none ∧
    shownAll.screen.shown.getD 14 none ≠
      some (rowContent (applyToRecord (.append { rln := 0, col := 0 } [0x61#8]) 1 shownAll) 14) := by decide +kernel

/-- Sector 255 formatted, with one live record of six values, two of them out of range. -/
def recorded : State := (writeRecord fields 16 (inCtl (fun c => { c with sectors := c.sectors.set 255 .config }) (formatSector 255 running).1)).1

/-- O14: the record that the scan reads, with its debounce time of 15 ms, and a store without one. -/
theorem test_witness_debounce_of_the_scan :
    recorded.ctl.sectors.length = 256 ∧ decodeSector recorded 255 = .config ∧
    (walkRecords (setSector 255 .config recorded)).2 = some 16 ∧ scanRecord recorded = some fields ∧
    (judgeConfig (scanRecord recorded)).debounce = 15 ∧
    decodeSector (formatSector 255 running).1 255 = .config ∧
    (walkRecords (setSector 255 .config (formatSector 255 running).1)).2 = none ∧
    decodeSector running 255 ≠ .config := by decide +kernel

/-- O21, O48: an epoch of the followed number under another holder, with items of the followed one in the reorder list. -/
theorem test_witness_epoch_of_the_same_number :
    (let s := reordering [brk 9] (inSession .shadow)
     let b : Beacon := { beaconOfTwo with holder := some 1, startRsn := 9 }
     takesIn b s ∧ b.epoch = s.pen.epoch ∧ b.holder ≠ s.pen.holder ∧ b.holder ≠ none ∧ s.pen.reorder = [brk 9]) ∧
    (let s := reordering [brk 9] (inMode .ready (inSession .requesting))
     takesIn (grantBeacon 1 9) s ∧ (grantBeacon 1 9).epoch = s.pen.epoch ∧ s.pen.holder ≠ some s.straps.station ∧
       (grantBeacon 1 9).holder = some s.straps.station ∧ s.pen.reorder = [brk 9]) := by
  unfold takesIn; decide +kernel

/-- O59: no beacon while the station's own window is being sent, nor while something is heard. -/
theorem test_witness_pair_in_use :
    (sendingUnit none false timekeeping).link.sending ≠ none ∧
    (linked (fun l => { l with busy := true }) running).link.busy = true := by decide +kernel

/-- SEAL before a step, SEALED taken: the target, sector 226, is ACTIVE with the copy of key 3 at word 16; sector 225 in a
state. -/
def sealedTarget (st : SealStep) (other : SecState) : State :=
  inCtl (fun c => { c with
      sectors := (c.sectors.set 225 other).set 226 .active
      accounts := c.accounts.set 2 { Account.fresh with appendPoint := 19 } })
    (writeEntryWords 226 16 [3] 0 [0x61#8] (sealing st 20)).1

/-- Cells that answer five programmings and no more. -/
def sixthFails : StoreScript := { prog := List.replicate 5 [] ++ [List.replicate 16 blankWord], erase := [] }

/-- O31, O33: after SEALED a DEFINE is placed in the target; RETIRED does not take on the copy of its old entry. -/
theorem test_witness_define_in_the_target :
    let s := { defining (sealedTarget .directory .full) with script := sixthFails }
    let p := (placeEntry [3] 0 [0x61#8] s).1
    (placeEntry [3] 0 [0x61#8] s).2 = .at_ { sector := 226, word := 19 } ∧ dirLoc s.ctl.directory [3] = some place ∧
    copyOf p.ctl.comp place = some 16 ∧ p.ctl.comp.target = 226 ∧
    (programMark 226 (retiredAt 16) (accountRetired place (programRetired place p).1)).2 = false ∧
    (supersede (some place) p).2 = true := by decide +kernel

/-- O32: a RETIRE, its mark taken on the entry and not on the copy, with another key at home in the target. -/
theorem test_witness_retire_at_the_seal :
    let s := inCtl (fun c => { c with directory := oneKey 0 ++ [{ key := [4], loc := some { sector := 226, word := 19 }, count := 0 }] })
      (sealedTarget .directory .full)
    let p := (programMark 224 (retiredAt 16) { s with script := { sixthFails with prog := sixthFails.prog.drop 4 } })
    p.2 = true ∧ copyOf s.ctl.comp place = some 16 ∧ (programMark 226 (retiredAt 16) (accountRetired place p.1)).2 = false ∧
    (s.ctl.directory.map DirRecord.key).Nodup ∧ dirLoc s.ctl.directory [4] = some { sector := 226, word := 19 } := by decide +kernel

/-- O35: the ACTIVE sector while the one before the seal has FULL still to come. -/
theorem test_witness_two_active :
    (sealedTarget (.full 225) .active).ctl.sessionIn .active = [225, 226] ∧
    (sealedTarget (.full 225) .active).ctl.activeSector = some 226 ∧
    (sealing (.sealed true) 20).ctl.sessionIn .active = [225] := by decide +kernel

/-- O38: PROTECT while a mark reads set and the base is not yet taken as protected. -/
theorem test_witness_protect_again :
    let s := asking .protect (loading .none (programMark 255 markProtectB maintained).1)
    nextWork s = .direct ∧ s.ctl.sectorState 255 = .config ∧ readsMark s 255 markProtectB = true ∧
    s.ctl.baseProtected = false := by decide +kernel

/-! ## Witnesses: the parts of statements on what is taken, left out and opened -/

def retaking (l : List Stroke) (t : Translator) : State := taking (stroke 1 3) { t with retake := l }

/-- O15: a stroke taken again before the one at the read point; a hit that does not extend; forced release with strokes left,
or with more in the run than the answer of the whole run resolves. -/
theorem test_witness_retaken_strokes :
    let s := retaking [stroke 5 3, stroke 6 4] { running.trans with forced := .set }
    let c := s.cache.fill [3] (answerOf true false)
    s.trans.mode = .ready ∧ s.trans.retake = stroke 5 3 :: [stroke 6 4] ∧ (stroke 5 3).retract = false ∧
    bearsOn [3] s.ctl.queue = false ∧ (c.checkSet [3]).lookup [3] = some (answerOf true false) ∧ s.trans.forced = .set ∧
    ¬ takesNext (stroke 1 3) s ∧ resolvedLength [answerOf true true, answerOf false false] < [stroke 1 3].length + 1 ∧
    running.trans.forced ≠ .set := by decide +kernel

/-- O28: an answer that resolves the run at once; a result thrown away, without a grant, with one, and in CATCHING-UP. -/
theorem test_witness_served_answers :
    let s := fetching [3]
    let lost (g : Option LinkTime) (p : PenState) : State :=
      { s with trans := { s.trans with discard := true, grant := g }, pen := { s.pen with state := some p } }
    (resultOf [3] s).2.ans.ext = false ∧ (withRun s.trans).run ≠ [] ∧ s.trans.forced ≠ .set ∧ s.trans.publishing = false ∧
    s.composer.mode = .shadow ∧ (lost none .shadow).trans.grant = none ∧ (lost (some 7) .holding).trans.discard = true ∧
    (lost (some 7) .holding).trans.grant = some 7 ∧ (lost (some 7) .holding).pen.state ≠ some .catchingUp ∧
    (lost (some 7) .catchingUp).pen.state = some .catchingUp ∧
    ({ withRun s.trans with forced := .set, retake := [stroke 5 3] }.retake ≠ [] ∧ (withRun s.trans).run ≠ []) := by
  decide +kernel

/-- O27: fills that a snoop of 1/2/3 marks stale and one that it leaves, and a path that fetches nothing. -/
theorem test_witness_fills_and_snoop :
    (fetching [1, 2]).cache.path = .fetching [1, 2] false ∧ properPrefix [1, 2] [1, 2, 3] = true ∧
    (fetching [1, 2, 4]).cache.path = .fetching [1, 2, 4] false ∧ ([1, 2, 4] : Key) ≠ [1, 2, 3] ∧
    properPrefix [1, 2, 4] [1, 2, 3] = false ∧ Cache.reset.path = .idle := by decide

/-- O23: positions past the record end in its line and in a later one, one before it, and one before the oldest held line. -/
theorem test_witness_places_in_the_record :
    posLt (endOf [line 2 5]) { rln := 2, col := 6 } = true ∧ (line 2 5).text.length < 6 ∧
    posLt (endOf [line 2 5]) { rln := 4, col := 0 } = true ∧ (line 2 5).rln < 4 ∧
    posLt { rln := 2, col := 4 } (endOf [line 2 5]) = true ∧ (∀ m ∈ [line 2 5], 1 < m.rln) ∧
    posLt { rln := (line 2 5).rln, col := (line 2 5).text.length } { rln := 2, col := 5 } = false := by decide

/-- A maintenance start in which base sector 0 is keyed and the others are as `rest` says, with a LOAD-ENTRY of key 3. -/
def opening (openSector : Option (Nat × Nat)) (rest : SecState) : State :=
  inCtl (fun c => { c with
    openSector := openSector, lastKey := .key [2], keyTable := [{ sector := 0, firstKey := [2], slots := 0 }]
    sectors := List.replicate 1 .filling ++ List.replicate 223 rest ++ c.sectors.drop 224 })
    (asking (.loadEntry [3] 0 []) maintained)

/-- O38: the sector opened when none is open or the entry does not fit, its words programmed, and none to open. -/
theorem test_witness_base_sector_opened :
    let s := opening none .empty
    let w := programWords 1 3 [1, 3] s
    let v := programMark 1 markKeyed w.1
    let u := writeEntryWords 1 16 [3] 0 [] v.1
    nextWork s = .direct ∧ keyOk [3] = true ∧ textOk [] = true ∧ orderOk s.ctl.lastKey [3] = true ∧
    s.ctl.sectorState 1 = .empty ∧ s.ctl.sectorState 0 = .filling ∧ (∀ r ∈ s.ctl.keyTable, r.sector ≠ 1) ∧
    w.2 = true ∧ v.2 = true ∧ u.2 = true ∧ (programWord (fieldWord 16) 1 4095 u.1).2 = true := by decide +kernel

theorem test_witness_base_sector_full :
    let s := opening (some (0, 4094)) .bad
    4096 < 4094 + entrySize [3] [] + slotsOf s.ctl 0 + 1 ∧ (programMark 0 markClosed s).2 = true ∧ nextWork s = .direct ∧
    s.ctl.openSector = some (0, 4094) ∧ ((List.range 224).all fun i => decide (s.ctl.sectorState i ≠ .empty)) = true := by
  decide +kernel

def corrupted (c : RxCell) : RxCell := { c with w1 := { c.w1 with cls := .corrected } }

/-- O49: a beacon whose second cell is bad, item cells that hold no item, are bad or pass the budget, and none in a window. -/
theorem test_witness_cells_left_out :
    beaconIn beaconCells.1 badCell = none ∧ beaconIn beaconCells.1 beaconCells.2 = some beaconOfTwo ∧
    itemCells (.breakReceived (cellOf 0)) = some ([cellOf 0], false) ∧ [badCell].all cellUsable = false ∧
    receives (hearing 15 running) = true ∧ (hearing 15 running).link.rx = .window requesterHeader 15 ∧
    budgetOf requesterHeader (hearing 15 running) < 40 + 1 ∧ receives (linked id running) = true ∧
    ∀ h n, (linked id running).link.rx ≠ .window h n := by
  refine ⟨by decide +kernel, by decide +kernel, by decide +kernel, by decide, by decide +kernel, rfl, by decide +kernel,
    by decide +kernel, ?_⟩
  intro h n e; cases e

/-- R134: a corrected word counts for the window's owner also where the item's other cell is bad, and for the timekeeper also
where the beacon's second cell is. -/
theorem test_corrected_words_of_discarded_cells :
    (match exec (.appendReceived (corrupted (cellOf 0)) badCell) (hearing 3 running) with
      | .next t => t.link.roster.map RosterEntry.corrected
      | _ => []) = [0, 0, 1, 0, 0, 0, 0, 0] ∧
    (match exec (.beaconReceived beaconCells.1 badCell) (linked id running) with
      | .next t => t.link.roster.map RosterEntry.corrected
      | _ => []) = [0, 1, 0, 0, 0, 0, 0, 0] ∧
    (match exec (.beaconReceived badCell beaconCells.1) (linked id running) with
      | .next t => t.link.roster.map RosterEntry.corrected
      | _ => []) = [0, 0, 0, 0, 0, 0, 0, 0] := by decide +kernel

/-- O50: where a header stands in the plan, the phases of a round, a station not listed in its join slot and out of it, and no
beacon taken. -/
theorem test_witness_header_and_round :
    let s := following .shadow running
    let j := linked (fun l => { l with phase := .joinSlot, latest := some { beaconOfTwo with round := 5 } }) running
    s.link.latest = some beaconOfTwo ∧ beaconOfTwo.plan.map Prod.fst = [1] ++ (2 : Station) :: [] ∧ (2 : Station) ∉ [(1 : Station)] ∧
    s.link.phase = .none ∧ (inPhase .joinSlot).link.phase = .joinSlot ∧ receives (inPhase .joinSlot) = true ∧
    (inPhase .joinSlot).link.rx = .idle ∧ j.link.phase = .joinSlot ∧ j.link.latest = some { beaconOfTwo with round := 5 } ∧
    inPlan { beaconOfTwo with round := 5 }.plan 5 = false ∧ (5 : Station).val = (5 : Round).toNat % 8 ∧ (6 : Station).val ≠ (5 : Round).toNat % 8 ∧
    inPlan { beaconOfTwo with round := 5 }.plan 6 = false ∧
    receives { running with link := { running.link with mode := .listen } } = true ∧ running.link.latest = none := by decide +kernel

/-- O60: in REVIEW, a top line that stays held, one past the last line after a CUT, one whose line a long fill drops. -/
theorem test_witness_top_of_the_view :
    let s (n : Nat) : State := { reviewing n running with record := { running.record with lines := [line 2 5, line 3 0] } }
    let cut := applyToRecord (.cut { rln := 2, col := 1 }) 1
    let far := applyToRecord (.brk { rln := 600, col := 0 }) 1
    (s 3).screen.view = .review 3 ∧ (cut (s 2)).record.oldest ≤ 2 ∧ 2 ≤ (cut (s 2)).record.lastRln ∧
    (cut (s 3)).record.oldest ≤ (cut (s 3)).record.lastRln ∧ (cut (s 3)).record.lastRln < 3 ∧ 3 < (far (s 3)).record.oldest := by
  decide +kernel

/-! ## Witnesses: cache sets, held lookups, activation and placing -/

/-- A cache with the entries of the keys given, filled in order. -/
def filled (ks : List Key) : Cache := ks.foldl (fun c k => c.fill k (answerOf true false)) Cache.reset

/-- The parity bit of a line flipped. -/
def flipped (n way : Nat) (c : Cache) : Cache :=
  { c with sets := c.sets.modify n (fun ls => ls.modify way (fun l => { l with parity := ! l.parity })) }

/-- O15, O27: an erring line is made invalid with its age kept and counted, the counter stays at 3, and a line of a key that a
snoop does not name goes with it when it errs in an examined set, and stays in a set not examined. -/
theorem test_witness_erring_lines :
    let c := flipped 3 0 (flipped 9 0 (filled [[3], [19], [9]]))
    (c.sets[setOf [3]]?).isSome = true ∧ (c.checkSet [3]).lookup [3] = none ∧ (c.checkSet [3]).parityCount = 1 ∧
    ((c.checkSet [3]).sets.map (fun ls => ls.map CacheLine.age)) = c.sets.map (fun ls => ls.map CacheLine.age) ∧
    (c.checkSet [3]).lookup [19] = some (answerOf true false) ∧ (({ c with parityCount := 3 }).checkSet [3]).parityCount = 3 ∧
    (c.snoop [3, 16]).lookup [3] = none ∧ (c.snoop [19]).lookup [3] = none ∧ (c.snoop [19]).parityCount = 1 ∧
    (c.snoop [19]).lookup [9] = some (answerOf true false) ∧ (c.snoop [35]).lookup [19] = some (answerOf true false) := by
  decide +kernel

/-- O26: a hit in way 1 of a set; fills of the lowest invalid way, of way 0 made invalid, and of the line of age 3. -/
theorem test_witness_hit_and_fill :
    let c := filled [[3], [19], [35], [51]]
    let ls := c.sets.getD 3 []
    c.sets[setOf [19]]? = some ls ∧ agesGood ls = true ∧ (ls[1]?).map CacheLine.key = some [19] ∧
    (ls[1]?).map CacheLine.valid = some true ∧ (ls[0]?).map CacheLine.key = some [3] ∧
    c.lookup [19] = some (answerOf true false) ∧ (ls.map CacheLine.age) = [3, 2, 1, 0] ∧
    ((c.hit [19]).sets.getD 3 []).map CacheLine.age = [3, 0, 2, 1] ∧ (ls.all CacheLine.valid) = true ∧ c.lookup [67] = none ∧
    ((c.fill [67] (answerOf true true)).sets.getD 3 []).map CacheLine.key = [[67], [19], [35], [51]] ∧
    ((c.fill [67] (answerOf true true)).sets.getD 3 []).map CacheLine.age = [0, 3, 2, 1] ∧
    ((((c.snoop [35]).fill [67] (answerOf true true)).sets.getD 3 []).map CacheLine.key) = [[3], [19], [67], [51]] ∧
    (filled [[3]]).sets[setOf [19]]?.isSome = true ∧ agesGood ((filled [[3]]).sets.getD 3 []) = true ∧
    (((filled [[3]]).fill [19] (answerOf true true)).sets.getD 3 []).map CacheLine.valid = [true, true, false, false] := by
  decide +kernel

/-- O28: a clean and fresh result, not in the cache before and in it after. -/
theorem test_witness_cached_result :
    let r := resultOf [3] (fetching [3])
    r.2.damaged = false ∧ r.1.cache.lookup [3] = none ∧ r.1.cache.sets.length = 16 ∧ r.1.cache.sets.all agesGood = true ∧
    (r.1.cache.fill [3] r.2.ans).lookup [3] = some r.2.ans := by decide +kernel

/-- A lookup held by the requests of the queue. -/
def holding (k : Key) (q : List QueuedReq) (c : Cache) (s : State) : State :=
  queued q { inMode .looking s with cache := { c with path := .held k } }

/-- O31, O32: a request that leaves the queue while a lookup is held: another bears on it still, none is left and the key is
not cached, or it is, with an answer that extends or under a discard. -/
theorem test_witness_held_lookups :
    let s (rest : List QueuedReq) := holding [3] (retires :: rest) Cache.reset running
    let hit := Cache.reset.fill [3] (answerOf true true)
    (bearsOn [3] [defines [3, 5]] = true ∧ (s [defines [3, 5]]).cache.path = .held [3] ∧
      dirLoc (s []).ctl.directory [3] = none ∧ nextWork (s [defines [3, 5]]) = .retire) ∧
    (bearsOn [3] ([] : List QueuedReq) = false ∧ bearsOn [3] [defines [4]] = false ∧
      ((s []).cache.checkSet [3]).lookup [3] = none) ∧
    (hit.checkSet [3]).lookup [3] = some (answerOf true true) ∧ (s []).trans.discard = false ∧ (s []).trans.forced ≠ .set ∧
    ({ (s []).trans with discard := true } : Translator).discard = true := by decide +kernel

/-- R51: what the three cases do. -/
theorem test_held_lookup_examined_again :
    let path (rest : List QueuedReq) (c : Cache) : LookupPath × TransMode :=
      match exec (.serveRetire StoreScript.none) (holding [3] (retires :: rest) c running) with
      | .next t => (t.cache.path, t.trans.mode)
      | _ => (.idle, .stopped)
    path [defines [3, 5]] Cache.reset = (.held [3], .looking) ∧ path [] Cache.reset = (.fetching [3] false, .looking) ∧
    path [defines [4]] (Cache.reset.fill [3] (answerOf true true)) = (.idle, .ready) := by decide +kernel

/-- FREE sectors 225 and 226 and the reserve, 224. -/
def freeTwo (s : State) : State :=
  inCtl (fun c => { c with
    sectors := ((c.sectors.set 224 .free).set 225 .free).set 226 .free, reserve := some 224, highestSeq := 6 }) s

/-- Cells that do not take programmings: `true` for one that takes. -/
def answering (l : List Bool) (s : State) : State :=
  { s with script := { prog := l.map (fun b => if b then [] else List.replicate 16 blankWord), erase := [] } }

/-- O31: a sector activated; its sequence word, its ACTIVE and its BAD mark failing; no sector but the reserve. -/
theorem test_witness_activation :
    let s := freeTwo running
    nextFree s = some 225 ∧ (sequenceProgrammed 225 s).2 = true ∧ (programMark 225 markActive (sequenceProgrammed 225 s).1).2 = true ∧
    StoreGood s ∧ s.ctl.reserve = some 224 ∧ s.ctl.sectorState 224 = .free ∧
    (sequenceProgrammed 225 (answering [false] s)).2 = false ∧
    (sequenceProgrammed 225 (answering [true, false] s)).2 = true ∧
    (programMark 225 markActive (sequenceProgrammed 225 (answering [true, false] s)).1).2 = false ∧
    (programMark 225 markBadSector (sequenceProgrammed 225 (answering [false] s)).1).2 = true ∧
    (programMark 225 markBadSector (sequenceProgrammed 225 (answering [false, false] s)).1).2 = false ∧
    nextFree (onlyReserve running) = none ∧ nextFree running = none := by decide +kernel

/-- R96, R73: the sectors and the sequence number that an activation leaves. -/
theorem test_activation :
    let left (l : List Bool) : Option Nat × List SecState × Nat :=
      let r := activate (answering l (freeTwo running))
      (r.2, [224, 225, 226].map r.1.ctl.sectorState, r.1.ctl.highestSeq)
    left [] = (some 225, [.free, .active, .free], 7) ∧ left [false] = (some 226, [.free, .bad, .active], 8) ∧
    left [true, false] = (some 226, [.free, .bad, .active], 8) ∧
    left [false, true, true, false] = (none, [.free, .bad, .bad], 8) := by decide +kernel

/-- Sector 227 ACTIVE with its append point at `n`, and two sectors to activate. -/
def activeAt (n : Nat) (s : State) : State :=
  inCtl (fun c => { c with
    sectors := c.sectors.set 227 .active, accounts := c.accounts.set 3 { Account.fresh with appendPoint := n } }) (freeTwo s)

/-- What a first write that failed leaves. -/
def afterFailure (s : State) : State := makeFull 227 (appendEntry 227 [3] 0 [0x61#8] s).1

/-- O31: no ACTIVE sector, with one to activate and with none; an entry that fits to the last word; a failed write whose retry
succeeds, fails, or finds no sector; and one that does not fit. -/
theorem test_witness_placing :
    let wrote (n w : Nat) (s : State) : Bool := (writeEntryWords n w [3] 0 [0x61#8] s).2
    ((freeTwo running).ctl.activeSector = none ∧ (activate (freeTwo running)).2 = some 225 ∧
      wrote 225 16 (activate (freeTwo running)).1 = true ∧ running.ctl.activeSector = none ∧ (activate running).2 = none) ∧
    ((activeAt 4093 running).ctl.activeSector = some 227 ∧ 4093 + entrySize [3] [0x61#8] ≤ 4096 ∧
      wrote 227 4093 (activeAt 4093 running) = true) ∧
    (let s := answering [false] (activeAt 16 running)
     wrote 227 16 s = false ∧ (activate (afterFailure s)).2 = some 225 ∧ wrote 225 16 (activate (afterFailure s)).1 = true) ∧
    (let s := answering [false, true, true, true, false] (activeAt 16 running)
     wrote 227 16 s = false ∧ (activate (afterFailure s)).2 = some 225 ∧ wrote 225 16 (activate (afterFailure s)).1 = false) ∧
    (let s := inCtl (fun c => { c with sectors := (c.sectors.set 225 .full).set 226 .full }) (answering [false] (activeAt 16 running))
     wrote 227 16 s = false ∧ (activate (afterFailure s)).2 = none) ∧
    (4096 < 4094 + entrySize [3] [0x61#8] ∧ (activate (makeFull 227 (activeAt 4094 running))).2 = some 225 ∧
      (activate (makeFull 227 (inCtl (fun c => { c with sectors := (c.sectors.set 225 .full).set 226 .full }) (activeAt 4094 running)))).2 =
        none) := by decide +kernel

/-- R98, R72: where an entry goes, and the state of the three sectors it may stand in. -/
theorem test_placing :
    let put (n : Nat) (l : List Bool) : Placed × List SecState :=
      let r := placeEntry [3] 0 [0x61#8] (answering l (activeAt n running))
      (r.2, [225, 226, 227].map r.1.ctl.sectorState)
    put 4093 [] = (.at_ { sector := 227, word := 4093 }, [.free, .free, .active]) ∧
    put 4094 [] = (.at_ { sector := 225, word := 16 }, [.active, .free, .full]) ∧
    put 16 [false] = (.at_ { sector := 225, word := 16 }, [.active, .free, .full]) ∧
    put 16 [false, true, true, true, false] = (.failed, [.full, .free, .full]) := by decide +kernel

/-! ## Witnesses: erased headers, the pre-zero pass, untranslates -/

/-- O36: the format word first; words 1 and 2 passed over; words that read zero passed over; none left. -/
theorem test_witness_prezero_order :
    let zeroFrom (n w : Nat) (s : State) : State := (List.range n).foldl (fun t i => written 224 (w + i) (fieldWord 0) t) s
    nextToZero 224 0 running = some 0 ∧ nextToZero 224 1 running = some 3 ∧ nextToZero 224 2 running = some 3 ∧
    nextToZero 224 3 (zeroFrom 5 3 running) = some 8 ∧ nextToZero 224 4095 running = some 4095 ∧
    nextToZero 224 4090 (zeroFrom 6 4090 running) = none ∧ nextToZero 224 4096 running = none := by decide +kernel

/-- A header word on which copies of marks took and nothing else, of WRITING, LIVE or RETIRED from bit `hi` down. -/
def onlyMarks (hi copies : Nat) : StoreWord :=
  { bits := BitVec.allOnes 32 &&& ~~~ (((7#32 <<< (3 - copies)) &&& 7#32) <<< (hi - 2)), check := .erased }

/-- O47, R66: two or three copies of a mark are no erased header, one copy is; the append point lies beyond such a header. -/
theorem test_marked_header_is_not_erased :
    (isBlankHeader (onlyMarks 31 1) = true ∧ isBlankHeader blankWord = true) ∧
    ([2, 3].all fun n => ! isBlankHeader (onlyMarks 31 n) && ! isBlankHeader (onlyMarks 28 n) && ! isBlankHeader (onlyMarks 25 n)) = true ∧
    expectedClass (headerFits 19) (onlyMarks 31 2) = .uncorrectable ∧
    (let s := written 224 19 (onlyMarks 31 2) (inCtl (fun c => { c with sectors := c.sectors.set 224 .active }) stored)
     let t := walkSector 224 8 19 s
     (t.ctl.account 224).appendPoint = 4096 ∧ t.ctl.sectorState 224 = .full ∧ (t.ctl.account 224).dead = 4096 - 19) ∧
    (let s := written 224 19 (onlyMarks 31 1) stored
     ((walkSector 224 8 19 s).ctl.account 224).appendPoint = 19) := by decide +kernel

/-- O18, R25: the renderings of the spec's examples. -/
theorem test_renderings :
    renderChord (2#23 ||| 1#23 <<< 20) = [0x54#8, 0x2D#8, 0x44#8] ∧ renderChord (1#23 <<< 20) = [0x2D#8, 0x44#8] ∧
    renderChord (1#23 ||| 1#23 <<< 7 ||| 1#23 <<< 18) = [0x53#8, 0x41#8, 0x54#8] ∧
    renderChord (1#23 <<< 11 ||| 1#23 <<< 20) = [0x2A#8, 0x44#8] ∧ renderChord (2#23 ||| 1#23 <<< 22) = [0x54#8, 0x23#8] ∧
    renderChord (1#23 <<< 22) = [0x23#8] ∧ (renderChord (BitVec.allOnes 23)).length = 23 ∧ (1#23 : Chord) ≠ 0 := by decide

/-! ## Witnesses: attention at beacons and headers, and what a station does not take -/

/-- The raised bits PEN-CHANGE and LINK-STATE after a beacon heard. -/
def raisedBy (b : Beacon) (s : State) : Option (Bool × Bool) :=
  match exec (.beaconReceived (heardBeacon b).1 (heardBeacon b).2) s with
  | .next t => some (t.att.raised.getLsbD 3, t.att.raised.getLsbD 5)
  | _ => none

/-- A station with a roster number, nothing raised, whose latest beacon was `l`. -/
def lately (n : Station) (m : LinkMode) (l : Option Beacon) : State :=
  let s := inSession .shadow
  asStation n { s with att := Attention.reset, link := { s.link with mode := m, latest := l } }

/-- O48: the holder kept, changed, gone, and with no beacon before; joining, leaving, and a masked cause. -/
theorem test_witness_beacon_attention :
    takesIn beaconOfTwo (lately 2 .joined (some beaconOfTwo)) ∧
    raisedBy beaconOfTwo (lately 2 .joined (some beaconOfTwo)) = some (false, false) ∧
    raisedBy beaconOfTwo (lately 2 .joined (some noneBeacon_)) = some (true, false) ∧
    raisedBy noneBeacon_ (lately 2 .joined (some beaconOfTwo)) = some (true, false) ∧
    raisedBy noneBeacon_ (lately 2 .joined none) = some (false, false) ∧
    raisedBy noneBeacon_ (lately 2 .listen (some noneBeacon_)) = some (false, true) ∧
    raisedBy noneBeacon_ (lately 5 .joined (some noneBeacon_)) = some (false, true) ∧
    raisedBy noneBeacon_ (lately 5 .listen (some noneBeacon_)) = some (false, false) ∧
    raisedBy noneBeacon_ { lately 5 .joined (some beaconOfTwo) with att := masking } = some (false, false) ∧
    takesIn noneBeacon_ (lately 5 .joined (some noneBeacon_)) := by
  unfold takesIn; decide +kernel

/-- O50: a header of the own number, in JOINED and in LISTEN, holding the pen and not. -/
theorem test_witness_own_header :
    let s (m : LinkMode) (p : PenState) : State :=
      asStation 2 (let t := inSession p; { t with att := Attention.reset, link := { t.link with mode := m } })
    let got (t : State) : Option (LinkMode × Option PenState × Bool) :=
      match exec (.headerReceived (cellOf (encodeHeader requesterHeader))) t with
      | .next u => some (u.link.mode, u.pen.state, u.att.raised.getLsbD 5)
      | _ => none
    receives (s .listen .shadow) = true ∧ receives (s .joined .holding) = true ∧ (s .listen .shadow).link.rx = .idle ∧
    headerIn (cellOf (encodeHeader requesterHeader)) = some requesterHeader ∧
    requesterHeader.station = (s .listen .shadow).straps.station ∧
    got (s .joined .shadow) = some (.joined, some .shadow, false) ∧ got (s .listen .shadow) = some (.duplicate, some .shadow, true) ∧
    got (s .listen .holding) = some (.duplicate, some .shadow, true) ∧ holdsPen .holding = true ∧ holdsPen .shadow = false := by
  decide +kernel

/-- O51, O52: an item and a MARK accepted. The other witnesses say `acceptsItem` and `acceptsMark`, which are the same
(`acceptsItem_iff`, `acceptsMark_iff`). -/
theorem test_witness_accepted : itemAccepted requesterHeader 1 (hearing 14 running) ∧
    markAccepted requesterHeader (hearing 15 running) :=
  ⟨(acceptsItem_iff _ _ _).1 (by decide +kernel), (acceptsMark_iff _ _).1 (by decide +kernel)⟩

/-- O51, O52: each way in which an item or a MARK is not accepted: no session, another one, OUTSIDE, an epoch or a sender that
the latest beacon does not name, no beacon, a sender of a MARK that the plan does not list. -/
theorem test_witness_not_accepted :
    let s := hearing 14 running
    let penOf (f : Pen → Pen) : State := { s with pen := f s.pen }
    let latestOf (b : Option Beacon) : State := { s with link := { s.link with latest := b } }
    let refused (h : Header) (e : Epoch) (t : State) : Bool := ! acceptsItem h e t
    refused requesterHeader 1 (penOf (fun p => { p with session := 0 })) = true ∧
    refused { requesterHeader with session := 9 } 1 s = true ∧
    refused requesterHeader 1 (penOf (fun p => { p with state := some .outside })) = true ∧
    refused requesterHeader 2 s = true ∧ refused { requesterHeader with station := 1 } 1 s = true ∧
    refused requesterHeader 1 (latestOf none) = true ∧ refused requesterHeader 1 (latestOf (some noneBeacon_)) = true ∧
    acceptsMark { requesterHeader with station := 1 } s = true ∧ acceptsMark { requesterHeader with station := 6 } s = false ∧
    acceptsMark requesterHeader (penOf (fun p => { p with state := some .outside })) = false ∧
    acceptsMark { requesterHeader with session := 9 } s = false ∧
    refused requesterHeader 1 (penOf (fun p => { p with state := none })) = false := by decide +kernel

theorem test_not_accepted_is_no_hypothesis : ¬ itemAccepted requesterHeader 2 (hearing 14 running) ∧
    ¬ markAccepted { requesterHeader with station := 6 } (hearing 15 running) :=
  ⟨fun h => absurd ((acceptsItem_iff _ _ _).2 h) (by decide +kernel), fun h => absurd ((acceptsMark_iff _ _).2 h) (by decide +kernel)⟩

end Sys2Proof.Tests
end

section
/-! SUPPORT. Strokes: what the changes of a tick do to the scanner (R1 to R3), what the journal does with the stroke that ends
(R9 to R12), and that every step keeps the journal's law (R8). Settles O7, O11, O12 and O13. -/

namespace Sys2Proof.Machine

/-! ## Every step keeps the law of the journal (R8) -/

/-- A command that completes keeps the law of the journal: RESET empties it, and every other command is one of `exec_keeps`. -/
theorem exec_keeps_journalGood (c : Instr) (s t : State) (g : JournalGood s) (h : exec c s = .next t) : JournalGood t := by
  cases c with
  | reset straps torn => rw [execReset_next h]; exact Journal.emptied_lawful
  | _ => exact (exec_keeps _ s t h (fun _ _ e => nomatch e)).journal g

/-- Settles O7: the step is an idle one, or the front command run on the rest of the queue. -/
theorem stepKeepsJournalGood : Obligations.StepKeepsJournalGood := by
  intro s t g h
  unfold step at h
  split at h
  case h_1 =>
    injection h with h
    exact h ▸ g
  case h_2 c rest _ => exact exec_keeps_journalGood c { s with pending := rest } t g h

/-! ## The Key Scanner, branch by branch (R2, R3) -/

section
variable {sc : Scanner}

theorem Scanner.form_waitClear (hm : sc.mode = .waitClear) :
    sc.form = ({ sc with mode := if sc.down = 0 then .idle else .waitClear }, none) := by
  unfold Scanner.form
  simp only [hm]
  split <;> simp [← hm]

theorem Scanner.form_idle (hm : sc.mode = .idle) (hd : sc.down ≠ 0) :
    sc.form = ({ sc with mode := .forming, chord := sc.down, downTime := sc.dueTime, downUnsynced := sc.dueUnsynced }, none) := by
  simp only [Scanner.form, hm, if_neg hd]

theorem Scanner.form_forming (hm : sc.mode = .forming) (hd : sc.down ≠ 0) :
    sc.form = ({ sc with mode := .forming, chord := sc.chord ||| sc.down }, none) := by
  simp only [Scanner.form, hm, if_neg hd]

theorem Scanner.form_ends (hm : sc.mode = .forming) (hd : sc.down = 0) :
    sc.form = ({ sc with mode := .idle, chord := 0 }, some sc.finished) := by
  simp only [Scanner.form, hm, if_pos hd]

/-- The chord-forming logic leaves the due changes as they are. -/
theorem Scanner.form_due (sc : Scanner) : sc.form.1.due = sc.due := by
  unfold Scanner.form
  split
  · rfl
  · dsimp only; split <;> rfl
  · split <;> rfl
  · split <;> rfl

end

/-! ## The changes of a tick taken (R1) -/

theorem takeDueKeys_none {s : State} (hd : s.scanner.due = 0) : takeDueKeys s = s := by
  rw [takeDueKeys, if_pos hd]

/-- Changes that end no stroke change the scanner alone. -/
theorem takeDueKeys_gathers {s : State} {sc : Scanner} (hd : s.scanner.due ≠ 0)
    (hf : s.scanner.settleDue.form = (sc, none)) : takeDueKeys s = { s with scanner := sc } := by
  rw [takeDueKeys, if_neg hd, hf]

/-- Changes that end a stroke hand it to the journal. -/
theorem takeDueKeys_hands {s : State} {sc : Scanner} {k : Stroke} (hd : s.scanner.due ≠ 0)
    (hf : s.scanner.settleDue.form = (sc, some k)) : takeDueKeys s = handStroke k { s with scanner := sc } := by
  rw [takeDueKeys, if_neg hd, hf]

/-- Once taken, the changes are due no more. -/
theorem takeDueKeys_due (s : State) : (takeDueKeys s).scanner.due = 0 := by
  by_cases hd : s.scanner.due = 0
  · rw [takeDueKeys_none hd, hd]
  · have hform := Scanner.form_due s.scanner.settleDue
    cases hf : s.scanner.settleDue.form with
    | mk sc ended =>
      rw [hf] at hform
      cases ended with
      | none => rw [takeDueKeys_gathers hd hf]; exact hform
      | some k => rw [takeDueKeys_hands hd hf, handStroke, raiseIf_scanner]; exact hform

/-- Settles O11: the branches of the chord-forming logic that end no stroke. -/
theorem keysBeginAndJoinAStroke : Obligations.KeysBeginAndJoinAStroke := by
  refine ⟨fun s hm hd hk => ?_, fun s hm hd hk => ?_, fun s hm hd => ?_, fun s hd => ?_⟩ <;>
    show Host.Outcome.next (takeDueKeys s) = _
  · rw [takeDueKeys_gathers hd (Scanner.form_idle hm hk)]; rfl
  · rw [takeDueKeys_gathers hd (Scanner.form_forming hm hk)]; rfl
  · rw [takeDueKeys_gathers hd (Scanner.form_waitClear hm)]; rfl
  · rw [takeDueKeys_none hd]

/-! ## A stroke offered to the journal (R9 to R12) -/

theorem satInc_eq_min (n max : Nat) : satInc n max = min (n + 1) max := by
  unfold satInc; split <;> omega

namespace Journal
variable {j : Journal}

theorem mustRefuse_of_snEnd (h : j.nextSn = 4294967296) : j.mustRefuse = true := by
  simp [Journal.mustRefuse, Config.snEnd, h]

/-- R10: a full journal refuses while its oldest stroke is untranslated. -/
theorem mustRefuse_of_full {k : Stroke} {rest : List Stroke} (hl : j.strokes.length = 2048) (hs : j.strokes = k :: rest)
    (hk : j.readPoint ≤ k.sn) : j.mustRefuse = true := by
  unfold Journal.mustRefuse
  rw [hl, hs]
  simp [Config.journalSize, hk]

theorem offer_refused (k : Stroke) (h : j.mustRefuse = true) :
    j.offer k = { j with refused := min (j.refused + 1) 255 } := by
  rw [Journal.offer, if_pos h, Journal.refuse, satInc_eq_min]

theorem mustRefuse_of_room (hl : j.strokes.length < 2048) (hn : j.nextSn < 4294967296) : j.mustRefuse = false := by
  simp [Journal.mustRefuse, Config.snEnd, Config.journalSize, Nat.not_le.2 hl, Nat.not_le.2 hn]

theorem offer_room (k : Stroke) (hl : j.strokes.length < 2048) (hn : j.nextSn < 4294967296) : j.offer k = j.accept k := by
  rw [Journal.offer, if_neg (by simp [mustRefuse_of_room hl hn]), Journal.makeRoom, if_pos (by exact hl)]

theorem mustRefuse_of_translated {k : Stroke} {rest : List Stroke} (hs : j.strokes = k :: rest)
    (hk : k.sn < j.readPoint) (hn : j.nextSn < 4294967296) : j.mustRefuse = false := by
  unfold Journal.mustRefuse
  rw [hs]
  simp [Config.snEnd, Nat.not_le.2 hn, hk]

/-- R11: a full journal whose oldest stroke is translated loses that one, counted where it was unarchived. -/
theorem offer_overwrites {old : Stroke} {rest : List Stroke} (k : Stroke) (hl : j.strokes.length = 2048)
    (hs : j.strokes = old :: rest) (hk : old.sn < j.readPoint) (hn : j.nextSn < 4294967296) :
    j.offer k = { j with
      strokes := rest ++ [{ k with sn := j.nextSn, refusedBefore := j.refused }], nextSn := j.nextSn + 1, refused := 0
      archiveLost := if old.sn = j.archivePoint then min (j.archiveLost + 1) 255 else j.archiveLost
      archivePoint := if old.sn = j.archivePoint then old.sn + 1 else j.archivePoint } := by
  rw [Journal.offer, if_neg (by simp [mustRefuse_of_translated hs hk hn]), Journal.makeRoom,
    if_neg (by simp [hl, Config.journalSize]), hs]
  by_cases ha : old.sn = j.archivePoint
  · simp only [if_pos ha, Journal.accept, satInc_eq_min]
  · simp only [if_neg ha, Journal.accept]

end Journal

/-- A stroke the journal keeps raises nothing. -/
theorem handStroke_of_kept {k : Stroke} {s : State} (h : s.journal.mustRefuse = false) :
    handStroke k s = { s with journal := s.journal.offer k, pen := { s.pen with strokeQuiet := 0 } } := by
  rw [handStroke, h]; rfl

/-- A refused stroke raises JOURNAL-REFUSED (R10). -/
theorem handStroke_of_refused {k : Stroke} {s : State} (h : s.journal.mustRefuse = true) :
    handStroke k s = { s with
      journal := { s.journal with refused := min (s.journal.refused + 1) 255 }
      att := s.att.raise .journalRefused
      pen := { s.pen with strokeQuiet := 0 } } := by
  rw [handStroke, h, Journal.offer_refused k h]; rfl

/-- RETRACT is the star key alone (R6). -/
theorem isRetract_eq (c : Chord) : isRetract c = decide (c.toNat = 2048) := by
  simp [isRetract, BitVec.toNat_eq]

/-- The stroke that ends, once the journal has given it its SN and its refused-before count. -/
theorem finished_eq_endingStroke (s : State) :
    { s.scanner.settleDue.finished with sn := s.journal.nextSn, refusedBefore := s.journal.refused } = endingStroke s := by
  simp only [Scanner.finished, endingStroke, isRetract_eq]; rfl

/-- The last key up: the stroke goes to the journal, the scanner is idle (R3). -/
theorem exec_keyDebounced_ends {s : State} (h : strokeEnds s) : exec .keyDebounced s =
    .next (handStroke s.scanner.settleDue.finished { s with scanner := scannedAs .idle 0 s }) := by
  obtain ⟨hm, hd, hup⟩ := h
  show Host.Outcome.next (takeDueKeys s) = _
  rw [takeDueKeys_hands hd (Scanner.form_ends hm hup)]; rfl

/-- The stroke that ends is refused. -/
theorem exec_keyDebounced_refused {s : State} (h : strokeEnds s) (hr : s.journal.mustRefuse = true) :
    exec .keyDebounced s = .next { s with
      scanner := scannedAs .idle 0 s
      journal := { s.journal with refused := min (s.journal.refused + 1) 255 }
      att := s.att.raise .journalRefused
      pen := { s.pen with strokeQuiet := 0 } } := by
  rw [exec_keyDebounced_ends h, handStroke_of_refused (by exact hr)]

/-- The stroke that ends overwrites the oldest one. -/
theorem exec_keyDebounced_overwrites {s : State} {k : Stroke} {rest : List Stroke} (h : strokeEnds s)
    (hl : s.journal.strokes.length = 2048) (hs : s.journal.strokes = k :: rest) (hk : k.sn < s.journal.readPoint)
    (hn : s.journal.nextSn < 4294967296) :
    exec .keyDebounced s = .next { s with
      scanner := scannedAs .idle 0 s
      journal := { s.journal with
        strokes := rest ++ [endingStroke s], nextSn := s.journal.nextSn + 1, refused := 0
        archiveLost := if k.sn = s.journal.archivePoint then min (s.journal.archiveLost + 1) 255 else s.journal.archiveLost
        archivePoint := if k.sn = s.journal.archivePoint then k.sn + 1 else s.journal.archivePoint }
      pen := { s.pen with strokeQuiet := 0 } } := by
  rw [exec_keyDebounced_ends h, handStroke_of_kept (by exact Journal.mustRefuse_of_translated hs hk hn)]
  dsimp only
  rw [Journal.offer_overwrites _ hl hs hk hn, finished_eq_endingStroke]

/-- Settles O12: what the journal does with the stroke it is offered, in each of its three cases. -/
theorem endedStrokeIsKeptOrOverwrites : Obligations.EndedStrokeIsKeptOrOverwrites := by
  refine ⟨fun s h hl hn => ?_, fun s k rest h hl hs hk hn => exec_keyDebounced_overwrites h hl hs hk hn,
    fun s h hn => exec_keyDebounced_refused h (Journal.mustRefuse_of_snEnd hn)⟩
  rw [exec_keyDebounced_ends h, handStroke_of_kept (by exact Journal.mustRefuse_of_room hl hn)]
  dsimp only
  rw [Journal.offer_room _ hl hn, Journal.accept, finished_eq_endingStroke]

/-- Settles O13: a full journal refuses, and overwrites again once its oldest stroke has been taken. -/
theorem fullJournalRefuses : Obligations.FullJournalRefuses := by
  intro s k rest h hl hs
  refine ⟨fun hk => exec_keyDebounced_refused h (Journal.mustRefuse_of_full hl hs hk), fun hk hn => ?_⟩
  exact ⟨_, exec_keyDebounced_overwrites h hl hs hk hn, rfl, rfl⟩

end Sys2Proof.Machine
end

section
/-! SUPPORT. The state after RESET (R193). Settles O2 and O3. -/

namespace Sys2Proof.Machine

/-- A RESET whose torn words lie in the store completes (log 5). -/
theorem exec_reset {straps : Straps} {torn : List (Nat × StoreWord)} {s : State} (h : allInStore torn = true) :
    exec (.reset straps torn) s = .next (State.atReset straps (s.store.writeAll torn) s.pending) := by
  show execReset straps torn s = _
  rw [execReset, if_pos h]

/-- Settles O2: the fields of `State.atReset`, for a writer and for a display. -/
theorem resetRestoresEveryBlock : Obligations.ResetRestoresEveryBlock := by
  intro straps torn s h up none_ line clear
  rw [exec_reset h]
  obtain ⟨station, role, maintenance⟩ := straps
  cases role <;> rfl

/-- Settles O3: each invariant is a closed fact about the reset state. -/
theorem resetStateIsLawful : Obligations.ResetStateIsLawful := by
  refine ⟨?store, Journal.emptied_lawful, ?cache, ?queue, ?screen, ?copies⟩
  case store => rfl
  case cache => decide
  case queue => rfl
  case screen => decide
  case copies => exact ⟨List.nodup_nil, rfl⟩

end Sys2Proof.Machine
end

section
/-! SUPPORT. Requests of the Service Port that their owner answers in the same step (R196, R197). Settles O43. -/

namespace Sys2Proof.Machine

/-! ## Requests answered in their own step (R196, R197) -/

theorem frameFits_of_body {tag : Byte} {r : Request} (h : r.body.length ≤ 93) : frameFits tag r := by
  unfold frameFits
  rw [requestFrame_length]
  simp only [Config.frameMax]
  omega

/-- An owner that answers at once leaves the port READY with its answer. -/
theorem answer_transacted (tag : Byte) (n : Nat) (r : Request) (code : RespCode) (body : List Byte) (s : State) :
    answer code body (transacted tag n r (.working tag none) s) = answered tag n r code body s := rfl

/-- The command of a request with a small body, which is not one of MAINTENANCE, has it served by its owner once the start
scan is over. -/
theorem exec_served {c : Instr} {tag : Byte} {n : Nat} {r : Request} {s : State} (hc : serviceOf c = some (tag, n, r))
    (hs : s.start ≠ .storeScan) (hp : portFree tag n r s) (hb : r.body.length ≤ 93) (ho : r.countOk = true)
    (hm : r.maintenanceOnly = false) :
    exec c s = .next (serveRequest r (transacted tag n r (.working tag none) s)) := by
  rw [exec_service hc, transaction_served hp (frameFits_of_body hb) ho (.inl hm) (.inr hs)]

/-- Settles O43: each of the five requests is served by its owner, which answers at once. -/
theorem readRequestsCopyOut : Obligations.ReadRequestsCopyOut := by
  refine ⟨fun tag clocks s hs => ⟨fun f n hp h1 h2 => ?_, fun hp => ?_, fun hp => ?_, fun hp => ?_⟩,
    fun tag clocks n s hs hp h1 h2 => ?_⟩
  · have hcount : (Request.readRecord f n).countOk = true := by simp [Request.countOk, h1, h2]
    rw [exec_served rfl hs hp (by simp [Request.body, beBytes_length]) hcount rfl]; rfl
  · rw [exec_served rfl hs hp (by simp [Request.body]) rfl rfl]; rfl
  · rw [exec_served rfl hs hp (by simp [Request.body]) rfl rfl]; rfl
  · rw [exec_served rfl hs hp (by simp [Request.body]) rfl rfl]; rfl
  · have hcount : (Request.readJournal n).countOk = true := by simp [Request.countOk, h1, h2]
    rw [exec_served rfl hs hp (by simp [Request.body]) hcount rfl]; rfl

end Sys2Proof.Machine
end

section
/-! SUPPORT. One TICK (R132): the samples of the lines (R1, R177), the upsets of its millisecond (log 6), and the
configuration record the start scan reads in the store (R83, R193). Settles O14. -/

namespace Sys2Proof.Machine

/-! ## The samples of a tick (R1, R177) -/

theorem countAfter_eq (differs : Bool) (c : Nat) : countAfter differs c = if differs = true then min (c + 1) 15 else 0 := rfl

theorem Scanner.sample_stopped {sc : Scanner} (h : sc.mode = .stopped) (d : Nat) (keys : Chord) (now : Clock) :
    sc.sample d keys now = sc := by rw [Scanner.sample, if_pos h]

/-- A sample raises or clears the counters, finds the keys due, and takes the time (R1). -/
theorem Scanner.sample_running {sc : Scanner} (h : sc.mode ≠ .stopped) (d : Nat) (keys : Chord) (now : Clock) :
    sc.sample d keys now = { sc with
      counts := sc.counts.mapIdx (fun i c => countAfter ((sc.differs keys).getLsbD i) c)
      due := sc.dueAt d keys, dueTime := now.linkTime, dueUnsynced := ! now.synced } := by
  rw [Scanner.sample, if_neg h]

/-- A key differs where its sampled level is not its debounced state. -/
theorem Scanner.differs_bit (sc : Scanner) (keys : Chord) (i : Nat) :
    (sc.differs keys).getLsbD i = decide (keys.getLsbD i ≠ sc.down.getLsbD i) := by
  rw [Scanner.differs, BitVec.getLsbD_xor]
  cases keys.getLsbD i <;> cases sc.down.getLsbD i <;> rfl

/-- A key is due where its counter reaches the debounce time with this sample. -/
theorem Scanner.dueAt_bit {sc : Scanner} {i c : Nat} (hi : i < 23) (hc : sc.counts[i]? = some c) (d : Nat) (keys : Chord) :
    (sc.dueAt d keys).getLsbD i = reached d ((sc.differs keys).getLsbD i) c := by
  rw [Scanner.dueAt, BitVec.getLsbD_ofNat, natOfBits_testBit, List.getD_eq_getElem?_getD, List.getElem?_mapIdx, hc]
  simp [hi]

/-- Beside the counters and the due keys a sample sets its time alone. -/
theorem Scanner.sample_frame {sc : Scanner} (h : sc.mode ≠ .stopped) (d : Nat) (keys : Chord) (now : Clock) :
    sc.sample d keys now = { sc with
      counts := (sc.sample d keys now).counts, due := (sc.sample d keys now).due
      dueTime := now.linkTime, dueUnsynced := ! now.synced } := by
  rw [Scanner.sample_running h]

theorem Scanner.sample_counts_length (sc : Scanner) (d : Nat) (keys : Chord) (now : Clock) :
    (sc.sample d keys now).counts.length = sc.counts.length := by
  unfold Scanner.sample
  split
  · rfl
  · exact List.length_mapIdx

/-- One key line of a sample: its counter, and whether it is due. -/
theorem Scanner.sample_line {sc : Scanner} {i c : Nat} (h : sc.mode ≠ .stopped) (hi : i < 23)
    (hc : sc.counts[i]? = some c) (d : Nat) (keys : Chord) (now : Clock) :
    (sc.sample d keys now).counts[i]? =
        some (if keys.getLsbD i ≠ sc.down.getLsbD i then min (c + 1) 15 else 0) ∧
      (sc.sample d keys now).due.getLsbD i =
        (decide (keys.getLsbD i ≠ sc.down.getLsbD i) && decide (d ≤ c + 1)) := by
  rw [Scanner.sample_running h]
  dsimp only
  rw [List.getElem?_mapIdx, hc, Scanner.dueAt_bit hi hc, Scanner.differs_bit]
  simp [countAfter_eq, reached]

/-- One sample of a button line, as the statement of a TICK spells it. -/
theorem Button.sample_eq (b : Button) (d : Nat) (level listen : Bool) : b.sample d level listen =
    if level ≠ b.down ∧ d ≤ b.count + 1 then { down := level, count := 0, pressed := b.pressed || (level && listen) }
    else { b with count := if level ≠ b.down then min (b.count + 1) 15 else 0 } := by
  simp only [Button.sample, reached, countAfter_eq, Bool.and_eq_true, bne_iff_ne, decide_eq_true_eq]

/-! ## Timers -/

theorem Pen.tick_eq (p : Pen) : p.tick = { p with strokeQuiet := min (p.strokeQuiet + 1) 10000 } := by
  rw [Pen.tick, satInc_eq_min]; rfl

theorem Translator.tick_eq (t : Translator) : t.tick = { t with
    settle := if t.mode = .ready ∧ t.retake = [] then t.settle.map (fun n => n - 1) else t.settle } := by
  unfold Translator.tick
  split <;> rfl

theorem Screen.tick_eq (sc : Screen) : sc.tick = { sc with
    idle := if inReview sc.view then sc.idle.map (fun n => n - 1) else sc.idle } := by
  unfold Screen.tick
  split <;> rfl

/-- The settings from a TICK on which tells that the scan has read the configuration record (R193, log 87). -/
theorem useDebounce_if_eq (read : Bool) (s : State) : (if read then useDebounce s else s) = { s with
    settings := if read = true ∧ s.start = .storeScan then s.settings.withDebounce (judgeConfig (scanRecord s))
      else s.settings } := by
  cases read
  · simp
  · by_cases h : s.start = .storeScan
    · simp [useDebounce, h]
    · simp [useDebounce, h]

/-! ## Upsets (log 6) -/

/-- Upsets change the store and the sets of the cache alone. -/
theorem applyUpsets_eq (l : List Upset) : ∀ s : State, ∃ m sets,
    l.foldl applyUpset s = { s with store := m, cache := { s.cache with sets := sets } } := by
  induction l with
  | nil => exact fun s => ⟨s.store, s.cache.sets, rfl⟩
  | cons u l ih =>
    intro s
    obtain ⟨m, sets, h⟩ := ih (applyUpset s u)
    refine ⟨m, sets, ?_⟩
    rw [List.foldl_cons, h]
    cases u <;> rfl

/-- A store word that no upset names keeps its value. -/
theorem applyUpsets_read {a : Nat} : ∀ (l : List Upset) (s : State), (∀ w, .storeWord a w ∉ l) →
    (l.foldl applyUpset s).store.read a = s.store.read a
  | [], _, _ => rfl
  | u :: l, s, h => by
    rw [List.foldl_cons, applyUpsets_read l _ (fun w hw => h w (List.mem_cons_of_mem _ hw))]
    cases u with
    | storeWord b v =>
      refine Memory.read_write_ne b a v (fun e => ?_) _
      subst e
      exact h v (List.mem_cons_self ..)
    | cacheParity => rfl

theorem map_modify_of_eq {α β : Type} {f : α → α} {g : α → β} (h : ∀ x, g (f x) = g x) (l : List α) (i : Nat) :
    (l.modify i f).map g = l.map g := by
  apply List.ext_getElem?
  intro j
  rw [List.getElem?_map, List.getElem?_map, List.getElem?_modify]
  by_cases hj : i = j <;> cases l[j]? <;> simp [hj, h]

/-- Upsets change no line of the cache but for its parity bit. -/
theorem applyUpsets_butParity : ∀ (l : List Upset) (s : State),
    (l.foldl applyUpset s).cache.sets.map (fun ls => ls.map (fun x => { x with parity := false })) =
      s.cache.sets.map (fun ls => ls.map (fun x => { x with parity := false }))
  | [], _ => rfl
  | u :: l, s => by
    rw [List.foldl_cons, applyUpsets_butParity l]
    cases u with
    | storeWord => rfl
    | cacheParity n way => exact map_modify_of_eq (fun ls => map_modify_of_eq (f := flipParity) (fun _ => rfl) ls way) _ n

/-- A line of the cache that no upset names stays as it is. -/
theorem applyUpsets_line {n way : Nat} : ∀ (l : List Upset) (s : State), .cacheParity n way ∉ l →
    (l.foldl applyUpset s).cache.sets[n]?.bind (fun ls => ls[way]?) = s.cache.sets[n]?.bind (fun ls => ls[way]?)
  | [], _, _ => rfl
  | u :: l, s, h => by
    rw [List.foldl_cons, applyUpsets_line l _ (fun hl => h (List.mem_cons_of_mem _ hl))]
    cases u with
    | storeWord => rfl
    | cacheParity m v =>
      simp only [applyUpset, List.getElem?_modify]
      by_cases hm : m = n
      · have hv : v ≠ way := fun hv => h (by simp [hm, hv])
        cases s.cache.sets[n]? <;> simp [hm, hv]
      · simp [hm]

/-! ## The configuration record in the store (R83) -/

theorem sectorState_setSector {n : Nat} (x : SecState) {s : State} (h : n < s.ctl.sectors.length) :
    (setSector n x s).ctl.sectorState n = x := by
  simp [Control.sectorState, List.getD_eq_getElem?_getD, h]

theorem readWord_congr {s t : State} (h : t.store = s.store) (ok : BitVec 32 → Bool) (n w : Nat) :
    (readWord ok n w t).2 = (readWord ok n w s).2 := by
  unfold readWord wordAt
  rw [h]
  dsimp only
  split <;> rfl

/-- What is read depends on the store alone. -/
theorem readWords_congr (ok : BitVec 32 → Bool) (n : Nat) : ∀ (c w : Nat) {s t : State}, t.store = s.store →
    (readWords ok n c w t).2 = (readWords ok n c w s).2
  | 0, _, _, _, _ => rfl
  | c + 1, w, s, t, h => by
    have h1 := readWord_congr h ok n w
    have h2 : (readWord ok n w t).1.store = (readWord ok n w s).1.store := by
      rw [(readWord_readSide ok n w t).store, (readWord_readSide ok n w s).store, h]
    unfold readWords
    dsimp only
    rw [h1]
    split
    · exact h1
    · simp only [readWords_congr ok n c (w + 1) h2]

theorem readConfig_of_bad {s : State} (h : configGood s = false) : (readConfig s).ctl.configRecord = none := by
  simp [readConfig, h]

theorem readConfig_of_none {s : State} (h : (walkRecords s).2 = none) : (readConfig s).ctl.configRecord = none := by
  unfold readConfig
  split
  · simp only [h]
  · rfl

theorem readConfig_of_some {s : State} {a : Nat} (hg : configGood s = true) (h : (walkRecords s).2 = some a) :
    (readConfig s).ctl.configRecord = (readWords anyValueOk 255 3 (a + 1) s).2.values.bind configOfWords := by
  have hctl : ∀ c : Control, (readWords anyValueOk 255 3 (a + 1) { s with ctl := c }).2 =
      (readWords anyValueOk 255 3 (a + 1) s).2 := fun c => readWords_congr anyValueOk 255 3 (a + 1) rfl
  unfold readConfig
  rw [if_pos hg]
  simp only [h, Config.configSector, hctl]
  cases (readWords anyValueOk 255 3 (a + 1) s).2.values <;> rfl

theorem configGood_setSector {s : State} (hl : s.ctl.sectors.length = 256) (x : SecState) :
    configGood (setSector 255 x s) = decide (x = .config) := by
  rw [configGood, show Config.configSector = 255 from rfl, sectorState_setSector x (by omega)]

theorem scanRecord_eq (s : State) :
    scanRecord s = (readConfig (setSector 255 (decodeSector s 255) s)).ctl.configRecord := rfl

/-! ## A tick -/

/-- A tick with no key change left to take: each block's own tick, the lines sampled with the debounce time then in force. -/
theorem tick_of_none_due {s : State} (hd : s.scanner.due = 0) (keys : BitVec 23) (buttons : BitVec 5) (read : Bool) :
    let settings := if read = true ∧ s.start = .storeScan then s.settings.withDebounce (judgeConfig (scanRecord s))
      else s.settings
    tick keys buttons read s = { s with
      settings := settings
      clock := s.clock.tick
      scanner := s.scanner.sample settings.debounce keys s.clock.tick
      buttons := s.buttons.sample settings.debounce buttons (decide (s.start ≠ .storeScan))
        (decide (s.straps.role = .writer))
      trans := s.trans.tick, link := s.link.tick, pen := s.pen.tick, screen := s.screen.tick } := by
  unfold tick
  rw [takeDueKeys_none hd, useDebounce_if_eq]

theorem exec_tick {events : TickEvents} (h : events.upsets.all upsetInStore = true) (keys : BitVec 23)
    (buttons : BitVec 5) (s : State) : exec (.tick keys buttons events) s =
      .next (events.upsets.foldl applyUpset (tick keys buttons events.configRead s)) := by
  show execTick keys buttons events s = _
  rw [execTick, if_pos h]

/-- A tick takes the changes left to take first (log 11). -/
theorem tick_takeDueKeys (keys : BitVec 23) (buttons : BitVec 5) (read : Bool) (s : State) :
    tick keys buttons read (takeDueKeys s) = tick keys buttons read s := by
  unfold tick
  rw [takeDueKeys_none (takeDueKeys_due s)]

/-- Settles O14: a tick with no change left to take, one with changes left, and what the scan's record is. -/
theorem tickMovesTimeAndSamples : Obligations.TickMovesTimeAndSamples := by
  refine ⟨?tick, ?due, fun s hl => ⟨?noConfig, ?noRecord, ?record⟩⟩
  case tick =>
    intro keys buttons events s hu hd upsets found settings d button
    have ht := tick_of_none_due hd keys buttons events.configRead
    obtain ⟨m, sets, he⟩ := applyUpsets_eq upsets (tick keys buttons events.configRead s)
    have hread := fun a h => applyUpsets_read (a := a) upsets (tick keys buttons events.configRead s) h
    have hparity := applyUpsets_butParity upsets (tick keys buttons events.configRead s)
    have hline := fun n way h => applyUpsets_line (n := n) (way := way) upsets (tick keys buttons events.configRead s) h
    have hnone : upsets = [] → upsets.foldl applyUpset (tick keys buttons events.configRead s) =
        tick keys buttons events.configRead s := fun h => by rw [h]; rfl
    rw [ht] at he hread hparity hline hnone
    rw [exec_tick hu, ht]
    refine ⟨_, rfl, ?_⟩
    rw [he] at hread hparity hline hnone ⊢
    refine ⟨rfl, Pen.tick_eq _, Translator.tick_eq _, ?link, ?screen, fun h => Scanner.sample_stopped h _ _ _,
      fun h => ?scanner, ?lines, rfl, rfl, rfl, rfl, rfl, rfl, rfl, rfl, rfl, rfl, hread, rfl, rfl, hparity,
      fun n way ls ms hn hls hms => ?line, fun hn => ?none⟩
    case link =>
      show s.link.tick = _
      unfold Link.tick
      cases s.link.backoff <;> rfl
    case screen =>
      refine (Screen.tick_eq s.screen).trans (congrArg (fun i => { s.screen with idle := i }) ?_)
      cases s.screen.view <;> rfl
    case scanner =>
      exact ⟨Scanner.sample_frame h d keys s.clock.tick, Scanner.sample_counts_length s.scanner d keys s.clock.tick,
        fun i c hi hc => Scanner.sample_line h hi hc d keys s.clock.tick⟩
    case lines => simp only [Buttons.sample, Button.sample_eq]; rfl
    case line =>
      have := hline n way hn
      rw [hls, hms] at this
      exact this
    case none =>
      have := hnone hn
      exact ⟨(congrArg State.store this :), (congrArg State.cache this :)⟩
  case due =>
    intro keys buttons events s hu
    refine ⟨takeDueKeys s, _, rfl, takeDueKeys_due s, exec_tick hu keys buttons s, ?_⟩
    rw [exec_tick hu, tick_takeDueKeys]
  case noConfig =>
    intro hx
    rw [scanRecord_eq, readConfig_of_bad (by rw [configGood_setSector hl]; exact decide_eq_false hx)]
  case noRecord =>
    intro hc hw
    rw [scanRecord_eq, hc, readConfig_of_none hw]
  case record =>
    intro a hc hw
    rw [scanRecord_eq, hc, readConfig_of_some (by rw [configGood_setSector hl]; rfl) hw]
    cases (readWords anyValueOk 255 3 (a + 1) (setSector 255 .config s)).2.values <;> rfl

end Sys2Proof.Machine
end

section
/-! SUPPORT. Beacons at the pen side: a beacon taken (R143) as what it hands to the pen side; release for pass with nothing left
to release (R41); a pen loss (R40, R166); an epoch and a session adopted (R155, R164); and the grant at the writer a beacon
names (R37, R38, R165). -/

namespace Sys2Proof.Machine

/-! ## A beacon taken (R143) -/

theorem followPlan_eq (listed : Bool) (s : State) : ∃ l a, a.mask = s.att.mask ∧
    followPlan listed s = { s with link := l, att := a } := by
  have hmode : ∀ (m : LinkMode) (l : Link), ∃ l' a, a.mask = s.att.mask ∧
      setMode m { s with link := l } = { s with link := l', att := a } := by
    intro m l
    have hmask := setMode_mask m { s with link := l }
    unfold setMode raiseIf at hmask ⊢
    split at hmask
    next hc => rw [if_pos hc]; exact ⟨_, _, hmask, rfl⟩
    next hc => rw [if_neg hc]; exact ⟨_, s.att, rfl, rfl⟩
  unfold followPlan
  split
  · exact hmode .joined s.link
  · split
    · exact hmode .listen _
    · exact ⟨_, s.att, rfl, rfl⟩

/-- The pen side of a beacon, in the order of R143: any pen loss, the session and epoch, none-since. -/
def penTakes (b : Beacon) (s : State) : State :=
  trackNone b (sessionOfBeacon b
    (if takesPenAway b s then penLoss (ownPassGranted b s) (decide (b.session = 0)) s else s))

/-- None-since tracked (R162) and the rows looked at again: nothing but none-since and the dirty rows. -/
theorem trackNone_fields (b : Beacon) (s : State) :
    (refreshScreen (trackNone b s)).pen = { s.pen with
      noneSince := if b.session ≠ 0 ∧ b.holder = none then some (s.pen.noneSince.getD b.time) else none } ∧
    (refreshScreen (trackNone b s)).record = s.record ∧ (refreshScreen (trackNone b s)).journal = s.journal ∧
    (refreshScreen (trackNone b s)).trans = s.trans ∧ (refreshScreen (trackNone b s)).composer = s.composer ∧
    (refreshScreen (trackNone b s)).screen.butDirty = s.screen.butDirty ∧
    (refreshScreen (trackNone b s)).att = s.att := by
  obtain ⟨d, h⟩ := refreshScreen_eq (trackNone b s)
  rw [h]
  exact ⟨rfl, rfl, rfl, rfl, rfl, rfl, rfl⟩

/-- A beacon that is taken sets the clock and the carrier side of the Link and may raise causes; then the pen side takes it. -/
theorem exec_beaconReceived_taken {c1 c2 : RxCell} {b : Beacon} {s : State} (h : takesBeacon c1 c2 b s) :
    ∃ clock l a, a.mask = s.att.mask ∧ exec (.beaconReceived c1 c2) s =
      .next (refreshScreen (penTakes b { s with clock := clock, link := l, att := a })) := by
  obtain ⟨hr, hrx, hb, hown, hyield⟩ := h
  obtain ⟨roster, hcount⟩ := countWords_eq (beaconSender c1) [c1, c2] s
  have hcarry : carriesOn b s = false := by
    unfold carriesOn
    by_cases hrole : s.link.role = .timekeeper
    · simp [Nat.not_lt.2 (Nat.le_of_lt (hyield hrole))]
    · simp [hrole]
  have htaken : beaconReceived c1 c2 s =
      takeBeacon false b { s with link := { s.link with roster := roster } } := by
    unfold beaconReceived opensHere
    simp only [hr, hrx, hb, hown, hcarry, hcount, Bool.not_true, decide_true, Bool.false_eq_true, if_false]
  obtain ⟨l, a, ha, hplan⟩ := followPlan_eq (inPlan b.plan s.straps.station)
    { s with
      clock := { linkTime := b.time, synced := true }
      link := (((({ s.link with roster := roster } : Link).countSilent s.straps.station).beginRound false b).applyPlan
        b.plan) }
  refine ⟨{ linkTime := b.time, synced := true }, l, if holderChanged s.link.latest b then a.raise .penChange else a,
    ?_, ?_⟩
  · split
    · rw [Attention.raise_mask, ha]
    · exact ha
  · show Host.Outcome.next (refreshScreen (beaconReceived c1 c2 s)) = _
    rw [htaken]
    unfold takeBeacon
    dsimp only
    rw [hplan]
    unfold beaconToPen
    cases holderChanged s.link.latest b <;> rfl

/-! ## Release for pass with nothing to resolve (R41) -/

theorem resolveRun_of_empty {s : State} (h : s.trans.run = []) : resolveRun s = s := by
  rw [resolveRun, if_pos (by simp [h])]

theorem releaseDone_of_closing {s : State} (h : s.pen.closing = true) (time : LinkTime) : releaseDone time s = s := by
  rw [releaseDone, if_pos (.inl h)]

/-- A release that has begun is not begun again. -/
theorem releaseForPass_of_forced {s : State} (h : s.trans.forced ≠ .clear) : releaseForPass s = s := by
  rw [releaseForPass, if_neg h]

/-- A Translator that is at work, or has strokes to re-take, is told of the release and goes on. -/
theorem releaseForPass_waits {s : State} (h : s.trans.forced = .clear)
    (hw : s.trans.mode ≠ .ready ∨ s.trans.retake ≠ []) :
    releaseForPass s = { s with trans := { s.trans with forced := .set } } := by
  rw [releaseForPass, if_pos h, releaseCheck, if_neg]
  rintro ⟨-, hm, hr⟩
  exact hw.elim (fun hw => hw hm) (fun hw => hw hr)

/-- A closing holder whose Translator has nothing left reports the release at once. -/
theorem releaseForPass_reports {s : State} (h : s.trans.forced = .clear) (hm : s.trans.mode = .ready)
    (hr : s.trans.retake = []) (hrun : s.trans.run = []) (hc : s.pen.closing = true) :
    releaseForPass s = { s with trans := { s.trans with forced := .reported } } := by
  rw [releaseForPass, if_pos h, releaseCheck, if_pos ⟨rfl, hm, hr⟩, resolveRun_of_empty (by exact hrun), reportRelease,
    if_pos (by simp [nothingToRelease, hm, hr, hrun]), releaseDone_of_closing (by exact hc)]

/-! ## Pen loss (R40, R112, R166) -/

/-- A unit placed by a Composer that does not publish changes its shadow buffer, its format state and dirty rows (R128). -/
theorem placeUnit_unpublished (u : TransUnit) {s : State} (h : s.composer.mode ≠ .publish) : ∃ shadow fmt d,
    placeUnit u s = { s with
      composer := { s.composer with shadow := shadow, fmt := fmt }, screen := { s.screen with dirty := d } } := by
  unfold placeUnit
  dsimp only
  rw [if_neg h]
  obtain ⟨d, -, he⟩ := shadowItems_eq
    (if u.text.isEmpty then [] else unitItems s.settings.lineWidth s.composer.fmt u (currentPos s)) s
  exact ⟨_, _, d, by rw [he]⟩

theorem handOverNow_unpublished (u : TransUnit) {s : State} (h : s.composer.mode ≠ .publish) : ∃ v shadow fmt d,
    handOverNow (.unit u) s = { s with
      trans := s.trans.remember v
      composer := { s.composer with shadow := shadow, fmt := fmt }, screen := { s.screen with dirty := d } } := by
  obtain ⟨shadow, fmt, d, hp⟩ := placeUnit_unpublished u h
  refine ⟨{ u with start := currentPos s, before := s.composer.fmt }, shadow, fmt, d, ?_⟩
  simp only [handOverNow, hp]

theorem Composer.leavePublish_not_publish (c : Composer) : c.leavePublish.mode ≠ .publish := by
  unfold Composer.leavePublish
  split
  · exact CompMode.noConfusion
  · assumption

theorem Composer.leavePublish_keeps (c : Composer) :
    c.leavePublish.epoch = c.epoch ∧ (c.leavePublish.mode = .stopped ↔ c.mode = .stopped) := by
  unfold Composer.leavePublish
  split
  next h => rw [h]; exact ⟨rfl, by simp [Composer.enterShadow]⟩
  next => exact ⟨rfl, Iff.rfl⟩

/-- A Translator's parts that outlast a session reset. -/
theorem Translator.sessionReset_congr {t u : Translator} (hd : t.discard = u.discard)
    (hm : t.mode = (if u.mode = .stalled ∨ u.mode = .catchingUp then .ready else u.mode)) :
    t.sessionReset = u.sessionReset := by
  unfold Translator.sessionReset
  rw [hd, hm]
  cases u.mode <;> simp

/-- What a pen loss leaves of Translator and Composer for a session reset to set. -/
structure LossLeaves (tr : Translator) (c : Composer) (s : State) : Prop where
  trans : tr.sessionReset = s.trans.sessionReset
  epoch : c.epoch = s.composer.epoch
  stopped : c.mode = .stopped ↔ s.composer.mode = .stopped

/-- A pen loss of the Translator changes it, the Composer, and dirty rows. -/
theorem transLoss_eq (s : State) : ∃ tr c d, LossLeaves tr c s ∧
    transLoss s = { s with trans := tr, composer := c, screen := { s.screen with dirty := d } } := by
  obtain ⟨he, hs⟩ := s.composer.leavePublish_keeps
  obtain ⟨d, hd⟩ := refreshScreen_eq { s with trans := s.trans.afterLoss, composer := s.composer.leavePublish }
  unfold transLoss
  rw [hd]
  split
  next u _ =>
    obtain ⟨v, shadow, fmt, d', hp⟩ := handOverNow_unpublished u (s := { s with
      trans := s.trans.afterLoss, composer := s.composer.leavePublish, screen := { s.screen with dirty := d } })
      s.composer.leavePublish_not_publish
    refine ⟨_, _, d', ?_, hp⟩
    exact ⟨Translator.sessionReset_congr rfl rfl, he, hs⟩
  next =>
    refine ⟨_, _, d, ?_, rfl⟩
    exact ⟨Translator.sessionReset_congr rfl rfl, he, hs⟩
  next =>
    refine ⟨_, _, d, ?_, rfl⟩
    exact ⟨Translator.sessionReset_congr rfl rfl, he, hs⟩

/-- With nothing pending a pen loss leaves the Translator as R40 says and the Composer in SHADOW. -/
theorem transLoss_of_nothing_pending {s : State} (h : s.trans.handOver = none) : transLoss s =
    refreshScreen { s with trans := s.trans.afterLoss, composer := s.composer.leavePublish } := by
  unfold transLoss
  rw [h]

/-- A station that does not hold the pen loses none (R166). -/
theorem penLoss_of_not_holding {s : State} (h : ∀ p, s.pen.state = some p → holdsPen p = false) (quiet outside : Bool) :
    penLoss quiet outside s = s := by
  unfold penLoss
  split
  next => rfl
  next p hp => simp [h p hp]

/-- A holder's pen loss: HANDING its Translator has had it already (R159), else the Translator has it now. -/
theorem penLoss_of_holding {s : State} {p : PenState} (hp : s.pen.state = some p) (hh : holdsPen p = true)
    (quiet outside : Bool) : penLoss quiet outside s = raiseIf (! quiet) .penLost
      ((if p = .handing then id else transLoss) { s with pen := { s.pen with
        state := some (if outside then .outside else .shadow), outbound := [], passTo := none } }) := by
  unfold penLoss
  rw [hp]
  dsimp only
  rw [if_pos hh]
  split <;> rfl

/-- What a pen loss changes, whatever was pending: the state, the outbound queue and the pass of the pen side; Translator and
Composer; dirty rows; a cause. -/
theorem penLoss_eq (quiet outside : Bool) (s : State) : ∃ st out pass tr c d a,
    LossLeaves tr c s ∧ st.map (fun _ => PenState.shadow) = s.pen.state.map (fun _ => PenState.shadow) ∧
    a.mask = s.att.mask ∧ penLoss quiet outside s = { s with
      pen := { s.pen with state := st, outbound := out, passTo := pass }, trans := tr, composer := c
      screen := { s.screen with dirty := d }, att := a } := by
  have hkept : LossLeaves s.trans s.composer s := ⟨rfl, rfl, Iff.rfl⟩
  have hraise : ∀ x : State, ∃ a, a.mask = x.att.mask ∧ raiseIf (! quiet) .penLost x = { x with att := a } := by
    intro x
    cases quiet
    · exact ⟨_, Attention.raise_mask _ _, rfl⟩
    · exact ⟨_, rfl, rfl⟩
  by_cases hold : ∃ p, s.pen.state = some p ∧ holdsPen p = true
  · obtain ⟨p, hp, hh⟩ := hold
    rw [penLoss_of_holding hp hh]
    by_cases hq : p = .handing
    · obtain ⟨a, ha, he⟩ := hraise { s with pen := { s.pen with
        state := some (if outside then .outside else .shadow), outbound := [], passTo := none } }
      rw [if_pos hq]
      exact ⟨_, _, _, _, _, s.screen.dirty, a, hkept, by rw [hp]; rfl, ha, he⟩
    · rw [if_neg hq]
      obtain ⟨tr, c, d, hl, ht⟩ := transLoss_eq { s with pen := { s.pen with
        state := some (if outside then .outside else .shadow), outbound := [], passTo := none } }
      rw [ht]
      obtain ⟨a, ha, he⟩ := hraise { s with
        pen := { s.pen with state := some (if outside then .outside else .shadow), outbound := [], passTo := none }
        trans := tr, composer := c, screen := { s.screen with dirty := d } }
      exact ⟨_, _, _, tr, c, d, a, ⟨hl.trans, hl.epoch, hl.stopped⟩, by rw [hp]; rfl, ha, he⟩
  · have hnot : ∀ p, s.pen.state = some p → holdsPen p = false := fun p hp => by
      cases hh : holdsPen p
      · rfl
      · exact absurd ⟨p, hp, hh⟩ hold
    rw [penLoss_of_not_holding hnot]
    exact ⟨_, _, _, _, _, s.screen.dirty, _, hkept, rfl, rfl, rfl⟩

/-! ## Epochs and sessions adopted (R155, R156, R164) -/

/-- The reorder list after an epoch is adopted is empty where none of its items is one of the new epoch from its start on. -/
theorem adoptEpoch_keeps_none {b : Beacon} {p : Pen} (h : ∀ i ∈ p.reorder, i.rsn < b.startRsn ∨ p.inEpochOf b i = false) :
    p.reorder.filter (fun i => decide (b.startRsn ≤ i.rsn) && p.inEpochOf b i) = [] := by
  rw [List.filter_eq_nil_iff]
  intro i hi
  rcases h i hi with hr | he
  · simp [Nat.not_le.2 hr]
  · simp [he]

/-- R164 where nothing of the reorder list belongs to the new epoch: the record cut back to the start position, the new
epoch followed, the rest as it was. -/
theorem adoptEpoch_fields {b : Beacon} {s : State}
    (h : ∀ i ∈ s.pen.reorder, i.rsn < b.startRsn ∨ s.pen.inEpochOf b i = false) :
    (adoptEpoch b s).pen = { s.pen with
      applied := b.startRsn - 1, reorder := [], log := s.pen.log.filter (fun i => decide (i.rsn < b.startRsn))
      passPending := none, lastStroke := b.cut, epoch := b.epoch, holder := b.holder, startRsn := b.startRsn
      startPos := b.startPos, cut := b.cut, sentRsn := 0 } ∧
    (adoptEpoch b s).record.lines = (if posLt b.startPos s.record.endPos = true
      then applyBody s.record.lines (.cut b.startPos) b.epoch else s.record.lines) ∧
    (adoptEpoch b s).journal = s.journal ∧ (adoptEpoch b s).trans = s.trans ∧ (adoptEpoch b s).composer = s.composer := by
  unfold adoptEpoch
  by_cases hp : posLt b.startPos s.record.endPos = true <;>
    simp [hp, applyToRecord, adoptEpoch_keeps_none h, drainReorder]

/-- What a session adopted sets (R155, R131, R191), its grant aside. -/
theorem adoptSession_fields (b : Beacon) (s : State) :
    (adoptSession b s).pen = { s.pen with
      session := b.session, epoch := b.epoch, holder := b.holder, startRsn := b.startRsn, startPos := b.startPos
      cut := b.cut, applied := b.startRsn - 1, lastStroke := b.cut, state := s.pen.state.map (fun _ => .shadow)
      closing := false, exhausted := false, passPending := none, noneSince := none, openReq := false
      passTo := none, sentRsn := 0, outbound := [], log := [], reorder := [], markQueue := [] } ∧
    (adoptSession b s).journal = (if b.holder = some s.straps.station then s.journal else Journal.emptied) ∧
    (adoptSession b s).trans = s.trans.sessionReset ∧
    (adoptSession b s).composer = s.composer.sessionReset ∧
    (adoptSession b s).record = {
      lines := if b.startPos = { rln := 0, col := 0 } then Record.cleared.lines
        else [{ RecLine.fresh b.startPos.rln b.epoch with text := spaces b.startPos.col, gap := true }]
      marks := [] } ∧
    (adoptSession b s).screen.butDirty = s.screen.sessionReset.butDirty ∧
    (adoptSession b s).att = s.att.raise .sessionChange := by
  unfold adoptSession sessionReset
  by_cases h : b.holder = some s.straps.station <;> simp [h, Record.cleared]

/-- What a beacon of session 0 does to a station that follows a session (R156, R188, R191). -/
theorem sessionZero_followed {s : State} (h : s.pen.session ≠ 0) : sessionZero s = raise .sessionChange { s with
    pen := { s.pen with
      left := none, session := 0, reorder := [], outbound := [], passPending := none, passTo := none, markQueue := []
      state := s.pen.state.map (fun _ => .outside) }
    screen := { s.screen with pendingStart := none, markRefused := false } } := by
  unfold sessionZero
  rw [if_neg h]

theorem sessionZero_unfollowed {s : State} (h : s.pen.session = 0) :
    sessionZero s = { s with pen := { s.pen with left := none } } := by
  unfold sessionZero
  rw [if_pos h]

/-! ## The grant (R37, R38, R165) -/

/-- The Translator as a grant finds it in READY (R37). -/
def Translator.granted (cut : LinkTime) (t : Translator) : Translator :=
  { t with
    run := [], results := [], retake := [], undo := [], settle := none, handOver := none
    forced := .clear, publishing := true, floorTime := cut, grant := some cut }

theorem penGrant_ready {s : State} (h : s.trans.mode = .ready) (cut : LinkTime) :
    penGrant cut s = actOnGrant cut { s with trans := s.trans.granted cut } := by
  unfold penGrant Translator.granted
  simp [h]

/-- The replay starts: the read point is searched, the Composer publishes at the record end (R38, R130). -/
theorem startReplay_eq (cut : LinkTime) (s : State) : ∃ d, startReplay cut s = { s with
    journal := s.journal.search cut
    trans := { s.trans with mode := .ready, grant := none, replayEnd := replayEndOf (s.journal.search cut) }
    composer := s.composer.publishing s.record.lines s.pen.epoch
    screen := { s.screen with dirty := d } } := by
  unfold startReplay
  rw [Composer.enterPublish_eq]
  exact refreshScreen_eq _

/-- A closing holder whose range has not ended, with nothing to release, reports the release as it begins to publish; no other
does anything (log 26). -/
theorem closingRelease_eq {s : State} (hf : s.trans.forced = .clear) (hm : s.trans.mode = .ready)
    (hr : s.trans.retake = []) (hrun : s.trans.run = []) (hs : s.pen.state = some .holding) :
    closingRelease s = { s with trans := { s.trans with
      forced := if s.pen.closing && ! s.pen.exhausted then .reported else .clear } } := by
  unfold closingRelease
  by_cases hc : s.pen.closing = true
  · cases he : s.pen.exhausted
    · rw [if_pos ⟨hc, rfl, hs⟩, releaseForPass_reports hf hm hr hrun hc]
      simp [hc]
    · simp [hc, ← hf]
  · simp [hc, ← hf]

/-- A grant at a writer in READY that lacks text: CATCHING-UP (R165, R37). -/
theorem takeGrant_behind {b : Beacon} {n : Nat} {s : State} (hm : s.trans.mode = .ready) (h : n < b.startRsn - 1) :
    (takeGrant b n s).pen = { s.pen with state := some .catchingUp, nextRsn := b.startRsn } ∧
    (takeGrant b n s).trans = { s.trans.granted b.cut with mode := .catchingUp } ∧
    (takeGrant b n s).journal = s.journal ∧ (takeGrant b n s).record = s.record ∧
    (takeGrant b n s).composer = s.composer.leavePublish := by
  unfold takeGrant
  simp only [h, decide_true, if_true]
  rw [penGrant_ready (by simpa using hm), actOnGrant, if_pos (by simp), closingRelease, if_neg (by simp)]
  simp

theorem takeGrant_level_eq {b : Beacon} {n : Nat} {s : State} (hm : s.trans.mode = .ready) (h : b.startRsn - 1 ≤ n) :
    ∃ d, takeGrant b n s = { s with
      pen := { s.pen with state := some .holding, nextRsn := b.startRsn }
      journal := s.journal.search b.cut
      trans := { s.trans.granted b.cut with
        mode := .ready, grant := none, replayEnd := replayEndOf (s.journal.search b.cut)
        forced := if s.pen.closing && ! s.pen.exhausted then .reported else .clear }
      composer := s.composer.publishing s.record.lines s.pen.epoch
      screen := { s.screen with dirty := d } } := by
  obtain ⟨d, hd⟩ := refreshScreen_eq { s with pen := { s.pen with state := some .holding, nextRsn := b.startRsn } }
  obtain ⟨d', hreplay⟩ := startReplay_eq b.cut { s with
    pen := { s.pen with state := some .holding, nextRsn := b.startRsn }, trans := s.trans.granted b.cut
    screen := { s.screen with dirty := d } }
  refine ⟨d', ?_⟩
  unfold takeGrant
  simp only [Nat.not_lt.2 h, decide_false, Bool.false_eq_true, if_false]
  rw [hd, penGrant_ready (by exact hm), actOnGrant, if_neg (by simp)]
  exact (congrArg closingRelease hreplay).trans (closingRelease_eq rfl rfl rfl rfl rfl)

/-- The grant at a writer in READY that has all the text: HOLDING, the replay starts, the Composer publishes (R165, R38). -/
theorem takeGrant_level {b : Beacon} {n : Nat} {s : State} (hm : s.trans.mode = .ready) (h : b.startRsn - 1 ≤ n) :
    (takeGrant b n s).pen = { s.pen with state := some .holding, nextRsn := b.startRsn } ∧
    (takeGrant b n s).trans = { s.trans.granted b.cut with
      mode := .ready, grant := none, replayEnd := replayEndOf (s.journal.search b.cut)
      forced := if s.pen.closing && ! s.pen.exhausted then .reported else .clear } ∧
    (takeGrant b n s).journal = s.journal.search b.cut ∧ (takeGrant b n s).record = s.record ∧
    (takeGrant b n s).composer = s.composer.publishing s.record.lines s.pen.epoch ∧
    (takeGrant b n s).screen.butDirty = s.screen.butDirty := by
  obtain ⟨d, he⟩ := takeGrant_level_eq hm h
  rw [he]
  exact ⟨rfl, rfl, rfl, rfl, rfl, rfl⟩

/-! ## The pen side of a beacon, case by case -/

/-- A beacon that names the station holder in its followed session, of an epoch that is new to it, is a grant (R163 to R165). -/
theorem penTakes_grant {b : Beacon} {s : State} (h0 : b.session ≠ 0) (hs : b.session = s.pen.session)
    (hown : b.holder = some s.straps.station) (hst : s.pen.state.isSome = true)
    (hnew : b.epoch ≠ s.pen.epoch ∨ s.pen.holder ≠ some s.straps.station) :
    penTakes b s = trackNone b (takeGrant b s.pen.applied
      (adoptEpoch b { s with pen := { s.pen with outbound := [], passTo := none } })) := by
  have haway : takesPenAway b s = false := by rw [takesPenAway, decide_eq_false h0, hown]; simp
  have hepoch : newEpoch b s = true := by
    have : b.epoch ≠ s.pen.epoch ∨ b.holder ≠ s.pen.holder := hnew.imp_right (fun hn e => hn (e ▸ hown))
    simpa [newEpoch, hown] using this
  rw [penTakes, haway, if_neg Bool.false_ne_true, sessionOfBeacon, if_neg h0, if_pos hs, followedBeacon, if_pos hepoch,
    newEpochTaken, if_pos ⟨hown, hst⟩]

end Sys2Proof.Machine
end

section
/-! SUPPORT. The items a holder queues (R119, R160, R169), the PASS that ends publishing (R159), and the grant that begins it
(R165). Settles O21. -/

namespace Sys2Proof.Machine

/-! ## The PASS of a holder (R159) -/

theorem passReady_iff {s : State} {n : Station} {time : LinkTime} (hr : s.pen.state = some .releasing)
    (hc : s.pen.closing = false) (hp : s.pen.passTo = some (n, time)) :
    passReady s = true ↔ s.pen.outbound.length < 64 ∧ s.pen.nextRsn ≤ 16777215 := by
  simp only [passReady, hr, hc, hp, Bool.and_eq_true, decide_eq_true_eq]
  simp [Config.outboundSize, Config.rsnMax]

/-- A PASS that cannot be queued waits. -/
theorem queuePass_waits {s : State} (h : ¬ passReady s = true) : queuePass s = s := by
  unfold queuePass
  split
  · exact if_neg h
  · rfl

/-- A PASS queued: its item, HANDING, and the pen loss of a Translator with nothing pending. -/
theorem queuePass_queues {s : State} {n : Station} {time : LinkTime} (hp : s.pen.passTo = some (n, time))
    (h : passReady s = true) (ho : s.trans.handOver = none) : queuePass s =
      refreshScreen { queueItem time (.pass n s.record.endPos) s with
        pen := { s.pen.queued (s.pen.itemOf time (.pass n s.record.endPos)) with state := some .handing, passTo := none }
        trans := s.trans.afterLoss, composer := s.composer.leavePublish } := by
  obtain ⟨-, ht, hc, -⟩ := queueItem_beside time (.pass n s.record.endPos) s
  have hrsn : s.pen.nextRsn ≤ 16777215 := by
    simp only [passReady, Bool.and_eq_true, decide_eq_true_eq] at h
    exact h.2
  unfold queuePass
  rw [hp]
  dsimp only
  rw [if_pos h, transLoss_of_nothing_pending (by rw [ht]; exact ho), queueItem_pen _ _ _ hrsn]
  simp only [ht, hc]

/-- A PASS item changes no line (R160). -/
theorem queueItem_pass_record {s : State} (n : Station) (p : Pos) (time : LinkTime) (h : s.pen.nextRsn ≤ 16777215) :
    (queueItem time (.pass n p) s).record = s.record := queueItem_record time (.pass n p) s h

/-- Settles O21: the queueing of an item, the PASS, and the grant. -/
theorem holderQueuesItemsAndPass : Obligations.HolderQueuesItemsAndPass := by
  refine ⟨⟨?item, ?past, ?pass⟩, ?grant⟩
  case item =>
    intro time body s h i t
    obtain ⟨hj, ht, hc, -⟩ := queueItem_beside time body s
    refine ⟨?_, queueItem_record time body s h, queueItem_penSide time body s, hj, ht, hc⟩
    rw [show t.pen = _ from queueItem_pen time body s h]
    cases body <;> rfl
  case past =>
    intro time body s h
    rw [queueItem, if_pos (by exact h)]
  case pass =>
    intro s n time hr hc hp
    have hready := passReady_iff hr hc hp
    refine ⟨?queued, ?waits⟩
    case waits =>
      intro hno
      have : ¬ passReady s = true := fun h => by have := hready.1 h; omega
      show Host.Outcome.next (refreshScreen (queuePass s)) = _
      rw [queuePass_waits this]
    case queued =>
      intro hlen hrsn hover i
      obtain ⟨hj, -⟩ := queueItem_beside time (.pass n s.record.endPos) s
      have hside := (queuePass_penSide s).trans (refreshScreen_penSide _)
      have hr := queueItem_pass_record n s.record.endPos time hrsn
      have hq := queuePass_queues hp (hready.2 ⟨hlen, hrsn⟩) hover
      refine ⟨_, rfl, ?_, ?_, ?_, ?_, ?_, ?_, ?_, hside⟩ <;> rw [hq, refreshScreen_again]
      · rw [refreshScreen_pen]; simp only [Pen.queued, hc, Bool.false_or]; rfl
      · rw [refreshScreen_record]; exact hr
      · rw [refreshScreen_trans]; rfl
      · rw [refreshScreen_trans]; rfl
      · rw [refreshScreen_trans]; rfl
      · rw [refreshScreen_composer]; exact Composer.leavePublish_not_publish _
      · rw [refreshScreen_journal]; exact hj
  case grant =>
    intro c1 c2 b s q htaken h0 hs hown hst hnew hreorder hmode
    obtain ⟨clock, l, a, -, hexec⟩ := exec_beaconReceived_taken htaken
    have hnone : ∀ i ∈ s.pen.reorder, i.rsn < b.startRsn ∨ s.pen.inEpochOf b i = false := by
      intro i hi
      by_cases he : b.epoch = s.pen.epoch
      · have : s.pen.holder ≠ b.holder := by rw [hown]; exact hnew.resolve_left (fun hn => hn he)
        exact .inr (by simp [Pen.inEpochOf, he, this])
      · exact (hreorder he i hi).imp_right (fun hi => by simp [Pen.inEpochOf, hi])
    have hgrant := penTakes_grant (s := { s with clock := clock, link := l, att := a }) h0 hs hown
      (by rw [hst]; rfl) hnew
    obtain ⟨hpen, hlines, hj, ht, hc⟩ := adoptEpoch_fields (b := b) (s := { s with
      clock := clock, link := l, att := a, pen := { s.pen with outbound := [], passTo := none } }) hnone
    rw [hexec, hgrant]
    refine ⟨_, rfl, ?_⟩
    dsimp only at hpen hlines hj ht hc ⊢
    generalize adoptEpoch b _ = y at hpen hlines hj ht hc ⊢
    have hym : y.trans.mode = .ready := by rw [ht]; exact hmode
    obtain ⟨tpen, trecord, tjournal, ttrans, tcomposer, -⟩ := trackNone_fields b (takeGrant b s.pen.applied y)
    have hsince : ¬ (b.session ≠ 0 ∧ b.holder = none) := by rw [hown]; simp
    rw [tpen, if_neg hsince, trecord, tjournal, ttrans, tcomposer]
    by_cases hbehind : s.pen.applied < b.startRsn - 1
    · obtain ⟨gpen, gtrans, gjournal, grecord, gcomposer⟩ := takeGrant_behind hym hbehind
      rw [gpen, gtrans, gjournal, grecord, gcomposer, hpen, if_pos hbehind]
      exact ⟨rfl, hlines, rfl, rfl, rfl, rfl, rfl, fun _ => ⟨rfl, rfl, hj, Composer.leavePublish_not_publish _⟩,
        fun h => absurd h (Nat.not_le.2 hbehind)⟩
    · obtain ⟨gpen, gtrans, gjournal, grecord, gcomposer, -⟩ := takeGrant_level hym (Nat.not_lt.1 hbehind)
      rw [gpen, gtrans, gjournal, grecord, gcomposer, hpen, hj, hc, if_neg hbehind]
      exact ⟨rfl, hlines, rfl, rfl, rfl, rfl, rfl, fun h => absurd h hbehind, fun _ => ⟨rfl, rfl, rfl, rfl, rfl⟩⟩

end Sys2Proof.Machine
end

section
/-! SUPPORT. Sessions: OPEN-SESSION and CLOSE-SESSION at the port (R154, R156), a session adopted with and without the pen
(R155), a session left, and a session closed by a beacon (R156, R166). Settles O44. -/

namespace Sys2Proof.Machine

/-! ## OPEN-SESSION and CLOSE-SESSION (R154, R156) -/

/-- An owner that answers after a change the rows are looked at for. -/
theorem answer_refreshed (tag : Byte) (n : Nat) (r : Request) (code : RespCode) (body : List Byte) (s : State) :
    answer code body (refreshScreen (transacted tag n r (.working tag none) s)) =
      answered tag n r code body (refreshScreen s) := by
  unfold answered transacted
  rw [refreshScreen_with_port, refreshScreen_port]
  rfl

/-- The rows show nothing of the pen side but its session. -/
theorem refreshScreen_with_pen {s : State} {p : Pen} (h : p.session = s.pen.session) :
    refreshScreen { s with pen := p } = { refreshScreen s with pen := p } := by
  have hc : changedRows { s with pen := p } = changedRows s := changedRows_congr (by simp [State.rowView, h])
  unfold refreshScreen
  rw [hc]
  split <;> rfl

theorem openSession_refreshed (s : State) : refreshScreen (openSession s) = refreshScreen { s with
    journal := Journal.emptied, trans := s.trans.sessionReset, composer := s.composer.sessionReset
    record := Record.cleared, screen := s.screen.sessionReset
    pen := { s.pen with openReq := true, left := none, markQueue := [] } } := by
  have h : openSession s = refreshScreen { s with
      journal := Journal.emptied, trans := s.trans.sessionReset, composer := s.composer.sessionReset
      record := Record.cleared, screen := s.screen.sessionReset
      pen := { s.pen with openReq := true, left := none, markQueue := [] } } := by
    rw [openSession, sessionReset]
    dsimp only
    rw [refreshScreen_pen, ← refreshScreen_with_pen (by rfl)]
  rw [h, refreshScreen_again]

section
variable {tag : Byte} {n : Nat} {s : State}

theorem exec_openSession (hs : s.start ≠ .storeScan) (hp : portFree tag n .openSession s) :
    exec (.openSession tag n) s = .next (askOpenSession (transacted tag n .openSession (.working tag none) s)) :=
  exec_served rfl hs hp (by simp [Request.body]) rfl rfl

theorem exec_closeSession (hs : s.start ≠ .storeScan) (hp : portFree tag n .closeSession s) :
    exec (.closeSession tag n) s = .next (askCloseSession (transacted tag n .closeSession (.working tag none) s)) :=
  exec_served rfl hs hp (by simp [Request.body]) rfl rfl

theorem askOpenSession_display (h : s.pen.state = none) : askOpenSession s = answer .role [] s := by
  unfold askOpenSession
  rw [h]

theorem askOpenSession_outside (h : s.pen.state = some .outside) :
    askOpenSession s = answer .done [] (refreshScreen (openSession s)) := by
  unfold askOpenSession
  rw [h]

theorem askOpenSession_inSession {p : PenState} (h : s.pen.state = some p) (hp : p ≠ .outside) :
    askOpenSession s = answer .inSession [] s := by
  unfold askOpenSession
  rw [h]
  cases p
  case outside => exact absurd rfl hp
  all_goals rfl

theorem askCloseSession_display (h : s.pen.state = none) : askCloseSession s = answer .role [] s := by
  unfold askCloseSession
  rw [h]

theorem askCloseSession_outside (h : s.pen.state = some .outside) : askCloseSession s = answer .noSession [] s := by
  unfold askCloseSession
  rw [h]
  rfl

/-- Refused while a pass is under way to or from this station, and while it catches up. -/
theorem askCloseSession_pending {p : PenState} (h : s.pen.state = some p) (ho : p ≠ .outside)
    (hp : p = .handing ∨ p = .catchingUp ∨ passToSelf s = true) : askCloseSession s = answer .penPending [] s := by
  unfold askCloseSession
  rw [h]
  dsimp only
  rw [if_neg ho, if_pos hp]

theorem askCloseSession_leaves (h : s.pen.state = some .shadow ∨ s.pen.state = some .requesting)
    (hp : passToSelf s = false) : askCloseSession s = answer .done [] (refreshScreen (leaveSession s)) := by
  unfold askCloseSession
  rcases h with h | h <;> rw [h] <;> simp [hp]

theorem askCloseSession_holder (h : s.pen.state = some .holding ∨ s.pen.state = some .releasing)
    (hp : passToSelf s = false) : askCloseSession s = answer .done [] (refreshScreen (closeAsHolder s)) := by
  unfold askCloseSession
  rcases h with h | h <;> rw [h] <;> simp [hp]

/-- CLOSE-SESSION at a holder, `f` being the forced-release flag that the release leaves. -/
theorem exec_closeSession_holder {f : Forced} (hs : s.start ≠ .storeScan) (hp : portFree tag n .closeSession s)
    (hold : s.pen.state = some .holding ∨ s.pen.state = some .releasing) (hself : passToSelf s = false)
    (hf : ∀ x : State, x.trans = s.trans → x.pen.closing = true →
      releaseForPass x = { x with trans := { x.trans with forced := f } }) :
    exec (.closeSession tag n) s = .next (answered tag n .closeSession .done [] (refreshScreen { s with
      pen := { s.pen with closing := true, passTo := none }, trans := { s.trans with forced := f } })) := by
  rw [exec_closeSession hs hp, askCloseSession_holder (by exact hold) (by exact hself), closeAsHolder]
  refine (congrArg (fun x => Host.Outcome.next (answer .done [] (refreshScreen x))) (hf
    { transacted tag n .closeSession (.working tag none) s with pen := { s.pen with closing := true, passTo := none } }
    rfl rfl)).trans ?_
  exact congrArg _ (answer_refreshed tag n .closeSession .done [] { s with
    pen := { s.pen with closing := true, passTo := none }, trans := { s.trans with forced := f } })

end

/-! ## A session adopted, left, or closed by a beacon (R155, R156, R166) -/

theorem Screen.eq_of_butDirty {sc sd : Screen} (h : sc.butDirty = sd.butDirty) : sc = { sd with dirty := sc.dirty } := by
  cases sc
  cases sd
  simp only [Screen.butDirty, Screen.mk.injEq] at h ⊢
  simp only [h, and_self]

/-- A station that holds no pen loses none by a beacon. -/
theorem penTakes_of_not_holding {b : Beacon} {s : State} (h : ∀ p, s.pen.state = some p → holdsPen p = false) :
    penTakes b s = trackNone b (sessionOfBeacon b s) := by
  rw [penTakes, penLoss_of_not_holding h, ite_self]

theorem sessionOfBeacon_zero {b : Beacon} {s : State} (h : b.session = 0) : sessionOfBeacon b s = sessionZero s := by
  rw [sessionOfBeacon, if_pos h]

theorem sessionOfBeacon_left {b : Beacon} {s : State} (h0 : b.session ≠ 0) (hs : b.session ≠ s.pen.session)
    (hl : s.pen.left = some b.session) : sessionOfBeacon b s = s := by
  rw [sessionOfBeacon, if_neg h0, if_neg hs, if_pos hl]

theorem sessionOfBeacon_new {b : Beacon} {s : State} (h0 : b.session ≠ 0) (hs : b.session ≠ s.pen.session)
    (hl : s.pen.left ≠ some b.session) : sessionOfBeacon b s = sessionTaken b s := by
  rw [sessionOfBeacon, if_neg h0, if_neg hs, if_neg hl]

/-- A beacon that names the station holder takes no pen away, one that names another does. -/
theorem takesPenAway_iff {b : Beacon} {s : State} (h0 : b.session ≠ 0) :
    takesPenAway b s = true ↔ b.holder ≠ some s.straps.station := by
  simp only [takesPenAway, Bool.or_eq_true, decide_eq_true_eq]
  exact ⟨fun h => h.resolve_left h0, .inr⟩

/-- `x` is `s` as a session that `b` names is adopted: a pen loss may have come first, where `b` names another holder. -/
structure BeforeAdoption (b : Beacon) (x s : State) : Prop where
  straps : x.straps = s.straps
  journal : x.journal = s.journal
  pen : ∃ st out pass, x.pen = { s.pen with state := st, outbound := out, passTo := pass }
  writer : x.pen.state.map (fun _ => PenState.shadow) = s.pen.state.map (fun _ => .shadow)
  leaves : LossLeaves x.trans x.composer s
  screen : x.screen.butDirty = s.screen.butDirty
  mask : x.att.mask = s.att.mask
  own : b.holder = some s.straps.station → x.pen.state = s.pen.state ∧ x.trans = s.trans ∧ x.composer = s.composer

/-- A beacon of a new session: adopted, after a pen loss where it names another holder. -/
theorem penTakes_new {b : Beacon} {s : State} (h0 : b.session ≠ 0) (hs : b.session ≠ s.pen.session)
    (hl : s.pen.left ≠ some b.session) :
    ∃ x, BeforeAdoption b x s ∧ penTakes b s = trackNone b (sessionTaken b x) := by
  unfold penTakes
  by_cases hown : b.holder = some s.straps.station
  · rw [if_neg (fun h => (takesPenAway_iff h0).1 h hown), sessionOfBeacon_new h0 hs hl]
    exact ⟨s, ⟨rfl, rfl, ⟨_, _, _, rfl⟩, rfl, ⟨rfl, rfl, Iff.rfl⟩, rfl, rfl, fun _ => ⟨rfl, rfl, rfl⟩⟩, rfl⟩
  · obtain ⟨st, out, pass, tr, c, d, a, hleave, hst, ha, he⟩ := penLoss_eq (ownPassGranted b s) (decide (b.session = 0)) s
    rw [if_pos ((takesPenAway_iff h0).2 hown), he, sessionOfBeacon_new h0 (by exact hs) (by exact hl)]
    refine ⟨_, ?_, rfl⟩
    exact ⟨rfl, rfl, ⟨st, out, pass, rfl⟩, hst, hleave, rfl, ha, fun h => absurd h hown⟩

/-- A grant at the Translator, acted on now or left waiting (R37, R38): the journal, Translator and Composer, dirty rows. -/
theorem penGrant_eq (cut : LinkTime) (s : State) : ∃ j tr c d, penGrant cut s = { s with
    journal := j, trans := tr, composer := c, screen := { s.screen with dirty := d } } := by
  have hact : ∀ tr : Translator, ∃ j tr' c d, actOnGrant cut { s with trans := tr } = { s with
      journal := j, trans := tr', composer := c, screen := { s.screen with dirty := d } } := by
    intro tr
    unfold actOnGrant
    split
    · exact ⟨_, _, _, s.screen.dirty, rfl⟩
    · obtain ⟨d, hd⟩ := startReplay_eq cut { s with trans := tr }
      exact ⟨_, _, _, d, hd⟩
  unfold penGrant
  split
  · exact ⟨_, _, _, s.screen.dirty, rfl⟩
  · dsimp only
    split
    · exact ⟨_, _, _, s.screen.dirty, rfl⟩
    · exact hact _

/-- A grant changes no line of the record and nothing shown, unless it releases a closing holder. -/
theorem takeGrant_leaves {b : Beacon} {n : Nat} {s : State} (hc : s.pen.closing = false) :
    (takeGrant b n s).record = s.record ∧ (takeGrant b n s).screen.butDirty = s.screen.butDirty := by
  unfold takeGrant
  dsimp only
  generalize hx : ({ s with
    pen := { s.pen with
      state := some (if decide (n < b.startRsn - 1) = true then .catchingUp else .holding), nextRsn := b.startRsn }
    composer := if decide (n < b.startRsn - 1) = true then s.composer.leavePublish else s.composer } : State) = x
  obtain ⟨d, hd⟩ := refreshScreen_eq x
  rw [hd]
  obtain ⟨j, tr, c, d', hg⟩ := penGrant_eq b.cut { x with screen := { x.screen with dirty := d } }
  rw [hg]
  subst hx
  rw [closingRelease, if_neg (by simp [hc])]
  exact ⟨rfl, rfl⟩

/-- A session adopted, with or without the grant: the record, the screen, SESSION-CHANGE. -/
theorem sessionTaken_fields (b : Beacon) (s : State) :
    (sessionTaken b s).record = (adoptSession b s).record ∧
    (sessionTaken b s).screen.butDirty = (adoptSession b s).screen.butDirty ∧
    (sessionTaken b s).att = (adoptSession b s).att := by
  unfold sessionTaken
  dsimp only
  split
  · have hc : (adoptSession b s).pen.closing = false := by rw [(adoptSession_fields b s).1]
    exact ⟨(takeGrant_leaves hc).1, (takeGrant_leaves hc).2, takeGrant_att _ _ _⟩
  · exact ⟨rfl, rfl, rfl⟩

theorem sessionTaken_of_other {b : Beacon} {s : State} (h : b.holder ≠ some s.straps.station) :
    sessionTaken b s = adoptSession b s := by
  unfold sessionTaken
  exact if_neg (fun he => h he.1)

theorem sessionTaken_of_own {b : Beacon} {s : State} (h : b.holder = some s.straps.station) (hst : s.pen.state ≠ none) :
    sessionTaken b s = takeGrant b (b.startRsn - 1) (adoptSession b s) := by
  unfold sessionTaken
  exact if_pos ⟨h, Option.isSome_iff_ne_none.2 hst⟩

/-- A cause raised is held, unless it is masked (R4). -/
theorem Attention.raise_lands {a : Attention} {c : Cause} (h : a.isMasked c = false) :
    (a.raise c).raised.getLsbD c.bit = true := by
  have hc : c.bit < 10 := by cases c <;> decide
  simp [Attention.raise_bit a c c.bit hc, h]

/-- A cause that is held stays held while others are raised. -/
theorem Attention.raise_holds {a : Attention} {c : Cause} {i : Nat} (hi : i < 10) (h : a.raised.getLsbD i = true) :
    (a.raise c).raised.getLsbD i = true := by
  rw [Attention.raise_bit a c i hi, h, Bool.true_or]

theorem Attention.isMasked_congr {a b : Attention} (h : a.mask = b.mask) (c : Cause) : a.isMasked c = b.isMasked c := by
  rw [Attention.isMasked, h, Attention.isMasked]

theorem Composer.sessionReset_of_leaves {tr : Translator} {c : Composer} {s : State} (h : LossLeaves tr c s) :
    (s.composer.mode ≠ .stopped → c.sessionReset = s.composer.sessionReset) ∧
    (s.composer.mode = .stopped → c.sessionReset.mode = .stopped) := by
  constructor
  · intro hm
    have hc : c.mode ≠ .stopped := fun hc => hm (h.stopped.1 hc)
    rw [Composer.sessionReset, Composer.sessionReset, if_neg hc, if_neg hm]
    simp [Composer.enterShadow, h.epoch]
  · intro hm
    have hc : c.mode = .stopped := h.stopped.2 hm
    rw [Composer.sessionReset, if_pos hc, hc]

section
variable {b : Beacon} {x s : State}

/-- A session adopted, whoever is named holder: the record cleared or begun as one GAP line (R155), the screen, the cause. -/
theorem adopted_common (h : BeforeAdoption b x s) :
    (refreshScreen (trackNone b (sessionTaken b x))).record = {
      lines := if b.startPos = { rln := 0, col := 0 } then Record.cleared.lines
        else [{ RecLine.fresh b.startPos.rln b.epoch with text := spaces b.startPos.col, gap := true }]
      marks := [] } ∧
    (refreshScreen (trackNone b (sessionTaken b x))).screen.butDirty = s.screen.sessionReset.butDirty ∧
    (s.att.isMasked .sessionChange = false →
      (refreshScreen (trackNone b (sessionTaken b x))).att.raised.getLsbD 6 = true) := by
  obtain ⟨-, hrec, -, -, -, hscreen, hatt⟩ := trackNone_fields b (sessionTaken b x)
  obtain ⟨hrecTaken, hscreenTaken, hattTaken⟩ := sessionTaken_fields b x
  obtain ⟨-, -, -, -, hrecAdopt, hscreenAdopt, hattAdopt⟩ := adoptSession_fields b x
  refine ⟨hrec.trans (hrecTaken.trans hrecAdopt), ?_, fun hm => ?_⟩
  · rw [hscreen, hscreenTaken, hscreenAdopt]
    have hd : s.screen.sessionReset.butDirty = s.screen.butDirty.sessionReset := rfl
    rw [hd, ← h.screen]
    rfl
  · rw [hatt, hattTaken, hattAdopt]
    exact Attention.raise_lands ((Attention.isMasked_congr h.mask .sessionChange).trans hm)

/-- A session adopted with another holder: SHADOW, the journal emptied, Translator and Composer reset (R155). -/
theorem adopted_other (h : BeforeAdoption b x s) (h0 : b.session ≠ 0) (hother : b.holder ≠ some s.straps.station) :
    (refreshScreen (trackNone b (sessionTaken b x))).pen = { s.pen with
      session := b.session, epoch := b.epoch, holder := b.holder, startRsn := b.startRsn, startPos := b.startPos
      cut := b.cut, applied := b.startRsn - 1, lastStroke := b.cut, closing := false, exhausted := false
      passPending := none, noneSince := if b.holder = none then some b.time else none, openReq := false, passTo := none
      sentRsn := 0, outbound := [], log := [], reorder := [], markQueue := []
      state := s.pen.state.map (fun _ => .shadow) } ∧
    (refreshScreen (trackNone b (sessionTaken b x))).journal = Journal.emptied ∧
    (refreshScreen (trackNone b (sessionTaken b x))).trans = s.trans.sessionReset ∧
    (refreshScreen (trackNone b (sessionTaken b x))).composer = x.composer.sessionReset := by
  have hnot : b.holder ≠ some x.straps.station := by rw [h.straps]; exact hother
  obtain ⟨hpen, -, hjournal, htrans, hcomp, -, -⟩ := trackNone_fields b (sessionTaken b x)
  obtain ⟨hpenAdopt, hjournalAdopt, htransAdopt, hcompAdopt, -, -, -⟩ := adoptSession_fields b x
  obtain ⟨st, out, pass, hx⟩ := h.pen
  rw [hpen, hjournal, htrans, hcomp, sessionTaken_of_other hnot, hpenAdopt, hjournalAdopt, htransAdopt, hcompAdopt]
  refine ⟨?_, if_neg hnot, h.leaves.trans, rfl⟩
  simp only [and_iff_right h0, Option.getD_none]
  rw [h.writer, hx]

/-- A session adopted as its holder, the Translator in READY: the journal kept and replayed, HOLDING (R155, R165, R38). -/
theorem adopted_own (h : BeforeAdoption b x s) (h0 : b.session ≠ 0) (hself : b.holder = some s.straps.station)
    (hw : s.pen.state ≠ none) (hm : s.trans.mode = .ready) :
    (refreshScreen (trackNone b (sessionTaken b x))).pen = { s.pen with
      session := b.session, epoch := b.epoch, holder := b.holder, startRsn := b.startRsn, startPos := b.startPos
      cut := b.cut, applied := b.startRsn - 1, lastStroke := b.cut, closing := false, exhausted := false
      passPending := none, noneSince := if b.holder = none then some b.time else none, openReq := false, passTo := none
      sentRsn := 0, outbound := [], log := [], reorder := [], markQueue := []
      state := some .holding, nextRsn := b.startRsn } ∧
    (refreshScreen (trackNone b (sessionTaken b x))).journal = s.journal.search b.cut ∧
    (refreshScreen (trackNone b (sessionTaken b x))).trans = { s.trans.sessionReset.granted b.cut with
      mode := .ready, grant := none, replayEnd := replayEndOf (s.journal.search b.cut), forced := .clear } ∧
    (refreshScreen (trackNone b (sessionTaken b x))).composer = s.composer.sessionReset.publishing
      (refreshScreen (trackNone b (sessionTaken b x))).record.lines b.epoch := by
  have hholder : b.holder = some x.straps.station := by rw [h.straps]; exact hself
  obtain ⟨hstate, htr, hco⟩ := h.own hself
  obtain ⟨hpen, hrec, hjournal, htrans, hcomp, -, -⟩ := trackNone_fields b (sessionTaken b x)
  obtain ⟨hpenAdopt, hjournalAdopt, htransAdopt, hcompAdopt, -, -, -⟩ := adoptSession_fields b x
  have hready : (adoptSession b x).trans.mode = .ready := by
    rw [htransAdopt, htr]
    simp [Translator.sessionReset, hm]
  obtain ⟨hpenGrant, htransGrant, hjournalGrant, hrecGrant, hcompGrant, -⟩ :=
    takeGrant_level (b := b) (n := b.startRsn - 1) hready (Nat.le_refl _)
  obtain ⟨st, out, pass, hx⟩ := h.pen
  rw [hpen, hjournal, htrans, hcomp, hrec, sessionTaken_of_own hholder (by rw [hstate]; exact hw), hpenGrant, htransGrant,
    hjournalGrant, hcompGrant, hrecGrant, hpenAdopt, hjournalAdopt, htransAdopt, hcompAdopt, if_pos hholder, h.journal, htr,
    hco]
  refine ⟨?_, rfl, rfl, rfl⟩
  simp only [and_iff_right h0, Option.getD_none]
  rw [hx]

end

/-- A beacon of session 0 at a station that follows a session: the session ended, no writer asks on (R156, R188, R191). -/
theorem sessionEnded {b : Beacon} {x : State} (h0 : b.session = 0) (hx : x.pen.session ≠ 0) :
    (refreshScreen (trackNone b (sessionOfBeacon b x))).pen = { x.pen with
      state := x.pen.state.map (fun _ => .outside), session := 0, left := none, reorder := [], outbound := []
      passPending := none, passTo := none, markQueue := [], noneSince := none } ∧
    (refreshScreen (trackNone b (sessionOfBeacon b x))).record = x.record ∧
    (refreshScreen (trackNone b (sessionOfBeacon b x))).journal = x.journal ∧
    (refreshScreen (trackNone b (sessionOfBeacon b x))).trans = x.trans ∧
    (refreshScreen (trackNone b (sessionOfBeacon b x))).composer = x.composer ∧
    (refreshScreen (trackNone b (sessionOfBeacon b x))).screen.butDirty =
      ({ x.screen with pendingStart := none, markRefused := false } : Screen).butDirty ∧
    (refreshScreen (trackNone b (sessionOfBeacon b x))).att = x.att.raise .sessionChange := by
  rw [sessionOfBeacon_zero h0, sessionZero_followed hx]
  obtain ⟨hpen, hrest⟩ := trackNone_fields b (raise .sessionChange { x with
    pen := { x.pen with
      left := none, session := 0, reorder := [], outbound := [], passPending := none, passTo := none, markQueue := []
      state := x.pen.state.map (fun _ => .outside) }
    screen := { x.screen with pendingStart := none, markRefused := false } })
  rw [if_neg (fun h => h.1 h0)] at hpen
  exact ⟨hpen, hrest⟩

/-- A beacon of session 0 takes the pen of a holder with nothing pending: PEN-LOST, and in no state but HANDING the
Translator's pen loss (R40, R156, R159, R166). -/
theorem penLoss_of_sessionZero {b : Beacon} {s : State} {q : PenState} (h0 : b.session = 0) (hs : s.pen.session ≠ 0)
    (hq : s.pen.state = some q) (hh : holdsPen q = true) (ho : s.trans.handOver = none) :
    ∃ d, penLoss (ownPassGranted b s) (decide (b.session = 0)) s = { s with
      pen := { s.pen with state := some .outside, outbound := [], passTo := none }
      trans := if q = .handing then s.trans else s.trans.afterLoss
      composer := if q = .handing then s.composer else s.composer.leavePublish
      screen := { s.screen with dirty := d }, att := s.att.raise .penLost } := by
  have hloud : ownPassGranted b s = false := by
    have hne : b.session ≠ s.pen.session := fun h => hs (h ▸ h0)
    unfold ownPassGranted
    split
    · rw [decide_eq_false hne, Bool.and_false]
    · rfl
  rw [hloud, decide_eq_true h0, penLoss_of_holding hq hh]
  by_cases hhanding : q = .handing
  · simp only [if_pos hhanding]
    exact ⟨s.screen.dirty, rfl⟩
  · simp only [if_neg hhanding]
    rw [transLoss_of_nothing_pending (by exact ho)]
    obtain ⟨d, hd⟩ := refreshScreen_eq { s with
      pen := { s.pen with state := some .outside, outbound := [], passTo := none }
      trans := s.trans.afterLoss, composer := s.composer.leavePublish }
    exact ⟨d, congrArg (raise .penLost) hd⟩

/-- The pending pass that names this station. -/
theorem passToSelf_of_target {s : State} {p : PassPending} (h : s.pen.passPending = some p)
    (ht : p.target = s.straps.station) : passToSelf s = true := by
  simp [passToSelf, h, ht]

/-- Settles O44: the two requests, and the beacons of a new session, of a session left and of session 0. -/
theorem sessionRequests : Obligations.SessionRequests := by
  refine ⟨?opens, ?closes, ?adopts, ?ends, ?idle⟩
  case opens =>
    intro tag clocks s hs hp
    rw [exec_openSession hs hp]
    refine ⟨?_, ?_, ?_⟩
    · intro ho
      rw [askOpenSession_outside (by exact ho), openSession_refreshed]
      exact congrArg _ (answer_refreshed tag clocks .openSession .done [] { s with
        journal := Journal.emptied, trans := s.trans.sessionReset, composer := s.composer.sessionReset
        record := Record.cleared, screen := s.screen.sessionReset
        pen := { s.pen with openReq := true, left := none, markQueue := [] } })
    · intro hn
      rw [askOpenSession_display (by exact hn), answer_transacted]
    · intro p hq hne
      rw [askOpenSession_inSession (by exact hq) hne, answer_transacted]
  case closes =>
    intro tag clocks s hs hp
    refine ⟨?_, ?_, ?_, ?_, ?_, ?_⟩
    · intro hst hself
      rw [exec_closeSession hs hp, askCloseSession_leaves (by exact hst) (by exact hself), leaveSession]
      exact congrArg _ (answer_refreshed tag clocks .closeSession .done [] { s with
        pen := { s.pen with state := some .outside, left := some s.pen.session, session := 0 } })
    · intro hold hself
      refine ⟨fun hf => ?_, fun hf hw => ?_, fun hf hm hr hrun => ?_⟩
      · refine exec_closeSession_holder hs hp hold hself fun x hx _ => ?_
        rw [releaseForPass_of_forced (by rw [hx]; exact hf), ← hx]
      · refine exec_closeSession_holder hs hp hold hself fun x hx _ => ?_
        rw [releaseForPass_waits (by rw [hx]; exact hf) (by rw [hx]; exact hw)]
      · refine exec_closeSession_holder hs hp hold hself fun x hx hc => ?_
        exact releaseForPass_reports (by rw [hx]; exact hf) (by rw [hx]; exact hm) (by rw [hx]; exact hr)
          (by rw [hx]; exact hrun) hc
    · intro hst
      rw [exec_closeSession hs hp]
      rcases hst with hst | hst
      · rw [askCloseSession_pending (by exact hst) (by decide) (.inl rfl), answer_transacted]
      · rw [askCloseSession_pending (by exact hst) (by decide) (.inr (.inl rfl)), answer_transacted]
    · intro q p hst hne hpass ht
      have hself := passToSelf_of_target hpass ht
      rw [exec_closeSession hs hp, askCloseSession_pending (by exact hst) hne (.inr (.inr (by exact hself))),
        answer_transacted]
    · intro hst
      rw [exec_closeSession hs hp, askCloseSession_outside (by exact hst), answer_transacted]
    · intro hst
      rw [exec_closeSession hs hp, askCloseSession_display (by exact hst), answer_transacted]
  case adopts =>
    intro c1 c2 b s htaken h0 hnew hleft
    obtain ⟨clock, l, a, ha, he⟩ := exec_beaconReceived_taken htaken
    obtain ⟨x, hbefore, hpt⟩ :=
      penTakes_new (s := { s with clock := clock, link := l, att := a }) h0 (by exact hnew) (by exact hleft)
    obtain ⟨hrec, hscreen, hatt⟩ := adopted_common hbefore
    refine ⟨_, he.trans (congrArg (fun y => Host.Outcome.next (refreshScreen y)) hpt), hrec, Screen.eq_of_butDirty hscreen,
      fun hm => hatt ((Attention.isMasked_congr ha .sessionChange).trans hm), fun hother => ?_, fun hself hw hm => ?_⟩
    · obtain ⟨hpen, hjournal, htrans, hcomp⟩ := adopted_other hbefore h0 (by exact hother)
      obtain ⟨hreset, hstopped⟩ := Composer.sessionReset_of_leaves hbefore.leaves
      exact ⟨hpen, hjournal, htrans, fun hc => hcomp.trans (hreset hc), fun hc => by rw [hcomp]; exact hstopped hc⟩
    · obtain ⟨hpen, hjournal, htrans, hcomp⟩ := adopted_own hbefore h0 (by exact hself) (by exact hw) (by exact hm)
      rw [htrans, hjournal]
      exact ⟨hpen, rfl, rfl, rfl, rfl, rfl, rfl, rfl, rfl, hcomp⟩
  case ends =>
    intro c1 c2 b s q htaken h0 hs hq hold ho
    obtain ⟨clock, l, a, ha, he⟩ := exec_beaconReceived_taken htaken
    obtain ⟨d, hloss⟩ := penLoss_of_sessionZero (s := { s with clock := clock, link := l, att := a }) h0 (by exact hs)
      (by exact hq) hold (by exact ho)
    rw [he, penTakes, if_pos (by simp [takesPenAway, h0]), hloss]
    refine ⟨_, rfl, ?_⟩
    obtain ⟨hpen, hrec, hjournal, htrans, hcomp, hscreen, hatt⟩ := sessionEnded (x := { s with
      clock := clock, link := l, pen := { s.pen with state := some .outside, outbound := [], passTo := none }
      trans := if q = .handing then s.trans else s.trans.afterLoss
      composer := if q = .handing then s.composer else s.composer.leavePublish
      screen := { s.screen with dirty := d }, att := a.raise .penLost }) h0 (by exact hs)
    refine ⟨hpen, hrec, hjournal, fun hh => ⟨htrans.trans (if_pos hh), hcomp.trans (if_pos hh)⟩,
      fun hh => ⟨(htrans.trans (if_neg hh)).trans ?_, hcomp.trans (if_neg hh)⟩, Screen.eq_of_butDirty hscreen,
      fun hm => ?_, fun hm => ?_⟩
    · simp [Translator.afterLoss, ho]
    · rw [hatt]
      exact Attention.raise_holds (by decide) (Attention.raise_lands ((Attention.isMasked_congr ha .penLost).trans hm))
    · rw [hatt]
      exact Attention.raise_lands
        ((Attention.isMasked_congr ((Attention.raise_mask _ _).trans ha) .sessionChange).trans hm)
  case idle =>
    intro c1 c2 b s htaken hno
    obtain ⟨clock, l, a, ha, he⟩ := exec_beaconReceived_taken htaken
    rw [he, penTakes_of_not_holding (by exact hno)]
    refine ⟨fun h0 hnew hleft => ?_, fun h0 hs => ?_, fun h0 hs => ?_⟩
    · rw [sessionOfBeacon_left h0 (by exact hnew) (by exact hleft)]
      obtain ⟨hpen, hrec, hjournal, htrans, hcomp, -, -⟩ :=
        trackNone_fields b { s with clock := clock, link := l, att := a }
      simp only [and_iff_right h0] at hpen
      exact ⟨_, rfl, hpen, hrec, hjournal, htrans, hcomp⟩
    · rw [sessionOfBeacon_zero h0, sessionZero_unfollowed (by exact hs)]
      obtain ⟨hpen, hrec, hjournal, htrans, hcomp, -, -⟩ :=
        trackNone_fields b { s with clock := clock, link := l, att := a, pen := { s.pen with left := none } }
      rw [if_neg (fun h => h.1 h0)] at hpen
      exact ⟨_, rfl, hpen, hrec, hjournal, htrans, hcomp⟩
    · obtain ⟨hpen, hrec, hjournal, htrans, hcomp, hscreen, hatt⟩ :=
        sessionEnded (x := { s with clock := clock, link := l, att := a }) h0 (by exact hs)
      refine ⟨_, rfl, hpen, hrec, hjournal, htrans, hcomp, Screen.eq_of_butDirty hscreen, fun hm => ?_⟩
      rw [hatt]
      exact Attention.raise_lands ((Attention.isMasked_congr ha .sessionChange).trans hm)

end Sys2Proof.Machine
end

section
/-! SUPPORT. Entries as they stand in the store (R65, R66, R205): a run of words holding given values, what reading it gives,
what programming it leaves, and the words of a written entry. -/

namespace Sys2Proof.Machine

/-! ## A run of programmed words -/

/-- Consecutive words that hold the given values, their check bits agreeing. -/
def WordsStand (n : Nat) : Nat → List (BitVec 32) → State → Prop
  | _, [], _ => True
  | w, v :: l, s => wordAt s n w = fieldWord v ∧ WordsStand n (w + 1) l s

theorem wordsStand_append (n : Nat) (s : State) : ∀ (l m : List (BitVec 32)) (w : Nat),
    WordsStand n w (l ++ m) s ↔ WordsStand n w l s ∧ WordsStand n (w + l.length) m s
  | [], m, w => by simp [WordsStand]
  | v :: l, m, w => by
    have e : w + (v :: l).length = w + 1 + l.length := by simp only [List.length_cons]; omega
    rw [e, List.cons_append, WordsStand, WordsStand, wordsStand_append n s l m (w + 1), and_assoc]

/-- A run stands where its own words are unchanged. -/
theorem wordsStand_congr {n : Nat} {s t : State} : ∀ {l : List (BitVec 32)} {w : Nat},
    (∀ i, i < l.length → t.store.read (addrOf n (w + i)) = s.store.read (addrOf n (w + i))) →
    WordsStand n w l s → WordsStand n w l t
  | [], _, _, _ => trivial
  | v :: l, w, h, ⟨hv, hl⟩ => by
    refine ⟨(h 0 (by simp)).trans hv, wordsStand_congr (fun i hi => ?_) hl⟩
    have e : w + 1 + i = w + (i + 1) := by omega
    rw [e]; exact h (i + 1) (by simpa using hi)

/-- A word of fields whose value is allowed is read as it stands, and counts no fault. -/
theorem readWord_of_stands {ok : BitVec 32 → Bool} {n w : Nat} {v : BitVec 32} {s : State} (h : wordAt s n w = fieldWord v)
    (hv : ok v = true) : readWord ok n w s = (s, { values := some [v], corrected := false }) := by
  have hc : expectedClass ok (wordAt s n w) = .clean := by rw [h]; simp [expectedClass, classOf, fieldWord, hv]
  unfold readWord
  simp only [hc]
  rw [h]; rfl

/-- A run of allowed values is read as it stands, and counts no fault (R67). -/
theorem readWords_of_stands {ok : BitVec 32 → Bool} {n : Nat} {s : State} : ∀ {l : List (BitVec 32)} {w : Nat},
    WordsStand n w l s → (∀ v ∈ l, ok v = true) →
    readWords ok n l.length w s = (s, { values := some l, corrected := false })
  | [], _, _, _ => rfl
  | v :: l, w, ⟨hv, hl⟩, hok => by
    have hr := readWords_of_stands hl (fun x hx => hok x (List.mem_cons_of_mem v hx))
    rw [List.length_cons, readWords, readWord_of_stands hv (hok v (List.mem_cons_self ..))]
    simp [hr]

/-- Words programmed one after another, every one of them taking, stand as a run (R71). -/
theorem programWords_stand (n : Nat) : ∀ (l : List (BitVec 32)) (w : Nat) (s : State), StoreGood s →
    addrOf n (w + l.length) ≤ Config.storeWords → (programWords n w l s).2 = true →
    WordsStand n w l (programWords n w l s).1
  | [], _, _, _, _, _ => trivial
  | v :: l, w, s, g, ha, h => by
    simp only [List.length_cons] at ha
    by_cases hv : (programWord (fieldWord v) n w s).2 = true
    · simp only [programWords, if_pos hv] at h ⊢
      have hlt : addrOf n w < Config.storeWords := by unfold addrOf at ha ⊢; omega
      have e : w + 1 + l.length = w + (l.length + 1) := by omega
      refine ⟨?_, programWords_stand n l (w + 1) _ ((programWord_keeps _ n w s).store g) (by rw [e]; exact ha) h⟩
      have hframe := programWords_frame n (addrOf n w) l (w + 1) (programWord (fieldWord v) n w s).1
        (fun i _ => by unfold addrOf; omega)
      exact hframe.trans (programWord_reads (fieldWord v) n w s g hlt hv)
    · simp only [programWords, if_neg hv] at h
      exact absurd h hv

/-! ## Cells that answer as asked (log 7) -/

/-- Cells that answer as asked take a target that needs no bit back at the first pulse (R71). -/
theorem pulseWord_asAsked {t : StoreWord} {n w : Nat} {s : State} (hq : s.script.prog = [])
    (ht : t.bits &&& (wordAt s n w).bits = t.bits) :
    pulseWord t n w s =
      ({ s with store := s.store.write (addrOf n w) t, script := { s.script with prog := [] } }, .matched) := by
  have hloop : pulseLoop t 16 [] (wordAt s n w) = (t, .matched) := by simp [pulseLoop, ht]
  unfold pulseWord
  rw [hq]
  simp only [List.headD_nil, Config.pulseLimit, hloop, List.tail_nil]

/-- A mark programmed by cells that answer as asked: its copies are cleared, the rest of its word stays (R63, R71). -/
theorem programMark_asAsked {n : Nat} {m : Mark} {s : State} (g : StoreGood s) (ha : addrOf n m.word < Config.storeWords)
    (hq : s.script.prog = []) : wordAt (programMark n m s).1 n m.word =
      { wordAt s n m.word with bits := (wordAt s n m.word).bits &&& ~~~ markMask m.hi } := by
  have hbits : (wordAt s n m.word).bits &&& ~~~ markMask m.hi &&& (wordAt s n m.word).bits =
      (wordAt s n m.word).bits &&& ~~~ markMask m.hi := by
    rw [BitVec.and_assoc, BitVec.and_comm (~~~ markMask m.hi), ← BitVec.and_assoc, BitVec.and_self]
  have hpulse := pulseWord_asAsked (t := { wordAt s n m.word with bits := (wordAt s n m.word).bits &&& ~~~ markMask m.hi })
    hq hbits
  unfold programMark
  simp only [hpulse]
  show Memory.read _ _ = _
  rw [Memory.read_write _ _ _ g ha, if_pos rfl]

theorem programWord_prog (t : StoreWord) (n w : Nat) (s : State) (h : s.script.prog = []) :
    (programWord t n w s).1.script.prog = [] := by
  unfold programWord pulseWord
  dsimp only
  split <;> simp [h]

theorem programMark_prog (n : Nat) (m : Mark) (s : State) (h : s.script.prog = []) :
    (programMark n m s).1.script.prog = [] := by
  unfold programMark pulseWord
  dsimp only
  split
  · simp [h]
  · simp [h]
  · split <;> simp [h]

theorem programWords_prog (n : Nat) : ∀ (l : List (BitVec 32)) (w : Nat) (s : State), s.script.prog = [] →
    (programWords n w l s).1.script.prog = []
  | [], _, _, h => h
  | v :: l, w, s, h => by
    have hv := programWord_prog (fieldWord v) n w s h
    unfold programWords
    dsimp only
    split
    · exact programWords_prog n l (w + 1) _ hv
    · exact hv

theorem writeEntryWords_prog (n w : Nat) (k : Key) (a : Attrs) (t : Text) (s : State) (h : s.script.prog = []) :
    (writeEntryWords n w k a t s).1.script.prog = [] := by
  have h1 := programWord_prog (fieldWord (entryHeader k a t &&& ~~~ markMask 31)) n w s h
  have h2 := programWords_prog n (k.map (BitVec.ofNat 32) ++ textWords t) (w + 1) _ h1
  unfold writeEntryWords
  dsimp only
  split
  · split
    · exact programMark_prog _ _ _ h2
    · exact h2
  · exact h1

/-! ## The words of an entry (R65, R205) -/

/-- An entry header with WRITING programmed, as it is first written (R66). -/
abbrev writingHeader (k : Key) (a : Attrs) (t : Text) : BitVec 32 := entryHeader k a t &&& ~~~ markMask 31

/-- The same header once LIVE is programmed too. -/
def liveHeader (k : Key) (a : Attrs) (t : Text) : BitVec 32 := writingHeader k a t &&& ~~~ markMask 28

/-- The words of an entry after its header: its chords, then its text. -/
abbrev entryBody (k : Key) (t : Text) : List (BitVec 32) := k.map (BitVec.ofNat 32) ++ textWords t

/-- The words of a live entry, first word first. -/
def entryWords (k : Key) (a : Attrs) (t : Text) : List (BitVec 32) := liveHeader k a t :: entryBody k t

theorem textWords_length (t : Text) : (textWords t).length = (t.length + 3) / 4 := by simp [textWords]

theorem entryWords_length (k : Key) (a : Attrs) (t : Text) : (entryWords k a t).length = entrySize k t := by
  simp [entryWords, entrySize, textWords_length]; omega

theorem entryFields_entryHeader {k : Key} {a : Attrs} {t : Text} (hk : k.length < 8) (ht : t.length < 64) :
    entryFields (entryHeader k a t) = { chords := k.length, length := t.length, attrs := a } := by
  have ha := a.isLt
  have hn : (entryHeader k a t).toNat = 511 * 2 ^ 23 + k.length * 2 ^ 20 + t.length * 2 ^ 14 + a.toNat * 2 ^ 8 := by
    unfold entryHeader
    rw [BitVec.toNat_ofNat]; omega
  unfold entryFields
  rw [hn, EntryFields.mk.injEq]
  refine ⟨by omega, by omega, BitVec.eq_of_toNat_eq ?_⟩
  rw [BitVec.toNat_ofNat]; omega

/-- The marks WRITING and LIVE stand above the fields. -/
theorem entryFields_liveHeader {k : Key} {a : Attrs} {t : Text} (hk : k.length < 8) (ht : t.length < 64) :
    entryFields (liveHeader k a t) = { chords := k.length, length := t.length, attrs := a } := by
  have hmarks : ∀ v m : BitVec 32, m ||| entryMarkBits = BitVec.allOnes 32 → entryFields (v &&& m) = entryFields v := by
    intro v m hm
    have hor : v &&& m ||| entryMarkBits = v ||| entryMarkBits := by
      refine BitVec.eq_of_getLsbD_eq fun i hi => ?_
      have hbit : (m.getLsbD i || entryMarkBits.getLsbD i) = true := by
        rw [← BitVec.getLsbD_or, hm, BitVec.getLsbD_allOnes, decide_eq_true hi]
      rw [BitVec.getLsbD_or, BitVec.getLsbD_and, Bool.or_and_distrib_right, hbit, Bool.and_true, BitVec.getLsbD_or]
    rw [← entryFields_unmarked (v &&& m), hor, entryFields_unmarked]
  unfold liveHeader
  rw [hmarks _ (~~~ markMask 28) (by decide), hmarks _ (~~~ markMask 31) (by decide), entryFields_entryHeader hk ht]

theorem beBytes_four (v : Nat) : beBytes 4 v =
    [BitVec.ofNat 8 (v / 256 ^ 3), BitVec.ofNat 8 (v / 256 ^ 2), BitVec.ofNat 8 (v / 256), BitVec.ofNat 8 v] := by
  simp [beBytes, List.range_succ]

/-- The bytes of a text word are its four characters. -/
theorem beBytes_textWord (t : Text) (i : Nat) :
    beBytes 4 (textWord t i).toNat = (List.range 4).map (fun j => t.getD (4 * i + j) spaceCh) := by
  have hbytes : ∀ a b c d : Byte, beBytes 4 (BitVec.ofNat 32 (beNat [a, b, c, d])).toNat = [a, b, c, d] := by
    intro a b c d
    have ha := a.isLt; have hb := b.isLt; have hc := c.isLt; have hd := d.isLt
    have hn : (BitVec.ofNat 32 (beNat [a, b, c, d])).toNat =
        256 * (256 * (256 * a.toNat + b.toNat) + c.toNat) + d.toNat := by
      rw [BitVec.toNat_ofNat]; simp only [beNat, List.foldl_cons, List.foldl_nil]; omega
    rw [hn, beBytes_four]
    simp only [List.cons.injEq, and_true]
    refine ⟨?_, ?_, ?_, ?_⟩ <;> (apply BitVec.eq_of_toNat_eq; rw [BitVec.toNat_ofNat]; omega)
  exact hbytes _ _ _ _

theorem flatMap_range_four {α : Type} (f : Nat → α) : ∀ m : Nat,
    (List.range m).flatMap (fun i => (List.range 4).map (fun j => f (4 * i + j))) = (List.range (4 * m)).map f
  | 0 => rfl
  | m + 1 => by
    have e : 4 * (m + 1) = 4 * m + 4 := by omega
    rw [List.range_succ (n := m), List.flatMap_append, flatMap_range_four f m, e, List.range_add]
    simp

/-- A text is read back from its words (R65). -/
theorem textOfWords_textWords (t : Text) : textOfWords t.length (textWords t) = t := by
  have hb : (textWords t).flatMap (fun v => beBytes 4 v.toNat) =
      (List.range (4 * ((t.length + 3) / 4))).map (fun i => t.getD i spaceCh) := by
    rw [← flatMap_range_four, textWords, List.flatMap_map]
    simp only [beBytes_textWord]
  unfold textOfWords
  rw [hb]
  apply List.ext_getElem
  · simp; omega
  · intro i h1 h2
    simp [h2]

/-! ## An entry that stands is read back (R65, R67) -/

theorem keyOk_iff (k : Key) : keyOk k = true ↔ 1 ≤ k.length ∧ k.length ≤ 6 ∧ ∀ c ∈ k, 1 ≤ c ∧ c ≤ 8388607 := by
  simp [keyOk, and_assoc]

/-- The chord words of a key read as its chords. -/
theorem chordWords_toNat {k : Key} (h : ∀ c ∈ k, 1 ≤ c ∧ c ≤ 8388607) : (k.map (BitVec.ofNat 32)).map BitVec.toNat = k := by
  rw [List.map_map]
  refine (List.map_congr_left fun c hc => ?_).trans (List.map_id k)
  have := h c hc
  simp only [Function.comp, BitVec.toNat_ofNat, id]; omega

theorem chordWords_ok {k : Key} (h : ∀ c ∈ k, 1 ≤ c ∧ c ≤ 8388607) : ∀ v ∈ k.map (BitVec.ofNat 32), chordValueOk v = true := by
  intro v hv
  obtain ⟨c, hc, rfl⟩ := List.mem_map.1 hv
  have := h c hc
  simp only [chordValueOk, BitVec.toNat_ofNat, Bool.and_eq_true, decide_eq_true_eq]; omega

/-- An entry with no uncorrectable word is read whole. -/
theorem readEntryAt_good {n w : Nat} {s s1 s2 s3 : State} {v : BitVec 32} {cs ts : List (BitVec 32)} {c1 c2 c3 : Bool}
    (hhead : readWord (headerFits w) n w s = (s1, { values := some [v], corrected := c1 }))
    (hkey : readWords chordValueOk n (entryFields v).chords (w + 1) s1 = (s2, { values := some cs, corrected := c2 }))
    (htext : readWords anyValueOk n (((entryFields v).length + 3) / 4) (w + 1 + (entryFields v).chords) s2 =
      (s3, { values := some ts, corrected := c3 })) :
    readEntryAt n w s = (s3, .good (cs.map BitVec.toNat) (entryFields v).attrs (textOfWords (entryFields v).length ts)
      (c1 || c2 || c3)) := by
  unfold readEntryAt
  simp only [hhead, hkey, htext]

/-- An entry whose words stand is read as it was written, with no fault counted. -/
theorem readEntryAt_of_stands {n w : Nat} {k : Key} {a : Attrs} {t : Text} {s : State} (hk : keyOk k = true)
    (ht : t.length ≤ 48) (hw : w + entrySize k t ≤ 4096) (h : WordsStand n w (entryWords k a t) s) :
    readEntryAt n w s = (s, .good k a t false) := by
  obtain ⟨hk1, hk6, hchords⟩ := (keyOk_iff k).1 hk
  obtain ⟨hhead, hbody⟩ := h
  obtain ⟨hkey, htext⟩ := (wordsStand_append ..).1 hbody
  have hf := entryFields_liveHeader (a := a) (k := k) (t := t) (by omega) (by omega)
  have hfits : headerFits w (liveHeader k a t) = true := by
    simp only [entrySize] at hw
    simp only [headerFits, headerValueOk, hf, EntryFields.size, Config.sectorWords, Bool.and_eq_true, decide_eq_true_eq]
    omega
  have r2 := readWords_of_stands hkey (chordWords_ok hchords)
  have r3 := readWords_of_stands (ok := anyValueOk) htext (fun _ _ => rfl)
  rw [List.length_map] at r2 r3
  rw [textWords_length] at r3
  have r := readEntryAt_good (readWord_of_stands hhead hfits) (by rw [hf]; exact r2) (by rw [hf]; exact r3)
  rw [hf, chordWords_toNat hchords] at r
  exact r.trans (by simp only [textOfWords_textWords, Bool.or_self])

/-! ## What a reading says of an entry -/

theorem readWord_value {ok : BitVec 32 → Bool} {n w : Nat} {s : State} {l : List (BitVec 32)}
    (h : (readWord ok n w s).2.values = some l) : ok (wordAt s n w).bits = true ∧ l = [(wordAt s n w).bits] := by
  have hok : expectedClass ok (wordAt s n w) = .clean ∨ expectedClass ok (wordAt s n w) = .corrected →
      ok (wordAt s n w).bits = true := by
    by_cases hb : ok (wordAt s n w).bits = true
    · exact fun _ => hb
    · unfold expectedClass
      split <;> simp [hb]
  unfold readWord at h
  dsimp only at h
  split at h
  · rename_i hc; exact ⟨hok (.inl hc), (Option.some.inj h).symm⟩
  · rename_i hc; exact ⟨hok (.inr hc), (Option.some.inj h).symm⟩
  · cases h

/-- The text of an entry that is read has at most 48 characters (R205). -/
theorem readEntryAt_text_length {n w : Nat} {s u : State} {k : Key} {a : Attrs} {t : Text} {c : Bool}
    (h : readEntryAt n w s = (u, .good k a t c)) : t.length ≤ 48 := by
  unfold readEntryAt at h
  dsimp only at h
  split at h
  · rename_i v hv
    obtain ⟨hok, hl⟩ := readWord_value hv
    split at h
    · split at h
      · simp only [Prod.mk.injEq, EntryRead.good.injEq] at h
        obtain ⟨-, -, -, rfl, -⟩ := h
        rw [← List.singleton_inj.1 hl] at hok
        simp only [headerFits, headerValueOk, Bool.and_eq_true, decide_eq_true_eq] at hok
        exact Nat.le_trans (List.length_take_le ..) hok.1.2
      · simp at h
    · simp at h
  · simp at h

/-! ## An entry that is written stands (R66) -/

/-- An entry is written whole when its header and its body have taken: then LIVE is all that is left to program. -/
theorem writeEntryWords_takes {n w : Nat} {k : Key} {a : Attrs} {t : Text} {s : State}
    (h : (writeEntryWords n w k a t s).2 = true) :
    let x := programWord (fieldWord (writingHeader k a t)) n w s
    let y := programWords n (w + 1) (entryBody k t) x.1
    x.2 = true ∧ y.2 = true ∧ writeEntryWords n w k a t s = programMark n (liveAt w) y.1 := by
  intro x y
  have hwrite : writeEntryWords n w k a t s =
      if x.2 then if y.2 then programMark n (liveAt w) y.1 else y else x := rfl
  rw [hwrite] at h ⊢
  by_cases hx : x.2 = true
  · by_cases hy : y.2 = true
    · rw [if_pos hx, if_pos hy]; exact ⟨hx, hy, rfl⟩
    · rw [if_pos hx, if_neg hy] at h; exact absurd h hy
  · rw [if_neg hx] at h; exact absurd h hx

/-- The words of an entry written whole, by cells that answer as asked, stand (R66). -/
theorem writeEntryWords_stand {n w : Nat} {k : Key} {a : Attrs} {t : Text} {s : State} (g : StoreGood s)
    (hq : s.script.prog = []) (ha : addrOf n (w + entrySize k t) ≤ Config.storeWords)
    (h : (writeEntryWords n w k a t s).2 = true) : WordsStand n w (entryWords k a t) (writeEntryWords n w k a t s).1 := by
  have hlen : w + 1 + (entryBody k t).length = w + entrySize k t := by
    rw [← entryWords_length k a t, entryWords, List.length_cons]; omega
  have hlt : addrOf n w < Config.storeWords := by unfold addrOf entrySize at ha; unfold addrOf; omega
  obtain ⟨hx, hy, hwrite⟩ := writeEntryWords_takes h
  have gx := (programWord_keeps (fieldWord (writingHeader k a t)) n w s).store g
  have gy := (programWords_keeps n (entryBody k t) (w + 1) _).store gx
  have hqx := programWord_prog (fieldWord (writingHeader k a t)) n w s hq
  have hqy := programWords_prog n (entryBody k t) (w + 1) _ hqx
  have hhead := (programWords_frame n (addrOf n w) (entryBody k t) (w + 1) _ (fun i _ => by unfold addrOf; omega)).trans
    (programWord_reads _ n w s g hlt hx)
  have hbody := programWords_stand n _ (w + 1) _ gx (by rw [hlen]; exact ha) hy
  have hlive := programMark_asAsked (m := liveAt w) gy hlt hqy
  rw [hwrite]
  refine ⟨hlive.trans ?_, wordsStand_congr (fun i _ => ?_) hbody⟩
  · unfold wordAt liveAt; rw [hhead]; rfl
  · exact programMark_frame n (liveAt w) _ _ (by unfold addrOf liveAt; dsimp only; omega)

end Sys2Proof.Machine
end

section
/-! SUPPORT. Where an entry is placed (R96, R98) and that it stands there: the sectors an entry can go to, the words it is
written in, and the cells' answers on the way. -/

namespace Sys2Proof.Machine

/-! ## Cells that answer as asked go on doing so through a placing (log 7) -/

theorem zeroWords_prog (n : Nat) : ∀ (l : List Nat) (s : State), s.script.prog = [] → (zeroWords n l s).1.script.prog = []
  | [], _, h => h
  | w :: l, s, h => by
    have hz : (zeroWord n w s).1.script.prog = [] := by
      unfold zeroWord
      split
      · exact h
      · exact programWord_prog _ _ _ _ h
    unfold zeroWords
    dsimp only
    split
    · exact zeroWords_prog n l _ hz
    · exact hz

theorem markBad_prog (n : Nat) (s : State) (h : s.script.prog = []) : (markBad n s).script.prog = [] := by
  have hm := programMark_prog n markBadSector s h
  unfold markBad nameReserve
  dsimp only
  split
  · exact hm
  · exact zeroWords_prog n prezeroWords _ hm

theorem tryActivate_prog (n : Nat) (s : State) (h : s.script.prog = []) : (tryActivate n s).1.script.prog = [] := by
  have hw := programWord_prog (fieldWord (BitVec.ofNat 32 (s.ctl.highestSeq + 1))) n 3
    { s with ctl := { s.ctl with highestSeq := s.ctl.highestSeq + 1 } } h
  have hm := programMark_prog n markActive _ hw
  unfold tryActivate
  dsimp only
  split
  · split
    · rw [setSector_script, modAccount_script]; exact hm
    · exact markBad_prog n _ hm
  · exact markBad_prog n _ hw

theorem activateFrom_prog : ∀ (l : List Nat) (s : State), s.script.prog = [] → (activateFrom l s).1.script.prog = []
  | [], _, h => h
  | n :: l, s, h => by
    unfold activateFrom
    dsimp only
    split
    · exact activateFrom_prog l s h
    · split
      · exact tryActivate_prog n s h
      · exact activateFrom_prog l _ (tryActivate_prog n s h)

theorem activate_prog {s v : State} {m : Option Nat} (h : s.script.prog = []) (hv : activate s = (v, m)) :
    v.script.prog = [] := by
  have ha := activateFrom_prog (s.ctl.sessionIn .free) s h
  unfold activate at hv
  rwa [hv] at ha

theorem makeFull_prog (n : Nat) (s : State) (h : s.script.prog = []) : (makeFull n s).script.prog = [] := by
  unfold makeFull
  rw [setSector_script]
  exact programMark_prog n markFull s h

theorem appendEntry_prog (n : Nat) (k : Key) (a : Attrs) (t : Text) (s : State) (h : s.script.prog = []) :
    (appendEntry n k a t s).1.script.prog = [] := by
  obtain ⟨-, -, hscript, -⟩ := appendEntry_does n k a t s
  rw [hscript]
  exact writeEntryWords_prog _ _ k a t s h

/-! ## The sector an entry goes to (R96, R98) -/

theorem mem_sessionSectors {n : Nat} : n ∈ sessionSectors ↔ 224 ≤ n ∧ n < 255 := by
  simp only [sessionSectors, Config.firstSession, List.mem_map, List.mem_range]
  constructor
  · rintro ⟨i, hi, rfl⟩; omega
  · intro h; exact ⟨n - 224, by omega, by omega⟩

theorem mem_sessionIn {c : Control} {st : SecState} {n : Nat} (h : n ∈ c.sessionIn st) : 224 ≤ n ∧ n < 255 :=
  mem_sessionSectors.1 (List.mem_filter.1 h).1

/-- A session sector in which an entry of a size may be written at the append point. -/
structure TakesEntry (size n : Nat) (s : State) : Prop where
  first : 224 ≤ n
  last : n < 255
  fits : (s.ctl.account n).appendPoint + size ≤ 4096

theorem getD_set_default {α : Type} (d : α) (l : List α) (i : Nat) : (l.set i d).getD i d = d := by
  rw [List.getD_eq_getElem?_getD, List.getElem?_set_self']
  cases l[i]? <;> rfl

/-- A sector just activated is written from word 16 on (R96). -/
theorem tryActivate_appendPoint {n : Nat} {s v : State} (h : tryActivate n s = (v, true)) :
    (v.ctl.account n).appendPoint = 16 := by
  unfold tryActivate at h
  dsimp only at h
  split at h
  · split at h
    · obtain ⟨rfl, -⟩ := Prod.mk.inj h
      rw [setSector_ctl]
      unfold Control.account
      dsimp only
      rw [modAccount_accounts, getD_set_default]
      rfl
    · simp at h
  · simp at h

theorem activateFrom_some {m : Nat} {v : State} : ∀ {l : List Nat} {s : State}, activateFrom l s = (v, some m) →
    m ∈ l ∧ (v.ctl.account m).appendPoint = 16
  | [], _, h => by simp [activateFrom] at h
  | n :: l, s, h => by
    unfold activateFrom at h
    dsimp only at h
    split at h
    · exact (activateFrom_some h).imp_left (List.mem_cons_of_mem n)
    · split at h
      · rename_i ht
        obtain ⟨rfl, hm⟩ := Prod.mk.inj h
        obtain rfl := Option.some.inj hm
        exact ⟨List.mem_cons_self .., tryActivate_appendPoint (Prod.ext rfl ht)⟩
      · exact (activateFrom_some h).imp_left (List.mem_cons_of_mem n)

/-- An activated sector takes any entry of 4,080 words or fewer. -/
theorem activate_takesEntry {size m : Nat} {s v : State} (hs : size ≤ 4080) (h : activate s = (v, some m)) :
    TakesEntry size m v := by
  obtain ⟨hm, ha⟩ := activateFrom_some h
  obtain ⟨h1, h2⟩ := mem_sessionIn hm
  exact ⟨h1, h2, by omega⟩

theorem sectorFor_takesEntry {size n : Nat} {s v : State} (hs : size ≤ 4080) (h : sectorFor size s = (v, some n)) :
    TakesEntry size n v := by
  unfold sectorFor at h
  split at h
  · rename_i m hm
    split at h
    · rename_i hfit
      obtain ⟨rfl, hn⟩ := Prod.mk.inj h
      obtain rfl := Option.some.inj hn
      obtain ⟨h1, h2⟩ := mem_sessionIn (List.mem_of_find?_eq_some hm)
      exact ⟨h1, h2, hfit⟩
    · exact activate_takesEntry hs h
  · exact activate_takesEntry hs h

/-! ## The placed entry stands (R66, R98) -/

/-- An entry's words stand at a location of the session partition, within its sector. -/
structure EntryStands (k : Key) (a : Attrs) (t : Text) (l : Location) (s : State) : Prop where
  sector : l.sector < 255
  fits : l.word + entrySize k t ≤ 4096
  words : WordsStand l.sector l.word (entryWords k a t) s

theorem EntryStands.reads {k : Key} {a : Attrs} {t : Text} {l : Location} {s : State} (h : EntryStands k a t l s)
    (hk : keyOk k = true) (ht : t.length ≤ 48) : readEntryAt l.sector l.word s = (s, .good k a t false) :=
  readEntryAt_of_stands hk ht h.fits h.words

/-- The entry stands while its own words are unchanged. -/
theorem EntryStands.congr {k : Key} {a : Attrs} {t : Text} {l : Location} {s u : State} (h : EntryStands k a t l s)
    (hu : ∀ i, i < entrySize k t → u.store.read (addrOf l.sector (l.word + i)) = s.store.read (addrOf l.sector (l.word + i))) :
    EntryStands k a t l u :=
  ⟨h.sector, h.fits, wordsStand_congr (by rw [entryWords_length]; exact hu) h.words⟩

section
variable {k : Key} {a : Attrs} {t : Text} {s p : State} {n : Nat} {l : Location}

/-- An entry written at the append point of a sector that takes it stands there. -/
theorem appendEntry_stands (g : StoreGood s) (hq : s.script.prog = []) (hn : TakesEntry (entrySize k t) n s)
    (h : (appendEntry n k a t s).2 = true) :
    EntryStands k a t { sector := n, word := (s.ctl.account n).appendPoint } (appendEntry n k a t s).1 := by
  obtain ⟨hok, hstore, -⟩ := appendEntry_does n k a t s
  obtain ⟨-, hlast, hfits⟩ := hn
  have ha : addrOf n ((s.ctl.account n).appendPoint + entrySize k t) ≤ Config.storeWords := by
    simp only [addrOf, Config.sectorWords, Config.storeWords]; omega
  exact ⟨hlast, hfits, wordsStand_congr (fun i _ => by rw [hstore])
    (writeEntryWords_stand g hq ha (hok.symm.trans h))⟩

theorem placeIn_stands (g : StoreGood s) (hq : s.script.prog = []) (hs : entrySize k t ≤ 4080)
    (hn : TakesEntry (entrySize k t) n s) (h : placeIn n k a t s = (p, .at_ l)) : EntryStands k a t l p := by
  rw [placeIn_eq] at h
  split at h
  · rename_i hfirst
    obtain ⟨rfl, hl⟩ := Prod.mk.inj h
    obtain rfl := Placed.at_.inj hl
    exact appendEntry_stands g hq hn hfirst
  · split at h
    · simp at h
    · rename_i y m hy
      have keeps : Keeps s y := by
        have ky := activate_keeps (makeFull n (appendEntry n k a t s).1)
        rw [hy] at ky
        exact (appendEntry_keeps n k a t s).trans ((makeFull_keeps n _).trans ky)
      have hqy : y.script.prog = [] := activate_prog (makeFull_prog n _ (appendEntry_prog n k a t s hq)) hy
      split at h
      · rename_i hretry
        obtain ⟨rfl, hl⟩ := Prod.mk.inj h
        obtain rfl := Placed.at_.inj hl
        exact appendEntry_stands (keeps.store g) hqy (activate_takesEntry hs hy) hretry
      · simp at h

/-- A placed entry stands at its location, where every cell answers as asked. -/
theorem placeEntry_stands (g : StoreGood s) (hq : s.script.prog = []) (hs : entrySize k t ≤ 4080)
    (h : placeEntry k a t s = (p, .at_ l)) : EntryStands k a t l p := by
  have hqf : (sectorFor (entrySize k t) s).1.script.prog = [] := by
    unfold sectorFor
    split
    · split
      · exact hq
      · exact activateFrom_prog _ _ (makeFull_prog _ s hq)
    · exact activateFrom_prog _ s hq
  unfold placeEntry at h
  dsimp only at h
  split at h
  · rename_i n hn
    exact placeIn_stands ((sectorFor_keeps _ s).store g) hqf hs (sectorFor_takesEntry hs (Prod.ext rfl hn)) h
  · simp at h

end

/-! ## Making an entry effective (R99) -/

/-- Losing the target's keys writes nothing and leaves the repair list. -/
theorem loseWithTarget_frame (b : Bool) (s : State) : (loseWithTarget b s).store = s.store ∧
    (loseWithTarget b s).ctl.repair = s.ctl.repair := by
  unfold loseWithTarget
  split
  · obtain ⟨hc, hs⟩ := loseSector_eq s.ctl.comp.target s
    rw [hc]; exact ⟨hs, rfl⟩
  · exact ⟨rfl, rfl⟩

/-- Made effective, an entry changes no word but those of the supersession, and leaves the repair list. -/
theorem makeEffective_frame (k : Key) (l : Location) (s : State) :
    (makeEffective k l s).store = (supersede (dirLoc s.ctl.directory k) s).1.store ∧
    (makeEffective k l s).ctl.repair = s.ctl.repair := by
  obtain ⟨hstore, hrepair⟩ := loseWithTarget_frame (supersede (dirLoc s.ctl.directory k) s).2
    (snoop k (setDirectory (dirSet (supersede (dirLoc s.ctl.directory k) s).1.ctl.directory k l)
      (supersede (dirLoc s.ctl.directory k) s).1))
  exact ⟨hstore, hrepair.trans (supersede_placeSide (dirLoc s.ctl.directory k) s).repair⟩

theorem retireCopy_target (l : Location) (s : State) : (retireCopy l s).1.ctl.comp.target = s.ctl.comp.target := by
  unfold retireCopy
  split
  · rfl
  · rename_i w _
    have hc := congrArg Compaction.target (programMark_wordSide s.ctl.comp.target (retiredAt w) s).comp
    dsimp only
    split
    · exact hc
    · exact hc

/-- The target is the same sector through a supersession, abandoned or not. -/
theorem supersede_target (old : Option Location) (s : State) : (supersede old s).1.ctl.comp.target = s.ctl.comp.target := by
  cases old with
  | none => rfl
  | some l =>
    have hc := programMark_wordSide l.sector (retiredAt l.word) s
    simp only [supersede, retireCopy_target, accountRetired, modAccount_ctl, programRetired, hc.comp]

/-- The entry made effective is the key's location, but where it goes with the target of a compaction that abandons (R99,
R107; log 93). -/
theorem makeEffective_dirLoc {k : Key} {l : Location} {s : State}
    (h : (supersede (dirLoc s.ctl.directory k) s).2 = false ∨ l.sector ≠ s.ctl.comp.target) :
    dirLoc (makeEffective k l s).ctl.directory k = some l := by
  have hset := dirSet_standsAt (supersede (dirLoc s.ctl.directory k) s).1.ctl.directory k l
  apply dirLoc_of_standsAt
  unfold makeEffective loseWithTarget
  dsimp only
  split
  · rename_i habandoned
    refine (loseSector_spec _ _).2 k l hset ?_
    show l.sector ≠ (supersede (dirLoc s.ctl.directory k) s).1.ctl.comp.target
    rw [supersede_target]
    exact h.resolve_left (by rw [habandoned]; exact Bool.noConfusion)
  · exact hset

end Sys2Proof.Machine
end

section
/-! SUPPORT. The repair list served (R104). Settles O33. -/

namespace Sys2Proof.Machine

/-- SERVE_REPAIR, its piece of work offered: the oldest location leaves the list, and the entry there is written anew where a
key holds it. -/
theorem exec_serveRepair {s : State} {l : Location} {rest : List Location} (script : StoreScript)
    (hr : s.ctl.repair = l :: rest) (hw : nextWork s = .repair) :
    exec (.serveRepair script) s = .next (afterStep
      (if (dirKeyAt s.ctl.directory l).isSome
        then rewriteEntry l { s with script := script, ctl := { s.ctl with repair := rest } }
        else { s with script := script, ctl := { s.ctl with repair := rest } })) := by
  have hw' : nextWork { s with script := script } = .repair := hw
  have hserve : exec (.serveRepair script) s = .next (afterStep (serveRepair { s with script := script })) := rfl
  rw [hserve]
  unfold serveRepair
  simp only [hr, hw', if_true]

/-- What a repair reads leaves the store, the directory and the rest of the repair list. -/
theorem readEntryAt_frame {n w : Nat} {s u : State} {r : EntryRead} (h : readEntryAt n w s = (u, r)) :
    u.store = s.store ∧ u.script = s.script ∧ u.ctl.directory = s.ctl.directory ∧ u.ctl.repair = s.ctl.repair := by
  have hread := readEntryAt_readSide n w s
  have hword := readEntryAt_wordSide n w s
  rw [h] at hread hword
  exact ⟨hread.store, hread.script, hread.directory, hword.repair⟩

theorem rewriteEntry_of_unread {l : Location} {s u : State} {r : EntryRead} (h : readEntryAt l.sector l.word s = (u, r))
    (hbad : ∀ e a t c, r ≠ .good e a t c) : rewriteEntry l s = u := by
  unfold rewriteEntry
  cases r with
  | good e a t c => exact absurd rfl (hbad e a t c)
  | badHeader => simp [h]
  | badChord c => simp [h]
  | badText k c => simp [h]

theorem rewriteEntry_of_placed {l : Location} {s u p : State} {k e : Key} {a : Attrs} {t : Text} {c : Bool} {m : Location}
    (hk : dirKeyAt s.ctl.directory l = some k) (h : readEntryAt l.sector l.word s = (u, .good e a t c))
    (hp : placeEntry e a t u = (p, .at_ m)) : rewriteEntry l s = makeEffective k m p := by
  unfold rewriteEntry
  simp only [h, hk, hp]

/-- Settles O33: a repair is dropped where no key holds the location or the entry cannot be read. One whose entry is placed is
`makeEffective` on the placed state, and the new entry, which stands since the placing, reads back because the supersession
touches none of its words. -/
theorem repairRewritesTheEntry : Obligations.RepairRewritesTheEntry := by
  intro script s l rest hr hw s1
  have hexec := exec_serveRepair script hr hw
  refine ⟨fun hnone => ?dropped, fun k u r hk hread hbad => ?unread, fun k e a t c u p m hk hread hplace => ?rewritten⟩
  case dropped =>
    rw [hexec, hnone]
    exact congrArg Host.Outcome.next (afterStep_with_script { s with ctl := { s.ctl with repair := rest } } script)
  case unread =>
    obtain ⟨hstore, -, hdir, hrepair⟩ := readEntryAt_frame hread
    rw [hexec, hk, Option.isSome_some, if_pos rfl, rewriteEntry_of_unread hread hbad]
    exact ⟨rfl, hstore, hdir, hrepair⟩
  case rewritten =>
    obtain ⟨hstore, hscript, hdir, hrepair⟩ := readEntryAt_frame hread
    have hplaced : PlaceSide u p := by
      have h := placeEntry_placeSide e a t u; rw [hplace] at h; exact h
    have hloc : dirLoc p.ctl.directory k = dirLoc s.ctl.directory k := by rw [hplaced.directory, hdir]
    have hrewrite : rewriteEntry l s1 = makeEffective k m p := rewriteEntry_of_placed hk hread hplace
    obtain ⟨hqstore, hqrepair⟩ := makeEffective_frame k m p
    rw [hloc] at hqstore
    have hframe : ∀ x, headersTouched (dirLoc s.ctl.directory k) p x = false →
        (makeEffective k m p).store.read x = p.store.read x := fun x hx => by
      rw [hqstore]; exact supersede_frame _ p x hx
    refine ⟨makeEffective k m p, ?side, hqrepair.trans (hplaced.repair.trans hrepair), fun h => ?location, hframe,
      fun g hcells he huntouched => ?readsBack, ?exec⟩
    case side =>
      rw [← hrewrite]
      exact (StoreSide.same (s := s) (t := s1) rfl).trans (rewriteEntry_storeSide l s1)
    case location => exact makeEffective_dirLoc (by rw [hloc]; exact h)
    case readsBack =>
      have ht := readEntryAt_text_length hread
      obtain ⟨-, he6, -⟩ := (keyOk_iff e).1 he
      have gu : StoreGood u := by unfold StoreGood; rw [hstore]; exact g
      have hstands := placeEntry_stands gu (by rw [hscript]; exact hcells) (by unfold entrySize; omega) hplace
      rw [(hstands.congr fun i hi => hframe _ (huntouched i hi)).reads he ht]
    case exec => rw [hexec, hk, Option.isSome_some, if_pos rfl]; exact congrArg (Host.Outcome.next ∘ afterStep) hrewrite

end Sys2Proof.Machine
end

section
/-! SUPPORT. DEFINE and RETIRE passed to the define queue (R91). Settles O41. -/

namespace Sys2Proof.Machine

theorem idAfter_eq (n : Nat) : idAfter n = if n < 255 then n + 1 else 1 := by
  unfold idAfter; split <;> split <;> omega

/-- A request for the define queue, its transaction under way: with fewer than four requests there it joins them under the
next id. -/
theorem queueRequest_joins {tag : Byte} {n : Nat} {r : Request} (op : DefOp) {s : State} (h : s.ctl.queue.length < 4) :
    queueRequest op (transacted tag n r (.working tag none) s) =
      answered tag n r .queued [BitVec.ofNat 8 s.ctl.nextId] { s with ctl := { s.ctl with
        queue := s.ctl.queue ++ [{ id := s.ctl.nextId, op := op }]
        nextId := if s.ctl.nextId < 255 then s.ctl.nextId + 1 else 1 } } := by
  have hroom : ¬ Config.defineQueueSize ≤ (transacted tag n r (.working tag none) s).ctl.queue.length := Nat.not_le.2 h
  unfold queueRequest
  rw [if_neg hroom, idAfter_eq]
  rfl

theorem queueRequest_busy {tag : Byte} {n : Nat} {r : Request} (op : DefOp) {s : State} (h : 4 ≤ s.ctl.queue.length) :
    queueRequest op (transacted tag n r (.working tag none) s) = answered tag n r .busy [] s := by
  have hfull : Config.defineQueueSize ≤ (transacted tag n r (.working tag none) s).ctl.queue.length := h
  unfold queueRequest
  rw [if_pos hfull]
  rfl

/-- Settles O41: both commands are transactions that pass their request to the define queue. -/
theorem defineAndRetireAreQueued : Obligations.DefineAndRetireAreQueued := by
  intro tag clocks s c r op hc hport hframe hstart
  have hexec : exec c s = .next (queueRequest op (transacted tag clocks r (.working tag none) s)) := by
    rcases hc with ⟨k, a, t, rfl, rfl, rfl⟩ | ⟨k, rfl, rfl, rfl⟩
    all_goals
      rw [exec_service rfl, transaction_served hport hframe rfl (.inl rfl) (.inr hstart)]
      rfl
  rw [hexec]
  exact ⟨fun hroom => by rw [queueRequest_joins op hroom], fun hfull => by rw [queueRequest_busy op hfull]⟩

end Sys2Proof.Machine
end

section
/-! SUPPORT. The items of the record stream applied to the lines of the record (R121 to R126): what the record end is, what a
fill leaves, and where a CUT takes it back to. Settles O22 and O23. -/

namespace Sys2Proof.Machine

/-! ## Lists kept oldest first -/

theorem mapLast_concat {α : Type} (f : α → α) (x : α) : ∀ l : List α, mapLast f (l ++ [x]) = l ++ [f x]
  | [] => rfl
  | [_] => rfl
  | a :: b :: l => congrArg (a :: ·) (mapLast_concat f x (b :: l))

theorem keepLast_of_le {α : Type} {n : Nat} {l : List α} (h : l.length ≤ n) : keepLast n l = l := by
  rw [keepLast, Nat.sub_eq_zero_of_le h, List.drop_zero]

/-- A later part of `n` members or more leaves no room for those before it. -/
theorem keepLast_append_of_le {α : Type} {n : Nat} (l : List α) {m : List α} (h : n ≤ m.length) :
    keepLast n (l ++ m) = keepLast n m := by
  have hlen : (l ++ m).length - n = l.length + (m.length - n) := by rw [List.length_append]; omega
  rw [keepLast, keepLast, hlen, List.drop_append, List.drop_eq_nil_of_le (by omega), List.nil_append,
    Nat.add_sub_cancel_left]

/-- Only the newest members of the later part can stay. -/
theorem keepLast_append_keepLast {α : Type} (n : Nat) (l m : List α) : keepLast n (l ++ keepLast n m) = keepLast n (l ++ m) := by
  rcases Nat.le_total m.length n with h | h
  · rw [keepLast_of_le h]
  · have hlen : (keepLast n m).length = n := by rw [keepLast, List.length_drop]; omega
    rw [keepLast_append_of_le l (Nat.le_of_eq hlen.symm), keepLast_append_of_le l h, keepLast_of_le (Nat.le_of_eq hlen)]

/-- The newest members of a list of values numbered from 0. -/
theorem keepLast_map_range {α : Type} (n m : Nat) (g : Nat → α) :
    keepLast n ((List.range m).map g) = (List.range (min m n)).map (fun i => g (m - min m n + i)) := by
  apply List.ext_getElem
  · simp [keepLast]; omega
  · intro i h1 h2
    simp only [keepLast, List.getElem_drop, List.getElem_map, List.getElem_range, List.length_map, List.length_range]
    congr 1
    omega

/-! ## Positions and the record end (R120) -/

theorem posLt_iff (p q : Pos) : posLt p q = true ↔ p.rln < q.rln ∨ (p.rln = q.rln ∧ p.col < q.col) := by
  simp [posLt]

theorem posLt_eq_false_iff (p q : Pos) : posLt p q = false ↔ q.rln < p.rln ∨ (q.rln = p.rln ∧ q.col ≤ p.col) := by
  rw [← Bool.not_eq_true, posLt_iff]
  omega

theorem posLt_self (p : Pos) : posLt p p = false := by simp [posLt]

/-- A position lies on one side of another alone. -/
theorem posLt_asymm {p q : Pos} (h : posLt p q = true) : posLt q p = false := by
  rw [posLt_iff] at h
  rw [posLt_eq_false_iff]
  omega

theorem lastLine_concat (init : List RecLine) (l : RecLine) : lastLine (init ++ [l]) = l := by simp [lastLine]

theorem endOf_concat (init : List RecLine) (l : RecLine) : endOf (init ++ [l]) = { rln := l.rln, col := l.text.length } := by
  rw [endOf, lastLine_concat]

/-- The newest line stays, whatever leaves the ring (R121). -/
theorem endOf_keepLast_concat (init : List RecLine) (l : RecLine) :
    endOf (keepLast 512 (init ++ [l])) = { rln := l.rln, col := l.text.length } := by
  have h := keepLast_getLast? 512 init l (by omega)
  rw [endOf, lastLine, List.getLastD_eq_getLast?, h]
  rfl

theorem oldestRln_mem {ls : List RecLine} (h : ls ≠ []) : ∃ l ∈ ls, l.rln = oldestRln ls := by
  cases ls with
  | nil => exact absurd rfl h
  | cons l ls => exact ⟨l, List.mem_cons_self .., rfl⟩

theorem endOf_mem {ls : List RecLine} (h : ls ≠ []) : ∃ l ∈ ls, l.rln = (endOf ls).rln := by
  obtain ⟨init, l, rfl⟩ := (List.eq_nil_or_concat ls).resolve_left h
  rw [List.concat_eq_append]
  exact ⟨l, by simp, by rw [endOf_concat]⟩

/-! ## Filling the record to a position (R125) -/

theorem fillTo_of_not_later {ls : List RecLine} {p : Pos} (h : posLt (endOf ls) p = false) (tag : Epoch) :
    fillTo ls p tag = ls := by
  rw [fillTo, h]; rfl

/-- On the last line the fill is spaces. -/
theorem fillTo_pads {init : List RecLine} {l : RecLine} {p : Pos} (hr : p.rln = l.rln) (hc : l.text.length < p.col)
    (tag : Epoch) : fillTo (init ++ [l]) p tag =
      init ++ [{ l with text := l.text ++ spaces (p.col - l.text.length), gap := true }] := by
  have h : posLt (endOf (init ++ [l])) p = true := by rw [endOf_concat, posLt_iff]; exact .inr ⟨hr.symm, hc⟩
  rw [fillTo, if_pos h, lastLine_concat, if_pos hr, mapLast_concat]

/-- A line between the record's last and the one filled to: empty, closed and flagged. -/
def skippedLine (rln : Nat) (tag : Epoch) : RecLine := { RecLine.fresh rln tag with isOpen := false, gap := true }

/-- The line filled to, its column in spaces. -/
def paddedLine (p : Pos) (tag : Epoch) : RecLine :=
  { RecLine.fresh p.rln tag with text := spaces p.col, gap := decide (0 < p.col) }

/-- The line that a fill to a position opens at an RLN. -/
def fillLine (p : Pos) (tag : Epoch) (rln : Nat) : RecLine :=
  if rln = p.rln then paddedLine { p with rln := rln } tag else skippedLine rln tag

theorem filledLines_eq_map (last : Nat) (p : Pos) (tag : Epoch) : filledLines last p tag =
    (List.range (min (p.rln - last) 512)).map (fun i => fillLine p tag (p.rln - (min (p.rln - last) 512 - 1) + i)) := rfl

/-- All the lines up to the position's, as one list. -/
theorem map_fillLine {last : Nat} {p : Pos} (h : last < p.rln) (tag : Epoch) :
    (List.range (p.rln - last)).map (fun i => fillLine p tag (last + 1 + i)) =
      (List.range (p.rln - last - 1)).map (fun i => skippedLine (last + 1 + i) tag) ++ [paddedLine p tag] := by
  obtain ⟨k, hk⟩ : ∃ k, p.rln - last = k + 1 := ⟨p.rln - last - 1, by omega⟩
  have hp : last + 1 + k = p.rln := by omega
  rw [hk, List.range_succ, List.map_append, List.map_singleton, hp, fillLine, if_pos rfl]
  congr 1
  exact List.map_congr_left fun i hi => if_neg (by have := List.mem_range.1 hi; omega)

/-- The lines a fill opens are the newest 512 of all up to the position's. -/
theorem filledLines_eq {last : Nat} {p : Pos} (h : last < p.rln) (tag : Epoch) : filledLines last p tag =
    keepLast 512 ((List.range (p.rln - last - 1)).map (fun i => skippedLine (last + 1 + i) tag) ++ [paddedLine p tag]) := by
  rw [← map_fillLine h, keepLast_map_range, filledLines_eq_map]
  exact List.map_congr_left fun i _ => congrArg (fillLine p tag) (by omega)

/-- On a later line the last line is closed, and lines are opened up to the position's. -/
theorem fillTo_opens {init : List RecLine} {l : RecLine} {p : Pos} (h : l.rln < p.rln) (tag : Epoch) :
    fillTo (init ++ [l]) p tag = keepLast 512 (init ++ [{ l with isOpen := false, gap := true }] ++
      (List.range (p.rln - l.rln - 1)).map (fun i => skippedLine (l.rln + 1 + i) tag) ++ [paddedLine p tag]) := by
  have hlater : posLt (endOf (init ++ [l])) p = true := by rw [endOf_concat, posLt_iff]; exact .inl h
  rw [fillTo, if_pos hlater, lastLine_concat, if_neg (by omega), mapLast_concat, filledLines_eq h,
    List.append_assoc (init ++ _)]
  exact keepLast_append_keepLast 512 _ _

/-- The record filled to a later position ends there. -/
theorem endOf_fillTo {ls : List RecLine} {p : Pos} (hne : ls ≠ []) (h : posLt (endOf ls) p = true) (tag : Epoch) :
    endOf (fillTo ls p tag) = p := by
  obtain ⟨init, l, rfl⟩ := (List.eq_nil_or_concat ls).resolve_left hne
  rw [List.concat_eq_append] at h ⊢
  rw [endOf_concat, posLt_iff] at h
  rcases h with hr | ⟨hr, hc⟩
  · rw [fillTo_opens hr, endOf_keepLast_concat]
    simp [paddedLine, RecLine.fresh, spaces]
  · have hcol : (l.text ++ spaces (p.col - l.text.length)).length = p.col := by
      have hlt : l.text.length < p.col := hc
      rw [List.length_append, spaces, List.length_replicate]
      omega
    rw [fillTo_pads hr.symm hc, endOf_concat, hcol]
    exact congrArg (fun n => ({ rln := n, col := p.col } : Pos)) hr

/-! ## The record taken back to a position (R124) -/

theorem cutTo_of_later {ls : List RecLine} {p : Pos} (h : posLt (endOf ls) p = true) (tag : Epoch) : cutTo ls p tag = ls := by
  rw [cutTo, if_pos h]

/-- Before the oldest held line one line of spaces is left. -/
theorem cutTo_of_before {ls : List RecLine} {p : Pos} (h : posLt (endOf ls) p = false) (ho : p.rln < oldestRln ls)
    (tag : Epoch) : cutTo ls p tag = [{ RecLine.fresh p.rln tag with text := spaces p.col, gap := true }] := by
  rw [cutTo, if_neg (by simp [h]), if_pos ho]

theorem cutTo_of_held {ls : List RecLine} {p : Pos} (h : posLt (endOf ls) p = false) (ho : oldestRln ls ≤ p.rln)
    (tag : Epoch) : cutTo ls p tag = mapLast (fun l => { l with text := l.text.take p.col, isOpen := true, tag := tag })
      (ls.filter (fun l => decide (l.rln ≤ p.rln))) := by
  rw [cutTo, if_neg (by simp [h]), if_neg (by omega)]

/-- After a CUT the record does not end later than its position. -/
theorem endOf_cutTo_not_later {ls : List RecLine} {p : Pos} (hne : ls ≠ []) (h : posLt p (endOf ls) = true) (tag : Epoch) :
    posLt p (endOf (cutTo ls p tag)) = false := by
  have hend : posLt (endOf ls) p = false := posLt_asymm h
  by_cases ho : p.rln < oldestRln ls
  · rw [cutTo_of_before hend ho, ← List.nil_append [_], endOf_concat]
    simp [posLt, RecLine.fresh, spaces]
  · rw [cutTo_of_held hend (by omega)]
    obtain ⟨m, hm, hmo⟩ := oldestRln_mem hne
    have hheld : ls.filter (fun l => decide (l.rln ≤ p.rln)) ≠ [] :=
      List.ne_nil_of_mem (List.mem_filter.2 ⟨hm, by simp; omega⟩)
    obtain ⟨init, l, hl⟩ := (List.eq_nil_or_concat _).resolve_left hheld
    rw [List.concat_eq_append] at hl
    have hlast : l.rln ≤ p.rln := by
      have : l ∈ ls.filter (fun l => decide (l.rln ≤ p.rln)) := by rw [hl]; simp
      simpa using (List.mem_filter.1 this).2
    rw [hl, mapLast_concat, endOf_concat, posLt_eq_false_iff]
    simp only [List.length_take]
    omega

/-! ## An item at, after and before the record end (R122, R123, R125, R126) -/

theorem bringTo_of_end {ls : List RecLine} {p : Pos} (h : endOf ls = p) (tag : Epoch) : bringTo ls p tag = ls := by
  subst h
  rw [bringTo, if_neg (by simp [posLt_self]), fillTo_of_not_later (posLt_self _)]

/-- An APPEND or BREAK acts on the record brought to its position. -/
theorem applyBody_congr {ls ms : List RecLine} {p : Pos} {tag : Epoch} {body : ItemBody}
    (hb : (∃ text, body = .append p text) ∨ body = .brk p) (h : bringTo ls p tag = bringTo ms p tag) :
    applyBody ls body tag = applyBody ms body tag := by
  rcases hb with ⟨text, rfl⟩ | rfl
  · rw [applyBody, applyBody, h]
  · rw [applyBody, applyBody, h]

/-- R125: a later position is filled to first. -/
theorem bringTo_fillTo {ls : List RecLine} {p : Pos} (hne : ls ≠ []) (h : posLt (endOf ls) p = true) (tag : Epoch) :
    bringTo ls p tag = bringTo (fillTo ls p tag) p tag := by
  rw [bringTo_of_end (endOf_fillTo hne h tag), bringTo, posLt_asymm h]
  rfl

/-- R126: an earlier position is cut to first. -/
theorem bringTo_cutTo {ls : List RecLine} {p : Pos} (hne : ls ≠ []) (h : posLt p (endOf ls) = true) (tag : Epoch) :
    bringTo ls p tag = bringTo (cutTo ls p tag) p tag := by
  rw [bringTo, if_pos h, bringTo, endOf_cutTo_not_later hne h]
  rfl

/-- Settles O22: at the record end nothing is filled or cut, and the new last line stays in the ring. -/
theorem breakOpensTheNextLine : Obligations.BreakOpensTheNextLine := by
  intro init l tag ls stop opened
  have happly : applyBody ls (.brk stop) tag = breakEnd ls tag := by
    rw [applyBody, bringTo_of_end (endOf_concat init l)]
  refine ⟨fun hl => ?_, fun hl => ?_⟩
  · have hopens : applyBody ls (.brk stop) tag = keepLast 512 (init ++ [{ l with isOpen := false }] ++ [opened]) := by
      rw [happly, breakEnd, lastLine_concat, if_neg (by exact Nat.not_le.2 hl), mapLast_concat]
      rfl
    refine ⟨by rw [hopens, List.append_assoc]; rfl, ?_⟩
    rw [hopens, endOf_keepLast_concat]
    rfl
  · rw [happly, breakEnd, lastLine_concat, if_pos (by exact Nat.le_of_eq hl.symm)]

/-- R122: characters at the record end. -/
theorem applyBody_append_end (init : List RecLine) (l : RecLine) (text : Text) (tag : Epoch) :
    applyBody (init ++ [l]) (.append { rln := l.rln, col := l.text.length } text) tag =
      init ++ [{ l with
        text := (l.text ++ text).take 64, tag := tag, gap := l.gap || decide (64 < l.text.length + text.length) }] := by
  rw [applyBody, bringTo_of_end (endOf_concat init l), appendEnd, mapLast_concat, List.length_append]
  rfl

/-- R124: a CUT on a held line removes what stands after it. -/
theorem cutTo_within {before after : List RecLine} {l : RecLine} {col : Nat} (hb : ∀ m ∈ before, m.rln < l.rln)
    (ha : ∀ m ∈ after, l.rln < m.rln) (hc : after = [] → col ≤ l.text.length) (tag : Epoch) :
    cutTo (before ++ l :: after) { rln := l.rln, col := col } tag =
      before ++ [{ l with text := l.text.take col, isOpen := true, tag := tag }] := by
  have hend : posLt (endOf (before ++ l :: after)) { rln := l.rln, col := col } = false := by
    rw [posLt_eq_false_iff]
    rcases List.eq_nil_or_concat after with rfl | ⟨init, m, rfl⟩
    · rw [endOf_concat]
      exact .inr ⟨rfl, hc rfl⟩
    · rw [List.concat_eq_append] at ha ⊢
      rw [← List.cons_append, ← List.append_assoc, endOf_concat]
      exact .inl (ha m (by simp))
  have hold : oldestRln (before ++ l :: after) ≤ l.rln := by
    cases before with
    | nil => exact Nat.le_refl _
    | cons m before => exact Nat.le_of_lt (hb m (List.mem_cons_self ..))
  have hbefore : before.filter (fun m => decide (m.rln ≤ l.rln)) = before :=
    List.filter_eq_self.2 fun m hm => decide_eq_true (Nat.le_of_lt (hb m hm))
  have hafter : after.filter (fun m => decide (m.rln ≤ l.rln)) = [] :=
    List.filter_eq_nil_iff.2 fun m hm => by have := ha m hm; simp; omega
  rw [cutTo_of_held hend hold, List.filter_append, List.filter_cons, hbefore, hafter, if_pos (by simp), mapLast_concat]

/-- R124: a CUT before every held line. -/
theorem cutTo_before_all {ls : List RecLine} {p : Pos} (hne : ls ≠ []) (h : ∀ m ∈ ls, p.rln < m.rln) (tag : Epoch) :
    cutTo ls p tag = [{ RecLine.fresh p.rln tag with text := spaces p.col, gap := true }] := by
  obtain ⟨m, hm, hend⟩ := endOf_mem hne
  obtain ⟨o, ho, hold⟩ := oldestRln_mem hne
  refine cutTo_of_before ?_ (hold ▸ h o ho) tag
  rw [posLt_eq_false_iff]
  exact .inl (hend ▸ h m hm)

/-- Settles O23: each kind of item by where its position lies. -/
theorem appendAndCutChangeTheEnd : Obligations.AppendAndCutChangeTheEnd := by
  refine ⟨applyBody_append_end, fun before after l col tag hb ha hc => cutTo_within hb ha hc tag,
    fun ls p tag => ⟨fun h => cutTo_of_later h tag, fun hne h => cutTo_before_all hne h tag⟩,
    fun ls p tag body hne hbody => ⟨fun h => ⟨endOf_fillTo hne h tag, ?later⟩, fun h => ?earlier⟩,
    fun init l p tag => ⟨fun hr hc => fillTo_pads hr hc tag, fun h => fillTo_opens h tag, fun h => ?held⟩⟩
  case later => exact applyBody_congr hbody (bringTo_fillTo hne h tag)
  case earlier => exact applyBody_congr hbody (bringTo_cutTo hne h tag)
  case held => exact fillTo_of_not_later (by rw [endOf_concat]; exact h) tag

end Sys2Proof.Machine
end

section
/-! SUPPORT. How a unit of one word is laid out (R114, R115) and how many items a layout without many breaks gives (R117).
Settles O20. -/

namespace Sys2Proof.Machine

/-! ## The items of a layout (R117) -/

/-- A segment gives an APPEND for each 20 characters begun. -/
theorem appendsOf_length_le : ∀ (fuel : Nat) (p : Pos) (t : Text), 20 * (appendsOf fuel p t).length ≤ t.length + 19
  | 0, _, _ => Nat.zero_le _
  | fuel + 1, p, t => by
    unfold appendsOf
    split
    · exact Nat.zero_le _
    · rename_i hne
      have hpos : 0 < t.length := List.length_pos_iff.2 (by simpa using hne)
      have ih := appendsOf_length_le fuel { p with col := p.col + 20 } (t.drop 20)
      rw [List.length_drop] at ih
      rw [List.length_cons]
      omega

/-- Characters alone join the segment. -/
theorem itemsOf_map_some (p : Pos) : ∀ (t acc : Text), itemsOf p acc (t.map some) = appendsOf (acc ++ t).length p (acc ++ t)
  | [], acc => by rw [List.map_nil, itemsOf, List.append_nil]
  | c :: t, acc => by
    rw [List.map_cons, itemsOf, itemsOf_map_some p t, List.append_assoc]
    rfl

/-- A first break, not on the last RLN, is one item, and a segment follows it on the next line. -/
theorem itemsOf_break_map_some {p : Pos} (h : p.rln < 16777215) (t : Text) :
    itemsOf p [] (none :: t.map some) = .brk p :: appendsOf t.length { rln := p.rln + 1, col := 0 } t := by
  rw [itemsOf, itemsOf_map_some, if_neg (by exact Nat.not_le.2 h)]
  rfl

/-! ## Laying out a word (R114, R115) -/

theorem tokens_word : ∀ {w : Text}, w ≠ [] → (∀ c ∈ w, c ≠ spaceCh) → tokens w = [.word w]
  | [], h, _ => absurd rfl h
  | [c], _, hw => by rw [tokens, if_neg (hw c (by simp)), tokens]
  | c :: d :: w, _, hw => by
    rw [tokens, if_neg (hw c (by simp)), tokens_word (List.cons_ne_nil d w) (fun e he => hw e (List.mem_cons_of_mem c he))]

/-- R115: a word that fits is placed whole. -/
theorem placeWord_fits {width col : Nat} {w : Text} (h : col + w.length ≤ width) (fuel : Nat) :
    (placeWord width fuel w col).1 = w.map some := by
  cases fuel with
  | zero => rfl
  | succ fuel => rw [placeWord, if_pos h]

/-- R115: a space and a word that fit together are placed. -/
theorem wrapTokens_fits {width col : Nat} {w : Text} (h : col + 1 + w.length ≤ width) :
    wrapTokens width [.space, .word w] col = (spaceCh :: w).map some := by
  have hspace : placeSpace width (some w) col = ([some spaceCh], col + 1) := by
    rw [placeSpace, if_neg (by omega), if_neg (by omega)]
  simp only [wrapTokens, nextWord, hspace, placeWord_fits h, List.append_nil, List.singleton_append, List.map_cons]

/-- R115: a word that does not fit after its space, but on a line of its own, goes there and the space is dropped. -/
theorem wrapTokens_wraps {width col : Nat} {w : Text} (h : width < col + 1 + w.length) (hw : w.length ≤ width) :
    wrapTokens width [.space, .word w] col = none :: w.map some := by
  have hspace : placeSpace width (some w) col = ([none], 0) := by
    rw [placeSpace]
    split
    · rfl
    · rw [if_pos ⟨h, hw⟩]
  have hfits : 0 + w.length ≤ width := by omega
  simp only [wrapTokens, nextWord, hspace, placeWord_fits hfits, List.append_nil, List.singleton_append]

/-- R114, R116: a word after text is laid out behind a space, unless that gives too many items. -/
theorem layoutUnit_word {width col : Nat} {w : Text} {l : List (Option Ch)} (hw : w ≠ []) (hs : ∀ c ∈ w, c ≠ spaceCh)
    (hcol : 1 ≤ col) (hl : wrapTokens width [.space, .word w] col = l)
    (hitems : (itemsOf { rln := 0, col := col } [] l).length ≤ 6) : layoutUnit width FormatState.clear 0 w col = l := by
  have htreat : treatFirst FormatState.clear w = w := by cases w <;> rfl
  have hdue : spaceDue FormatState.clear 0 col = true := by
    simp [spaceDue, Attrs.attachLeft, FormatState.clear]; omega
  have htokens : tokens (spaceCh :: w) = [.space, .word w] := by rw [tokens, if_pos rfl, tokens_word hw hs]
  have hpara : Attrs.para 0 = false := by decide
  unfold layoutUnit
  simp only [hpara, htreat, Bool.false_and, Bool.false_eq_true, if_false, hdue, if_true, htokens, hl, List.nil_append]
  exact if_neg (Nat.not_lt.2 hitems)

/-- Settles O20: both layouts are R115's, and a line of at most 64 characters gives at most four APPENDs (R116). -/
theorem wordIsSpacedOrWrapped : Obligations.WordIsSpacedOrWrapped := by
  intro width col w hlen hall hcol hwidth h64
  have hne : w ≠ [] := List.length_pos_iff.1 hlen
  have hspace : ∀ c ∈ w, c ≠ spaceCh := by simpa using hall
  refine ⟨fun h => ?fits, fun h hw => ?wraps⟩
  case fits =>
    refine layoutUnit_word hne hspace hcol (wrapTokens_fits h) ?_
    have hseg := appendsOf_length_le (spaceCh :: w).length { rln := 0, col := col } (spaceCh :: w)
    rw [itemsOf_map_some, List.nil_append]
    rw [List.length_cons] at hseg ⊢
    omega
  case wraps =>
    refine layoutUnit_word hne hspace hcol (wrapTokens_wraps h hw) ?_
    have hseg := appendsOf_length_le w.length { rln := 1, col := 0 } w
    rw [itemsOf_break_map_some (by exact Nat.zero_lt_succ _), List.length_cons]
    simp only [Nat.zero_add]
    omega

end Sys2Proof.Machine
end

section
/-! SUPPORT. Every step keeps the law of the shown rows (R181): the commands that look at the rows again bring it about
themselves, the two of the screen port keep it (R182), and the others change nothing that the rows show. -/

namespace Sys2Proof.Machine

/-! ## What the law of the shown rows looks at -/

/-- The parts of the rows and the dirty-row set. -/
def State.rowState (s : State) := (s.rowView, s.screen.dirty)

theorem Screen.lastContent_idle {sc : Screen} (h : sc.writing = none) (i : Nat) :
    sc.lastContent i = sc.shown.getD i none := by
  rw [Screen.lastContent, h]

theorem Screen.lastContent_writing {sc : Screen} {n : Nat} {t : Text} (h : sc.writing = some (n, t)) (i : Nat) :
    sc.lastContent i = if n = i then some t else sc.shown.getD i none := by
  rw [Screen.lastContent, h]

theorem RowsShown.congr {s t : State} (h : t.rowState = s.rowState) (g : RowsShown s) : RowsShown t := by
  obtain ⟨hview, hdirty⟩ := Prod.mk.inj h
  have hcontent := rowContent_congr hview
  simp only [State.rowView, Prod.mk.injEq] at hview
  obtain ⟨hstart, hrows, -, -, -, -, hshown, hwriting, -⟩ := hview
  have hlast : t.screen.lastContent = s.screen.lastContent := by
    funext i
    rw [Screen.lastContent, Screen.lastContent, hwriting, hshown]
  intro ht i hi
  rw [hdirty, hlast, hcontent]
  exact g (hstart ▸ ht) i (hrows ▸ hi)

/-- Looking at the rows brings the law about: a row that differs has joined the set. -/
theorem refreshScreen_rowsShown (s : State) : RowsShown (refreshScreen s) := by
  intro hstart i hi
  rw [refreshScreen_start] at hstart
  rw [refreshScreen_rows] at hi
  have hlast : (refreshScreen s).screen.lastContent i = s.screen.lastContent i := by
    rw [Screen.lastContent, Screen.lastContent, refreshScreen_writing, refreshScreen_shown]
  rw [mem_refreshScreen_dirty s hstart, hlast, rowContent_congr (refreshScreen_rowView s)]
  by_cases h : s.screen.lastContent i = some (rowContent s i)
  · exact .inr h
  · exact .inl (.inr ⟨hi, h⟩)

/-- From `s` to `t` the law of the shown rows is kept. -/
def KeepsShown (s t : State) : Prop := RowsShown s → RowsShown t

theorem KeepsShown.refl (s : State) : KeepsShown s s := id

theorem KeepsShown.trans {s t u : State} (a : KeepsShown s t) (b : KeepsShown t u) : KeepsShown s u := b ∘ a

theorem KeepsShown.same {s t : State} (h : t.rowState = s.rowState) : KeepsShown s t := RowsShown.congr h

theorem KeepsShown.after {s t u : State} (b : KeepsShown t u) (a : KeepsShown s t) : KeepsShown s u := a.trans b

/-- The rows looked at last. -/
theorem KeepsShown.refreshed (s u : State) : KeepsShown s (refreshScreen u) := fun _ => refreshScreen_rowsShown u

theorem KeepsShown.ite {c : Prop} [Decidable c] {s a b : State} (ha : KeepsShown s a) (hb : KeepsShown s b) :
    KeepsShown s (if c then a else b) := by split <;> assumption

/-! ## Operations that change nothing the rows show -/

theorem raiseIf_rowState (b : Bool) (c : Cause) (s : State) : (raiseIf b c s).rowState = s.rowState := by
  cases b <;> rfl

theorem takeDueKeys_rowState (s : State) : (takeDueKeys s).rowState = s.rowState := by
  by_cases hd : s.scanner.due = 0
  · rw [takeDueKeys_none hd]
  · cases hf : s.scanner.settleDue.form with
    | mk sc ended =>
      cases ended with
      | none => rw [takeDueKeys_gathers hd hf]; rfl
      | some k => rw [takeDueKeys_hands hd hf, handStroke, raiseIf_rowState]; rfl

theorem tick_rowState (keys : BitVec 23) (buttons : BitVec 5) (read : Bool) (s : State) :
    (tick keys buttons read s).rowState = s.rowState := by
  rw [← tick_takeDueKeys, tick_of_none_due (takeDueKeys_due s), ← takeDueKeys_rowState s, Screen.tick_eq]
  rfl

theorem applyUpsets_rowState (l : List Upset) (s : State) : (l.foldl applyUpset s).rowState = s.rowState := by
  obtain ⟨m, sets, h⟩ := applyUpsets_eq l s
  rw [h]
  rfl

theorem cellDiscarded_rowState (s : State) : (cellDiscarded s).rowState = s.rowState := by
  unfold cellDiscarded
  split <;> rfl

theorem quietExpiry_rowState (s : State) : (quietExpiry s).rowState = s.rowState := by
  unfold quietExpiry
  split <;> rfl

theorem ReadSide.rowState {s t : State} (h : ReadSide s t) : t.rowState = s.rowState := by
  simp only [State.rowState, State.rowView, h.start, h.screen, h.straps, h.composer, h.record, h.pen, h.link]

theorem answer_rowState (code : RespCode) (body : List Byte) (s : State) : (answer code body s).rowState = s.rowState := by
  unfold answer
  split <;> rfl

theorem finishDirect_rowState (code : RespCode) (body : List Byte) (s : State) :
    (finishDirect code body s).rowState = s.rowState := answer_rowState code body _

theorem serveReadEntry_rowState (s : State) : (serveReadEntry s).rowState = s.rowState := by
  unfold serveReadEntry
  split
  · rename_i k _
    have hread := (resultOf_readSide k s).rowState
    dsimp only
    split
    · split
      · rw [finishDirect_rowState, hread]
      · rw [finishDirect_rowState, hread]
    · rfl
  · rfl

theorem unprotectDone_rowState (failed : Bool) (s : State) : (unprotectDone failed s).rowState = s.rowState := by
  cases failed
  · rfl
  · exact finishDirect_rowState _ _ _

/-! ## Requests of the service port -/

theorem answer_keepsShown (code : RespCode) (body : List Byte) (s : State) : KeepsShown s (answer code body s) :=
  .same (answer_rowState code body s)

theorem askOpenSession_keepsShown (s : State) : KeepsShown s (askOpenSession s) := by
  unfold askOpenSession
  split
  · exact answer_keepsShown _ _ s
  · exact (answer_keepsShown _ _ _).after (.refreshed s _)
  · exact answer_keepsShown _ _ s

theorem askCloseSession_keepsShown (s : State) : KeepsShown s (askCloseSession s) := by
  unfold askCloseSession
  split
  · exact answer_keepsShown _ _ s
  · exact .ite (answer_keepsShown _ _ s) (.ite (answer_keepsShown _ _ s)
      (.ite ((answer_keepsShown _ _ _).after (.refreshed s _)) ((answer_keepsShown _ _ _).after (.refreshed s _))))

theorem queueRequest_keepsShown (op : DefOp) (s : State) : KeepsShown s (queueRequest op s) := by
  unfold queueRequest
  exact .ite (answer_keepsShown _ _ s) ((answer_keepsShown _ _ _).after (.same rfl))

theorem askEntry_keepsShown (k : Key) (s : State) : KeepsShown s (askEntry k s) := by
  unfold askEntry
  exact .ite (.same rfl) (answer_keepsShown _ _ s)

theorem askEraseBase_keepsShown (s : State) : KeepsShown s (askEraseBase s) := by
  unfold askEraseBase
  refine .ite (answer_keepsShown _ _ s) ?_
  split
  · exact .same (finishDirect_rowState _ _ _)
  · exact .same rfl

theorem askLoad_keepsShown (k : Key) (a : Attrs) (t : Text) (s : State) : KeepsShown s (askLoad k a t s) := by
  unfold askLoad
  exact .ite (answer_keepsShown _ _ s) (.same rfl)

theorem askUnprotect_keepsShown (s : State) : KeepsShown s (askUnprotect s) := by
  unfold askUnprotect
  dsimp only
  split
  · exact .same (unprotectDone_rowState _ _)
  · exact .same rfl

theorem serveRequest_keepsShown (r : Request) (s : State) : KeepsShown s (serveRequest r s) := by
  cases r with
  | define | retire => exact queueRequest_keepsShown _ s
  | readEntry k => exact askEntry_keepsShown k s
  | openSession => exact askOpenSession_keepsShown s
  | closeSession => exact askCloseSession_keepsShown s
  | eraseBase => exact askEraseBase_keepsShown s
  | loadEntry k a t => exact askLoad_keepsShown k a t s
  | unprotect => exact askUnprotect_keepsShown s
  | writeConfig | protect => exact .same rfl
  | maskAttention | ackAttention | readJournal | clearFault => exact (answer_keepsShown _ _ _).after (.same rfl)
  | status | readAttention | readRecord | readMarks | readFault => exact answer_keepsShown _ _ s

theorem judgeRequest_keepsShown (tag : Byte) (r : Request) (s : State) : KeepsShown s (judgeRequest tag r s) := by
  unfold judgeRequest
  exact .ite (.same rfl) (.ite (.same rfl) (.ite (.same rfl)
    (.trans (t := { s with port := .working tag none }) (.same rfl) (serveRequest_keepsShown r _))))

theorem judgeBytes_keepsShown (l : List Byte) (s : State) : KeepsShown s (judgeBytes l s) := by
  unfold judgeBytes
  split
  · exact .refl s
  · exact .same rfl
  · exact .same rfl
  · exact judgeRequest_keepsShown _ _ s

theorem clockOut_keepsShown (n : Nat) (s : State) : KeepsShown s (clockOut n s) := .same rfl

theorem transaction_keepsShown (tag : Byte) (n : Nat) (r : Request) (s : State) : KeepsShown s (transaction tag n r s) := by
  unfold transaction
  exact .trans (clockOut_keepsShown _ s) (.ite (.ite (.same rfl) (judgeRequest_keepsShown tag r _)) (.refl _))

theorem rawFrame_keepsShown (l : List Byte) (s : State) : KeepsShown s (rawFrame l s) := by
  unfold rawFrame
  exact .trans (clockOut_keepsShown _ s) (.ite (judgeBytes_keepsShown l _) (.refl _))

/-! ## The screen port (R182) -/

/-- The first row of the set is taken with its content as it stands. -/
theorem writeStart_takes {s : State} {i : Nat} {l : List Nat} (hs : s.start ≠ .storeScan) (hd : s.screen.dirty = i :: l)
    (hw : s.screen.writing = none) :
    writeStart s = { s with screen := { s.screen with dirty := l, writing := some (i, rowContent s i) } } := by
  unfold writeStart
  simp only [hd, hw, if_neg hs]

/-- A row leaves the set only to be written with its content. -/
theorem writeStart_keepsShown (s : State) : KeepsShown s (writeStart s) := by
  intro g
  by_cases hs : s.start = .storeScan
  · have hsame : writeStart s = s := by
      unfold writeStart
      split
      · rw [if_pos hs]
      · rfl
    rw [hsame]
    exact g
  · unfold writeStart
    split
    · rename_i i l hd hw
      rw [if_neg hs]
      intro _ j hj
      rw [Screen.lastContent_writing rfl]
      by_cases hij : i = j
      · subst hij
        exact .inr (if_pos rfl)
      · refine (g hs j hj).imp (fun h => ?_) (fun h => ?_)
        · rw [hd] at h
          exact (List.mem_cons.1 h).resolve_left (Ne.symm hij)
        · rw [Screen.lastContent_idle hw] at h
          rw [if_neg hij]
          exact h
    · exact g

/-- The write that ends leaves its content as the shown one. -/
theorem writeDone_ends {s : State} {i : Nat} {t : Text} (h : s.screen.writing = some (i, t)) :
    writeDone s = { s with screen := { s.screen with shown := s.screen.shown.set i (some t), writing := none } } := by
  unfold writeDone
  rw [h]

theorem writeDone_keepsShown {s : State} (g : ScreenGood s) : KeepsShown s (writeDone s) := by
  intro h
  obtain ⟨-, -, hlen⟩ := (Screen.rowsGood_iff s.screen).1 g
  cases hw : s.screen.writing with
  | none => rw [writeDone, hw]; exact h
  | some w =>
    obtain ⟨i, t⟩ := w
    rw [writeDone_ends hw]
    intro hs j hj
    have hj' : j < s.screen.shown.length := by rw [hlen]; exact hj
    refine (h hs j hj).imp id fun hlast => ?_
    rw [Screen.lastContent_writing hw] at hlast
    rw [Screen.lastContent_idle rfl, List.getD_eq_getElem?_getD, List.getElem?_set]
    by_cases hij : i = j
    · subst hij
      rw [if_pos rfl] at hlast
      rw [if_pos rfl, if_pos hj']
      exact hlast
    · rw [if_neg hij] at hlast ⊢
      exact hlast

/-! ## Every command -/

section
variable {s t : State}

theorem KeepsShown.of_next {u : State} (k : KeepsShown s u)
    (h : (Host.Outcome.next u : Host.Outcome State Fault Refusal) = .next t) : KeepsShown s t := by
  injection h with h
  exact h ▸ k

/-- A command that looks at the rows at its end. -/
theorem KeepsShown.of_refreshed {u : State}
    (h : (Host.Outcome.next (refreshScreen u) : Host.Outcome State Fault Refusal) = .next t) : KeepsShown s t :=
  .of_next (.refreshed s u) h

/-- A command that does so where it is taken, and else changes nothing. -/
theorem KeepsShown.of_guarded {u : State} {b : Bool}
    (h : (if b then .next (refreshScreen u) else .next s : Host.Outcome State Fault Refusal) = .next t) : KeepsShown s t := by
  split at h
  · exact .of_refreshed h
  · exact .of_next (.refl s) h

/-- A step of the store controller looks at the rows at its end. -/
theorem KeepsShown.of_script {script : StoreScript} {f : State → State}
    (h : (Host.Outcome.next (withScript script f s) : Host.Outcome State Fault Refusal) = .next t) : KeepsShown s t := by
  rw [withScript, ← refreshScreen_with_script] at h
  exact .of_refreshed h

theorem KeepsShown.of_transaction {tag : Byte} {n : Nat} {r : Request}
    (h : (Host.Outcome.next (transaction tag n r s) : Host.Outcome State Fault Refusal) = .next t) : KeepsShown s t :=
  .of_next (transaction_keepsShown tag n r s) h

theorem exec_reset_keepsShown {straps : Straps} {torn : List (Nat × StoreWord)}
    (h : exec (.reset straps torn) s = .next t) : KeepsShown s t := by
  rw [execReset_next h]
  exact fun _ hs => absurd rfl hs

theorem exec_scanComplete_keepsShown {script : StoreScript} (h : exec (.scanComplete script) s = .next t) :
    KeepsShown s t := by
  simp only [exec, execScanComplete] at h
  split at h
  · rw [scanComplete, ← refreshScreen_with_script] at h
    exact .of_refreshed h
  · exact .of_next (.refl s) h

theorem exec_tick_keepsShown {keys : BitVec 23} {buttons : BitVec 5} {events : TickEvents}
    (h : exec (.tick keys buttons events) s = .next t) : KeepsShown s t := by
  simp only [exec, execTick] at h
  split at h
  · exact .of_next (.same ((applyUpsets_rowState _ _).trans (tick_rowState keys buttons events.configRead s))) h
  · cases h

/-- A command that completes keeps the law of the shown rows. -/
theorem exec_keepsShown (c : Instr) (g : ScreenGood s) (h : exec c s = .next t) : KeepsShown s t := by
  cases c with
  | reset => exact exec_reset_keepsShown h
  | scanComplete => exact exec_scanComplete_keepsShown h
  | tick => exact exec_tick_keepsShown h
  | keyDebounced => exact .of_next (.same (takeDueKeys_rowState s)) h
  | screenWriteStart => exact .of_next (writeStart_keepsShown s) h
  | screenWriteDone => exact .of_next (writeDone_keepsShown g) h
  | cellDiscarded => exact .of_next (.same (cellDiscarded_rowState s)) h
  | quietTimerExpiry => exact .of_next (.same (quietExpiry_rowState s)) h
  | serveReadEntry => exact .of_next (.same (serveReadEntry_rowState s)) h
  | poll clocks => exact .of_next (clockOut_keepsShown clocks s) h
  | frameRejected bytes => exact .of_next (rawFrame_keepsShown bytes s) h
  | reliefPress | upPress | downPress | livePress | markPress | beaconDue | backoffExpiry => exact .of_guarded h
  | serveDefine | serveRetire | serveRepair | compactSelect | compactCopy | compactSeal | compactRetireVictim | prezeroWord
  | erasePulse | formatSector | serveLoadEntry | serveProtect | serveWriteConfig => exact .of_script h
  | status | readAttention | maskAttention | ackAttention | define | retire | readEntry | openSession | closeSession
  | readJournal | readRecord | readMarks | readFault | clearFault | eraseBase | loadEntry | writeConfig | protect
  | unprotect => exact .of_transaction h
  | settleExpiry | takeStroke | outboundSpaceFree | serveLookup | beaconReceived | headerReceived | appendReceived
  | breakReceived | cutReceived | passReceived | gapReceived | markReceived | collision | itemSent | absentGapExpiry
  | handoffQuietReached | passQueue | reviewIdleExpiry => exact .of_refreshed h

/-- A command that completes keeps the dirty-row set in order: RESET holds every row, and every other command is one of
`exec_keeps`. -/
theorem exec_keeps_screenGood (c : Instr) (g : ScreenGood s) (h : exec c s = .next t) : ScreenGood t := by
  cases c with
  | reset straps torn => rw [execReset_next h]; exact Screen.withRows_rowsGood Screen.reset _
  | _ => exact (exec_keeps _ s t h (fun _ _ e => nomatch e)).screen g

theorem step_keeps_screenGood (g : ScreenGood s) (h : step s = .next t) : ScreenGood t := by
  unfold step at h
  split at h
  · injection h with h
    exact h ▸ g
  · exact exec_keeps_screenGood _ (by exact g) h

theorem step_keeps_rowsShown (g : ScreenGood s) (hr : RowsShown s) (h : step s = .next t) : RowsShown t := by
  unfold step at h
  split at h
  · injection h with h
    exact h ▸ hr
  · exact exec_keepsShown _ (by exact g) h (hr.congr rfl)

end

end Sys2Proof.Machine
end

section
/-! SUPPORT. The screen: what joins the dirty-row set as the record changes (R181), where the view goes (R185), and the content
of each row (R179, R180, R186, R207). Settles O60. -/

namespace Sys2Proof.Machine

/-! ## An item of the record and the rows (R181, R185) -/

theorem refreshScreen_screen (s : State) :
    (refreshScreen s).screen = { s.screen with dirty := (refreshScreen s).screen.dirty } := by
  obtain ⟨d, h⟩ := refreshScreen_eq s
  rw [h]

/-- A row in the set stays there when the rows are looked at. -/
theorem mem_refreshScreen_of_mem {s : State} {i : Nat} (hs : s.start ≠ .storeScan) (h : i ∈ s.screen.dirty) :
    i ∈ (refreshScreen s).screen.dirty := (mem_refreshScreen_dirty s hs i).2 (.inl h)

/-- The record moves the view alone: not the set, the rows and their shown content. -/
theorem Screen.afterRecord_eq (sc : Screen) (oldest last : Nat) (opened : Bool) : ∃ view newText,
    sc.afterRecord oldest last opened = { sc with view := view, newText := newText } := by
  unfold Screen.afterRecord
  split
  · exact ⟨sc.view, sc.newText, rfl⟩
  · exact ⟨_, _, rfl⟩

/-- R181: a row that an item leaves different joins the set. -/
theorem setLines_row_joins {ls : List RecLine} {o : Bool} {s : State} {i : Nat} (hs : s.start ≠ .storeScan)
    (hi : i < s.screen.rows) (h : s.screen.lastContent i ≠ some (rowContent (setLines ls o s) i)) :
    i ∈ (setLines ls o s).screen.dirty := by
  unfold setLines at h ⊢
  rw [rowContent_congr (refreshScreen_rowView _)] at h
  obtain ⟨view, newText, hsc⟩ := s.screen.afterRecord_eq (oldestRln ls) (lastLine ls).rln o
  rw [hsc] at h ⊢
  exact (mem_refreshScreen_dirty _ (by exact hs) i).2 (.inr ⟨hi, h⟩)

/-- A row in the set is still there after an item. -/
theorem setLines_row_stays {ls : List RecLine} {o : Bool} {s : State} {i : Nat} (hs : s.start ≠ .storeScan)
    (h : i ∈ s.screen.dirty) : i ∈ (setLines ls o s).screen.dirty := by
  unfold setLines
  refine mem_refreshScreen_of_mem (by exact hs) ?_
  obtain ⟨view, newText, hsc⟩ := s.screen.afterRecord_eq (oldestRln ls) (lastLine ls).rln o
  rw [hsc]
  exact h

theorem applyToRecord_screen (b : ItemBody) (e : Epoch) (s : State) : (applyToRecord b e s).screen =
    { s.screen.afterRecord (applyToRecord b e s).record.oldest (applyToRecord b e s).record.lastRln
        (opensLine s.record.lines b) with dirty := (applyToRecord b e s).screen.dirty } := by
  rw [applyToRecord, setLines_record]
  exact refreshScreen_screen _

theorem Screen.afterRecord_live {sc : Screen} (h : sc.view = .live) (oldest last : Nat) (opened : Bool) :
    sc.afterRecord oldest last opened = sc := by
  rw [Screen.afterRecord, h]

theorem Screen.afterRecord_review {sc : Screen} {top : Nat} (h : sc.view = .review top) (oldest last : Nat) (opened : Bool) :
    sc.afterRecord oldest last opened =
      { sc with view := .review (max oldest (min top last)), newText := sc.newText || opened } := by
  rw [Screen.afterRecord, h]

/-- What sets NEW TEXT, in one condition for each kind of item (R185; log 31). -/
theorem opensLine_eq (r : Record) (b : ItemBody) : opensLine r.lines b = match b with
    | .append p _ => decide (r.lastRln < p.rln ∨ p.rln < r.oldest)
    | .brk p => decide (p.rln < 16777215 ∨ r.lastRln < p.rln ∨ p.rln < r.oldest)
    | .cut p => decide (p.rln < r.oldest)
    | .pass _ _ => false := by
  cases b with
  | append p t => exact (Bool.decide_or _ _).symm
  | brk p =>
    show (decide (p.rln < 16777215) || decide (r.lastRln < p.rln) || decide (p.rln < r.oldest)) =
      decide (p.rln < 16777215 ∨ r.lastRln < p.rln ∨ p.rln < r.oldest)
    rw [Bool.decide_or, Bool.decide_or, Bool.or_assoc]
  | cut p => rfl
  | pass n p => rfl

/-! ## Which line a row shows (R179, R186) -/

theorem shadowRowShown_iff (s : State) :
    shadowRowShown s = true ↔ s.straps.role = .writer ∧ s.composer.mode = .shadow := by
  simp [shadowRowShown]

theorem lineRows_eq (s : State) : lineRows s =
    if s.straps.role = .writer ∧ s.composer.mode = .shadow then s.screen.rows - 2 else s.screen.rows - 1 := by
  rw [lineRows]
  by_cases h : shadowRowShown s = true
  · rw [if_pos ((shadowRowShown_iff s).1 h), h]; rfl
  · rw [if_neg (mt (shadowRowShown_iff s).2 h), Bool.eq_false_iff.2 h]; rfl

/-- The RLN that a line row, counted from 1, stands for when there are `rows` of them. -/
def ShowsRln (rows : Nat) (s : State) (i n : Nat) : Prop :=
  match s.screen.view with
  | .live => n + rows = s.record.lastRln + i
  | .review top => n + 1 = top + i

theorem rlnOfRow_eq_some_iff {s : State} {i : Nat} (hi : 1 ≤ i) (n : Nat) :
    rlnOfRow s i = some n ↔ ShowsRln (lineRows s) s i n := by
  unfold rlnOfRow ShowsRln
  cases s.screen.view with
  | live =>
    dsimp only
    split
    · rw [Option.some.injEq]; omega
    · simp only [reduceCtorEq, false_iff]; omega
  | review top => simp only [Option.some.injEq]; omega

theorem lineOfRow_held {s : State} {i n : Nat} (hi : 1 ≤ i) (hn : ShowsRln (lineRows s) s i n) :
    lineOfRow s i = s.record.lineAt n := by
  rw [lineOfRow, (rlnOfRow_eq_some_iff hi n).2 hn]

theorem lineOfRow_none {s : State} {i : Nat} (hi : 1 ≤ i) (h : ∀ n, ShowsRln (lineRows s) s i n → s.record.lineAt n = none) :
    lineOfRow s i = none := by
  cases hr : rlnOfRow s i with
  | none => rw [lineOfRow, hr]
  | some n =>
    have hn := (rlnOfRow_eq_some_iff hi n).1 hr
    rw [lineOfRow_held hi hn, h n hn]

/-! ## The content of the rows (R180, R207) -/

/-- The bottom row of a writer in SHADOW. -/
theorem rowContent_shadow {s : State} {i : Nat} (hi : 1 ≤ i) (hs : s.straps.role = .writer ∧ s.composer.mode = .shadow)
    (hb : i + 1 = s.screen.rows) : rowContent s i = shadowRow s := by
  rw [rowContent, if_neg (by omega), if_pos ⟨(shadowRowShown_iff s).2 hs, hb⟩]

/-- No line row is the shadow row. -/
theorem rowContent_line {s : State} {i : Nat} (hi : 1 ≤ i) (hl : i ≤ lineRows s) :
    rowContent s i = ((lineOfRow s i).map lineRow).getD blankRow := by
  have hshadow : ¬ (shadowRowShown s = true ∧ i + 1 = s.screen.rows) := fun ⟨hs, hb⟩ => by
    rw [lineRows, hs] at hl
    simp only [cond_true] at hl
    omega
  rw [rowContent, if_neg (by omega), if_neg hshadow]
  cases lineOfRow s i <;> rfl

theorem rowContent_of_held {s : State} {i n : Nat} {l : RecLine} (hi : 1 ≤ i) (hl : i ≤ lineRows s)
    (hn : ShowsRln (lineRows s) s i n) (h : s.record.lineAt n = some l) : rowContent s i = lineRow l := by
  rw [rowContent_line hi hl, lineOfRow_held hi hn, h]
  rfl

theorem rowContent_of_unheld {s : State} {i : Nat} (hi : 1 ≤ i) (hl : i ≤ lineRows s)
    (h : ∀ n, ShowsRln (lineRows s) s i n → s.record.lineAt n = none) : rowContent s i = blankRow := by
  rw [rowContent_line hi hl, lineOfRow_none hi h]
  rfl

/-- The line found for an RLN has that number. -/
theorem Record.lineAt_rln {r : Record} {n : Nat} {l : RecLine} (h : r.lineAt n = some l) : l.rln = n := by
  simpa using List.find?_some h

theorem shadowRow_of_concat {s : State} {ls : List ShadowLine} {l : ShadowLine} (h : s.composer.shadow = ls ++ [l]) :
    shadowRow s = spaces 10 ++ padRight 64 l.text ++ txtShadow := by
  have hlast : lastShadow (ls ++ [l]) = l := by simp [lastShadow]
  rw [shadowRow, h, hlast]

theorem shownWriter_eq (s : State) :
    shownWriter s = s.link.latest.bind (fun b => if b.session = 0 then none else b.holder) := by
  unfold shownWriter
  cases s.link.latest <;> rfl

theorem fieldIf_inReview (v : View) (n : Nat) (t : Text) :
    fieldIf (inReview v) n t = padRight n (if v = .live then [] else t) := by
  cases v <;> rfl

/-- Settles O60: the screen port by its two steps, the laws by `step_keeps_screenGood` and `step_keeps_rowsShown`, the set and
the view by what an item of the record does to them, and the content by the kind of the row. -/
theorem screenRowsAreWritten : Obligations.ScreenRowsAreWritten := by
  refine ⟨fun s i l hs hd hw => ⟨congrArg Host.Outcome.next (writeStart_takes hs hd hw), fun g => ?first⟩,
    fun s i t hw => congrArg Host.Outcome.next (writeDone_ends hw), fun s t => step_keeps_screenGood,
    fun s t => step_keeps_rowsShown, fun s i hs => ⟨?looked, mem_refreshScreen_dirty s hs i⟩,
    fun s b c e f i hs hi hne => ?joins, fun s b e => ?item, fun s i hi hrow => ?line, fun s => ?status⟩
  case first =>
    obtain ⟨hasc, hlt, -⟩ := (Screen.rowsGood_iff s.screen).1 g
    rw [hd] at hasc hlt
    exact ⟨hlt i (List.mem_cons_self ..), head_lowest i l hasc⟩
  case looked =>
    obtain ⟨d, h⟩ := refreshScreen_eq s
    rw [h]
  case joins =>
    have hjoins : i ∈ (applyToRecord b e s).screen.dirty := setLines_row_joins hs hi hne
    exact ⟨hjoins, setLines_row_stays (by rw [applyToRecord, setLines_start]; exact hs) hjoins⟩
  case item =>
    have hscreen := applyToRecord_screen b e s
    refine ⟨applyToRecord_penSide b e s, setLines_record _ _ s, fun hv => ?_, fun top hv => ?_⟩
    · rw [Screen.afterRecord_live hv] at hscreen
      exact hscreen
    · rw [Screen.afterRecord_review hv] at hscreen
      refine ⟨_, _, hscreen, ?_, ?_, ?_, opensLine_eq s.record b⟩ <;> omega
  case line =>
    intro bottom rows pageLine held shows
    have hrows : rows = lineRows s := (lineRows_eq s).symm
    have hshows : ∀ n, shows n ↔ ShowsRln (lineRows s) s i n := fun n =>
      hrows ▸ (Iff.rfl : shows n ↔ ShowsRln rows s i n)
    refine ⟨fun l ls hb hlast hshadow => ?_, fun n l hle hn hl => ?_, fun hle hnone => ?_⟩
    · rw [rowContent_shadow hi hb hlast, shadowRow_of_concat hshadow]
      rfl
    · rw [rowContent_of_held hi (hrows ▸ hle) ((hshows n).1 hn) hl, lineRow, Record.lineAt_rln hl]
      rfl
    · exact rowContent_of_unheld hi (hrows ▸ hle) fun n hn => hnone n ((hshows n).2 hn)
  case status =>
    intro rows pageLine
    rw [rowContent, if_pos rfl, statusRow, shownWriter_eq, fieldIf_inReview, gapShown, lineRows_eq]
    rfl

end Sys2Proof.Machine
end

section
/-! SUPPORT. A GAP of the record stream (R175) and a MARK (R189) at a receiver: what each does once it is accepted, and that
one not accepted changes nothing but the counts of its window (R134, R171). Settles O52. -/

namespace Sys2Proof.Machine

/-! ## A cell of the record stream in an open window (R134, R171) -/

/-- The state in which an item is judged: its cells counted against the window, and their corrected words for the window's
owner (R134, R141). -/
def cellsCounted (h : Header) (n : Nat) (cells : List RxCell) (s : State) : State :=
  { s with link := { s.link with
    busy := true, rx := .window h (n + cells.length), roster := rosterCounted h.station cells s } }

theorem itemAccepted_cellsCounted (h : Header) (e : Epoch) (n : Nat) (cells : List RxCell) (s : State) :
    itemAccepted h e (cellsCounted h n cells s) ↔ itemAccepted h e s := itemAccepted_congr h e s _ rfl

/-- Whether a MARK is accepted depends on nothing that the counting of its cell changes. -/
theorem markAccepted_cellsCounted (h : Header) (n : Nat) (cells : List RxCell) (s : State) :
    markAccepted h (cellsCounted h n cells s) ↔ markAccepted h s := Iff.rfl

section
variable {a : RxCell} {h : Header} {n : Nat} {s : State} (hreceives : receives s = true) (hwindow : s.link.rx = .window h n)
  (husable : cellUsable a = true) (hbudget : n + 1 ≤ budgetOf h s)
include hreceives hwindow husable hbudget

theorem cellsReceived_cell (f : Header → State → State) :
    cellsReceived [a] (some f) s = f h (cellsCounted h n [a] s) :=
  cellsReceived_window hreceives hwindow (by simp [husable]) hbudget

theorem exec_gapReceived {g : GapItem} (hg : decodeGap (cellValue a) = some g) :
    exec (.gapReceived a) s = .next (refreshScreen (streamGap g h (cellsCounted h n [a] s))) := by
  show execGapReceived a s = _
  rw [execGapReceived, hg, Option.map_some, cellsReceived_cell hreceives hwindow husable hbudget]

theorem exec_markReceived {m : MarkItem} (hm : decodeMark (cellValue a) = some m) :
    exec (.markReceived a) s = .next (refreshScreen (streamMark m h (cellsCounted h n [a] s))) := by
  show execMarkReceived a s = _
  rw [execMarkReceived, hm, Option.map_some, cellsReceived_cell hreceives hwindow husable hbudget]

end

theorem streamGap_accepted {g : GapItem} {h : Header} {s : State} (ha : itemAccepted h g.epoch s) :
    streamGap g h s = gapIn g s := if_pos ((acceptsItem_iff ..).2 ha)

theorem streamGap_discarded {g : GapItem} {h : Header} {s : State} (ha : ¬ itemAccepted h g.epoch s) :
    streamGap g h s = s := if_neg (mt (acceptsItem_iff ..).1 ha)

theorem streamMark_accepted {m : MarkItem} {h : Header} {s : State} (ha : markAccepted h s) :
    streamMark m h s = applyMark m s := if_pos ((acceptsMark_iff ..).2 ha)

theorem streamMark_discarded {m : MarkItem} {h : Header} {s : State} (ha : ¬ markAccepted h s) :
    streamMark m h s = s := if_neg (mt (acceptsMark_iff ..).1 ha)

/-! ## What a GAP does (R172, R175) -/

/-- The items of the reorder list that a GAP up to `last` leaves: those of later RSNs, which stand at the end of the list. -/
theorem filter_later {low later : List Item} {last : Nat} (hlow : ∀ j ∈ low, j.rsn ≤ last)
    (hlater : ∀ j ∈ later, last < j.rsn) : (low ++ later).filter (fun i => decide (last < i.rsn)) = later := by
  have hdropped : low.filter (fun i => decide (last < i.rsn)) = [] :=
    List.filter_eq_nil_iff.2 fun j hj => by simpa using hlow j hj
  have hkept : later.filter (fun i => decide (last < i.rsn)) = later :=
    List.filter_eq_self.2 fun j hj => by simpa using hlater j hj
  rw [List.filter_append, hdropped, hkept, List.nil_append]

/-- A GAP that takes in the next RSN: applied-through stands at its last RSN, and the items of the reorder list that follow
it are applied while each is the next. -/
theorem gapIn_takes {g : GapItem} {s : State} {low run rest : List Item} (hfirst : g.first ≤ s.pen.applied + 1)
    (hlast : s.pen.applied + 1 ≤ g.last) (hreorder : s.pen.reorder = low ++ run ++ rest) (hlow : ∀ j ∈ low, j.rsn ≤ g.last)
    (hrun : ∀ (m : Nat) (j : Item), run[m]? = some j → j.rsn = g.last + 1 + m) (hrest : ∀ j ∈ rest, g.last < j.rsn)
    (hstop : ∀ j, rest.head? = some j → j.rsn ≠ g.last + 1 + run.length) :
    (gapIn g s).record = { s.record with lines := run.foldl (fun ls j => applyBody ls j.body j.epoch) s.record.lines } ∧
    (gapIn g s).pen = { s.pen with
      applied := g.last + run.length, reorder := rest
      lastStroke := (match run.getLast? with | some j => j.time | none => s.pen.lastStroke)
      log := if run = [] then s.pen.log else keepLast 256 (s.pen.log ++ run)
      passPending := passAfter s.pen.passPending run } := by
  have hlater : ∀ j ∈ run ++ rest, g.last < j.rsn := by
    intro j hj
    rcases List.mem_append.1 hj with hj | hj
    · obtain ⟨m, hm⟩ := List.mem_iff_getElem?.1 hj
      have := hrun m j hm
      omega
    · exact hrest j hj
  have heq : gapIn g s = drainReorder (run ++ rest) (countApplied g.last s) := by
    rw [gapIn, if_pos ⟨hfirst, hlast⟩, hreorder, List.append_assoc, filter_later hlow hlater]
  rw [heq]
  exact drainReorder_applies run rest (countApplied g.last s) hrun hstop

/-- A GAP that does not take in the next RSN changes nothing. -/
theorem gapIn_outside {g : GapItem} {s : State} (h : g.last ≤ s.pen.applied ∨ s.pen.applied + 1 < g.first) :
    gapIn g s = s := if_neg (by omega)

theorem gapIn_beside (g : GapItem) (s : State) : (gapIn g s).journal = s.journal ∧ (gapIn g s).trans = s.trans := by
  unfold gapIn
  split
  · obtain ⟨hjournal, htrans, -⟩ := drainReorder_beside
      (s.pen.reorder.filter (fun i => decide (g.last < i.rsn))) (countApplied g.last s)
    exact ⟨hjournal, htrans⟩
  · exact ⟨rfl, rfl⟩

/-! ## What a MARK does (R189) -/

theorem inMark_iff (m : MarkItem) (l : RecLine) : inMark m l = true ↔ m.first ≤ l.rln ∧ l.rln ≤ m.last := by
  simp [inMark]

theorem Record.applyMark_lines (r : Record) (m : MarkItem) (t : LinkTime) : (r.applyMark m t).lines =
    r.lines.map (fun l => if m.first ≤ l.rln ∧ l.rln ≤ m.last then { l with marked := true } else l) := by
  simp only [Record.applyMark, inMark_iff]

theorem applyMark_record (m : MarkItem) (s : State) :
    (applyMark m s).record = s.record.applyMark m s.clock.linkTime := by simp [applyMark]

theorem applyMark_att (m : MarkItem) (s : State) :
    (applyMark m s).att = if s.straps.role = .writer then s.att.raise .markArrived else s.att := by simp [applyMark]

theorem applyMark_beside (m : MarkItem) (s : State) : (applyMark m s).pen = s.pen ∧ (applyMark m s).trans = s.trans ∧
    (applyMark m s).journal = s.journal := by simp [applyMark]

/-- Settles O52: a cell of either kind is counted first; an accepted one then acts as `gapIn_takes` and `applyMark_record`
say, and any other leaves the state as counted. -/
theorem gapAndMarkAreTaken : Obligations.GapAndMarkAreTaken := by
  refine ⟨fun a g h n s hreceives hwindow husable hbudget hg => ?gap,
    fun a m h n s hreceives hwindow husable hbudget hm => ?mark⟩
  case gap =>
    have hexec := exec_gapReceived hreceives hwindow husable hbudget hg
    have haccepted := itemAccepted_cellsCounted h g.epoch n [a] s
    refine ⟨fun hno => ?discarded, fun hyes => ⟨_, hexec, ?taken⟩⟩
    case discarded =>
      rw [hexec, streamGap_discarded (mt haccepted.1 hno)]
      rfl
    case taken =>
      rw [streamGap_accepted (haccepted.2 hyes)]
      obtain ⟨hjournal, htrans⟩ := gapIn_beside g (cellsCounted h n [a] s)
      have hside := gapIn_penSide g (cellsCounted h n [a] s)
      simp only [refreshScreen_record, refreshScreen_pen, refreshScreen_journal, refreshScreen_trans, refreshScreen_store,
        refreshScreen_ctl]
      refine ⟨fun low run rest hfirst hlast hreorder hlow hrun hrest hstop => ?_, fun hout => ?_, hjournal, htrans,
        hside.store, hside.ctl⟩
      · obtain ⟨hrecord, hpen⟩ := gapIn_takes (s := cellsCounted h n [a] s) hfirst hlast hreorder hlow hrun hrest hstop
        rw [hrecord, hpen]
        exact ⟨rfl, rfl, rfl⟩
      · rw [gapIn_outside (s := cellsCounted h n [a] s) hout]
        exact ⟨rfl, rfl⟩
  case mark =>
    have hexec := exec_markReceived hreceives hwindow husable hbudget hm
    have haccepted := markAccepted_cellsCounted h n [a] s
    refine ⟨fun hno => ?discarded, fun hyes => ⟨_, hexec, ?taken⟩⟩
    case discarded =>
      rw [hexec, streamMark_discarded (mt haccepted.1 hno)]
      rfl
    case taken =>
      rw [streamMark_accepted (haccepted.2 hyes)]
      obtain ⟨hpen, htrans, hjournal⟩ := applyMark_beside m (cellsCounted h n [a] s)
      have hside := applyMark_penSide m (cellsCounted h n [a] s)
      simp only [refreshScreen_record, refreshScreen_att, refreshScreen_pen, refreshScreen_journal, refreshScreen_trans,
        refreshScreen_store, refreshScreen_ctl, applyMark_record, applyMark_att]
      exact ⟨Record.applyMark_lines _ m _, rfl, rfl, hpen, htrans, hjournal, hside.store, hside.ctl⟩

end Sys2Proof.Machine
end

section
/-! SUPPORT. The buttons of the screen (R183, R184, R187) and the review idle timer (R184): a press taken, and what each press
does in LIVE and in REVIEW. Settles O58 and O59. -/

namespace Sys2Proof.Machine

/-! ## A press taken (R177, log 12) -/

theorem exec_upPress_pressed {s : State} (h : s.buttons.up.pressed = true) :
    exec .upPress s = .next (refreshScreen (pressUp { s with buttons := { s.buttons with up := s.buttons.up.taken } })) := by
  show execUpPress s = _
  rw [execUpPress, if_pos h]

theorem exec_downPress_pressed {s : State} (h : s.buttons.down.pressed = true) :
    exec .downPress s =
      .next (refreshScreen (pressDown { s with buttons := { s.buttons with down := s.buttons.down.taken } })) := by
  show execDownPress s = _
  rw [execDownPress, if_pos h]

theorem exec_livePress_pressed {s : State} (h : s.buttons.live.pressed = true) :
    exec .livePress s =
      .next (refreshScreen (pressLive { s with buttons := { s.buttons with live := s.buttons.live.taken } })) := by
  show execLivePress s = _
  rw [execLivePress, if_pos h]

theorem exec_markPress_pressed {s : State} (h : s.buttons.mark.pressed = true) :
    exec .markPress s =
      .next (refreshScreen (pressMark { s with buttons := { s.buttons with mark := s.buttons.mark.taken } })) := by
  show execMarkPress s = _
  rw [execMarkPress, if_pos h]

/-! ## The view moved (R183, R184) -/

section
variable {s : State} {top : Nat}

theorem viewUp_live (hv : s.screen.view = .live) :
    viewUp s = .review (max (s.record.lastRln - lineRows s) s.record.oldest) := by rw [viewUp, hv]

theorem viewUp_review (hv : s.screen.view = .review top) :
    viewUp s = .review (if s.record.oldest < top then top - 1 else top) := by rw [viewUp, hv]

theorem pressDown_live (hv : s.screen.view = .live) :
    pressDown s = { s with screen := { s.screen with markRefused := false } } := by rw [pressDown, hv]

theorem pressDown_review (hv : s.screen.view = .review top) :
    pressDown s = { s with screen := { s.screen with
      view := .review (if top < greatestTop s then top + 1 else top), idle := idleTime s, markRefused := false } } := by
  rw [pressDown, hv]

/-- The review idle timer that has run out in REVIEW returns the view to LIVE; the pending start is kept (R184). -/
theorem reviewIdleExpiry_over (hv : s.screen.view = .review top) (hi : s.screen.idle = some 0) :
    reviewIdleExpiry s = { s with screen := { s.screen with view := .live, idle := none, newText := false } } := by
  have hover : idleOver s = true := by rw [idleOver, hv, hi]; rfl
  rw [reviewIdleExpiry, if_pos hover]

end

/-- Settles O58: each press of UP and DOWN by the view it finds, LIVE in either view, and the timer run out in REVIEW. -/
theorem buttonsMoveTheView : Obligations.ButtonsMoveTheView := by
  intro s
  refine ⟨fun h => ?up, fun h => ⟨fun top hv => ?downReview, fun hv => ?downLive⟩, fun h => ?live, fun top hv hi => ?expiry⟩
  case up =>
    rw [exec_upPress_pressed h, pressUp]
    cases hv : s.screen.view with
    | live => rw [viewUp_live (by exact hv)]; rfl
    | review top => rw [viewUp_review (by exact hv)]; rfl
  case downReview => rw [exec_downPress_pressed h, pressDown_review (by exact hv)]; rfl
  case downLive => rw [exec_downPress_pressed h, pressDown_live (by exact hv)]; rfl
  case live => rw [exec_livePress_pressed h, pressLive, Screen.sessionReset]; rfl
  case expiry =>
    show Host.Outcome.next (refreshScreen (reviewIdleExpiry s)) = _
    rw [reviewIdleExpiry_over hv hi]

/-! ## MARK (R187, R188) -/

section
variable {s : State} {p : Nat}

/-- Without a session MARK is refused. -/
theorem pressMark_noSession (h0 : s.pen.session = 0) :
    pressMark s = { s with screen := { s.screen with markRefused := true } } := by rw [pressMark, if_pos h0]

/-- With no pending start MARK starts a mark at the press's line. -/
theorem pressMark_starts (h0 : s.pen.session ≠ 0) (hp : s.screen.pendingStart = none) :
    pressMark s = { s with screen := { s.screen with
      pendingStart := some (pressLine s), markRefused := false, idle := idleAfterPress s } } := by
  rw [pressMark, if_neg h0, hp]

/-- With a full mark queue a mark that was started cannot be ended. -/
theorem pressMark_full (h0 : s.pen.session ≠ 0) (hp : s.screen.pendingStart = some p) (hq : s.pen.markQueue.length = 4) :
    pressMark s = { s with screen := { s.screen with markRefused := true } } := by
  have hfull : Config.markQueueSize ≤ s.pen.markQueue.length := Nat.le_of_eq hq.symm
  simp only [pressMark, if_neg h0, hp, if_pos hfull]

/-- With a free place in the mark queue MARK ends the mark that was started. -/
theorem pressMark_ends (h0 : s.pen.session ≠ 0) (hp : s.screen.pendingStart = some p) (hq : s.pen.markQueue.length < 4) :
    pressMark s = { s with
      screen := { s.screen with pendingStart := none, markRefused := false, idle := idleAfterPress s }
      pen := { s.pen with markQueue := s.pen.markQueue ++ [newMark p (pressLine s) s], markId := s.pen.markId + 1 } } := by
  have hfree : ¬ Config.markQueueSize ≤ s.pen.markQueue.length := Nat.not_le.2 hq
  simp only [pressMark, if_neg h0, hp, if_neg hfree]

theorem idleAfterPress_live (hv : s.screen.view = .live) : idleAfterPress s = s.screen.idle := by
  rw [idleAfterPress, hv]; rfl

theorem idleAfterPress_review {top : Nat} (hv : s.screen.view = .review top) : idleAfterPress s = idleTime s := by
  rw [idleAfterPress, hv]; rfl

end

/-- Settles O59: the press's line and the timer after the press are those of the view; then one rule for each outcome. -/
theorem markStartsEndsOrIsRefused : Obligations.MarkStartsEndsOrIsRefused := by
  intro s h b line idle
  have hline : pressLine { s with buttons := b } = line := rfl
  have hidle : idleAfterPress { s with buttons := b } = idle := by
    cases hv : s.screen.view with
    | live => rw [idleAfterPress_live (by exact hv)]; simp only [idle, hv]
    | review top => rw [idleAfterPress_review (by exact hv)]; simp only [idle, hv]; rfl
  have hexec : exec .markPress s = .next (refreshScreen (pressMark { s with buttons := b })) := exec_markPress_pressed h
  rw [hexec]
  refine ⟨fun h0 => ?noSession, fun h0 hp => ?starts, fun p h0 hp hq => ?full, fun p h0 hp hq => ?ends⟩
  case noSession => rw [pressMark_noSession (by exact h0)]
  case starts => rw [pressMark_starts (by exact h0) (by exact hp), hline, hidle]
  case full => rw [pressMark_full (by exact h0) (by exact hp) (by exact hq)]
  case ends => rw [pressMark_ends (by exact h0) (by exact hp) (by exact hq), hline, hidle, newMark]

end Sys2Proof.Machine
end

section
/-! SUPPORT. What every command leaves of the queue and the straps (R192, R193). Settles O4. -/

namespace Sys2Proof.Machine

/-- Settles O4: RESET puts in the straps it finds and takes the queue over; every other command is one of `exec_keeps`. -/
theorem commandsLeaveQueueAndStraps : Obligations.CommandsLeaveQueueAndStraps := by
  intro c s t h
  by_cases hreset : ∃ straps torn, c = .reset straps torn
  · obtain ⟨straps, torn, rfl⟩ := hreset
    rw [execReset_next h]
    exact ⟨rfl, fun hother => absurd rfl (hother straps torn)⟩
  · have hkeeps : Keeps s t := exec_keeps c s t h (fun straps torn e => hreset ⟨straps, torn, e⟩)
    exact ⟨hkeeps.pending, fun _ => hkeeps.straps⟩

end Sys2Proof.Machine
end

section
/-! SUPPORT. Transactions at the Service Port: how a request's frame is judged before its owner sees it, the requests the port
answers itself, polls, and bytes that are no good frame (R194, R196, R197, R199, R202, R206). Settles O39, O40 and O45. -/

namespace Sys2Proof.Machine

/-! ## A whole request judged, branch by branch (R197) -/

section
variable {tag : Byte} {n : Nat} {r : Request} {s : State}

theorem judgeRequest_badCount (hc : r.countOk = false) : judgeRequest tag r s = respond tag .badRequest s := by
  unfold judgeRequest
  rw [hc]
  rfl

theorem judgeRequest_mode (hc : r.countOk = true) (hm : r.maintenanceOnly = true) (hs : s.start ≠ .maintenance) :
    judgeRequest tag r s = respond tag .mode s := by
  unfold judgeRequest
  rw [hc, hm, decide_eq_true hs]
  rfl

theorem judgeRequest_held (hc : r.countOk = true) (hm : r.maintenanceOnly = false) (ho : r.ownAnswer = false)
    (hs : s.start = .storeScan) : judgeRequest tag r s = { s with port := .working tag (some r) } := by
  unfold judgeRequest
  rw [hc, hm, ho, decide_eq_true hs]
  rfl

/-! ## The command of a request (R196, R206) -/

theorem transaction_discarded (hp : ¬ portFree tag n r s) :
    transaction tag n r s = transacted tag n r (s.port.afterClocks (bytesOf tag n r)) s := by
  rw [transaction_eq, if_neg hp]

theorem transaction_tooLong (hp : portFree tag n r s) (hf : ¬ frameFits tag r) :
    transaction tag n r s = answered tag n r .badFrame [] s := by
  rw [transaction_eq, if_pos hp, if_neg hf]

theorem transaction_judged (hp : portFree tag n r s) (hf : frameFits tag r) :
    transaction tag n r s = judgeRequest tag r (transacted tag n r .idle s) := by
  rw [transaction_eq, if_pos hp, if_pos hf]

/-- A request of the port's own is served in every start state (R197). -/
theorem transaction_own (hp : portFree tag n r s) (hb : r.body.length ≤ 93) (hc : r.countOk = true)
    (hm : r.maintenanceOnly = false) (ho : r.ownAnswer = true) :
    transaction tag n r s = serveRequest r (transacted tag n r (.working tag none) s) :=
  transaction_served hp (frameFits_of_body hb) hc (.inl hm) (.inl ho)

end

/-- Settles O39: the command is a transaction, and each clause one branch of what becomes of its frame. -/
theorem framesAreJudgedFirst : Obligations.FramesAreJudgedFirst := by
  intro c tag n r s hservice
  rw [exec_service hservice]
  refine ⟨fun hp => ?discarded, fun hp => ⟨fun hf => ?tooLong, fun hf hc => ?badCount, fun hf hc hm hs => ?mode,
    fun hf hc hm ho hs => ?held⟩⟩
  case discarded => rw [transaction_discarded hp]
  case tooLong => rw [transaction_tooLong hp hf]
  case badCount => rw [transaction_judged hp hf, judgeRequest_badCount hc]; rfl
  case mode => rw [transaction_judged hp hf, judgeRequest_mode hc hm (by exact hs)]; rfl
  case held => rw [transaction_judged hp hf, judgeRequest_held hc hm ho (by exact hs)]; rfl

/-! ## The requests the port answers itself (R197, R199, R202) -/

/-- The status does not show the port's transaction: the port is WORKING in every answer (R199; log 84). -/
theorem statusBody_transacted (tag : Byte) (n : Nat) (r : Request) (p : PortState) (s : State) :
    statusBody (transacted tag n r p s) = statusBody s := rfl

/-- Acknowledging by a byte's count: outcomes and OUTCOMES-LOST stay when it is 0 (R202). -/
theorem Attention.ack_byte (a : Attention) (m : BitVec 16) (k : Byte) :
    a.ack m k.toNat = { a with
      raised := a.raised &&& ~~~ (m.setWidth 10), outcomes := a.outcomes.drop k.toNat
      lost := if k = 0 then a.lost else false } := by
  have hzero : k.toNat = 0 ↔ k = 0 := BitVec.toNat_inj (y := 0#8)
  simp only [Attention.ack, hzero]

/-- Settles O40: each of the four is a transaction served in every start state by the port, which answers DONE. -/
theorem portAnswersItsOwnRequests : Obligations.PortAnswersItsOwnRequests := by
  intro tag n s
  refine ⟨fun hp => ?status, fun hp => ?read, fun m hp => ?mask, fun m k hp => ?ack⟩
  case status =>
    rw [exec_service rfl, transaction_own hp (by simp [Request.body]) rfl rfl rfl, serveRequest, statusBody_transacted,
      answer_transacted]
  case read =>
    rw [exec_service rfl, transaction_own hp (by simp [Request.body]) rfl rfl rfl]
    rfl
  case mask =>
    rw [exec_service rfl, transaction_own hp (by simp [Request.body, beBytes_length]) rfl rfl rfl]
    rfl
  case ack =>
    rw [exec_service rfl, transaction_own hp (by simp [Request.body, beBytes_length]) rfl rfl rfl, serveRequest,
      Attention.ack_byte]
    rfl

/-! ## Polls and raw bytes (R196, R197, R206) -/

theorem PortState.afterClocks_idle (n : Nat) : PortState.idle.afterClocks n = .idle := rfl

theorem PortState.afterClocks_working (tag : Byte) (held : Option Request) (n : Nat) :
    (PortState.working tag held).afterClocks n = .working tag held := rfl

theorem PortState.afterClocks_ready (r : Response) (n : Nat) :
    (PortState.ready r).afterClocks n = if (responseFrame r).length ≤ n then .idle else .ready r := rfl

theorem exec_poll (n : Nat) (s : State) : exec (.poll n) s = .next (clockOut n s) := rfl

/-- A transaction that delivers nothing changes the bytes clocked out alone. -/
theorem clockOut_of_port_same {n : Nat} {s : State} (h : s.port.afterClocks n = s.port) :
    clockOut n s = { s with portOut := (outgoing s.port).take n } := by
  rw [clockOut, h]

/-- Raw bytes are judged when the port is IDLE once they have been clocked. -/
theorem exec_frameRejected {bytes : List Byte} {s : State} (h : s.port.afterClocks bytes.length = .idle) :
    exec (.frameRejected bytes) s = .next (judgeBytes bytes (clockOut bytes.length s)) := by
  have hidle : (clockOut bytes.length s).port = .idle := h
  change Host.Outcome.next (rawFrame bytes s) = _
  unfold rawFrame
  dsimp only
  rw [if_pos hidle]

theorem judgeBytes_badFrame {bytes : List Byte} {tag : Byte} (h : parseFrame bytes = .badFrame tag) (s : State) :
    judgeBytes bytes s = respond tag .badFrame s := by
  unfold judgeBytes
  rw [h]

theorem judgeBytes_badRequest {bytes : List Byte} {tag : Byte} (h : parseFrame bytes = .badRequest tag) (s : State) :
    judgeBytes bytes s = respond tag .badRequest s := by
  unfold judgeBytes
  rw [h]

/-- Settles O45: a poll clocks out what the port state holds, and bytes that make no request are answered by the port. -/
theorem pollsAndBadFrames : Obligations.PollsAndBadFrames := by
  refine ⟨fun n s hidle => ?empty, fun n s tag held hworking => ?busy, fun n s r hready => ?response,
    fun bytes tag s hp => ⟨fun hbad => ?badFrame, fun hbad => ?badRequest⟩⟩
  case empty =>
    have hsame : s.port.afterClocks n = s.port := by rw [hidle, PortState.afterClocks_idle]
    rw [exec_poll, clockOut_of_port_same hsame, hidle, outgoing]
  case busy =>
    have hsame : s.port.afterClocks n = s.port := by rw [hworking, PortState.afterClocks_working]
    rw [exec_poll, clockOut_of_port_same hsame, hworking, outgoing]
  case response => rw [exec_poll, clockOut, hready, PortState.afterClocks_ready, outgoing]
  case badFrame => rw [exec_frameRejected hp, judgeBytes_badFrame hbad]; rfl
  case badRequest => rw [exec_frameRejected hp, judgeBytes_badRequest hbad]; rfl

end Sys2Proof.Machine
end

section
/-! SUPPORT. The pending set and the attention line (R200, R201, R203). Settles O46. -/

namespace Sys2Proof.Machine

/-- The pending set is empty when no cause of its own bit is raised and no outcome is held (R200, R201). -/
theorem Attention.pendingSet_eq_zero_iff (a : Attention) :
    a.pendingSet = 0#10 ↔ a.raised &&& 0x3FC#10 = 0#10 ∧ a.outcomes = [] := by
  unfold Attention.pendingSet
  cases ho : a.outcomes with
  | nil => simp
  | cons o rest => cases hr : o.reason <;> simp [hr, BitVec.or_eq_zero_iff]

theorem Attention.line_iff (a : Attention) : a.line = true ↔ a.pendingSet ≠ 0#10 := decide_eq_true_iff

theorem Attention.line_of_outcome {a : Attention} {o : DefOutcome} (h : o ∈ a.outcomes) : a.line = true := by
  rw [Attention.line_iff, Ne, Attention.pendingSet_eq_zero_iff]
  exact fun hempty => List.ne_nil_of_mem h hempty.2

/-! ## A cause raised (R200) -/

theorem Attention.raise_masked {a : Attention} {c : Cause} (h : a.isMasked c = true) : a.raise c = a := by
  rw [Attention.raise, if_pos h]

/-- The bit of a cause that has one of its own lies in the part of the pending set that is raised directly. -/
theorem Cause.bit_in_raised {c : Cause} (h1 : c ≠ .defineDone) (h2 : c ≠ .defineRefused) :
    (1#10 <<< c.bit) &&& 0x3FC#10 = 1#10 <<< c.bit := by
  cases c
  case defineDone => exact absurd rfl h1
  case defineRefused => exact absurd rfl h2
  all_goals rfl

theorem Cause.bit_ne_zero (c : Cause) : 1#10 <<< c.bit ≠ 0#10 := by cases c <;> decide

theorem Attention.raise_pendingSet {a : Attention} {c : Cause} (h1 : c ≠ .defineDone) (h2 : c ≠ .defineRefused)
    (h : a.isMasked c = false) : (a.raise c).pendingSet = a.pendingSet ||| (1#10 <<< c.bit) := by
  have hraise : a.raise c = { a with raised := a.raised ||| (1#10 <<< c.bit) } := by simp [Attention.raise, h]
  have hpart : (a.raised ||| (1#10 <<< c.bit)) &&& 0x3FC#10 = (a.raised &&& 0x3FC#10) ||| (1#10 <<< c.bit) := by
    rw [BitVec.and_or_distrib_right, Cause.bit_in_raised h1 h2]
  rw [hraise]
  unfold Attention.pendingSet
  dsimp only
  rw [hpart]
  ac_rfl

theorem Attention.raise_line {a : Attention} {c : Cause} (h1 : c ≠ .defineDone) (h2 : c ≠ .defineRefused)
    (h : a.isMasked c = false) : (a.raise c).line = true := by
  rw [Attention.line_iff, Attention.raise_pendingSet h1 h2 h, Ne, BitVec.or_eq_zero_iff]
  exact fun hzero => c.bit_ne_zero hzero.2

/-! ## An outcome raised (R201) -/

/-- An unmasked outcome is held as the newest, an older one being lost for it where the list is full. -/
theorem Attention.mem_addOutcome {a : Attention} {o : DefOutcome}
    (h : a.isMasked (if o.reason.isNone then .defineDone else .defineRefused) = false) :
    o ∈ (a.addOutcome o).outcomes := by
  have hadd : (a.addOutcome o).outcomes = keepLast Config.outcomesSize (a.outcomes ++ [o]) := by
    rw [Attention.addOutcome, if_neg (Bool.eq_false_iff.1 h)]
  rw [hadd]
  exact List.mem_of_getLast? (keepLast_getLast? Config.outcomesSize a.outcomes o (by decide))

/-- Settles O46: a cause enters by its bit, an outcome by the list, and either asserts the line. -/
theorem attentionLineFollowsTheSet : Obligations.AttentionLineFollowsTheSet := by
  refine ⟨fun a => rfl, fun a c h1 h2 => ⟨fun hmasked => ?masked, fun hfree => ⟨?enters, ?asserts⟩⟩,
    fun a o hfree => ⟨?held, ?assertsToo⟩, ?reset⟩
  case masked => exact Attention.raise_masked hmasked
  case enters => exact Attention.raise_pendingSet h1 h2 hfree
  case asserts => exact Attention.raise_line h1 h2 hfree
  case held => exact Attention.mem_addOutcome hfree
  case assertsToo => exact Attention.line_of_outcome (Attention.mem_addOutcome hfree)
  case reset => rfl

end Sys2Proof.Machine
end

section
/-! SUPPORT. Bytes most significant first, and the frame of a request parsed back (R206). Settles O9. -/

namespace Sys2Proof.Machine

/-! ## Numbers as bytes, most significant first (chapter 11) -/

theorem beBytes_zero (v : Nat) : beBytes 0 v = [] := rfl

theorem beBytes_succ (n v : Nat) : beBytes (n + 1) v = BitVec.ofNat 8 (v / 256 ^ n) :: beBytes n v := by
  rw [beBytes, List.range_succ_eq_map, List.map_cons, List.map_map, beBytes]
  congr 1
  refine List.map_congr_left fun i _ => ?_
  have hplace : n + 1 - 1 - (i + 1) = n - 1 - i := by omega
  rw [Function.comp_apply, hplace]

theorem beBytes_two (v : Nat) : beBytes 2 v = [BitVec.ofNat 8 (v / 256 ^ 1), BitVec.ofNat 8 (v / 256 ^ 0)] := by
  rw [beBytes_succ, beBytes_succ, beBytes_zero]

theorem beBytes_three (v : Nat) :
    beBytes 3 v = [BitVec.ofNat 8 (v / 256 ^ 2), BitVec.ofNat 8 (v / 256 ^ 1), BitVec.ofNat 8 (v / 256 ^ 0)] := by
  rw [beBytes_succ, beBytes_two]

theorem foldl_bytes (l : List Byte) (m : Nat) :
    l.foldl (fun n b => 256 * n + b.toNat) m = m * 256 ^ l.length + beNat l := by
  induction l generalizing m with
  | nil => simp [beNat]
  | cons b l ih =>
    have hplace : 256 * m * 256 ^ l.length = m * 256 ^ (l.length + 1) := by
      rw [Nat.mul_comm 256 m, Nat.mul_assoc, Nat.pow_succ']
    rw [beNat, List.foldl_cons, List.foldl_cons, ih, ih (256 * 0 + b.toNat), List.length_cons, Nat.add_mul, hplace,
      Nat.mul_zero, Nat.zero_add, Nat.add_assoc]

theorem beNat_cons (b : Byte) (l : List Byte) : beNat (b :: l) = b.toNat * 256 ^ l.length + beNat l := by
  rw [beNat, List.foldl_cons, foldl_bytes, Nat.mul_zero, Nat.zero_add]

theorem beNat_beBytes_mod (n v : Nat) : beNat (beBytes n v) = v % 256 ^ n := by
  induction n with
  | zero => rw [Nat.pow_zero, Nat.mod_one]; rfl
  | succ n ih =>
    rw [beBytes_succ, beNat_cons, beBytes_length, ih, BitVec.toNat_ofNat, Nat.mod_pow_succ (b := 256), Nat.mul_comm,
      Nat.add_comm]

theorem beNat_beBytes {n v : Nat} (h : v < 256 ^ n) : beNat (beBytes n v) = v := by
  rw [beNat_beBytes_mod, Nat.mod_eq_of_lt h]

theorem toNat_ofNat_byte {n : Nat} (h : n < 256) : (BitVec.ofNat 8 n).toNat = n := Nat.mod_eq_of_lt h

theorem toNat_append_byte {w : Nat} (a : BitVec w) (b : Byte) : (a ++ b).toNat = a.toNat * 256 + b.toNat := by
  rw [BitVec.toNat_append, ← Nat.shiftLeft_add_eq_or_of_lt b.isLt, Nat.shiftLeft_eq]

/-- The two bytes of a 16-bit value, joined, are the value. -/
theorem beBytes_two_join (m : BitVec 16) : ∃ a b : Byte, beBytes 2 m.toNat = [a, b] ∧ a ++ b = m := by
  refine ⟨_, _, beBytes_two _, BitVec.eq_of_toNat_eq ?_⟩
  rw [toNat_append_byte, BitVec.toNat_ofNat, BitVec.toNat_ofNat]
  omega

/-- The three bytes of a 24-bit value, joined, are the value. -/
theorem beBytes_three_join (m : BitVec 24) : ∃ a b c : Byte, beBytes 3 m.toNat = [a, b, c] ∧ a ++ b ++ c = m := by
  refine ⟨_, _, _, beBytes_three _, BitVec.eq_of_toNat_eq ?_⟩
  rw [toNat_append_byte, toNat_append_byte, BitVec.toNat_ofNat, BitVec.toNat_ofNat, BitVec.toNat_ofNat]
  omega

/-! ## Keys, texts and configurations parsed back (R206) -/

theorem chordsOf_bytes {k : Key} (h : ∀ c ∈ k, c < 16777216) (l : List Byte) :
    chordsOf k.length (k.flatMap (beBytes 3) ++ l) = some (k, l) := by
  induction k with
  | nil => rfl
  | cons c k ih =>
    obtain ⟨hc, hk⟩ := List.forall_mem_cons.1 h
    have hchord := beNat_beBytes (n := 3) hc
    rw [beBytes_three] at hchord
    rw [List.flatMap_cons, beBytes_three, List.append_assoc, List.length_cons]
    simp only [List.cons_append, List.nil_append, chordsOf, ih hk, hchord]

theorem parseKey_keyBytes {k : Key} (h : keyFits k = true) (l : List Byte) : parseKey (keyBytes k ++ l) = some (k, l) := by
  simp only [keyFits, Bool.and_eq_true, decide_eq_true_eq, List.all_eq_true] at h
  obtain ⟨hcount, hchords⟩ := h
  rw [keyBytes, List.cons_append, parseKey, toNat_ofNat_byte hcount, chordsOf_bytes hchords]

theorem parseKeyOnly_keyBytes {k : Key} (h : keyFits k = true) : parseKeyOnly (keyBytes k) = some k := by
  have hparse := parseKey_keyBytes h []
  rw [List.append_nil] at hparse
  rw [parseKeyOnly, hparse]

theorem parseText_textBytes {t : Text} (h : textFits t = true) : parseText (textBytes t) = some t := by
  rw [textBytes, parseText, toNat_ofNat_byte (of_decide_eq_true h), if_pos rfl]

theorem parseEntry_entryBytes {k : Key} {t : Text} (hk : keyFits k = true) (ht : textFits t = true) (a : Attrs) :
    parseEntry (entryBytes k a t) = some (k, a, t) := by
  have hattrs : (a.setWidth 8).setWidth 6 = a := by simp
  rw [entryBytes, parseEntry, parseKey_keyBytes hk]
  simp only [parseText_textBytes ht, Option.map_some, hattrs]

theorem parseConfig_configBytes (f : ConfigFields) : parseConfig (configBytes f) = some f := by
  obtain ⟨_, _, hwidth, ewidth⟩ := beBytes_two_join f.lineWidth
  obtain ⟨_, _, hdebounce, edebounce⟩ := beBytes_two_join f.debounce
  obtain ⟨_, _, hsettle, esettle⟩ := beBytes_two_join f.settle
  obtain ⟨_, _, hhandoff, ehandoff⟩ := beBytes_two_join f.handoff
  obtain ⟨_, _, hrows, erows⟩ := beBytes_two_join f.rows
  obtain ⟨_, _, hidle, eidle⟩ := beBytes_two_join f.reviewIdle
  rw [configBytes, hwidth, hdebounce, hsettle, hhandoff, hrows, hidle]
  simp only [List.cons_append, List.nil_append, parseConfig, ewidth, edebounce, esettle, ehandoff, erows, eidle]

/-! ## Requests parsed back (R206) -/

/-- The operands of a request fit the fields of its body. -/
def Request.operandsFit : Request → Bool
  | .define k _ t => keyFits k && textFits t
  | .loadEntry k _ t => keyFits k && textFits t
  | .retire k => keyFits k
  | .readEntry k => keyFits k
  | _ => true

/-- The request of a service-port command that can be sent has operands that fit. -/
theorem operandsFit_of_service {c : Instr} {tag : Byte} {n : Nat} {r : Request} (h : serviceOf c = some (tag, n, r))
    (hwf : c.wf = true) : r.operandsFit = true := by
  cases c <;> simp only [serviceOf, Option.some.injEq, Prod.mk.injEq, reduceCtorEq] at h <;>
    (obtain ⟨rfl, rfl, rfl⟩ := h; exact hwf)

theorem Request.kind_lt (r : Request) : r.kind < 256 := by
  cases r <;> simp only [Request.kind] <;> decide

theorem parseBody_body {r : Request} (h : r.operandsFit = true) : parseBody r.kind r.body = some r := by
  cases r with
  | maskAttention m =>
    obtain ⟨a, b, hbytes, hjoin⟩ := beBytes_two_join m
    simp only [Request.kind, Request.body, hbytes, parseBody, hjoin]
  | ackAttention c n =>
    obtain ⟨a, b, hbytes, hjoin⟩ := beBytes_two_join c
    simp only [Request.kind, Request.body, hbytes, List.cons_append, List.nil_append, parseBody, hjoin]
  | readRecord f n =>
    obtain ⟨a, b, c, hbytes, hjoin⟩ := beBytes_three_join f
    simp only [Request.kind, Request.body, hbytes, List.cons_append, List.nil_append, parseBody, hjoin]
  | define k a t =>
    obtain ⟨hk, ht⟩ := Bool.and_eq_true_iff.1 h
    simp only [Request.kind, Request.body, parseBody, parseEntry_entryBytes hk ht, Option.map_some]
  | loadEntry k a t =>
    obtain ⟨hk, ht⟩ := Bool.and_eq_true_iff.1 h
    simp only [Request.kind, Request.body, parseBody, parseEntry_entryBytes hk ht, Option.map_some]
  | retire k => simp only [Request.kind, Request.body, parseBody, parseKeyOnly_keyBytes h, Option.map_some]
  | readEntry k => simp only [Request.kind, Request.body, parseBody, parseKeyOnly_keyBytes h, Option.map_some]
  | writeConfig f =>
    simp only [Request.kind, Request.body, parseBody, parseConfig_configBytes, Option.map_some]
  | status | readAttention | openSession | closeSession | readJournal _ | readMarks | readFault | clearFault | eraseBase
  | protect | unprotect => rfl

/-! ## Frames parsed back (R206) -/

/-- The sum byte makes the total of a frame's bytes 0. -/
theorem totalByte_append_sumByte (l : List Byte) : totalByte (l ++ [sumByte l]) = 0 := by
  have hsum : totalByte (l ++ [sumByte l]) = totalByte l + (0 - totalByte l) := by
    rw [totalByte, List.foldl_append]; rfl
  have hzero : 0 - totalByte l = -totalByte l := BitVec.zero_sub _
  rw [hsum, hzero]
  exact BitVec.add_right_neg _

/-- A frame whose length is one the port takes passes every check, and what follows its length field is judged. -/
theorem parseFrame_frameOf {l : List Byte} (hmin : 2 ≤ l.length) (hmax : l.length + 1 ≤ Config.frameMax) :
    ∃ sum : Byte, parseFrame (frameOf l) = parseWhole (l ++ [sum]) := by
  obtain ⟨a, b, hlength⟩ : ∃ a b, beBytes 2 (l.length + 1) = [a, b] := ⟨_, _, beBytes_two _⟩
  have hlen : beNat [a, b] = l.length + 1 := by
    rw [← hlength, beNat_beBytes]
    simp only [Config.frameMax] at hmax
    omega
  have htotal : totalByte (a :: b :: (l ++ [sumByte (a :: b :: l)])) = 0 := totalByte_append_sumByte (a :: b :: l)
  have hframe : frameOf l = a :: b :: (l ++ [sumByte (a :: b :: l)]) := by rw [frameOf, hlength]; rfl
  refine ⟨sumByte (a :: b :: l), ?_⟩
  have htake : (l ++ [sumByte (a :: b :: l)]).take (l.length + 1) = l ++ [sumByte (a :: b :: l)] :=
    List.take_of_length_le (by simp)
  rw [hframe, parseFrame, hlen]
  rw [htake, if_neg (by omega), if_neg (by simp; omega), if_neg (fun h => h htotal)]

theorem parseWhole_request {tag : Byte} {r : Request} (h : r.operandsFit = true) (sum : Byte) :
    parseWhole (BitVec.ofNat 8 r.kind :: tag :: r.body ++ [sum]) = .good tag r := by
  simp only [List.cons_append, parseWhole, List.dropLast_concat, toNat_ofNat_byte r.kind_lt, parseBody_body h]

/-- Settles O9: the frame passes the port's checks, and its kind and body are parsed back, request by request. -/
theorem requestFrameReadsBack : Obligations.RequestFrameReadsBack := by
  intro tag r c n hservice hwf hfits
  rw [frameFits, requestFrame_length] at hfits
  have hmax : (BitVec.ofNat 8 r.kind :: tag :: r.body).length + 1 ≤ Config.frameMax := by
    simp only [List.length_cons]; omega
  obtain ⟨sum, hparse⟩ := parseFrame_frameOf (by simp) hmax
  rw [requestFrame, hparse, parseWhole_request (operandsFit_of_service hservice hwf)]

end Sys2Proof.Machine
end

section
/-! SUPPORT. The layouts of the Bench Link's cells read back field by field, and the plans, places and codes that the fields
carry (R204). Settles O10. -/

namespace Sys2Proof.Machine

/-! ## Layouts read back from cells (R204) -/

/-- The four words of a cell hold its 128 data bits. -/
theorem cellValue_cellOf {v : Nat} (h : v < 2 ^ 128) : cellValue (cellOf v) = v := by
  simp only [cellValue, cellOf, cleanWord, wordsLayout, pack, widthOf, BitVec.toNat_ofNat]
  omega

theorem cellUsable_cellOf (v : Nat) : cellUsable (cellOf v) = true := rfl

/-- The fields of a layout of 128 bits are read back from the cell they are packed in. -/
theorem unpack_cellOf {ws vs : List Nat} (hw : widthOf ws = 128) (hfit : fieldsFit ws vs = true) :
    unpack ws (cellValue (cellOf (pack ws vs))) = vs := by
  rw [cellValue_cellOf (hw ▸ pack_lt ws vs), unpack_pack ws vs hfit]

theorem fieldsFit_nil : fieldsFit [] [] = true := rfl

theorem fieldsFit_cons_iff {w v : Nat} {ws vs : List Nat} :
    fieldsFit (w :: ws) (v :: vs) = true ↔ v < 2 ^ w ∧ fieldsFit ws vs = true := by
  rw [fieldsFit, Bool.and_eq_true, decide_eq_true_eq]

theorem fieldsFit_append {ws vs ws' vs' : List Nat} (h : fieldsFit ws vs = true) (h' : fieldsFit ws' vs' = true) :
    fieldsFit (ws ++ ws') (vs ++ vs') = true := by
  induction ws generalizing vs with
  | nil =>
    cases vs with
    | nil => exact h'
    | cons v vs => simp [fieldsFit] at h
  | cons w ws ih =>
    cases vs with
    | nil => simp [fieldsFit] at h
    | cons v vs =>
      obtain ⟨hv, hvs⟩ := fieldsFit_cons_iff.1 h
      exact fieldsFit_cons_iff.2 ⟨hv, ih hvs⟩

theorem fieldsFit_replicate {w : Nat} {vs : List Nat} (h : ∀ v ∈ vs, v < 2 ^ w) :
    fieldsFit (List.replicate vs.length w) vs = true := by
  induction vs with
  | nil => rfl
  | cons v vs ih =>
    obtain ⟨hv, hvs⟩ := List.forall_mem_cons.1 h
    exact fieldsFit_cons_iff.2 ⟨hv, ih hvs⟩

/-! ## Codes read back (R204) -/

theorem stationOf_val (n : Station) : stationOf n.val = n := Fin.ofNat_val_eq_self n

theorem posSendable_iff (p : Pos) : posSendable p = true ↔ p.rln < 2 ^ 24 ∧ p.col ≤ 64 := by
  simp [posSendable]

theorem posOf_of_sendable {p : Pos} (h : posSendable p = true) : posOf p.rln p.col = some p :=
  if_pos ((posSendable_iff p).1 h).2

theorem reqOf_code {r : Role} {q : ReqCode} (h : r = .writer ∨ q = .none) : reqOf r q.code = q := by
  rcases h with rfl | rfl
  · cases q <;> rfl
  · cases r <;> rfl

theorem ReqCode.code_lt (q : ReqCode) : q.code < 4 := by cases q <;> decide

theorem roleBit_lt (r : Role) : roleBit r < 2 := by cases r <;> decide

theorem role_of_roleBit (r : Role) : (if roleBit r = 1 then .writer else .display) = r := by cases r <;> rfl

theorem holderOf_code (o : Option Station) : holderOf (holderCode o) = some o := by
  cases o with
  | none => rfl
  | some n =>
    have hlt := n.isLt
    rw [holderCode, holderOf, if_neg (by omega), if_pos hlt, stationOf_val]

theorem holderCode_lt (o : Option Station) : holderCode o < 16 := by
  cases o with
  | none => decide
  | some n => exact Nat.lt_trans n.isLt (by decide)

/-! ## Headers read back (R204) -/

theorem Header.sendable_iff (h : Header) : h.sendable = true ↔
    h.applied < 2 ^ 24 ∧ (h.need = 0 ∨ h.need = h.applied + 1) ∧ posSendable h.recordEnd = true ∧
      (h.role = .writer ∨ h.request = .none) := by
  simp [Header.sendable, and_assoc]

/-- The need is told by applied-through and the NEED bit. -/
theorem need_of_bit {need applied : Nat} (h : need = 0 ∨ need = applied + 1) :
    (if (if need = 0 then 0 else 1) = 1 then applied + 1 else 0) = need := by
  rcases h with rfl | rfl
  · rfl
  · rfl

theorem headerIn_encodeHeader {h : Header} (hs : h.sendable = true) : headerIn (cellOf (encodeHeader h)) = some h := by
  obtain ⟨happlied, hneed, hpos, hrequest⟩ := h.sendable_iff.1 hs
  obtain ⟨hrln, hcol⟩ := (posSendable_iff _).1 hpos
  have hfit : fieldsFit headerLayout
      [1, cond h.joined 1 0, roleBit h.role, h.station.val, h.request.code, h.applied, if h.need = 0 then 0 else 1,
        h.recordEnd.rln, h.recordEnd.col, h.lastStroke.toNat, h.session.toNat, h.epoch.toNat] = true := by
    have hjoined : (cond h.joined 1 0) < 2 := by cases h.joined <;> decide
    have hbit : (if h.need = 0 then 0 else 1) < 2 := by split <;> decide
    have hrole := roleBit_lt h.role
    have hcode := h.request.code_lt
    simp only [headerLayout, fieldsFit_cons_iff, fieldsFit_nil, and_true]
    omega
  have hjoined : decide ((cond h.joined 1 0) = 1) = h.joined := by cases h.joined <;> rfl
  rw [headerIn, if_pos (cellUsable_cellOf _), decodeHeader, encodeHeader, unpack_cellOf rfl hfit]
  simp only [if_true, posOf_of_sendable hpos, Option.map_some, stationOf_val, role_of_roleBit, hjoined,
    reqOf_code hrequest, need_of_bit hneed, BitVec.ofNat_toNat, BitVec.setWidth_eq]

/-! ## Plans read back from their masks (R204) -/

theorem allStations_eq : allStations = List.finRange 8 := rfl

theorem mem_allStations (i : Station) : i ∈ allStations := List.mem_finRange i

/-- Bit i of a mask over the stations speaks of station i. -/
theorem testBit_stationMask (f : Station → Bool) (i : Station) : (natOfBits (allStations.map f)).testBit i.val = f i := by
  rw [natOfBits_testBit, allStations_eq]
  simp

theorem stationMask_lt (f : Station → Bool) : natOfBits (allStations.map f) < 2 ^ 8 := by
  have hlt := natOfBits_lt (allStations.map f)
  rwa [List.length_map] at hlt

theorem presentMask_testBit (plan : List (Station × Role)) (i : Station) :
    (presentMask plan).testBit i.val = inPlan plan i := testBit_stationMask _ i

theorem inPlan_iff (plan : List (Station × Role)) (i : Station) : inPlan plan i = true ↔ i ∈ plan.map Prod.fst := by
  simp [inPlan]

theorem planAscends_pairwise {plan : List (Station × Role)} (h : planAscends plan = true) :
    plan.Pairwise (fun a b => a.1 < b.1) := by
  induction plan with
  | nil => exact .nil
  | cons a l ih =>
    cases l with
    | nil => exact List.pairwise_singleton _ a
    | cons b l =>
      obtain ⟨hhead, hrest⟩ := Bool.and_eq_true_iff.1 h
      have hlt : a.1 < b.1 := of_decide_eq_true hhead
      have hpairs := ih hrest
      refine List.pairwise_cons.2 ⟨List.forall_mem_cons.2 ⟨hlt, fun c hc => ?_⟩, hpairs⟩
      exact Fin.lt_trans hlt (List.rel_of_pairwise_cons hpairs hc)

/-- Two ascending lists of the same stations are the same. -/
theorem ascending_ext {l l' : List Station} (h : l.Pairwise (· < ·)) (h' : l'.Pairwise (· < ·))
    (hmem : ∀ i, i ∈ l ↔ i ∈ l') : l = l' :=
  ((List.perm_ext_iff_of_nodup (h.imp Fin.ne_of_lt) (h'.imp Fin.ne_of_lt)).2 hmem).eq_of_pairwise
    (fun _ _ _ _ hab hba => absurd hba (Fin.lt_asymm hab)) h h'

/-- The stations of an ascending plan are those of its present mask, in order. -/
theorem stations_of_presentMask {plan : List (Station × Role)} (h : planAscends plan = true) :
    allStations.filter (fun i => (presentMask plan).testBit i.val) = plan.map Prod.fst := by
  refine ascending_ext ((List.pairwise_lt_finRange 8).filter _) (List.pairwise_map.2 (planAscends_pairwise h)) fun i => ?_
  rw [List.mem_filter, presentMask_testBit, inPlan_iff]
  exact and_iff_right (mem_allStations i)

/-- An ascending plan lists no station twice. -/
theorem entry_unique {plan : List (Station × Role)} (h : plan.Pairwise (fun a b => a.1 < b.1)) {e e' : Station × Role}
    (he : e ∈ plan) (he' : e' ∈ plan) (hstation : e.1 = e'.1) : e = e' := by
  induction h with
  | nil => exact absurd he List.not_mem_nil
  | cons hhead _ ih =>
    rcases List.mem_cons.1 he with rfl | hin
    · rcases List.mem_cons.1 he' with rfl | hin'
      · rfl
      · exact absurd hstation (Fin.ne_of_lt (hhead _ hin'))
    · rcases List.mem_cons.1 he' with rfl | hin'
      · exact absurd hstation.symm (Fin.ne_of_lt (hhead _ hin))
      · exact ih hin hin'

/-- The writer mask of an ascending plan tells the role of every station listed. -/
theorem writerMask_testBit {plan : List (Station × Role)} (h : planAscends plan = true) {e : Station × Role}
    (he : e ∈ plan) : (writerMask plan).testBit e.1.val = decide (e.2 = .writer) := by
  rw [writerMask, testBit_stationMask, Bool.eq_iff_iff, List.any_eq_true]
  simp only [Bool.and_eq_true, decide_eq_true_eq]
  constructor
  · rintro ⟨e', he', hstation, hrole⟩
    rwa [← entry_unique (planAscends_pairwise h) he' he hstation]
  · exact fun hrole => ⟨e, he, rfl, hrole⟩

theorem planOfMasks_masks {plan : List (Station × Role)} (h : planAscends plan = true) :
    planOfMasks (presentMask plan) (writerMask plan) = plan := by
  rw [planOfMasks, stations_of_presentMask h, List.map_map]
  refine (List.map_congr_left fun e he => ?_).trans (List.map_id plan)
  rw [Function.comp_apply, writerMask_testBit h he]
  obtain ⟨station, role⟩ := e
  cases role <;> rfl

theorem presentMask_ne_zero {plan : List (Station × Role)} {i : Station} (h : inPlan plan i = true) :
    presentMask plan ≠ 0 := by
  intro hzero
  have hbit := presentMask_testBit plan i
  rw [hzero, Nat.zero_testBit, h] at hbit
  exact Bool.false_ne_true hbit

/-! ## Beacons read back (R143, R204) -/

theorem Beacon.sendable_iff (b : Beacon) : b.sendable = true ↔
    planAscends b.plan = true ∧ inPlan b.plan b.timekeeper = true ∧ holderInPlan b.plan b.holder = true ∧
      1 ≤ b.startRsn ∧ b.startRsn < 2 ^ 24 ∧ posSendable b.startPos = true := by
  simp [Beacon.sendable, and_assoc]

theorem unpack_encodeBeacon (b : Beacon) : unpack beaconLayout (cellValue (cellOf (encodeBeacon b))) =
    [0, b.timekeeper.val, holderCode b.holder, presentMask b.plan, writerMask b.plan, b.round.toNat, b.session.toNat,
      b.time.toNat, b.cut.toNat, 0] := by
  have hholder := holderCode_lt b.holder
  have hpresent : presentMask b.plan < 2 ^ 8 := stationMask_lt _
  have hwriters : writerMask b.plan < 2 ^ 8 := stationMask_lt _
  refine unpack_cellOf rfl ?_
  simp only [beaconLayout, fieldsFit_cons_iff, fieldsFit_nil, and_true]
  omega

theorem unpack_encodeCont {b : Beacon} (hrsn : b.startRsn < 2 ^ 24) (hpos : posSendable b.startPos = true) :
    unpack contLayout (cellValue (cellOf (encodeCont b))) =
      [1, b.epoch.toNat, b.startRsn, b.startPos.rln, b.startPos.col, 0] := by
  obtain ⟨hrln, hcol⟩ := (posSendable_iff _).1 hpos
  refine unpack_cellOf rfl ?_
  simp only [contLayout, fieldsFit_cons_iff, fieldsFit_nil, and_true]
  omega

theorem beaconIn_encode {b : Beacon} (hs : b.sendable = true) :
    beaconIn (cellOf (encodeBeacon b)) (cellOf (encodeCont b)) = some b := by
  obtain ⟨hplan, htimekeeper, hholder, hfirst, hrsn, hpos⟩ := b.sendable_iff.1 hs
  have hcodes : b.startRsn ≠ 0 ∧ presentMask b.plan ≠ 0 :=
    ⟨Nat.one_le_iff_ne_zero.1 hfirst, presentMask_ne_zero htimekeeper⟩
  rw [beaconIn, cellUsable_cellOf, cellUsable_cellOf, Bool.and_self, if_pos rfl, decodeBeacon, unpack_encodeBeacon,
    unpack_encodeCont hrsn hpos]
  simp only [true_and, if_pos hcodes, holderOf_code, posOf_of_sendable hpos, planOfMasks_masks hplan, stationOf_val,
    htimekeeper, hholder, Bool.and_self, if_true, BitVec.ofNat_toNat, BitVec.setWidth_eq]

/-! ## The text of an APPEND read back (R204) -/

theorem placesOf_eq {t : Text} (h : t.length ≤ 20) :
    placesOf t = t.map BitVec.toNat ++ List.replicate (20 - t.length) 0 := by
  rw [placesOf, List.take_append, List.take_of_length_le (by rwa [List.length_map]), List.take_replicate, List.length_map]
  congr 2
  omega

theorem placesOf_length (t : Text) : (placesOf t).length = 20 := by simp [placesOf]

theorem charOk_iff (c : Ch) : charOk c = true ↔ 0x20 ≤ c.toNat ∧ c.toNat ≤ 0x7E := by simp [charOk]

theorem placesOf_lt {t : Text} (h : ∀ c ∈ t, charOk c = true) : ∀ v ∈ placesOf t, v < 2 ^ 7 := by
  intro v hv
  rcases List.mem_append.1 (List.mem_of_mem_take hv) with htext | hzero
  · obtain ⟨c, hc, rfl⟩ := List.mem_map.1 htext
    have hrange := (charOk_iff c).1 (h c hc)
    omega
  · rw [List.eq_of_mem_replicate hzero]
    decide

theorem textOfPlaces_placesOf {t : Text} (hne : t ≠ []) (hlen : t.length ≤ 20) (hchars : ∀ c ∈ t, charOk c = true) :
    textOfPlaces (placesOf t) = some t := by
  have htext : (placesOf t).takeWhile (fun n => decide (n ≠ 0)) = t.map BitVec.toNat := by
    rw [placesOf_eq hlen, List.takeWhile_append_of_pos, List.takeWhile_replicate]
    · simp
    · intro v hv
      obtain ⟨c, hc, rfl⟩ := List.mem_map.1 hv
      have hrange := (charOk_iff c).1 (hchars c hc)
      exact decide_eq_true (by omega)
  have hrest : (placesOf t).drop (t.map BitVec.toNat).length = List.replicate (20 - t.length) 0 := by
    rw [placesOf_eq hlen, List.drop_left]
  have hprintable : ∀ c ∈ t, 0x20 ≤ c.toNat ∧ c.toNat ≤ 0x7E := fun c hc => (charOk_iff c).1 (hchars c hc)
  rw [textOfPlaces, htext, hrest, if_neg]
  · simp [Function.comp_def]
  · simpa [hne] using hprintable

/-! ## Items read back (R204) -/

/-- The two cells of an APPEND carry its payload of 248 bits. -/
theorem decodeAppend_halves {v : Nat} (h : v < 2 ^ 248) :
    decodeAppend (cellValue (cellOf (pack halfLayout [2, v / 2 ^ 124])))
        (cellValue (cellOf (pack halfLayout [1, v % 2 ^ 124]))) = decodeAppendPayload v := by
  have hhigh : fieldsFit halfLayout [2, v / 2 ^ 124] = true := by
    simp only [halfLayout, fieldsFit_cons_iff, fieldsFit_nil, and_true]; omega
  have hlow : fieldsFit halfLayout [1, v % 2 ^ 124] = true := by
    simp only [halfLayout, fieldsFit_cons_iff, fieldsFit_nil, and_true]; omega
  rw [decodeAppend, unpack_cellOf rfl hhigh, unpack_cellOf rfl hlow]
  dsimp only
  rw [if_pos ⟨rfl, rfl⟩, Nat.div_add_mod']

theorem appendPayload_lt (i : Item) (p : Pos) (t : Text) : appendPayload i p t < 2 ^ 248 := pack_lt appendLayout _

theorem unpack_appendPayload {i : Item} {p : Pos} {t : Text} (hrsn : i.rsn < 2 ^ 24) (hpos : posSendable p = true)
    (hchars : ∀ c ∈ t, charOk c = true) :
    unpack appendLayout (appendPayload i p t) =
      [i.rsn, i.epoch.toNat, i.time.toNat, p.rln, p.col] ++ (placesOf t ++ [0]) := by
  obtain ⟨hrln, hcol⟩ := (posSendable_iff _).1 hpos
  refine unpack_pack _ _ (fieldsFit_append ?head (fieldsFit_append ?places rfl))
  case head =>
    simp only [appendHeadLayout, fieldsFit_cons_iff, fieldsFit_nil, and_true]
    omega
  case places =>
    have hfit := fieldsFit_replicate (placesOf_lt hchars)
    rwa [placesOf_length] at hfit

theorem decodeAppendPayload_appendPayload {i : Item} {p : Pos} {t : Text} (hrsn : i.rsn < 2 ^ 24)
    (hpos : posSendable p = true) (hne : t ≠ []) (hlen : t.length ≤ 20) (hchars : ∀ c ∈ t, charOk c = true) :
    decodeAppendPayload (appendPayload i p t) = some { i with body := .append p t } := by
  have hplaces : (placesOf t ++ [0]).take 20 = placesOf t := List.take_left' (placesOf_length t)
  rw [decodeAppendPayload, unpack_appendPayload hrsn hpos hchars]
  simp only [List.cons_append, List.nil_append, hplaces, posOf_of_sendable hpos, textOfPlaces_placesOf hne hlen hchars,
    BitVec.ofNat_toNat, BitVec.setWidth_eq]

theorem append_readsBack {i : Item} {p : Pos} {t : Text} (hs : i.sendable = true) (hbody : i.body = .append p t) :
    ∃ v w, encodeItem i = [v, w] ∧ decodeAppend (cellValue (cellOf v)) (cellValue (cellOf w)) = some i := by
  obtain ⟨rsn, ep, ti, _⟩ := i
  subst hbody
  simp only [Item.sendable, Bool.and_eq_true, decide_eq_true_eq, List.all_eq_true] at hs
  obtain ⟨hrsn, ⟨⟨hpos, hone⟩, hlen⟩, hchars⟩ := hs
  have hne : t ≠ [] := List.ne_nil_of_length_pos hone
  refine ⟨_, _, rfl, ?_⟩
  rw [decodeAppend_halves (appendPayload_lt _ p t)]
  exact decodeAppendPayload_appendPayload hrsn hpos hne hlen hchars

/-- An item of one position, a BREAK or a CUT, is read back from the cell of its kind. -/
theorem decodeAt_fields {kind : Nat} (body : Pos → ItemBody) {rsn : Nat} (ep : Epoch) (ti : LinkTime) {p : Pos}
    (hkind : kind < 16) (hrsn : rsn < 2 ^ 24) (hpos : posSendable p = true) :
    decodeAt kind body (cellValue (cellOf (pack breakLayout [kind, rsn, ep.toNat, ti.toNat, p.rln, p.col, 0]))) =
      some { rsn := rsn, epoch := ep, time := ti, body := body p } := by
  obtain ⟨hrln, hcol⟩ := (posSendable_iff _).1 hpos
  have hfit : fieldsFit breakLayout [kind, rsn, ep.toNat, ti.toNat, p.rln, p.col, 0] = true := by
    simp only [breakLayout, fieldsFit_cons_iff, fieldsFit_nil, and_true]
    omega
  rw [decodeAt, unpack_cellOf rfl hfit]
  simp only [if_true, posOf_of_sendable hpos, Option.map_some, BitVec.ofNat_toNat, BitVec.setWidth_eq]

theorem break_readsBack {i : Item} {p : Pos} (hs : i.sendable = true) (hbody : i.body = .brk p) :
    ∃ v, encodeItem i = [v] ∧ decodeBreak (cellValue (cellOf v)) = some i := by
  obtain ⟨rsn, ep, ti, _⟩ := i
  subst hbody
  obtain ⟨hrsn, hpos⟩ := Bool.and_eq_true_iff.1 hs
  exact ⟨_, rfl, decodeAt_fields .brk ep ti (by decide) (of_decide_eq_true hrsn) hpos⟩

theorem cut_readsBack {i : Item} {p : Pos} (hs : i.sendable = true) (hbody : i.body = .cut p) :
    ∃ v, encodeItem i = [v] ∧ decodeCut (cellValue (cellOf v)) = some i := by
  obtain ⟨rsn, ep, ti, _⟩ := i
  subst hbody
  obtain ⟨hrsn, hpos⟩ := Bool.and_eq_true_iff.1 hs
  exact ⟨_, rfl, decodeAt_fields .cut ep ti (by decide) (of_decide_eq_true hrsn) hpos⟩

theorem pass_readsBack {i : Item} {n : Station} {p : Pos} (hs : i.sendable = true) (hbody : i.body = .pass n p) :
    ∃ v, encodeItem i = [v] ∧ decodePass (cellValue (cellOf v)) = some i := by
  obtain ⟨rsn, ep, ti, _⟩ := i
  subst hbody
  simp only [Item.sendable, Bool.and_eq_true, decide_eq_true_eq] at hs
  obtain ⟨hrsn, hpos⟩ := hs
  obtain ⟨hrln, hcol⟩ := (posSendable_iff _).1 hpos
  have hfit : fieldsFit passLayout [5, rsn, ep.toNat, ti.toNat, p.rln, p.col, n.val, 0] = true := by
    simp only [passLayout, fieldsFit_cons_iff, fieldsFit_nil, and_true]
    omega
  refine ⟨_, rfl, ?_⟩
  rw [decodePass, unpack_cellOf rfl hfit]
  simp only [if_true, posOf_of_sendable hpos, Option.map_some, stationOf_val, BitVec.ofNat_toNat, BitVec.setWidth_eq]

/-! ## GAPs and MARKs read back (R204) -/

theorem decodeGap_encodeGap {g : GapItem} (hfirst : 1 ≤ g.first) (hle : g.first ≤ g.last) (hlast : g.last < 2 ^ 24) :
    decodeGap (cellValue (cellOf (encodeGap g))) = some g := by
  have hfit : fieldsFit gapLayout [6, g.first, g.last, g.epoch.toNat, 0] = true := by
    simp only [gapLayout, fieldsFit_cons_iff, fieldsFit_nil, and_true]
    omega
  rw [decodeGap, encodeGap, unpack_cellOf rfl hfit]
  dsimp only
  rw [if_pos ⟨rfl, Nat.one_le_iff_ne_zero.1 hfirst, hle⟩, BitVec.ofNat_toNat, BitVec.setWidth_eq]

theorem decodeMark_encodeMark {m : MarkItem} (hle : m.first ≤ m.last) (hlast : m.last < 2 ^ 24) :
    decodeMark (cellValue (cellOf (encodeMark m))) = some m := by
  have hfit : fieldsFit markLayout [7, m.origin.val, m.id.toNat, m.first, m.last, 0] = true := by
    simp only [markLayout, fieldsFit_cons_iff, fieldsFit_nil, and_true]
    omega
  rw [decodeMark, encodeMark, unpack_cellOf rfl hfit]
  dsimp only
  rw [if_pos ⟨rfl, hle⟩, stationOf_val, BitVec.ofNat_toNat, BitVec.setWidth_eq]

/-- Settles O10: the fields of every kind of cell fit its layout, and the codes they carry are read back. -/
theorem cellsReadBack : Obligations.CellsReadBack := by
  refine ⟨⟨?header, ?beacon⟩, ?append, ?brk, ?cut, ?pass, ?gap, ?mark⟩
  case header => exact fun _ hs => headerIn_encodeHeader hs
  case beacon => exact fun _ hs => beaconIn_encode hs
  case append => exact fun _ _ _ hs hbody => append_readsBack hs hbody
  case brk => exact fun _ _ hs hbody => break_readsBack hs hbody
  case cut => exact fun _ _ hs hbody => cut_readsBack hs hbody
  case pass => exact fun _ _ _ hs hbody => pass_readsBack hs hbody
  case gap => exact fun _ hfirst hle hlast => decodeGap_encodeGap hfirst hle hlast
  case mark => exact fun _ hle hlast => decodeMark_encodeMark hle hlast

end Sys2Proof.Machine
end

section
/-! SUPPORT. What a step does with the queue of commands (section 95). Settles O1. -/

namespace Sys2Proof.Machine

/-! ## The two branches of a step -/

/-- With a command in front, the rest of the queue is in place before the command runs. -/
theorem step_of_pending_cons {c : Instr} {rest : List Instr} {s : State} (h : s.pending = c :: rest) :
    step s = exec c { s with pending := rest } := by
  rw [step, h]

theorem step_of_pending_nil {s : State} (h : s.pending = []) : step s = .next s := by
  rw [step, h]

/-- Settles O1: the queue written into the state is the one the step finds; what it replaces does not matter. -/
theorem stepRunsTheFrontCommand : Obligations.StepRunsTheFrontCommand := by
  refine ⟨?front, ?idle⟩
  case front => exact fun c rest s => step_of_pending_cons (s := { s with pending := c :: rest }) rfl
  case idle => exact fun _ hempty => step_of_pending_nil hempty

end Sys2Proof.Machine
end
